-- ==== Sys2Proof/Word.lean ====
section
/-! DEFINITION. The two word types of the block: a byte (a symbol, a buffer byte) and a 32-bit
register word. -/

namespace Sys2Proof

/-- A symbol, and one byte of IBUF or OBUF (R6: SYM_W = 8). -/
abbrev Byte := BitVec 8

/-- The value of a register of space REG (R21: each register is 32 bits wide). -/
abbrev Word := BitVec 32

end Sys2Proof
end

