-- ==== Sys2Proof/Config.lean ====
section
/-! DEFINITION. The constants the spec fixes for the block (R6) and the free values: the contents
and results the spec calls `unspecified`. A free value is an opaque constant, so nothing can be
proved about what it is. IBUF_CAP and OBUF_CAP, the two open parameters, are fields of State. -/

namespace Sys2Proof.Config

/-- ALPHA_MAX (R6): the number of symbols. -/
def alphaMax : Nat := 256

/-- NODE_CAP (R6, R27): the number of entries of the node arena. -/
def nodeCap : Nat := 511

/-- LEAF_MAX (R6): the largest leaf count of a tree the block holds. -/
def leafMax : Nat := 256

/-- DEPTH_MAX (R6, R31): the longest code in bits. -/
def depthMax : Nat := 255

/-- TOK_BRANCH (R6, R93): the marker of an Internal node. -/
def tokBranch : Byte := 0x42#8

/-- TOK_LEAF (R6, R93): the marker of a Leaf; the symbol byte follows. -/
def tokLeaf : Byte := 0x4C#8

/-- DELIM (R6, R95): the byte after the tree. -/
def delim : Byte := 0x7C#8

/-- TOK_EMPTY (R6, R91): the whole artifact of the empty input. -/
def tokEmpty : Byte := 0x45#8

/-- BITLEN_BYTES (R6, R96): the number of bytes of the bit-length field. -/
def bitlenBytes : Nat := 8

/-- What a byte of IBUF that nothing has written holds: `freeIn era address`, unspecified (R43, R64,
93 U1 and U7). The era changes when the contents become unspecified again (reset). Log 4. -/
opaque freeIn : Nat → Nat → Byte

/-- What a byte of OBUF that nothing has written holds: `freeOut era address`, unspecified (R43,
R326, R371, 93 U1, U3, U4). Log 4, 6. -/
opaque freeOut : Nat → Nat → Byte

/-- The `n`-th value drawn for a buffer read the spec leaves unspecified: while BUSY (R367, 93 U5) or
at an offset outside the buffer (R66, 93 U6). Log 5. -/
opaque freeByte : Nat → Byte

/-- The `n`-th value drawn for a malformed register read (R69, 93 U8). Log 7. -/
opaque freeWord : Nat → Word

/-- The `n`-th value drawn for ROOT when HMERGE finds its queue empty: `extract_min` has no result
there (R172: "Q non-empty"). A 9-bit arena index (R28). Log 13. -/
opaque freeRoot : Nat → BitVec 9

end Sys2Proof.Config
end

