-- ==== Sys2Proof/Syntax.lean ====
section
/-! DEFINITION. The names the spec gives to codes and encodings, and the two syntaxes of the block:
`Instr`, one constructor per row of spec/opcode_table.json, and the host's side (its moves, R366, and
the program notation of R120). -/

namespace Sys2Proof

/-- The values of STATUS[1:0] (R24). -/
inductive St where
  | idle
  | busy
  | done
  | error
  deriving DecidableEq, Repr

/-- The error classes of ERR[2:0] (R320). -/
inductive ErrClass where
  | none  -- no error
  | io  -- IOError
  | corruptTree  -- CorruptTreeError
  | format  -- FormatError
  | decode  -- DecodeError
  | usage  -- UsageError
  deriving DecidableEq, Repr

/-- The sub-causes of ERR_INFO[3:0] (R321). -/
inductive ErrInfo where
  | none  -- no error
  | badCmd  -- BAD_CMD: CMD[1:0] is 00 or 11
  | inRange  -- IN_RANGE: IN_LEN > IBUF_CAP
  | outRange  -- OUT_RANGE: a byte would be written at or beyond OBUF_CAP
  | truncated  -- TRUNCATED: the artifact ends where a marker or a symbol byte is due
  | badMarker  -- BAD_MARKER: a marker is neither 0x42 nor 0x4C
  | tooLarge  -- TOO_LARGE: the tree has more than NODE_CAP nodes
  | noDelim  -- NO_DELIM: the artifact ends right after the tree
  | badDelim  -- BAD_DELIM: the byte after the tree is not 0x7C
  | noLength  -- NO_LENGTH: fewer than 8 bytes follow the delimiter
  | lenMismatch  -- LEN_MISMATCH: bytes after the length field differ from ceil8(BITLEN)
  | trailing  -- TRAILING: first byte 0x45 and IN_LEN not 1
  | codeCollision  -- CODE_COLLISION: two leaves with the same path
  | nullChild  -- NULL_CHILD: a bit is consumed while CUR is a LEAF
  | incomplete  -- INCOMPLETE: BITLEN bits consumed and CUR not ROOT
  deriving DecidableEq, Repr

/-- The sequencer phases of R135; the codes that never occur have no constructor. -/
inductive Phase where
  | idle  -- R138
  | check  -- R134
  | empty  -- R272
  | fcount  -- R161
  | hinit  -- R173
  | hmerge  -- R175
  | hwrap  -- R177
  | cgen  -- R203
  | size  -- R274
  | tser  -- R221
  | hdr  -- R275
  | encode  -- R276
  | flush  -- R253
  | dhead  -- R291
  | tdes  -- R228
  | delim  -- R293
  | rdlen  -- R294
  | chklen  -- R295
  | walk  -- R296
  | wend  -- R298
  | finish  -- R137
  deriving DecidableEq, Repr

/-- One constructor per row of spec/opcode_table.json. The operand of a CTRL or CMD row is the ignored
part v[31:2] of the value written. -/
inductive Instr where
  /-- CTRL.NONE (R22): a write of CTRL with v[1:0] = 00. -/
  | ctrlNone (ignored : BitVec 30)
  /-- START (R131). -/
  | start (ignored : BitVec 30)
  /-- CLEAR (R133). -/
  | clear (ignored : BitVec 30)
  /-- CTRL.RESERVED (R112): a write of CTRL with v[1:0] = 11. -/
  | ctrlReserved (ignored : BitVec 30)
  /-- CMD.RESERVED0 (R23): a write of CMD with v[1:0] = 00. -/
  | cmdReserved0 (ignored : BitVec 30)
  /-- COMPRESS (R23, R140): a write of CMD with v[1:0] = 01. -/
  | compress (ignored : BitVec 30)
  /-- DECOMPRESS (R23, R141): a write of CMD with v[1:0] = 10. -/
  | decompress (ignored : BitVec 30)
  /-- CMD.RESERVED3 (R23): a write of CMD with v[1:0] = 11. -/
  | cmdReserved3 (ignored : BitVec 30)
  /-- P_IDLE (R138). -/
  | pIdle
  /-- P_CHECK (R134). -/
  | pCheck
  /-- P_EMPTY (R272). -/
  | pEmpty
  /-- P_FCOUNT (R161). -/
  | pFcount
  /-- P_HINIT (R173). -/
  | pHinit
  /-- P_HMERGE (R175). -/
  | pHmerge
  /-- P_HWRAP (R177). -/
  | pHwrap
  /-- P_CGEN (R203). -/
  | pCgen
  /-- P_SIZE (R274). -/
  | pSize
  /-- P_TSER (R221). -/
  | pTser
  /-- P_HDR (R275). -/
  | pHdr
  /-- P_ENCODE (R276). -/
  | pEncode
  /-- P_FLUSH (R253). -/
  | pFlush
  /-- P_DHEAD (R291). -/
  | pDhead
  /-- P_TDES (R228). -/
  | pTdes
  /-- P_DELIM (R293). -/
  | pDelim
  /-- P_RDLEN (R294). -/
  | pRdlen
  /-- P_CHKLEN (R295). -/
  | pChklen
  /-- P_WALK (R296). -/
  | pWalk
  /-- P_WEND (R298). -/
  | pWend
  /-- P_FINISH (R137). -/
  | pFinish
  /-- TOK_BRANCH (R93): the marker of an Internal node. -/
  | tokBranch
  /-- TOK_LEAF (R93): the marker of a Leaf and its symbol byte. -/
  | tokLeaf (sym : Byte)
  /-- DELIM (R95). -/
  | delim
  /-- TOK_EMPTY (R91). -/
  | tokEmpty
  /-- BITLEN (R96): the 8 bytes after the delimiter. -/
  | bitlen (n : BitVec 64)
  /-- PAYLOAD_BYTE (R97): eight payload bits, the first in bit 7. -/
  | payloadByte (bits : Byte)
  /-- ERR.NONE (R320). -/
  | errNone
  /-- ERR.IOError (R320). -/
  | errIo
  /-- ERR.CorruptTreeError (R320). -/
  | errCorruptTree
  /-- ERR.FormatError (R320). -/
  | errFormat
  /-- ERR.DecodeError (R320). -/
  | errDecode
  /-- ERR.UsageError (R320). -/
  | errUsage
  /-- ERR_INFO.NONE (R321). -/
  | infoNone
  /-- ERR_INFO.BAD_CMD (R321). -/
  | infoBadCmd
  /-- ERR_INFO.IN_RANGE (R321). -/
  | infoInRange
  /-- ERR_INFO.OUT_RANGE (R321). -/
  | infoOutRange
  /-- ERR_INFO.TRUNCATED (R321). -/
  | infoTruncated
  /-- ERR_INFO.BAD_MARKER (R321). -/
  | infoBadMarker
  /-- ERR_INFO.TOO_LARGE (R321). -/
  | infoTooLarge
  /-- ERR_INFO.NO_DELIM (R321). -/
  | infoNoDelim
  /-- ERR_INFO.BAD_DELIM (R321). -/
  | infoBadDelim
  /-- ERR_INFO.NO_LENGTH (R321). -/
  | infoNoLength
  /-- ERR_INFO.LEN_MISMATCH (R321). -/
  | infoLenMismatch
  /-- ERR_INFO.TRAILING (R321). -/
  | infoTrailing
  /-- ERR_INFO.CODE_COLLISION (R321). -/
  | infoCodeCollision
  /-- ERR_INFO.NULL_CHILD (R321). -/
  | infoNullChild
  /-- ERR_INFO.INCOMPLETE (R321). -/
  | infoIncomplete
  /-- ST.IDLE (R24). -/
  | stIdle
  /-- ST.BUSY (R24). -/
  | stBusy
  /-- ST.DONE (R24). -/
  | stDone
  /-- ST.ERROR (R24). -/
  | stError
  deriving DecidableEq, Repr

/-- The two buffers (R60). -/
inductive Space where
  | ibuf
  | obuf
  deriving DecidableEq, Repr

/-- The host's moves (R366): everything the host can do to the block. `width` is the width of a
register access in bytes; only width 4 at a multiple of 4 is inside the interface (R69). -/
inductive Move where
  | regRead (width off : Nat)
  | regWrite (width off : Nat) (v : Word)
  | bufRead (sp : Space) (off : Nat)
  | bufWrite (sp : Space) (off : Nat) (b : Byte)
  | reset
  deriving DecidableEq, Repr

/-- The line notation for host programs (R120). -/
inductive Line where
  | load (bytes : List Byte)
  | cmdCompress
  | cmdDecompress
  | start
  | wait
  | status
  | read
  | clear
  | copy
  deriving DecidableEq, Repr

/-- One turn of the run: who acts next (R9, 93 U12), the model's own. `poll`, `fetchOut` and
`loadBack` are the data-dependent parts of the lines `wait`, `read` and `copy` of R120. -/
inductive Turn where
  /-- The core takes a step: the phase named by PHASE (R138). -/
  | core
  /-- The core takes a finer step: one item of the artifact (R138). -/
  | item
  /-- The host makes a move (R366). -/
  | host (m : Move)
  /-- The host starts a line of its program (R120). -/
  | line (l : Line)
  /-- The host tests the STATUS value it read last and polls again while it is BUSY (`wait`). -/
  | poll
  /-- The host reads the OUT_LEN bytes it was told of (`read`), then loads them again when `back` (`copy`). -/
  | fetchOut (back : Bool)
  /-- The host loads the last `n` bytes it read (`copy`). -/
  | loadBack (n : Nat)
  deriving DecidableEq, Repr

/-- A tree (R8): a Leaf with its symbol or an Internal node with its two children. -/
inductive Tree where
  | leaf (sym : Byte)
  | node (left right : Tree)
  deriving DecidableEq, Repr

end Sys2Proof
end

