-- ==== Sys2Proof/Decode.lean ====
section
/-! DEFINITION. The encodings (30_encoding.md and opcode_table.json): the codes of the control values,
the decoder of everything the block reads as an instruction, the encoder, and the numbering of the
opcode table. A raw encoding says where it stands, because the spec reads a byte by its position in
the grammar and a control value by its register (R100, R22, R23). -/

namespace Sys2Proof

/-- The PHASE codes (R135). -/
def Phase.code : Phase → BitVec 5
  | .idle => 0#5
  | .check => 1#5
  | .empty => 2#5
  | .fcount => 3#5
  | .hinit => 4#5
  | .hmerge => 5#5
  | .hwrap => 6#5
  | .cgen => 7#5
  | .size => 8#5
  | .tser => 9#5
  | .hdr => 10#5
  | .encode => 11#5
  | .flush => 12#5
  | .dhead => 16#5
  | .tdes => 17#5
  | .delim => 18#5
  | .rdlen => 19#5
  | .chklen => 20#5
  | .walk => 21#5
  | .wend => 22#5
  | .finish => 31#5

/-- Every phase, in the order of its code (R135). -/
def Phase.all : List Phase :=
  [.idle, .check, .empty, .fcount, .hinit, .hmerge, .hwrap, .cgen, .size, .tser, .hdr, .encode,
   .flush, .dhead, .tdes, .delim, .rdlen, .chklen, .walk, .wend, .finish]

/-- The phase of a PHASE code; none for the codes that never occur (R135, R112). -/
def Phase.ofCode (c : BitVec 5) : Option Phase := Phase.all.find? (fun p => p.code == c)

/-- The STATUS[1:0] codes (R24). -/
def St.code : St → BitVec 2
  | .idle => 0#2
  | .busy => 1#2
  | .done => 2#2
  | .error => 3#2

/-- Every status, in the order of its code (R24). -/
def St.all : List St := [.idle, .busy, .done, .error]

/-- The status of a STATUS[1:0] code (R24). -/
def St.ofCode (c : BitVec 2) : Option St := St.all.find? (fun x => x.code == c)

/-- The ERR codes (R320). -/
def ErrClass.code : ErrClass → BitVec 3
  | .none => 0#3
  | .io => 1#3
  | .corruptTree => 2#3
  | .format => 3#3
  | .decode => 4#3
  | .usage => 5#3

/-- Every error class, in the order of its code (R320). -/
def ErrClass.all : List ErrClass := [.none, .io, .corruptTree, .format, .decode, .usage]

/-- The class of an ERR code; none for 6 and 7, which never occur (R320). -/
def ErrClass.ofCode (c : BitVec 3) : Option ErrClass := ErrClass.all.find? (fun x => x.code == c)

/-- The ERR_INFO codes (R321). -/
def ErrInfo.code : ErrInfo → BitVec 4
  | .none => 0#4
  | .badCmd => 1#4
  | .inRange => 2#4
  | .outRange => 3#4
  | .truncated => 4#4
  | .badMarker => 5#4
  | .tooLarge => 6#4
  | .noDelim => 7#4
  | .badDelim => 8#4
  | .noLength => 9#4
  | .lenMismatch => 10#4
  | .trailing => 11#4
  | .codeCollision => 12#4
  | .nullChild => 13#4
  | .incomplete => 14#4

/-- Every sub-cause, in the order of its code (R321). -/
def ErrInfo.all : List ErrInfo :=
  [.none, .badCmd, .inRange, .outRange, .truncated, .badMarker, .tooLarge, .noDelim,
   .badDelim, .noLength, .lenMismatch, .trailing, .codeCollision, .nullChild, .incomplete]

/-- The sub-cause of an ERR_INFO code; none for 15, which never occurs (R321). -/
def ErrInfo.ofCode (c : BitVec 4) : Option ErrInfo := ErrInfo.all.find? (fun x => x.code == c)

/-- The class each sub-cause belongs to (R321). -/
def ErrInfo.cls : ErrInfo → ErrClass
  | .none => .none
  | .badCmd => .usage
  | .inRange => .io
  | .outRange => .io
  | .truncated => .corruptTree
  | .badMarker => .corruptTree
  | .tooLarge => .corruptTree
  | .noDelim => .format
  | .badDelim => .format
  | .noLength => .format
  | .lenMismatch => .format
  | .trailing => .format
  | .codeCollision => .format
  | .nullChild => .decode
  | .incomplete => .decode

/-- The instruction that runs a phase (R130, R135). -/
def phaseInstr : Phase → Instr
  | .idle => .pIdle
  | .check => .pCheck
  | .empty => .pEmpty
  | .fcount => .pFcount
  | .hinit => .pHinit
  | .hmerge => .pHmerge
  | .hwrap => .pHwrap
  | .cgen => .pCgen
  | .size => .pSize
  | .tser => .pTser
  | .hdr => .pHdr
  | .encode => .pEncode
  | .flush => .pFlush
  | .dhead => .pDhead
  | .tdes => .pTdes
  | .delim => .pDelim
  | .rdlen => .pRdlen
  | .chklen => .pChklen
  | .walk => .pWalk
  | .wend => .pWend
  | .finish => .pFinish

/-- The instruction of a status code read from STATUS (R24). -/
def stInstr : St → Instr
  | .idle => .stIdle
  | .busy => .stBusy
  | .done => .stDone
  | .error => .stError

/-- The instruction of an error class read from ERR (R320). -/
def errInstr : ErrClass → Instr
  | .none => .errNone
  | .io => .errIo
  | .corruptTree => .errCorruptTree
  | .format => .errFormat
  | .decode => .errDecode
  | .usage => .errUsage

/-- The instruction of a sub-cause read from ERR_INFO (R321). -/
def infoInstr : ErrInfo → Instr
  | .none => .infoNone
  | .badCmd => .infoBadCmd
  | .inRange => .infoInRange
  | .outRange => .infoOutRange
  | .truncated => .infoTruncated
  | .badMarker => .infoBadMarker
  | .tooLarge => .infoTooLarge
  | .noDelim => .infoNoDelim
  | .badDelim => .infoBadDelim
  | .noLength => .infoNoLength
  | .lenMismatch => .infoLenMismatch
  | .trailing => .infoTrailing
  | .codeCollision => .infoCodeCollision
  | .nullChild => .infoNullChild
  | .incomplete => .infoIncomplete

/-- The register offsets of R21. -/
def offCtrl : Nat := 0x00
def offCmd : Nat := 0x04
def offStatus : Nat := 0x08
def offErr : Nat := 0x0C
def offErrInfo : Nat := 0x10
def offInLen : Nat := 0x14
def offOutLen : Nat := 0x18

/-- The 8 bytes of the BITLEN field, most significant first (R96). -/
def be64 (n : BitVec 64) : List Byte :=
  [n.extractLsb' 56 8, n.extractLsb' 48 8, n.extractLsb' 40 8, n.extractLsb' 32 8,
   n.extractLsb' 24 8, n.extractLsb' 16 8, n.extractLsb' 8 8, n.extractLsb' 0 8]

/-- The 64-bit value of a field given most significant byte first (R96, the loop of R294). -/
def beValue (bytes : List Byte) : BitVec 64 :=
  bytes.foldl (fun acc b => (acc <<< 8) ||| b.setWidth 64) 0#64

/-- The places of an artifact where a byte is read (R92): its first byte, a marker of the tree, the
delimiter, the length field, the payload. -/
inductive Pos where
  | head
  | marker
  | delim
  | length
  | payload
  deriving DecidableEq, Repr

/-- An encoding with the place it is read from: a value written to a register, a value a register
returned, a PHASE code, or the bytes at a place of the artifact. -/
inductive Raw where
  | regWrite (off : Nat) (v : Word)
  | regRead (off : Nat) (v : Word)
  | phase (c : BitVec 5)
  | artifact (pos : Pos) (bytes : List Byte)
  deriving DecidableEq, Repr

/-- Why an encoding is no instruction. -/
inductive Reject where
  /-- A register whose write is no table row. -/
  | notActionRegister (off : Nat)
  /-- A register whose value is no code of the table. -/
  | notCodeRegister (off : Nat)
  /-- Bits above the field of a code register, which read 0 (R21). -/
  | upperBits (v : Word)
  /-- ERR code 6 or 7 (R320). -/
  | reservedErr (v : Word)
  /-- ERR_INFO code 15 (R321). -/
  | reservedErrInfo (v : Word)
  /-- A PHASE code that never occurs (R135). -/
  | reservedPhase (c : BitVec 5)
  /-- The artifact ends where this item is due. -/
  | truncated
  /-- A first byte that is not TOK_EMPTY (R291). -/
  | notEmptyToken (b : Byte)
  /-- A marker that is neither 0x42 nor 0x4C (R110). -/
  | badMarker (b : Byte)
  /-- A delimiter that is not 0x7C (R111). -/
  | badDelim (b : Byte)
  deriving DecidableEq, Repr

/-- A write of CTRL, decoded from v[1:0] (R22). -/
def decodeCtrl (v : Word) : Instr :=
  let hi := v.extractLsb' 2 30
  let lo := v.extractLsb' 0 2
  if lo = 0#2 then .ctrlNone hi
  else if lo = 1#2 then .start hi
  else if lo = 2#2 then .clear hi
  else .ctrlReserved hi

/-- A write of CMD, decoded from v[1:0] (R23). -/
def decodeCmd (v : Word) : Instr :=
  let hi := v.extractLsb' 2 30
  let lo := v.extractLsb' 0 2
  if lo = 0#2 then .cmdReserved0 hi
  else if lo = 1#2 then .compress hi
  else if lo = 2#2 then .decompress hi
  else .cmdReserved3 hi

/-- The code STATUS returned (R24). -/
def decodeStatus (v : Word) : Except Reject Instr :=
  if v.extractLsb' 2 30 = 0#30 then
    match St.ofCode (v.extractLsb' 0 2) with
    | some x => .ok (stInstr x)
    | none => .error (.upperBits v)
  else .error (.upperBits v)

/-- The code ERR returned (R320). -/
def decodeErr (v : Word) : Except Reject Instr :=
  if v.extractLsb' 3 29 = 0#29 then
    match ErrClass.ofCode (v.extractLsb' 0 3) with
    | some x => .ok (errInstr x)
    | none => .error (.reservedErr v)
  else .error (.upperBits v)

/-- The code ERR_INFO returned (R321). -/
def decodeErrInfo (v : Word) : Except Reject Instr :=
  if v.extractLsb' 4 28 = 0#28 then
    match ErrInfo.ofCode (v.extractLsb' 0 4) with
    | some x => .ok (infoInstr x)
    | none => .error (.reservedErrInfo v)
  else .error (.upperBits v)

/-- The item at a place of the artifact and the bytes after it (R92 to R97). -/
def decodeArtifact (pos : Pos) (bytes : List Byte) : Except Reject (Instr × List Byte) :=
  match pos, bytes with
  | _, [] => .error .truncated
  | .head, b :: rest =>
    if b = Config.tokEmpty then .ok (.tokEmpty, rest) else .error (.notEmptyToken b)
  | .marker, b :: rest =>
    if b = Config.tokBranch then .ok (.tokBranch, rest)
    else if b = Config.tokLeaf then
      match rest with
      | [] => .error .truncated
      | sym :: rest' => .ok (.tokLeaf sym, rest')
    else .error (.badMarker b)
  | .delim, b :: rest =>
    if b = Config.delim then .ok (.delim, rest) else .error (.badDelim b)
  | .length, b :: rest =>
    if (b :: rest).length < Config.bitlenBytes then .error .truncated
    else .ok (.bitlen (beValue ((b :: rest).take Config.bitlenBytes)),
              (b :: rest).drop Config.bitlenBytes)
  | .payload, b :: rest => .ok (.payloadByte b, rest)

/-- The decoder, total on any encoding: the instruction and the bytes after it, or the reason there is
none. -/
def decode : Raw → Except Reject (Instr × List Byte)
  | .regWrite off v =>
    if off = offCtrl then .ok (decodeCtrl v, [])
    else if off = offCmd then .ok (decodeCmd v, [])
    else .error (.notActionRegister off)
  | .regRead off v =>
    if off = offStatus then (decodeStatus v).map (fun i => (i, []))
    else if off = offErr then (decodeErr v).map (fun i => (i, []))
    else if off = offErrInfo then (decodeErrInfo v).map (fun i => (i, []))
    else .error (.notCodeRegister off)
  | .phase c =>
    match Phase.ofCode c with
    | some p => .ok (phaseInstr p, [])
    | none => .error (.reservedPhase c)
  | .artifact pos bytes => decodeArtifact pos bytes

/-- The width of an encoding in bits, as the opcode table gives it. -/
def Raw.bits : Raw → Nat
  | .regWrite _ _ => 32
  | .regRead off _ => if off = offStatus then 2 else if off = offErr then 3 else 4
  | .phase _ => 5
  | .artifact _ bytes => 8 * bytes.length

/-- The value whose bits 31:2 are `hi` and whose bits 1:0 are `lo` (R22, R23). -/
def joinAction (hi : BitVec 30) (lo : BitVec 2) : Word := hi ++ lo

/-- The encoder, written from the same tables: the encoding of an instruction. -/
def encode : Instr → Raw
  | .ctrlNone hi => .regWrite offCtrl (joinAction hi 0#2)
  | .start hi => .regWrite offCtrl (joinAction hi 1#2)
  | .clear hi => .regWrite offCtrl (joinAction hi 2#2)
  | .ctrlReserved hi => .regWrite offCtrl (joinAction hi 3#2)
  | .cmdReserved0 hi => .regWrite offCmd (joinAction hi 0#2)
  | .compress hi => .regWrite offCmd (joinAction hi 1#2)
  | .decompress hi => .regWrite offCmd (joinAction hi 2#2)
  | .cmdReserved3 hi => .regWrite offCmd (joinAction hi 3#2)
  | .pIdle => .phase 0#5
  | .pCheck => .phase 1#5
  | .pEmpty => .phase 2#5
  | .pFcount => .phase 3#5
  | .pHinit => .phase 4#5
  | .pHmerge => .phase 5#5
  | .pHwrap => .phase 6#5
  | .pCgen => .phase 7#5
  | .pSize => .phase 8#5
  | .pTser => .phase 9#5
  | .pHdr => .phase 10#5
  | .pEncode => .phase 11#5
  | .pFlush => .phase 12#5
  | .pDhead => .phase 16#5
  | .pTdes => .phase 17#5
  | .pDelim => .phase 18#5
  | .pRdlen => .phase 19#5
  | .pChklen => .phase 20#5
  | .pWalk => .phase 21#5
  | .pWend => .phase 22#5
  | .pFinish => .phase 31#5
  | .tokBranch => .artifact .marker [0x42#8]
  | .tokLeaf sym => .artifact .marker [0x4C#8, sym]
  | .delim => .artifact .delim [0x7C#8]
  | .tokEmpty => .artifact .head [0x45#8]
  | .bitlen n => .artifact .length (be64 n)
  | .payloadByte b => .artifact .payload [b]
  | .errNone => .regRead offErr 0#32
  | .errIo => .regRead offErr 1#32
  | .errCorruptTree => .regRead offErr 2#32
  | .errFormat => .regRead offErr 3#32
  | .errDecode => .regRead offErr 4#32
  | .errUsage => .regRead offErr 5#32
  | .infoNone => .regRead offErrInfo 0#32
  | .infoBadCmd => .regRead offErrInfo 1#32
  | .infoInRange => .regRead offErrInfo 2#32
  | .infoOutRange => .regRead offErrInfo 3#32
  | .infoTruncated => .regRead offErrInfo 4#32
  | .infoBadMarker => .regRead offErrInfo 5#32
  | .infoTooLarge => .regRead offErrInfo 6#32
  | .infoNoDelim => .regRead offErrInfo 7#32
  | .infoBadDelim => .regRead offErrInfo 8#32
  | .infoNoLength => .regRead offErrInfo 9#32
  | .infoLenMismatch => .regRead offErrInfo 10#32
  | .infoTrailing => .regRead offErrInfo 11#32
  | .infoCodeCollision => .regRead offErrInfo 12#32
  | .infoNullChild => .regRead offErrInfo 13#32
  | .infoIncomplete => .regRead offErrInfo 14#32
  | .stIdle => .regRead offStatus 0#32
  | .stBusy => .regRead offStatus 1#32
  | .stDone => .regRead offStatus 2#32
  | .stError => .regRead offStatus 3#32

/-- The 8-bit numbers of the table: a PHASE code where there is one (R135), else the ERR_INFO codes 13
and 14, else a token or special byte of the artifact (R101), else a payload byte. The table gives one
number to rows of several registers and places, which the number alone cannot tell apart (log 10). -/
def tableByte (w : Nat) : Raw :=
  let b := BitVec.ofNat 8 w
  if w < 32 ∧ (Phase.ofCode (BitVec.ofNat 5 w)).isSome then .phase (BitVec.ofNat 5 w)
  else if w = 13 ∨ w = 14 then .regRead offErrInfo (BitVec.ofNat 32 w)
  else if b = Config.tokEmpty then .artifact .head [b]
  else if b = Config.tokBranch then .artifact .marker [b]
  else if b = Config.tokLeaf then .artifact .marker [b, 0#8]
  else if b = Config.delim then .artifact .delim [b]
  else .artifact .payload [b]

/-- The encoding that the opcode table's number `w` of `nbits` bits stands for. The table numbers the
two bytes of a LEAF token and the eight of BITLEN with the first byte most significant (its mask
0xFF00 fixes the marker 0x4C, R93). A 32-bit number is read as a write of CTRL; the CMD rows have the
same numbers (log 10). -/
def tableRaw (nbits w : Nat) : Option Raw :=
  if nbits = 2 then some (.regRead offStatus (BitVec.ofNat 32 w))
  else if nbits = 3 then some (.regRead offErr (BitVec.ofNat 32 w))
  else if nbits = 4 then some (.regRead offErrInfo (BitVec.ofNat 32 w))
  else if nbits = 5 then some (.phase (BitVec.ofNat 5 w))
  else if nbits = 8 then some (tableByte w)
  else if nbits = 16 then some (.artifact .marker [BitVec.ofNat 8 (w / 256), BitVec.ofNat 8 w])
  else if nbits = 32 then some (.regWrite offCtrl (BitVec.ofNat 32 w))
  else if nbits = 64 then some (.artifact .length (be64 (BitVec.ofNat 64 w)))
  else none

/-- The instruction the decoder reads from the opcode table's number `w` of `nbits` bits. -/
def decodeTableWord (nbits w : Nat) : Option Instr :=
  match tableRaw nbits w with
  | none => none
  | some r =>
    match decode r with
    | .ok (i, _) => some i
    | .error _ => none

end Sys2Proof
end

