-- ==== Sys2Proof/Machine/State.lean ====
section
/-! DEFINITION. The state of the block as plain data (10_state.md), the model's own fields beside it,
the reasons a step can stop, and the state after reset (R43, R360). -/

namespace Sys2Proof.Machine

/-- The contents of a buffer: the bytes written, at strictly rising addresses. An address with no
entry holds an unspecified value (log 4). -/
abbrev Memory := List Host.Cell

/-- An array of the working state: the entries written, at strictly rising indexes. An entry that
nothing has written holds the array's reset value (log 3). -/
abbrev Table (α : Type) := List (Nat × α)

/-- An index of the node arena (R27: 9 bits). -/
abbrev Index := BitVec 9

/-- N_KIND (R27). -/
inductive Kind where
  | leaf
  | internal
  deriving DecidableEq, Repr

/-- One entry of the node arena (R27). The fields a kind does not use keep what they held (93 U10). -/
structure Node where
  /-- N_KIND. -/
  kind : Kind
  /-- N_SYM. -/
  sym : Byte
  /-- N_LEFT. -/
  left : Index
  /-- N_RIGHT. -/
  right : Index
  /-- N_W, 32 bits; a natural, as R179 allows (log 11). -/
  w : Nat
  deriving DecidableEq, Repr

/-- One entry of STACK while TDES runs (R38, R231): an INTERNAL node whose subtrees are not yet both
complete, waiting for its left or for its right subtree. -/
inductive Frame where
  | left (i : Index)
  | right (i l : Index)
  deriving DecidableEq, Repr

/-- The state of the block. -/
structure State where
  -- the host register file (R21)
  /-- CMD[1:0] (R23). -/
  cmd : BitVec 2
  /-- STATUS.ST (R24). -/
  st : St
  /-- ERR[2:0] (R25). -/
  err : ErrClass
  /-- ERR_INFO[3:0] (R25). -/
  errInfo : ErrInfo
  /-- IN_LEN (R26). -/
  inLen : Word
  /-- OUT_LEN (R26). -/
  outLen : Word
  -- the buffers (R39)
  /-- IBUF. -/
  ibuf : Memory
  /-- OBUF. -/
  obuf : Memory
  -- the working state (R27 to R38)
  /-- FREQ (R29), 32 bits each; naturals, as R163 allows (log 11). -/
  freq : Table Nat
  /-- K (R29). -/
  k : BitVec 9
  /-- The node arena N_KIND, N_SYM, N_LEFT, N_RIGHT, N_W (R27); `ArenaFits` says its entries are 0 to 510. -/
  arena : Table Node
  /-- NN (R28). -/
  nn : BitVec 10
  /-- ROOT (R28). -/
  root : Index
  /-- HEAP[0 .. HN-1] (R30); HN is its length. -/
  heap : List Index
  /-- CB_LEN (R31). -/
  cbLen : Table (BitVec 8)
  /-- CB_BITS (R31); `CodesFit` says that each has at most 255 bits. -/
  cbBits : Table (List Bool)
  /-- (INV_BITS[j], INV_SYM[j]) for j below INV_N (R32); INV_LEN[j] is the length of the bit string,
  INV_N the length of the list. -/
  inv : List (List Bool × Byte)
  /-- PHASE (R33). -/
  phase : Phase
  /-- IPOS (R34). -/
  ipos : Word
  /-- OPOS (R34). -/
  opos : Word
  /-- ACC (R35). -/
  acc : Byte
  /-- ACC_N (R35). -/
  accN : BitVec 3
  /-- BITLEN (R36). -/
  bitlen : BitVec 64
  /-- BITPOS (R36). -/
  bitpos : BitVec 64
  /-- CUR (R37). -/
  cur : Index
  /-- STACK[0 .. SP-1], top first (R38); SP is its length. -/
  stack : List Frame
  -- the open parameters (R6), which no step changes (log 2)
  /-- IBUF_CAP. -/
  ibufCap : Word
  /-- OBUF_CAP. -/
  obufCap : Word
  -- the model's own fields
  /-- The turns still to come (log 1). -/
  script : List Turn
  /-- The running phase was begun in fine steps (log 9). -/
  fine : Bool
  /-- The values the host's reads returned, newest first (log 15). -/
  hostLog : List Word
  /-- The last status code observed equals the code it was compared with (log 15). -/
  hostMatch : Bool
  /-- How many free values have been drawn (log 5). -/
  draws : Nat
  /-- Which unspecified contents the unwritten bytes of IBUF hold (log 4). -/
  ibufEra : Nat
  /-- Which unspecified contents the unwritten bytes of OBUF hold (log 4). -/
  obufEra : Nat
  deriving DecidableEq, Repr

/-- Why the machine stops. Every error of the spec is a result, not a fault (R334), so there is one. -/
inductive Fault where
  /-- Raised by P_CGEN and P_TSER when the arena entries reachable from ROOT form no finite tree of depth
  at most DEPTH_MAX. R44 and R229 say this never occurs; the recursion of R203 and R221 has no end there.
  Safe: the model stops where the spec gives no result (log 12). -/
  | noTree
  deriving DecidableEq, Repr

/-- Why an instruction has no meaning. -/
inductive Refusal where
  /-- Raised by `exec` for an instruction that is not modelled yet, by its mnemonic. Safe. No arm
  raises it now. -/
  | notModelled (mnemonic : String)
  deriving DecidableEq, Repr

/-- An entry of the arena that nothing has written: DESIGN CHOICE, the spec leaves it unspecified
(R43, log 3). -/
def Node.blank : Node := { kind := .leaf, sym := 0#8, left := 0#9, right := 0#9, w := 0 }

/-- The machine with the capacities given (R6: OPEN, arguments of the model) right after reset (R43,
R360): registers 0, ST = IDLE, PHASE = P_IDLE, buffers unspecified. The working state is unspecified; its
values here are DESIGN CHOICE (log 3). -/
def State.resetWith (ibufCap obufCap : Word) : State where
  cmd := 0#2
  st := .idle
  err := .none
  errInfo := .none
  inLen := 0#32
  outLen := 0#32
  ibuf := []
  obuf := []
  freq := []
  k := 0#9
  arena := []
  nn := 0#10
  root := 0#9
  heap := []
  cbLen := []
  cbBits := []
  inv := []
  phase := .idle
  ipos := 0#32
  opos := 0#32
  acc := 0#8
  accN := 0#3
  bitlen := 0#64
  bitpos := 0#64
  cur := 0#9
  stack := []
  ibufCap := ibufCap
  obufCap := obufCap
  script := []
  fine := false
  hostLog := []
  hostMatch := false
  draws := 0
  ibufEra := 0
  obufEra := 0

/-- The machine right after reset, at one choice of the two open capacities: 4096 bytes each, DESIGN
CHOICE (log 2). Statements about reset hold for every choice. -/
def State.reset : State := State.resetWith 4096#32 4096#32

end Sys2Proof.Machine
end

