-- ==== Sys2Proof/Machine/Ops.lean ====
section
/-! DEFINITION. The named operations over the state that the meanings share: arrays and buffers, the
flow of a phase that may raise, the output cursor (R65), taking an error (R325) and leaving it (R133,
R327). -/

namespace Sys2Proof.Machine

/-! ### Arrays and buffers -/

/-- The entry at index `k`, if one was written. -/
def Table.find? {α : Type} : Table α → Nat → Option α
  | [], _ => none
  | (j, x) :: rest, k => if k = j then some x else Table.find? rest k

/-- Writes entry `k`, keeping the indexes strictly rising. -/
def Table.put {α : Type} : Table α → Nat → α → Table α
  | [], k, v => [(k, v)]
  | (j, x) :: rest, k, v =>
    if k < j then (k, v) :: (j, x) :: rest
    else if k = j then (k, v) :: rest
    else (j, x) :: Table.put rest k v

/-- The entry at index `k`, or the array's reset value where nothing was written. -/
def Table.get {α : Type} (d : α) (t : Table α) (k : Nat) : α := (t.find? k).getD d

/-- The indexes rise strictly and lie above `lo`. -/
def Table.risingFrom {α : Type} : Nat → Table α → Bool
  | _, [] => true
  | lo, (j, _) :: rest => decide (lo ≤ j) && Table.risingFrom (j + 1) rest

/-- The canonical form of a buffer: strictly rising addresses. An unlisted address holds no written
byte, so no entry can equal what one reads as (log 4). -/
def Memory.wf (m : Memory) : Bool := Table.risingFrom 0 m

/-- Forgets the bytes at and above `n` (93 U4). -/
def Memory.below (m : Memory) (n : Nat) : Memory := m.filter (fun c => decide (c.1 < n))

/-- What IBUF holds at `a`: the byte last written, else an unspecified value (R64, R66, R368 item 2). -/
def readIn (s : State) (a : Nat) : Byte := (Table.find? s.ibuf a).getD (Config.freeIn s.ibufEra a)

/-- What OBUF holds at `a`: the byte last written, else an unspecified value (R66, R326, R371). -/
def readOut (s : State) (a : Nat) : Byte := (Table.find? s.obuf a).getD (Config.freeOut s.obufEra a)

/-- FREQ[i] (R29). -/
def freqAt (s : State) (i : Nat) : Nat := Table.get 0 s.freq i

/-- Entry `i` of the node arena (R27). -/
def nodeAt (arena : Table Node) (i : Nat) : Node := Table.get Node.blank arena i

/-- The index of the entry created next (R28): NN, as a 9-bit arena index. -/
def nextIndex (s : State) : Index := s.nn.setWidth 9

/-- CB_LEN[i] (R31). -/
def cbLenAt (s : State) (i : Nat) : BitVec 8 := Table.get 0#8 s.cbLen i

/-- CB_BITS[i] (R31). -/
def cbBitsAt (s : State) (i : Nat) : List Bool := Table.get [] s.cbBits i

/-- `ceil8(n)` (R7): the number of bytes that hold `n` bits. -/
def ceil8 (n : Nat) : Nat := n / 8 + (if n % 8 = 0 then 0 else 1)

/-! ### Taking an error, and leaving it -/

/-- `raise E(info)` (R325): ERR and ERR_INFO take the codes, OUT_LEN is 0, ST is ERROR, PHASE is P_IDLE;
the class is the one the sub-cause belongs to (R321). Every byte of OBUF becomes unspecified (R326):
nothing stays listed and the era changes (log 6). The rest of the working state is dead (R45) and keeps
what it held (93 U2, log 19). -/
def raise (info : ErrInfo) (s : State) : State :=
  { s with
    err := info.cls
    errInfo := info
    outLen := 0#32
    st := .error
    phase := .idle
    obuf := []
    obufEra := s.obufEra + 1
    fine := false }

/-- CLEAR (R133), the one way out of ERROR besides reset (R327): acts in DONE and ERROR only. -/
def acknowledge (s : State) : State :=
  if s.st = .done ∨ s.st = .error then
    { s with st := .idle, err := .none, errInfo := .none, outLen := 0#32 }
  else s

/-! ### The flow of a phase -/

/-- Where the pseudocode of a phase stands: it goes on, or it has raised `info` and does not run
further (R325). -/
inductive Flow where
  | go (s : State)
  | abort (info : ErrInfo) (s : State)
  deriving DecidableEq, Repr

/-- One piece of pseudocode after another; nothing runs after a raise (R325). -/
def Flow.bind (f : Flow) (k : State → Flow) : Flow :=
  match f with
  | .go s => k s
  | .abort info s => .abort info s

/-- A loop over a list of values known before it starts. -/
def Flow.each {α : Type} (body : α → State → Flow) : List α → State → Flow
  | [], s => .go s
  | x :: rest, s => (body x s).bind (Flow.each body rest)

/-- The end of a phase: the next state, with the error taken if it raised (R138, R325). -/
def Flow.outcome (f : Flow) : Host.Outcome State Fault Refusal :=
  match f with
  | .go s => .next s
  | .abort info s => .next (raise info s)

/-! ### The output cursor -/

/-- `emit(v)` (R65): writes OBUF at OPOS and moves OPOS, or raises IOError(OUT_RANGE) at OBUF_CAP. -/
def emit (v : Byte) (s : State) : Flow :=
  if s.obufCap ≤ s.opos then .abort .outRange s
  else .go { s with obuf := Table.put s.obuf s.opos.toNat v, opos := s.opos + 1#32 }

/-- Emits a byte string in order. -/
def emitAll (bytes : List Byte) (s : State) : Flow := Flow.each emit bytes s

end Sys2Proof.Machine
end

