-- ==== Sys2Proof/Machine/Flags.lean ====
section
/-! DEFINITION. The status fields ST, ERR, ERR_INFO (R40, the block's only flags), the value each
register returns (R21, R62), and what a host read of a status code gives. -/

namespace Sys2Proof.Machine

/-- The value of the register at offset `off` (R21, R62): bits outside the fields read 0, CTRL reads 0,
and offsets that are no register read 0. -/
def regValue (s : State) (off : Nat) : Word :=
  if off = offCmd then s.cmd.setWidth 32
  else if off = offStatus then s.st.code.setWidth 32
  else if off = offErr then s.err.code.setWidth 32
  else if off = offErrInfo then s.errInfo.code.setWidth 32
  else if off = offInLen then s.inLen
  else if off = offOutLen then s.outLen
  else 0#32

/-- What the host gets back from a read (R366); the state is otherwise unchanged (R62). -/
def give (v : Word) (s : State) : State := { s with hostLog := v :: s.hostLog }

/-- The host reads STATUS and compares ST with a code (R24, R71). -/
def observeStatus (c : St) (s : State) : State :=
  { give (regValue s offStatus) s with hostMatch := s.st == c }

/-- The host reads ERR and compares the class with a code (R320). -/
def observeErr (c : ErrClass) (s : State) : State :=
  { give (regValue s offErr) s with hostMatch := s.err == c }

/-- The host reads ERR_INFO and compares the sub-cause with a code (R321). -/
def observeErrInfo (c : ErrInfo) (s : State) : State :=
  { give (regValue s offErrInfo) s with hostMatch := s.errInfo == c }

/-- A write of CMD with v[1:0] = `v` (R63): stored unless BUSY (R367); legality is not checked (R23). -/
def selectCommand (v : BitVec 2) (s : State) : State :=
  if s.st = .busy then s else { s with cmd := v }

/-- START (R131): acts in IDLE and DONE only; ignored in BUSY and ERROR (R132). The command begins in
phase steps: the model's own `fine` is cleared (log 9). -/
def beginCommand (s : State) : State :=
  if s.st = .idle ∨ s.st = .done then
    { s with err := .none, errInfo := .none, outLen := 0#32, st := .busy, phase := .check,
             fine := false }
  else s

end Sys2Proof.Machine
end

