-- ==== Sys2Proof/Machine/Codes.lean ====
section
/-! DEFINITION. The meanings of the status codes ERR.x (R320), ERR_INFO.x (R321) and ST.x (R24): the
host's read of the register that looks for this code. The read has no side effect on the block (R62);
the host gets the register's value back, and the model's own hostMatch says whether the field holds
this code (log 8, log 15). What writes the codes is START, CLEAR, FINISH and `raise` (R40). -/

namespace Sys2Proof.Machine

/-- ERR.NONE (R320). -/
def execErrNone (s : State) : Host.Outcome State Fault Refusal := .next (observeErr .none s)

/-- ERR.IOError (R320). -/
def execErrIo (s : State) : Host.Outcome State Fault Refusal := .next (observeErr .io s)

/-- ERR.CorruptTreeError (R320). -/
def execErrCorruptTree (s : State) : Host.Outcome State Fault Refusal := .next (observeErr .corruptTree s)

/-- ERR.FormatError (R320). -/
def execErrFormat (s : State) : Host.Outcome State Fault Refusal := .next (observeErr .format s)

/-- ERR.DecodeError (R320). -/
def execErrDecode (s : State) : Host.Outcome State Fault Refusal := .next (observeErr .decode s)

/-- ERR.UsageError (R320). -/
def execErrUsage (s : State) : Host.Outcome State Fault Refusal := .next (observeErr .usage s)

/-- ERR_INFO.NONE (R321). -/
def execInfoNone (s : State) : Host.Outcome State Fault Refusal :=
  .next (observeErrInfo .none s)

/-- ERR_INFO.BAD_CMD (R321). -/
def execInfoBadCmd (s : State) : Host.Outcome State Fault Refusal :=
  .next (observeErrInfo .badCmd s)

/-- ERR_INFO.IN_RANGE (R321). -/
def execInfoInRange (s : State) : Host.Outcome State Fault Refusal :=
  .next (observeErrInfo .inRange s)

/-- ERR_INFO.OUT_RANGE (R321). -/
def execInfoOutRange (s : State) : Host.Outcome State Fault Refusal :=
  .next (observeErrInfo .outRange s)

/-- ERR_INFO.TRUNCATED (R321). -/
def execInfoTruncated (s : State) : Host.Outcome State Fault Refusal :=
  .next (observeErrInfo .truncated s)

/-- ERR_INFO.BAD_MARKER (R321). -/
def execInfoBadMarker (s : State) : Host.Outcome State Fault Refusal :=
  .next (observeErrInfo .badMarker s)

/-- ERR_INFO.TOO_LARGE (R321). -/
def execInfoTooLarge (s : State) : Host.Outcome State Fault Refusal :=
  .next (observeErrInfo .tooLarge s)

/-- ERR_INFO.NO_DELIM (R321). -/
def execInfoNoDelim (s : State) : Host.Outcome State Fault Refusal :=
  .next (observeErrInfo .noDelim s)

/-- ERR_INFO.BAD_DELIM (R321). -/
def execInfoBadDelim (s : State) : Host.Outcome State Fault Refusal :=
  .next (observeErrInfo .badDelim s)

/-- ERR_INFO.NO_LENGTH (R321). -/
def execInfoNoLength (s : State) : Host.Outcome State Fault Refusal :=
  .next (observeErrInfo .noLength s)

/-- ERR_INFO.LEN_MISMATCH (R321). -/
def execInfoLenMismatch (s : State) : Host.Outcome State Fault Refusal :=
  .next (observeErrInfo .lenMismatch s)

/-- ERR_INFO.TRAILING (R321). -/
def execInfoTrailing (s : State) : Host.Outcome State Fault Refusal :=
  .next (observeErrInfo .trailing s)

/-- ERR_INFO.CODE_COLLISION (R321). -/
def execInfoCodeCollision (s : State) : Host.Outcome State Fault Refusal :=
  .next (observeErrInfo .codeCollision s)

/-- ERR_INFO.NULL_CHILD (R321). -/
def execInfoNullChild (s : State) : Host.Outcome State Fault Refusal :=
  .next (observeErrInfo .nullChild s)

/-- ERR_INFO.INCOMPLETE (R321). -/
def execInfoIncomplete (s : State) : Host.Outcome State Fault Refusal :=
  .next (observeErrInfo .incomplete s)

/-- ST.IDLE (R24). -/
def execStIdle (s : State) : Host.Outcome State Fault Refusal := .next (observeStatus .idle s)

/-- ST.BUSY (R24). -/
def execStBusy (s : State) : Host.Outcome State Fault Refusal := .next (observeStatus .busy s)

/-- ST.DONE (R24). -/
def execStDone (s : State) : Host.Outcome State Fault Refusal := .next (observeStatus .done s)

/-- ST.ERROR (R24). -/
def execStError (s : State) : Host.Outcome State Fault Refusal := .next (observeStatus .error s)

end Sys2Proof.Machine
end

