-- ==== Sys2Proof/Machine/Command.lean ====
section
/-! DEFINITION. The meanings of the host actions (R22, R131 to R133), of the CMD values (R23, R63) and of
the phases common to both commands: P_IDLE (R138), P_CHECK (R134), P_FINISH (R137). -/

namespace Sys2Proof.Machine

/-- CTRL.NONE (R22): no state changes. -/
def execCtrlNone (_ignored : BitVec 30) (s : State) : Host.Outcome State Fault Refusal := .next s

/-- START (R131, R132). -/
def execStart (_ignored : BitVec 30) (s : State) : Host.Outcome State Fault Refusal :=
  .next (beginCommand s)

/-- CLEAR (R133). -/
def execClear (_ignored : BitVec 30) (s : State) : Host.Outcome State Fault Refusal :=
  .next (acknowledge s)

/-- CTRL.RESERVED (R112): no state changes. -/
def execCtrlReserved (_ignored : BitVec 30) (s : State) : Host.Outcome State Fault Refusal := .next s

/-- CMD.RESERVED0 (R23, R63): the value can be stored; START refuses it in CHECK. -/
def execCmdReserved0 (_ignored : BitVec 30) (s : State) : Host.Outcome State Fault Refusal :=
  .next (selectCommand 0#2 s)

/-- COMPRESS (R23, R63, R140): selects the command that the next START runs. -/
def execCompress (_ignored : BitVec 30) (s : State) : Host.Outcome State Fault Refusal :=
  .next (selectCommand 1#2 s)

/-- DECOMPRESS (R23, R63, R141): selects the command that the next START runs. -/
def execDecompress (_ignored : BitVec 30) (s : State) : Host.Outcome State Fault Refusal :=
  .next (selectCommand 2#2 s)

/-- CMD.RESERVED3 (R23, R63): the value can be stored; START refuses it in CHECK. -/
def execCmdReserved3 (_ignored : BitVec 30) (s : State) : Host.Outcome State Fault Refusal :=
  .next (selectCommand 3#2 s)

/-- P_IDLE (R138): the core has no step. -/
def execPIdle (s : State) : Host.Outcome State Fault Refusal := .next s

/-- P_CHECK (R134): the command check comes first, then the capacity check. -/
def execPCheck (s : State) : Host.Outcome State Fault Refusal :=
  if s.cmd ≠ 1#2 ∧ s.cmd ≠ 2#2 then .next (raise .badCmd s)
  else if s.ibufCap < s.inLen then .next (raise .inRange s)
  else
    .next { s with
      ipos := 0#32
      opos := 0#32
      phase :=
        if s.cmd = 1#2 then (if s.inLen = 0#32 then .empty else .fcount) else .dhead }

/-- P_FINISH (R137): OUT_LEN, ST and PHASE in one step. The bytes of OBUF at and above OUT_LEN become
unspecified (R371, 93 U4): they are no longer listed and the era changes (log 6). -/
def execPFinish (s : State) : Host.Outcome State Fault Refusal :=
  .next { s with
    outLen := s.opos
    st := .done
    phase := .idle
    obuf := Memory.below s.obuf s.opos.toNat
    obufEra := s.obufEra + 1 }

end Sys2Proof.Machine
end

