-- ==== Sys2Proof/Machine/Operands.lean ====
section
/-! DEFINITION. The ways the core forms an address (R67): the input cursor and the payload bit. (The
output cursor is `emit` of Ops.lean.) -/

namespace Sys2Proof.Machine

/-- The bytes IBUF[from .. from + n - 1], in order. -/
def readRange (s : State) (start : Nat) : Nat → List Byte
  | 0 => []
  | n + 1 => readIn s start :: readRange s (start + 1) n

/-- The input of the running command: IBUF[0 .. IN_LEN - 1] (R64), as the input cursor reads it from
0 to IN_LEN (R161, R228, R276). -/
def input (s : State) : List Byte := readRange s 0 s.inLen.toNat

/-- The bytes of IBUF from `start` up to IN_LEN: what an item of the artifact is decoded from. -/
def inputFrom (s : State) (start : Nat) : List Byte := readRange s start (s.inLen.toNat - start)

/-- Bit `pos & 7` of a byte counted from its most significant bit (R67, R68, R255). -/
def bitOf (b : Byte) (pos : Nat) : Bool := b.getLsbD (7 - pos % 8)

/-- The byte that holds payload bit BITPOS: IBUF[IPOS + (BITPOS >> 3)] (R67, R255). -/
def payloadByteAt (s : State) : Byte := readIn s (s.ipos.toNat + s.bitpos.toNat / 8)

/-- The code of symbol `i` as ENCODE reads it: the first CB_LEN[i] bits of CB_BITS[i] (R31, R276). -/
def codeOf (s : State) (i : Nat) : List Bool := (cbBitsAt s i).take (cbLenAt s i).toNat

end Sys2Proof.Machine
end

