-- ==== Sys2Proof/Machine/Decoder.lean ====
section
/-! DEFINITION. The meanings of the DECOMPRESS phases (P_DHEAD, P_TDES, P_DELIM, P_RDLEN, P_CHKLEN,
P_WALK, P_WEND) and, in finer steps, of the items of the artifact they read (TOK_BRANCH, TOK_LEAF,
DELIM, TOK_EMPTY, BITLEN, PAYLOAD_BYTE): the meaning of an item is the round of its phase's loop that
reads it (R138, log 9). -/

namespace Sys2Proof.Machine

/-! ### The head of the artifact -/

/-- DHEAD on the first byte 0x45 (R291). -/
def headEmpty (s : State) : Flow :=
  if s.inLen ≠ 1#32 then .abort .trailing s else .go { s with phase := .finish }

/-- P_DHEAD (R291). -/
def execPDhead (s : State) : Host.Outcome State Fault Refusal :=
  if s.inLen = 0#32 then .next (raise .truncated s)
  else if readIn s 0 = Config.tokEmpty then (headEmpty s).outcome
  else .next { s with phase := .tdes }

/-- TOK_EMPTY (R91, R291): the item DHEAD reads. -/
def execTokEmpty (s : State) : Host.Outcome State Fault Refusal := (headEmpty s).outcome

/-! ### The tree -/

/-- The start of TDES: `NN <- 0; parse(0)` (R228). -/
def parseStart (s : State) : State := { s with nn := 0#10, stack := [], ipos := 0#32 }

/-- A subtree with root `j` is complete: it becomes the left child its parent waits for, or the right
child, which completes the parent; with nothing waiting it is the whole tree and `j` is ROOT (R228). -/
def completeSubtree : Index → List Frame → State → State
  | j, [], s => { s with root := j, stack := [] }
  | j, .left i :: rest, s => { s with stack := .right i j :: rest }
  | j, .right i l :: rest, s =>
    completeSubtree i rest
      { s with
        arena := Table.put s.arena i.toNat { nodeAt s.arena i.toNat with left := l, right := j } }

/-- `parse` on a BRANCH token (R228): the capacity check (R229), a new INTERNAL entry, its left subtree
comes next. -/
def parseBranch (s : State) : Flow :=
  if Config.nodeCap ≤ s.nn.toNat then .abort .tooLarge s
  else
    .go { s with
      arena := Table.put s.arena (nextIndex s).toNat
        { nodeAt s.arena (nextIndex s).toNat with kind := .internal }
      nn := s.nn + 1#10
      stack := .left (nextIndex s) :: s.stack
      ipos := s.ipos + 1#32 }

/-- `parse` on a LEAF token (R228): the capacity check (R229), a new LEAF entry, a complete subtree. -/
def parseLeaf (sym : Byte) (s : State) : Flow :=
  if Config.nodeCap ≤ s.nn.toNat then .abort .tooLarge s
  else
    .go (completeSubtree (nextIndex s) s.stack { s with
      arena := Table.put s.arena (nextIndex s).toNat
        { nodeAt s.arena (nextIndex s).toNat with kind := .leaf, sym := sym }
      nn := s.nn + 1#10
      ipos := s.ipos + 2#32 })

/-- `parse` (R228) on the bytes from IPOS to IN_LEN, with the checks on one token in the order of R228:
input exhausted, marker value, arena capacity, symbol byte present. -/
def parseLoop : List Byte → State → Flow
  | [], s => .abort .truncated s
  | m :: rest, s =>
    if m = Config.tokLeaf then
      match rest with
      | [] => .abort (if Config.nodeCap ≤ s.nn.toNat then .tooLarge else .truncated) s
      | sym :: rest' =>
        (parseLeaf sym s).bind (fun s1 => if s1.stack = [] then .go s1 else parseLoop rest' s1)
    else if m = Config.tokBranch then (parseBranch s).bind (parseLoop rest)
    else .abort .badMarker s

/-- P_TDES (R228). -/
def execPTdes (s : State) : Host.Outcome State Fault Refusal :=
  ((parseLoop (input s) (parseStart s)).bind
    (fun s1 => .go { s1 with phase := .delim, fine := false })).outcome

/-- The state in which TDES reads its next item: the first one starts the parse (log 9). -/
def parseEnter (s : State) : State := if s.fine then s else { parseStart s with fine := true }

/-- TOK_BRANCH (R93, R94, R228): the item TDES reads. -/
def execTokBranch (s : State) : Host.Outcome State Fault Refusal :=
  (parseBranch (parseEnter s)).outcome

/-- TOK_LEAF (R93, R94, R228): the item TDES reads; the tree ends with the Leaf that leaves no subtree
pending. -/
def execTokLeaf (sym : Byte) (s : State) : Host.Outcome State Fault Refusal :=
  ((parseLeaf sym (parseEnter s)).bind (fun s1 =>
    .go (if s1.stack = [] then { s1 with phase := .delim, fine := false } else s1))).outcome

/-! ### The delimiter and the length -/

/-- DELIM past its checks (R293). -/
def passDelim (s : State) : State := { s with ipos := s.ipos + 1#32, phase := .rdlen }

/-- P_DELIM (R293). -/
def execPDelim (s : State) : Host.Outcome State Fault Refusal :=
  if s.inLen ≤ s.ipos then .next (raise .noDelim s)
  else if readIn s s.ipos.toNat ≠ Config.delim then .next (raise .badDelim s)
  else .next (passDelim s)

/-- DELIM (R95, R293): the item P_DELIM reads. -/
def execDelim (s : State) : Host.Outcome State Fault Refusal := .next (passDelim s)

/-- RDLEN past its check (R294). -/
def takeLength (n : BitVec 64) (s : State) : State :=
  { s with bitlen := n, ipos := s.ipos + BitVec.ofNat 32 Config.bitlenBytes, phase := .chklen }

/-- P_RDLEN (R294). -/
def execPRdlen (s : State) : Host.Outcome State Fault Refusal :=
  if (s.inLen - s.ipos).toNat < Config.bitlenBytes then .next (raise .noLength s)
  else .next (takeLength (beValue (readRange s s.ipos.toNat Config.bitlenBytes)) s)

/-- BITLEN (R96, R294): the item P_RDLEN reads. -/
def execBitlen (n : BitVec 64) (s : State) : Host.Outcome State Fault Refusal :=
  .next (takeLength n s)

/-- P_CHKLEN (R295). -/
def execPChklen (s : State) : Host.Outcome State Fault Refusal :=
  if (s.inLen - s.ipos).toNat ≠ ceil8 s.bitlen.toNat then .next (raise .lenMismatch s)
  else .next { s with bitpos := 0#64, phase := .walk }

/-! ### The payload -/

/-- One round of the loop of WALK on the payload bit `b` (R296): `get_bit` moves BITPOS (R255), the walker
moves to a child, and on a Leaf emits its symbol and returns to ROOT. -/
def walkBit (b : Bool) (s : State) : Flow :=
  let s1 := { s with bitpos := s.bitpos + 1#64 }
  match (nodeAt s.arena s.cur.toNat).kind with
  | .leaf => .abort .nullChild s1
  | .internal =>
    let next := if b then (nodeAt s.arena s.cur.toNat).right else (nodeAt s.arena s.cur.toNat).left
    let s2 := { s1 with cur := next }
    match (nodeAt s.arena next.toNat).kind with
    | .leaf => (emit (nodeAt s.arena next.toNat).sym s2).bind (fun s3 => .go { s3 with cur := s3.root })
    | .internal => .go s2

/-- `n` rounds of the loop of WALK, the bits drawn from IBUF by `get_bit` (R255, R296). -/
def walkLoop : Nat → State → Flow
  | 0, s => .go s
  | n + 1, s => (walkBit (bitOf (payloadByteAt s) s.bitpos.toNat) s).bind (walkLoop n)

/-- P_WALK (R296): while BITPOS < BITLEN. -/
def execPWalk (s : State) : Host.Outcome State Fault Refusal :=
  ((walkLoop (s.bitlen.toNat - s.bitpos.toNat) { s with cur := s.root }).bind
    (fun s1 => .go { s1 with phase := .wend, fine := false })).outcome

/-- `n` rounds of the loop of WALK on bits of one payload byte. -/
def walkByte (b : Byte) : Nat → State → Flow
  | 0, s => .go s
  | n + 1, s => (walkBit (bitOf b s.bitpos.toNat) s).bind (walkByte b n)

/-- The state in which WALK reads its next item: the first one starts the walk at ROOT (log 9). -/
def walkEnter (s : State) : State := if s.fine then s else { s with cur := s.root, fine := true }

/-- PAYLOAD_BYTE (R97, R296): the item WALK reads; the bits of the byte from BITPOS on that are payload
bits are consumed, padding bits are not looked at (R114 item 1). -/
def execPayloadByte (b : Byte) (s : State) : Host.Outcome State Fault Refusal :=
  ((walkByte b (min (8 - s.bitpos.toNat % 8) (s.bitlen.toNat - s.bitpos.toNat)) (walkEnter s)).bind (fun s1 =>
    .go (if s1.bitlen ≤ s1.bitpos then { s1 with phase := .wend, fine := false } else s1))).outcome

/-- P_WEND (R298). -/
def execPWend (s : State) : Host.Outcome State Fault Refusal :=
  if s.cur ≠ s.root then .next (raise .incomplete s) else .next { s with phase := .finish }

end Sys2Proof.Machine
end

