-- ==== Sys2Proof/Machine/Heap.lean ====
section
/-! DEFINITION. The priority queue of the tree builder: its order (R171) and the binary heap that holds
it (R174). A heap is the list HEAP[0 .. HN-1]. -/

namespace Sys2Proof.Machine

/-- `less(x, y)` (R171): lower weight first, among equal weights the lower arena index. -/
def less (arena : Table Node) (x y : Index) : Bool :=
  decide ((nodeAt arena x.toNat).w < (nodeAt arena y.toNat).w)
    || (decide ((nodeAt arena x.toNat).w = (nodeAt arena y.toNat).w) && decide (x < y))

/-- HEAP[i] of a heap whose entry `i` is in use. -/
def heapAt (h : List Index) (i : Nat) : Index := h.getD i 0#9

/-- `swap HEAP[i], HEAP[j]` (R174). -/
def heapSwap (h : List Index) (i j : Nat) : List Index :=
  (h.set i (heapAt h j)).set j (heapAt h i)

/-- The loop of `insert` (R174): while the entry at `i` is less than its parent, they change places. The
first argument bounds the number of rounds; `i` rounds are always enough. -/
def siftUp (lt : Index → Index → Bool) : Nat → List Index → Nat → List Index
  | 0, h, _ => h
  | fuel + 1, h, i =>
    if i = 0 then h
    else if lt (heapAt h i) (heapAt h ((i - 1) / 2)) then
      siftUp lt fuel (heapSwap h i ((i - 1) / 2)) ((i - 1) / 2)
    else h

/-- The least of the entry at `i` and its children at 2i + 1 and 2i + 2 (R174). -/
def leastChild (lt : Index → Index → Bool) (h : List Index) (i : Nat) : Nat :=
  let l := 2 * i + 1
  let r := 2 * i + 2
  let j := if l < h.length && lt (heapAt h l) (heapAt h i) then l else i
  if r < h.length && lt (heapAt h r) (heapAt h j) then r else j

/-- The loop of `extract_min` (R174): while a child is less than the entry at `i`, the least of them
changes places with it. The first argument bounds the number of rounds; HN rounds are always enough. -/
def siftDown (lt : Index → Index → Bool) : Nat → List Index → Nat → List Index
  | 0, h, _ => h
  | fuel + 1, h, i =>
    if leastChild lt h i = i then h
    else siftDown lt fuel (heapSwap h i (leastChild lt h i)) (leastChild lt h i)

/-- `insert(n)` (R174). -/
def heapInsert (lt : Index → Index → Bool) (n : Index) (h : List Index) : List Index :=
  siftUp lt h.length (h ++ [n]) h.length

/-- `extract_min()` (R174): the extracted index and the heap that is left; none of an empty heap, for
which it has no result (R172). -/
def heapExtract (lt : Index → Index → Bool) : List Index → Option (Index × List Index)
  | [] => none
  | m :: rest =>
    match rest.getLast? with
    | none => some (m, [])
    | some x => some (m, siftDown lt rest.length (x :: rest.dropLast) 0)

end Sys2Proof.Machine
end

