-- ==== Sys2Proof/Machine/Packer.lean ====
section
/-! DEFINITION. The bit packer and the bit unpacker (45_bit_packer.md): the functions `pack` and
`unpack` and the packer's step `put_bit`. (The unpacker's step `get_bit` reads with `bitOf` and
`payloadByteAt` of Operands.lean.) -/

namespace Sys2Proof.Machine

/-- Byte `j` of `pack(c)` (R251): the sum over k of c'[8j + k] * 2^(7 - k), where c' is `c` followed by
zero bits. -/
def packByte (c : List Bool) (j : Nat) : Byte :=
  BitVec.ofNat 8 (((List.range 8).map
    (fun k => if c.getD (8 * j + k) false then 2 ^ (7 - k) else 0)).sum)

/-- `pack(c)` (R251). -/
def pack (c : List Bool) : List Byte := (List.range (ceil8 c.length)).map (packByte c)

/-- `unpack(B, n)` (R254). -/
def unpack (bytes : List Byte) (n : Nat) : List Bool :=
  (List.range n).map (fun i => bitOf (bytes.getD (i / 8) 0#8) i)

/-- `put_bit(b)` (R252). -/
def putBit (b : Bool) (s : State) : Flow :=
  let acc := s.acc ||| ((BitVec.ofBool b).setWidth 8 <<< (7 - s.accN.toNat))
  if s.accN = 7#3 then
    (emit acc { s with acc := acc }).bind (fun s1 => .go { s1 with acc := 0#8, accN := 0#3 })
  else .go { s with acc := acc, accN := s.accN + 1#3 }

end Sys2Proof.Machine
end

