-- ==== Sys2Proof/Machine/Tree.lean ====
section
/-! DEFINITION. Trees: the abstract tree of an arena entry (R8), its leaf list (R201), its code book
(R202), its serialization (R221). -/

namespace Sys2Proof.Machine

/-- `tree_of(i)` (R8) down to `fuel` levels: none where the entries reached form no tree of that many
levels. -/
def treeOf (arena : Table Node) : Nat → Nat → Option Tree
  | 0, _ => none
  | fuel + 1, i =>
    match (nodeAt arena i).kind with
    | .leaf => some (.leaf (nodeAt arena i).sym)
    | .internal =>
      match treeOf arena fuel (nodeAt arena i).left.toNat,
        treeOf arena fuel (nodeAt arena i).right.toNat with
      | some l, some r => some (.node l r)
      | _, _ => none

/-- `tree_of(ROOT)`: a tree of at most NODE_CAP nodes has depth at most DEPTH_MAX (R229), that is
DEPTH_MAX + 1 levels. -/
def rootTree (s : State) : Option Tree := treeOf s.arena (Config.depthMax + 1) s.root.toNat

/-- `leaves(t, p)` (R201): every Leaf with its path, left subtree before right subtree; a left step is
the bit 0 (false), a right step the bit 1 (true). -/
def leaves : Tree → List Bool → List (List Bool × Byte)
  | .leaf sym, p => [(p, sym)]
  | .node l r, p => leaves l (p ++ [false]) ++ leaves r (p ++ [true])

/-- The forward mapping (R202): the path of the first Leaf in left-first order that holds the symbol;
none for a symbol with no Leaf. -/
def codeFor (t : Tree) (sym : Byte) : Option (List Bool) :=
  ((leaves t []).find? (fun e => e.2 == sym)).map (fun e => e.1)

/-- `serialize(t)` (R221). -/
def serialize : Tree → List Byte
  | .leaf sym => [Config.tokLeaf, sym]
  | .node l r => Config.tokBranch :: (serialize l ++ serialize r)

/-- The number of leaves of a tree (R98, R222). -/
def leafCount : Tree → Nat
  | .leaf _ => 1
  | .node l r => leafCount l + leafCount r

/-- The number of nodes of a tree (R229). -/
def nodeCount : Tree → Nat
  | .leaf _ => 1
  | .node l r => nodeCount l + nodeCount r + 1

end Sys2Proof.Machine
end

