-- ==== Sys2Proof/Machine/Encoder.lean ====
section
/-! DEFINITION. The meanings of the COMPRESS phases, in the order a command runs them: P_EMPTY,
P_FCOUNT, P_HINIT, P_HMERGE, P_HWRAP, P_CGEN, P_SIZE, P_TSER, P_HDR, P_ENCODE, P_FLUSH. -/

namespace Sys2Proof.Machine

/-- P_EMPTY (R272). -/
def execPEmpty (s : State) : Host.Outcome State Fault Refusal :=
  ((emit Config.tokEmpty s).bind (fun s1 => .go { s1 with phase := .finish })).outcome

/-- One round of the loop of FCOUNT (R161). -/
def countByte (s : State) (b : Byte) : State :=
  { s with freq := Table.put s.freq b.toNat (freqAt s b.toNat + 1), ipos := s.ipos + 1#32 }

/-- The number of symbols with FREQ > 0 (R29, R161). -/
def alphabetSize (s : State) : Nat :=
  (List.range Config.alphaMax).countP (fun i => decide (0 < freqAt s i))

/-- P_FCOUNT (R161). -/
def execPFcount (s : State) : Host.Outcome State Fault Refusal :=
  let s1 := (input s).foldl countByte { s with freq := [], ipos := 0#32 }
  .next { s1 with k := BitVec.ofNat 9 (alphabetSize s1), phase := .hinit }

/-- One round of the loop of HINIT (R173): a symbol that occurs becomes a leaf, which is inserted. -/
def hinitSymbol (s : State) (i : Nat) : State :=
  if 0 < freqAt s i then
    let leaf : Node :=
      { nodeAt s.arena (nextIndex s).toNat with
        kind := .leaf, sym := BitVec.ofNat 8 i, w := freqAt s i }
    let arena := Table.put s.arena (nextIndex s).toNat leaf
    { s with
      arena := arena
      nn := s.nn + 1#10
      heap := heapInsert (less arena) (nextIndex s) s.heap }
  else s

/-- P_HINIT (R173). -/
def execPHinit (s : State) : Host.Outcome State Fault Refusal :=
  let s1 := (List.range Config.alphaMax).foldl hinitSymbol { s with nn := 0#10, heap := [] }
  .next { s1 with phase := if s1.k = 1#9 then .hwrap else .hmerge }

/-- One round of the loop of HMERGE (R175): the two least leave the queue, first the left child, then
the right, and their parent enters it. -/
def mergeOnce (s : State) : State :=
  match heapExtract (less s.arena) s.heap with
  | none => s
  | some (a, h1) =>
    match heapExtract (less s.arena) h1 with
    | none => s
    | some (b, h2) =>
      let parent : Node :=
        { nodeAt s.arena (nextIndex s).toNat with
          kind := .internal
          left := a
          right := b
          w := (nodeAt s.arena a.toNat).w + (nodeAt s.arena b.toNat).w }
      let arena := Table.put s.arena (nextIndex s).toNat parent
      { s with
        arena := arena
        nn := s.nn + 1#10
        heap := heapInsert (less arena) (nextIndex s) h2 }

/-- The loop of HMERGE (R175): while HN > 1. Each round takes one element from the queue, so HN rounds
are enough. -/
def mergeLoop : Nat → State → State
  | 0, s => s
  | n + 1, s => if 1 < s.heap.length then mergeLoop n (mergeOnce s) else s

/-- `ROOT <- extract_min()` (R175). Of an empty queue, which no command meets, the result is a free
value (R172, log 13). -/
def takeRoot (s : State) : State :=
  match heapExtract (less s.arena) s.heap with
  | some (m, h) => { s with root := m, heap := h }
  | none => { s with root := Config.freeRoot s.draws, draws := s.draws + 1 }

/-- P_HMERGE (R175). -/
def execPHmerge (s : State) : Host.Outcome State Fault Refusal :=
  .next { takeRoot (mergeLoop s.heap.length s) with phase := .cgen }

/-- P_HWRAP (R177). -/
def execPHwrap (s : State) : Host.Outcome State Fault Refusal :=
  let copy : Node :=
    { nodeAt s.arena 1 with kind := .leaf, sym := (nodeAt s.arena 0).sym, w := 0 }
  let a1 := Table.put s.arena 1 copy
  let wrapper : Node :=
    { nodeAt a1 2 with
      kind := .internal
      left := 0#9
      right := 1#9
      w := (nodeAt a1 0).w + (nodeAt a1 1).w }
  .next { s with
    arena := Table.put a1 2 wrapper
    nn := 3#10
    heap := []
    root := 2#9
    phase := .cgen }

/-- What `visit` does at a Leaf (R203): the collision check (R205), the INV entry, and the forward code
if the symbol has none yet. -/
def recordLeaf (e : List Bool × Byte) (s : State) : Flow :=
  if s.inv.any (fun x => x.1 == e.1) then .abort .codeCollision s
  else
    let s1 := { s with inv := s.inv ++ [e] }
    if cbLenAt s1 e.2.toNat = 0#8 then
      .go { s1 with
        cbLen := Table.put s1.cbLen e.2.toNat (BitVec.ofNat 8 e.1.length)
        cbBits := Table.put s1.cbBits e.2.toNat e.1 }
    else .go s1

/-- P_CGEN (R203): visits the leaves of the tree at ROOT depth first, left first (R201). -/
def execPCgen (s : State) : Host.Outcome State Fault Refusal :=
  match rootTree s with
  | none => .fault .noTree
  | some t =>
    ((Flow.each recordLeaf (leaves t []) { s with cbLen := [], inv := [] }).bind
      (fun s1 => .go { s1 with phase := .size })).outcome

/-- The sum of FREQ[s] * CB_LEN[s] over all symbols (R273, R274). -/
def codedBits (s : State) : Nat :=
  ((List.range Config.alphaMax).map (fun i => freqAt s i * (cbLenAt s i).toNat)).sum

/-- `T + 1 + 8 + ceil8(BITLEN)` with `T = 3 * ((NN + 1) >> 1) - 1` (R274, R98), the 1 added and
subtracted left out, so that NN = 0 gives what 64-bit arithmetic gives. -/
def artifactBytes (s : State) : Nat := 3 * ((s.nn.toNat + 1) / 2) + 8 + ceil8 s.bitlen.toNat

/-- P_SIZE (R274). -/
def execPSize (s : State) : Host.Outcome State Fault Refusal :=
  let s1 := { s with bitlen := BitVec.ofNat 64 (codedBits s) }
  if s1.obufCap.toNat < artifactBytes s1 then .next (raise .outRange s1)
  else .next { s1 with phase := .tser }

/-- P_TSER (R221). -/
def execPTser (s : State) : Host.Outcome State Fault Refusal :=
  match rootTree s with
  | none => .fault .noTree
  | some t =>
    ((emitAll (serialize t) s).bind (fun s1 => .go { s1 with phase := .hdr })).outcome

/-- P_HDR (R275). -/
def execPHdr (s : State) : Host.Outcome State Fault Refusal :=
  ((emitAll (Config.delim :: be64 s.bitlen) s).bind
    (fun s1 => .go { s1 with phase := .encode })).outcome

/-- One round of the loop of ENCODE (R276): the code of one input byte, first code bit first. -/
def encodeByte (b : Byte) (s : State) : Flow :=
  Flow.each putBit (codeOf s b.toNat) { s with ipos := s.ipos + 1#32 }

/-- P_ENCODE (R276). -/
def execPEncode (s : State) : Host.Outcome State Fault Refusal :=
  ((Flow.each encodeByte (input s) { s with acc := 0#8, accN := 0#3, ipos := 0#32 }).bind
    (fun s1 => .go { s1 with phase := .flush })).outcome

/-- P_FLUSH (R253). -/
def execPFlush (s : State) : Host.Outcome State Fault Refusal :=
  if s.accN = 0#3 then .next { s with phase := .finish }
  else
    ((emit s.acc s).bind
      (fun s1 => .go { s1 with acc := 0#8, accN := 0#3, phase := .finish })).outcome

end Sys2Proof.Machine
end

