-- ==== Sys2Proof/Machine/Dispatch.lean ====
section
/-! DEFINITION. The dispatch: one arm per constructor of Instr, in the order of the opcode table. -/

namespace Sys2Proof.Machine

def exec (i : Instr) (s : State) : Host.Outcome State Fault Refusal :=
  match i with
  | .ctrlNone v => Sys2Proof.Machine.execCtrlNone v s
  | .start v => Sys2Proof.Machine.execStart v s
  | .clear v => Sys2Proof.Machine.execClear v s
  | .ctrlReserved v => Sys2Proof.Machine.execCtrlReserved v s
  | .cmdReserved0 v => Sys2Proof.Machine.execCmdReserved0 v s
  | .compress v => Sys2Proof.Machine.execCompress v s
  | .decompress v => Sys2Proof.Machine.execDecompress v s
  | .cmdReserved3 v => Sys2Proof.Machine.execCmdReserved3 v s
  | .pIdle => Sys2Proof.Machine.execPIdle s
  | .pCheck => Sys2Proof.Machine.execPCheck s
  | .pEmpty => Sys2Proof.Machine.execPEmpty s
  | .pFcount => Sys2Proof.Machine.execPFcount s
  | .pHinit => Sys2Proof.Machine.execPHinit s
  | .pHmerge => Sys2Proof.Machine.execPHmerge s
  | .pHwrap => Sys2Proof.Machine.execPHwrap s
  | .pCgen => Sys2Proof.Machine.execPCgen s
  | .pSize => Sys2Proof.Machine.execPSize s
  | .pTser => Sys2Proof.Machine.execPTser s
  | .pHdr => Sys2Proof.Machine.execPHdr s
  | .pEncode => Sys2Proof.Machine.execPEncode s
  | .pFlush => Sys2Proof.Machine.execPFlush s
  | .pDhead => Sys2Proof.Machine.execPDhead s
  | .pTdes => Sys2Proof.Machine.execPTdes s
  | .pDelim => Sys2Proof.Machine.execPDelim s
  | .pRdlen => Sys2Proof.Machine.execPRdlen s
  | .pChklen => Sys2Proof.Machine.execPChklen s
  | .pWalk => Sys2Proof.Machine.execPWalk s
  | .pWend => Sys2Proof.Machine.execPWend s
  | .pFinish => Sys2Proof.Machine.execPFinish s
  | .tokBranch => Sys2Proof.Machine.execTokBranch s
  | .tokLeaf sym => Sys2Proof.Machine.execTokLeaf sym s
  | .delim => Sys2Proof.Machine.execDelim s
  | .tokEmpty => Sys2Proof.Machine.execTokEmpty s
  | .bitlen n => Sys2Proof.Machine.execBitlen n s
  | .payloadByte b => Sys2Proof.Machine.execPayloadByte b s
  | .errNone => Sys2Proof.Machine.execErrNone s
  | .errIo => Sys2Proof.Machine.execErrIo s
  | .errCorruptTree => Sys2Proof.Machine.execErrCorruptTree s
  | .errFormat => Sys2Proof.Machine.execErrFormat s
  | .errDecode => Sys2Proof.Machine.execErrDecode s
  | .errUsage => Sys2Proof.Machine.execErrUsage s
  | .infoNone => Sys2Proof.Machine.execInfoNone s
  | .infoBadCmd => Sys2Proof.Machine.execInfoBadCmd s
  | .infoInRange => Sys2Proof.Machine.execInfoInRange s
  | .infoOutRange => Sys2Proof.Machine.execInfoOutRange s
  | .infoTruncated => Sys2Proof.Machine.execInfoTruncated s
  | .infoBadMarker => Sys2Proof.Machine.execInfoBadMarker s
  | .infoTooLarge => Sys2Proof.Machine.execInfoTooLarge s
  | .infoNoDelim => Sys2Proof.Machine.execInfoNoDelim s
  | .infoBadDelim => Sys2Proof.Machine.execInfoBadDelim s
  | .infoNoLength => Sys2Proof.Machine.execInfoNoLength s
  | .infoLenMismatch => Sys2Proof.Machine.execInfoLenMismatch s
  | .infoTrailing => Sys2Proof.Machine.execInfoTrailing s
  | .infoCodeCollision => Sys2Proof.Machine.execInfoCodeCollision s
  | .infoNullChild => Sys2Proof.Machine.execInfoNullChild s
  | .infoIncomplete => Sys2Proof.Machine.execInfoIncomplete s
  | .stIdle => Sys2Proof.Machine.execStIdle s
  | .stBusy => Sys2Proof.Machine.execStBusy s
  | .stDone => Sys2Proof.Machine.execStDone s
  | .stError => Sys2Proof.Machine.execStError s

end Sys2Proof.Machine
end

