-- ==== Sys2Proof/WellFormed.lean ====
section
/-! DEFINITION. What a well-formed instruction, host move and host program line is. -/

namespace Sys2Proof

/-- Every operand of a table row has exactly the width the table gives it (30 ignored bits, a symbol
byte, 64 bits of length, a payload byte), so every term of `Instr` is well formed: R96 and R100 allow
any value in each of these fields. -/
def Instr.wellFormed (_ : Instr) : Bool := true

/-- A host move inside the interface (R69): a register access is 32 bits wide at a multiple of 4. -/
def Move.wellFormed : Move → Bool
  | .regRead width off => width == 4 && off % 4 == 0
  | .regWrite width off _ => width == 4 && off % 4 == 0
  | .bufRead _ _ => true
  | .bufWrite _ _ _ => true
  | .reset => true

/-- A program line that its own notation can write (R120): the length `load` writes to IN_LEN is a
32-bit number (R26). -/
def Line.wellFormed : Line → Bool
  | .load bytes => decide (bytes.length < 2 ^ 32)
  | .cmdCompress => true
  | .cmdDecompress => true
  | .start => true
  | .wait => true
  | .status => true
  | .read => true
  | .clear => true
  | .copy => true

end Sys2Proof
end

