-- ==== Sys2Proof/Machine/Host.lean ====
section
/-! DEFINITION. What the host's moves do to the block (R366) and how the lines of a host program unfold
into moves (R120). -/

namespace Sys2Proof.Machine

/-- The capacity of a buffer (R60). -/
def capOf (s : State) : Space → Nat
  | .ibuf => s.ibufCap.toNat
  | .obuf => s.obufCap.toNat

/-- The host can reach byte `off` of a buffer: the core does not hold the buffers (R367) and the offset
is inside (R66). -/
def reachable (s : State) (sp : Space) (off : Nat) : Bool :=
  decide (s.st ≠ .busy) && decide (off < capOf s sp)

/-- What a buffer holds at `off` (R66). -/
def bufByte (s : State) : Space → Nat → Byte
  | .ibuf, off => readIn s off
  | .obuf, off => readOut s off

/-- A 32-bit register write at a multiple of 4 (R63). -/
def writeReg (off : Nat) (v : Word) (s : State) : State :=
  if off = offCtrl then
    if v.extractLsb' 0 2 = 1#2 then beginCommand s
    else if v.extractLsb' 0 2 = 2#2 then acknowledge s
    else s
  else if off = offCmd then selectCommand (v.extractLsb' 0 2) s
  else if off = offInLen then (if s.st = .busy then s else { s with inLen := v })
  else s

/-- The next free value drawn for a read the spec leaves unspecified is used up (log 5). -/
def draw (s : State) : State := { s with draws := s.draws + 1 }

/-- A host buffer read (R66): the byte the buffer holds; while BUSY (R367) or outside the buffer an
unspecified value, drawn anew for each read (93 U5, U6). -/
def readBuf (sp : Space) (off : Nat) (s : State) : State :=
  if reachable s sp off then give ((bufByte s sp off).setWidth 32) s
  else give ((Config.freeByte s.draws).setWidth 32) (draw s)

/-- A host buffer write (R66): stored, or ignored while BUSY (R367) and outside the buffer. -/
def writeBuf (sp : Space) (off : Nat) (b : Byte) (s : State) : State :=
  if reachable s sp off then
    match sp with
    | .ibuf => { s with ibuf := Table.put s.ibuf off b }
    | .obuf => { s with obuf := Table.put s.obuf off b }
  else s

/-- Reset, from any state (R360): the registers and PHASE take their reset values and every byte of both
buffers becomes unspecified: nothing stays listed and the eras change (log 4). The working state becomes
unspecified; it keeps what it held, as 93 U2 allows (log 14). -/
def resetBlock (s : State) : State :=
  { s with
    cmd := 0#2
    inLen := 0#32
    outLen := 0#32
    err := .none
    errInfo := .none
    st := .idle
    phase := .idle
    ibuf := []
    obuf := []
    ibufEra := s.ibufEra + 1
    obufEra := s.obufEra + 1
    fine := false }

/-- A host move (R366). A register access outside the interface (R69) changes nothing if it is a write
and returns an unspecified value if it is a read (log 7). -/
def hostMove (m : Move) (s : State) : State :=
  match m with
  | .regRead _ off =>
    if m.wellFormed then give (regValue s off) s else give (Config.freeWord s.draws) (draw s)
  | .regWrite _ off v => if m.wellFormed then writeReg off v s else s
  | .bufRead sp off => readBuf sp off s
  | .bufWrite sp off b => writeBuf sp off b s
  | .reset => resetBlock s

/-- The 32-bit register read of R120. -/
def regReadTurn (off : Nat) : Turn := .host (.regRead 4 off)

/-- The 32-bit register write of R120. -/
def regWriteTurn (off : Nat) (v : Word) : Turn := .host (.regWrite 4 off v)

/-- The buffer writes of `load`: the bytes from offset `off` on. -/
def loadBytes : Nat → List Byte → List Turn
  | _, [] => []
  | off, b :: rest => .host (.bufWrite .ibuf off b) :: loadBytes (off + 1) rest

/-- The buffer reads of `read`: OBUF[off .. off + n - 1]. -/
def readBytes : Nat → Nat → List Turn
  | _, 0 => []
  | off, n + 1 => .host (.bufRead .obuf off) :: readBytes (off + 1) n

/-- The accesses a line stands for (R120). R120 does not say how the host of `read` and `copy` knows
OUT_LEN, and the programs of 95_test_vectors.md differ: Program 2 reads REG:0x18 first, Programs 1 and 3
list no such read. DESIGN CHOICE: the model always reads OUT_LEN first (log 16). -/
def unfoldLine : Line → List Turn
  | .load bytes => loadBytes 0 bytes ++ [regWriteTurn offInLen (BitVec.ofNat 32 bytes.length)]
  | .cmdCompress => [regWriteTurn offCmd 1#32]
  | .cmdDecompress => [regWriteTurn offCmd 2#32]
  | .start => [regWriteTurn offCtrl 1#32]
  | .wait => [regReadTurn offStatus, .poll]
  | .status => [regReadTurn offStatus, regReadTurn offErr, regReadTurn offErrInfo, regReadTurn offOutLen]
  | .read => [regReadTurn offOutLen, .fetchOut false]
  | .clear => [regWriteTurn offCtrl 2#32]
  | .copy => [regReadTurn offOutLen, .fetchOut true]

/-- The value the host read last; 0 before its first read. -/
def lastRead (s : State) : Word := s.hostLog.headD 0#32

/-- `wait` (R120): while bits 1:0 of the STATUS value read are 01, the core takes a step and the host
reads STATUS again (log 16). -/
def pollTurns (s : State) : List Turn :=
  if (lastRead s).extractLsb' 0 2 = 1#2 then [.core, regReadTurn offStatus, .poll] else []

/-- `read` and `copy` after OUT_LEN was read (R120). -/
def fetchOutTurns (back : Bool) (s : State) : List Turn :=
  readBytes 0 (lastRead s).toNat ++ (if back then [.loadBack (lastRead s).toNat] else [])

/-- `copy` after the bytes were read (R120): `load` of them. -/
def loadBackTurns (n : Nat) (s : State) : List Turn :=
  unfoldLine (.load ((s.hostLog.take n).reverse.map (fun v => v.setWidth 8)))

end Sys2Proof.Machine
end

