-- ==== Sys2Proof/Machine/Fetch.lean ====
section
/-! DEFINITION. What a step does first: whose turn it is (log 1), and the instruction it decodes, from
the value on the register bus (R22, R23, R62), from PHASE (R135) or from the artifact in IBUF (R92). And
how an instruction of the opcode table is placed where the next step fetches it (log 17). -/

namespace Sys2Proof.Machine

/-- What a step has fetched: an instruction to run, or a move that is no table row and is done. -/
inductive Fetched where
  | run (i : Instr) (s : State)
  | done (s : State)
  deriving DecidableEq, Repr

/-- The instruction of an encoding, if it is one. -/
def instrOf (r : Raw) : Option Instr :=
  match decode r with
  | .ok (i, _) => some i
  | .error _ => none

/-- The place of the artifact that the running phase reads next, with the bytes there; none for a phase
that reads no item (R92, R291 to R296). -/
def itemRaw (s : State) : Option Raw :=
  match s.phase with
  | .dhead => some (.artifact .head (inputFrom s 0))
  | .tdes => some (.artifact .marker (inputFrom s (if s.fine then s.ipos.toNat else 0)))
  | .delim => some (.artifact .delim (inputFrom s s.ipos.toNat))
  | .rdlen => some (.artifact .length (inputFrom s s.ipos.toNat))
  | .walk =>
    if s.bitpos < s.bitlen then some (.artifact .payload [payloadByteAt s]) else none
  | .idle | .check | .empty | .fcount | .hinit | .hmerge | .hwrap | .cgen | .size | .tser | .hdr
  | .encode | .flush | .chklen | .wend | .finish => none

/-- The item the running phase reads next. -/
def itemInstr (s : State) : Option Instr := (itemRaw s).bind instrOf

/-- The core's turn in fine steps (R138): the next item, or the phase where there is no item to decode
(a phase that reads none, or one that raises here). -/
def fetchItem (s : State) : Fetched :=
  if s.st = .busy then .run ((itemInstr s).getD (phaseInstr s.phase)) s else .run .pIdle s

/-- The core's turn (R138): while BUSY the phase named by PHASE, and once that was begun in fine steps its
next item; otherwise the core has no step. -/
def fetchCore (s : State) : Fetched :=
  if s.fine then fetchItem s
  else if s.st = .busy then .run (phaseInstr s.phase) s
  else .run .pIdle s

/-- The encoding a host move puts on the register bus: the value written, or the value the register
returns; none for the moves that are no register access inside the interface (R69). -/
def moveRaw (m : Move) (s : State) : Option Raw :=
  match m with
  | .regRead _ off => if m.wellFormed then some (.regRead off (regValue s off)) else none
  | .regWrite _ off v => if m.wellFormed then some (.regWrite off v) else none
  | .bufRead _ _ => none
  | .bufWrite _ _ _ => none
  | .reset => none

/-- The host's turn: the table row its access is, or the move itself (R366). -/
def fetchMove (m : Move) (s : State) : Fetched :=
  match (moveRaw m s).bind instrOf with
  | some i => .run i s
  | none => .done (hostMove m s)

/-- Puts turns before the ones still to come. -/
def pushTurns (ts : List Turn) (s : State) : State := { s with script := ts ++ s.script }

/-- One turn, already taken from the script. -/
def fetchTurn (t : Turn) (s : State) : Fetched :=
  match t with
  | .core => fetchCore s
  | .item => fetchItem s
  | .host m => fetchMove m s
  | .line l => .done (pushTurns (unfoldLine l) s)
  | .poll => .done (pushTurns (pollTurns s) s)
  | .fetchOut back => .done (pushTurns (fetchOutTurns back s) s)
  | .loadBack n => .done (pushTurns (loadBackTurns n s) s)

/-- The next turn of the script; with none left it is the core's turn (log 1). -/
def fetch (s : State) : Fetched :=
  match s.script with
  | [] => fetchCore s
  | t :: rest => fetchTurn t { s with script := rest }

/-- Stores bytes in IBUF from `off` on and makes them part of the input, for `place`. -/
def placeBytes (off : Nat) (bytes : List Byte) (s : State) : State :=
  { s with
    ibuf := (bytes.zipIdx off).foldl (fun m e => Table.put m e.2 e.1) s.ibuf
    inLen := BitVec.ofNat 32 (max s.inLen.toNat (off + bytes.length)) }

/-- The core is running `p` and its next turn is `t`, for `place`. -/
def placePhase (p : Phase) (t : Turn) (s : State) : State :=
  { s with phase := p, st := .busy, script := t :: s.script }

/-- Places an encoding where the next step fetches it (log 17): a register access as the host's next
move (for a code read, with the field holding that code), a PHASE code in PHASE with the core running,
an item in IBUF where the phase that reads it looks next. -/
def place (r : Raw) (s : State) : State :=
  match r with
  | .regWrite off v => { s with script := regWriteTurn off v :: s.script }
  | .regRead off v =>
    let s1 := { s with script := regReadTurn off :: s.script }
    if off = offStatus then { s1 with st := (St.ofCode (v.extractLsb' 0 2)).getD s.st }
    else if off = offErr then { s1 with err := (ErrClass.ofCode (v.extractLsb' 0 3)).getD s.err }
    else if off = offErrInfo then
      { s1 with errInfo := (ErrInfo.ofCode (v.extractLsb' 0 4)).getD s.errInfo }
    else s1
  | .phase c =>
    match Phase.ofCode c with
    | none => s
    | some .idle => { s with phase := .idle, fine := false, script := .core :: s.script }
    | some p => { placePhase p .core s with fine := false }
  | .artifact .head bytes => placePhase .dhead .item (placeBytes 0 bytes s)
  | .artifact .marker bytes =>
    placePhase .tdes .item (placeBytes (if s.fine then s.ipos.toNat else 0) bytes s)
  | .artifact .delim bytes => placePhase .delim .item (placeBytes s.ipos.toNat bytes s)
  | .artifact .length bytes => placePhase .rdlen .item (placeBytes s.ipos.toNat bytes s)
  | .artifact .payload bytes =>
    let s1 := placePhase .walk .item (placeBytes (s.ipos.toNat + s.bitpos.toNat / 8) bytes s)
    if s.bitpos < s.bitlen then s1 else { s1 with bitlen := s.bitpos + 8#64 }

end Sys2Proof.Machine
end

