-- ==== Sys2Proof/Machine/Step.lean ====
section
/-! DEFINITION. One step of the machine (R138, R366) and the placing of an opcode-table row where the
next step fetches it. -/

namespace Sys2Proof.Machine

/-- One step: fetch, then run the instruction fetched, or end with the move done. -/
def step (s : State) : Host.Outcome State Fault Refusal :=
  match fetch s with
  | .run i s1 => exec i s1
  | .done s1 => .next s1

/-- The state with the instruction of the opcode table's number `w` of `nbits` bits placed where the next
step fetches it; unchanged where the number stands for no encoding. -/
def State.withFetchWord (s : State) (nbits w : Nat) : State :=
  match tableRaw nbits w with
  | some r => place r s
  | none => s

end Sys2Proof.Machine
end

