-- ==== Sys2Proof/Machine/Artifact.lean ====
section
/-! DEFINITION. The two commands as functions of their input (R140, R141), from the functions the rules
give: the frequency table (R160), the tree built from it (R170 to R177) on the abstract queue of R172,
the code book (R202), `serialize`, `be64`, `pack`, and for the other direction `parse` (R228), `unpack`
and the walk (R296). No step uses them: statements compare the machine with them. -/

namespace Sys2Proof.Machine

/-! ### COMPRESS -/

/-- The number of occurrences of byte value `i` (R160). -/
def occurrences (bytes : List Byte) (i : Nat) : Nat := bytes.countP (fun b => b.toNat == i)

/-- An element of the abstract queue (R172): weight, arena index, tree. -/
abbrev Entry := Nat × Nat × Tree

/-- The order of the queue (R171). -/
def Entry.less (x y : Entry) : Bool :=
  decide (x.1 < y.1) || (decide (x.1 = y.1) && decide (x.2.1 < y.2.1))

/-- `extract_min` of the abstract queue (R172): the least element and the others. -/
def takeLeast : List Entry → Option (Entry × List Entry)
  | [] => none
  | e :: rest =>
    match takeLeast rest with
    | none => some (e, [])
    | some (m, others) => if Entry.less e m then some (e, rest) else some (m, e :: others)

/-- The greedy merge (R170, R175): `next` is the index of the next node created. -/
def mergeQueue : Nat → Nat → List Entry → Option Tree
  | 0, _, _ => none
  | rounds + 1, next, q =>
    match takeLeast q with
    | none => none
    | some (a, q1) =>
      match takeLeast q1 with
      | none => some a.2.2
      | some (b, q2) =>
        mergeQueue rounds (next + 1) ((a.1 + b.1, next, .node a.2.2 b.2.2) :: q2)

/-- The symbols that occur, in ascending order (R173). -/
def symbolsOf (bytes : List Byte) : List Nat :=
  (List.range Config.alphaMax).filter (fun i => decide (0 < occurrences bytes i))

/-- The leaves HINIT enqueues (R173): leaf `j` holds the `j`-th smallest symbol present. -/
def leafQueue (bytes : List Byte) : List Entry :=
  (symbolsOf bytes).zipIdx.map
    (fun e => (occurrences bytes e.1, e.2, Tree.leaf (BitVec.ofNat 8 e.1)))

/-- `build(f)` (R140): the merge, or the wrapper with the duplicate placeholder for one symbol (R177). -/
def buildTree (bytes : List Byte) : Option Tree :=
  match leafQueue bytes with
  | [e] => some (.node e.2.2 e.2.2)
  | q => mergeQueue q.length q.length q

/-- The encoded payload (R273). -/
def payloadBits (t : Tree) (bytes : List Byte) : List Bool :=
  bytes.flatMap (fun b => (codeFor t b).getD [])

/-- The artifact of a non-empty input with tree `t` (R90, R140). -/
def artifactOf (t : Tree) (bytes : List Byte) : List Byte :=
  let bits := payloadBits t bytes
  serialize t ++ [Config.delim] ++ be64 (BitVec.ofNat 64 bits.length) ++ pack bits

/-- COMPRESS as a function (R140, R91). -/
def compressed (bytes : List Byte) : List Byte :=
  match bytes with
  | [] => [Config.tokEmpty]
  | _ :: _ =>
    match buildTree bytes with
    | some t => artifactOf t bytes
    | none => []

/-! ### DECOMPRESS -/

/-- `parse` (R228) on abstract trees: the tree the bytes begin with, the number of nodes created so far
and the bytes after it, or the first failing check. The first argument bounds the number of tokens. -/
def parseTree : Nat → Nat → List Byte → Except ErrInfo (Tree × Nat × List Byte)
  | 0, _, _ => .error .truncated
  | _ + 1, _, [] => .error .truncated
  | fuel + 1, nn, m :: rest =>
    if m = Config.tokLeaf then
      if Config.nodeCap ≤ nn then .error .tooLarge
      else
        match rest with
        | [] => .error .truncated
        | sym :: rest' => .ok (.leaf sym, nn + 1, rest')
    else if m = Config.tokBranch then
      if Config.nodeCap ≤ nn then .error .tooLarge
      else
        match parseTree fuel (nn + 1) rest with
        | .error e => .error e
        | .ok (l, n1, r1) =>
          match parseTree fuel n1 r1 with
          | .error e => .error e
          | .ok (r, n2, r2) => .ok (.node l r, n2, r2)
    else .error .badMarker

/-- The walk (R296) of the bits from the subtree `cur` (none: at the root), with room for `room` more
symbols: the symbols emitted and where the walk stands at the end, or the first failing check. -/
def walkTree (root : Tree) : Nat → Option Tree → List Bool → Except ErrInfo (List Byte × Option Tree)
  | _, cur, [] => .ok ([], cur)
  | room, cur, b :: bits =>
    match cur.getD root with
    | .leaf _ => .error .nullChild
    | .node l r =>
      match (if b then r else l) with
      | .leaf sym =>
        if room = 0 then .error .outRange
        else (walkTree root (room - 1) none bits).map (fun e => (sym :: e.1, e.2))
      | .node l' r' => walkTree root room (some (.node l' r')) bits

/-- The walk and the check that it ends between two codes (R298). -/
def walkOut (root : Tree) (room : Nat) (bits : List Bool) : Except ErrInfo (List Byte) :=
  match walkTree root room none bits with
  | .error e => .error e
  | .ok (out, none) => .ok out
  | .ok (_, some _) => .error .incomplete

/-- What follows the tree (R293 to R298): the delimiter, the length, the payload. -/
def decodeTail (room : Nat) (t : Tree) (bytes : List Byte) : Except ErrInfo (List Byte) :=
  match bytes with
  | [] => .error .noDelim
  | d :: rest =>
    if d ≠ Config.delim then .error .badDelim
    else if rest.length < Config.bitlenBytes then .error .noLength
    else
      let n := (beValue (rest.take Config.bitlenBytes)).toNat
      let payload := rest.drop Config.bitlenBytes
      if payload.length ≠ ceil8 n then .error .lenMismatch
      else walkOut t room (unpack payload n)

/-- DECOMPRESS as a function (R141) with room for `room` output bytes: the output, or the sub-cause of
the first check that fails. -/
def decompressed (room : Nat) (bytes : List Byte) : Except ErrInfo (List Byte) :=
  match bytes with
  | [] => .error .truncated
  | b :: rest =>
    if b = Config.tokEmpty then (if rest = [] then .ok [] else .error .trailing)
    else
      match parseTree (b :: rest).length 0 (b :: rest) with
      | .error e => .error e
      | .ok (t, _, tail) => decodeTail room t tail

end Sys2Proof.Machine
end

