-- ==== Sys2Proof/Safety.lean ====
section
/-! DEFINITION. The terms statements about the machine use: runs of several steps, a command that has
just been started, its result, and the invariants of the block. -/

namespace Sys2Proof.Machine

/-- `n` steps, stopping at the first fault or refusal. -/
def steps : Nat → State → Host.Outcome State Fault Refusal
  | 0, s => .next s
  | n + 1, s =>
    match step s with
    | .next t => steps n t
    | .fault f => .fault f
    | .refused r => .refused r

/-- Within `bound` steps the run from `s` is in a state with `P`. -/
def Reaches (bound : Nat) (s : State) (P : State → Prop) : Prop :=
  ∃ n, n ≤ bound ∧ ∃ t, steps n s = .next t ∧ P t

/-- A command selected by CMD = `c` that START has just begun (R131). -/
def Begun (c : BitVec 2) (s : State) : Prop :=
  s.st = .busy ∧ s.phase = .check ∧ s.err = .none ∧ s.errInfo = .none ∧ s.outLen = 0#32 ∧
  s.cmd = c ∧ s.fine = false

/-- A command that START has just begun, the core taking every turn in phase steps from here on. -/
def Started (c : BitVec 2) (s : State) : Prop := Begun c s ∧ s.script = []

/-- The result of a command that ended in DONE: OBUF[0 .. OUT_LEN - 1] (R24). -/
def result (s : State) : List Byte := (List.range s.outLen.toNat).map (readOut s)

/-- The end of a command in DONE with the result `out` (R371). -/
def EndsDone (out : List Byte) (s : State) : Prop :=
  s.st = .done ∧ s.err = .none ∧ s.errInfo = .none ∧ s.outLen.toNat = out.length ∧ result s = out

/-- The end of a command in ERROR with the sub-cause `e` (R325, R371). -/
def EndsError (e : ErrInfo) (s : State) : Prop :=
  s.st = .error ∧ s.err = e.cls ∧ s.errInfo = e ∧ s.outLen = 0#32

/-- `u` differs from `s` in OBUF and OPOS by the bytes written from OPOS on (R65): they read back, every
other byte of OBUF is as before. -/
def Wrote (bytes : List Byte) (s u : State) : Prop :=
  u.opos.toNat = s.opos.toNat + bytes.length ∧
  (∀ j, j < bytes.length → readOut u (s.opos.toNat + j) = bytes.getD j 0#8) ∧
  (∀ a, a < s.opos.toNat ∨ s.opos.toNat + bytes.length ≤ a → readOut u a = readOut s a) ∧
  u.obufEra = s.obufEra

/-- How many subtrees TDES still has to read besides the one it reads now (R94): one for each BRANCH whose
left subtree is not complete. -/
def pendingRight (stack : List Frame) : Nat :=
  stack.countP (fun f => match f with
    | .left _ => true
    | .right _ _ => false)

/-- The `n` payload bits from BITPOS on, as `get_bit` draws them (R255). -/
def payloadBitsFrom (s : State) (n : Nat) : List Bool :=
  (List.range n).map (fun i => bitOf
    (readIn s (s.ipos.toNat + (s.bitpos.toNat + i) / 8)) (s.bitpos.toNat + i))

/-- The instructions the core runs (R130): the phases and the items of the artifact. -/
def isCoreInstr (i : Instr) : Bool :=
  match encode i with
  | .phase _ => true
  | .artifact _ _ => true
  | .regWrite _ _ => false
  | .regRead _ _ => false

/-! ### Invariants -/

/-- The status fields agree (R24, R25, R33): PHASE is P_IDLE exactly when ST is not BUSY; ERR and ERR_INFO
are 0 but in ERROR, where they name a sub-cause and its class; OUT_LEN is 0 but in DONE (R322, R367). -/
def StatusCoherent (s : State) : Prop :=
  (s.st = .busy ↔ s.phase ≠ .idle) ∧
  (s.st ≠ .error → s.err = .none ∧ s.errInfo = .none) ∧
  (s.st = .error → s.errInfo ≠ .none ∧ s.err = s.errInfo.cls) ∧
  (s.st ≠ .done → s.outLen = 0#32)

/-- Both buffers are in their canonical form. -/
def BuffersCanonical (s : State) : Prop := s.ibuf.wf = true ∧ s.obuf.wf = true

/-- Past CHECK a running command is legal and fits its buffers: CMD is COMPRESS or DECOMPRESS, the input
lies in IBUF (R64), the output so far in OBUF (R34, R65). -/
def CommandFits (s : State) : Prop :=
  s.st = .busy → s.phase ≠ .check →
    (s.cmd = 1#2 ∨ s.cmd = 2#2) ∧ s.inLen ≤ s.ibufCap ∧ s.opos ≤ s.obufCap

/-- Only TDES and WALK are ever begun in fine steps (log 9). -/
def FineCoherent (s : State) : Prop :=
  s.fine = true → s.st = .busy ∧ (s.phase = .tdes ∨ s.phase = .walk)

/-- What each phase of the tree builder finds ready (R136, R161, R162, R173, R176, R44): a non-empty input
for FCOUNT, the alphabet size for HINIT, the one leaf for HWRAP, the leaves and the queue of them for
HMERGE, a tree at ROOT for CGEN, SIZE and TSER. -/
def BuilderReady (s : State) : Prop :=
  (s.phase = .fcount → s.inLen ≠ 0#32) ∧
  (s.phase = .hinit → s.k.toNat = alphabetSize s ∧ 1 ≤ s.k.toNat) ∧
  (s.phase = .hwrap → (nodeAt s.arena 0).kind = .leaf) ∧
  (s.phase = .hmerge →
    s.heap.length = s.nn.toNat ∧ 1 ≤ s.nn.toNat ∧ s.nn.toNat ≤ Config.alphaMax ∧
    (∀ x ∈ s.heap, x.toNat < s.nn.toNat) ∧ ∀ i, i < s.nn.toNat → (nodeAt s.arena i).kind = .leaf) ∧
  (s.phase = .cgen ∨ s.phase = .size ∨ s.phase = .tser → (rootTree s).isSome = true)

/-- The INTERNAL entry whose subtrees a frame of STACK waits for (R231). -/
def Frame.node : Frame → Index
  | .left i => i
  | .right i _ => i

/-- The arena holds entries 0 to NODE_CAP - 1 only (R27), NN counts at most these (R28), and TDES waits
for the subtrees of such entries (R38). -/
def ArenaFits (s : State) : Prop :=
  (∀ e ∈ s.arena, e.1 < Config.nodeCap) ∧ s.nn.toNat ≤ Config.nodeCap ∧
  ∀ f ∈ s.stack, f.node.toNat < Config.nodeCap

/-- Every code fits CB_BITS (R31). -/
def CodesFit (s : State) : Prop := ∀ e ∈ s.cbBits, e.2.length ≤ Config.depthMax

/-- The invariant of the block. -/
def Sound (s : State) : Prop :=
  StatusCoherent s ∧ BuffersCanonical s ∧ CommandFits s ∧ FineCoherent s ∧ BuilderReady s ∧
  ArenaFits s ∧ CodesFit s

/-- The heap property (R174): no entry is less than its parent. -/
def IsHeap (lt : Index → Index → Bool) (h : List Index) : Prop :=
  ∀ i, 1 ≤ i → i < h.length → lt (heapAt h i) (heapAt h ((i - 1) / 2)) = false

/-- The successors of a phase (R136), P_IDLE for the end of the command. -/
def successors : Phase → List Phase
  | .idle => [.idle]
  | .check => [.empty, .fcount, .dhead]
  | .empty => [.finish]
  | .fcount => [.hinit]
  | .hinit => [.hwrap, .hmerge]
  | .hmerge => [.cgen]
  | .hwrap => [.cgen]
  | .cgen => [.size]
  | .size => [.tser]
  | .tser => [.hdr]
  | .hdr => [.encode]
  | .encode => [.flush]
  | .flush => [.finish]
  | .dhead => [.finish, .tdes]
  | .tdes => [.delim]
  | .delim => [.rdlen]
  | .rdlen => [.chklen]
  | .chklen => [.walk]
  | .walk => [.wend]
  | .wend => [.finish]
  | .finish => [.idle]

end Sys2Proof.Machine
end

