-- ==== Sys2Proof/Certificates/Slice0/Obligations.lean ====
section
/-! DEFINITION. The statements for the provers. Each docstring says which rule of spec/ it formalises;
OBLIGATIONS.json lists them. -/

open Sys2Proof Sys2Proof.Machine

/-- Decoding the encoding of any instruction gives it back, and an item is self-delimiting. Rests on
30_encoding.md; 10_state.md rules R22 to R25; 40_commands.md rule R135. -/
def Obligations.EncodedInstructionsDecode : Prop :=
  ∀ i : Instr, i.wellFormed = true →
    decode (encode i) = .ok (i, []) ∧
    ∀ pos bytes rest, encode i = .artifact pos bytes →
      decode (.artifact pos (bytes ++ rest)) = .ok (i, rest)

/-- An encoding that decodes is the encoding of what it decodes to: no two encodings of one place mean
the same. Rests on 30_encoding.md; 10_state.md rules R21 to R25. -/
def Obligations.DecodedEncodingsAreUnique : Prop :=
  ∀ (r : Raw) (i : Instr) (rest : List Byte), decode r = .ok (i, rest) →
    match r with
    | .artifact pos bytes => ∃ own, encode i = .artifact pos own ∧ bytes = own ++ rest
    | .regWrite off v => encode i = .regWrite off v ∧ rest = []
    | .regRead off v => encode i = .regRead off v ∧ rest = []
    | .phase c => encode i = .phase c ∧ rest = []

/-- A word of each family, written out from the spec, decodes to the instruction it stands for. Rests on
30_encoding.md; 10_state.md; 40_commands.md section 3; 60_exceptions.md section 1. -/
def Obligations.SampleEncodingsDecode : Prop :=
  decode (.regWrite 0x00 0x00000001#32) = .ok (.start 0#30, []) ∧
  decode (.regWrite 0x00 0xFFFFFFFE#32) = .ok (.clear 0x3FFFFFFF#30, []) ∧
  decode (.regWrite 0x04 0x00000002#32) = .ok (.decompress 0#30, []) ∧
  decode (.phase 0b10101#5) = .ok (.pWalk, []) ∧
  decode (.artifact .marker [0x42#8, 0x4C#8]) = .ok (.tokBranch, [0x4C#8]) ∧
  decode (.artifact .marker [0x4C#8, 0x7C#8]) = .ok (.tokLeaf 0x7C#8, []) ∧
  decode (.artifact .delim [0x7C#8]) = .ok (.delim, []) ∧
  decode (.artifact .head [0x45#8]) = .ok (.tokEmpty, []) ∧
  decode (.artifact .length [0#8, 0#8, 0#8, 0#8, 0#8, 0#8, 0#8, 0x0A#8]) = .ok (.bitlen 10#64, []) ∧
  decode (.artifact .payload [0xB3#8]) = .ok (.payloadByte 0xB3#8, []) ∧
  decode (.regRead 0x0C 2#32) = .ok (.errCorruptTree, []) ∧
  decode (.regRead 0x10 10#32) = .ok (.infoLenMismatch, []) ∧
  decode (.regRead 0x08 1#32) = .ok (.stBusy, [])

/-- The special bytes differ pairwise; unused PHASE, ERR and ERR_INFO codes and other markers are no
instruction. Rests on 30_encoding.md rules R101, R110, R112; 40_commands.md rule R135;
60_exceptions.md rules R320, R321. What is the model's own or its choice in it: log entries 8, 18. -/
def Obligations.UnusedCodesAreRejected : Prop :=
  (Config.tokBranch = 0x42#8 ∧ Config.tokLeaf = 0x4C#8 ∧ Config.delim = 0x7C#8 ∧
    Config.tokEmpty = 0x45#8 ∧
    [Config.tokBranch, Config.tokLeaf, Config.delim, Config.tokEmpty].Nodup) ∧
  (∀ c : BitVec 5,
    (∃ e, decode (.phase c) = .error e) ↔
      (13#5 ≤ c ∧ c ≤ 15#5) ∨ (23#5 ≤ c ∧ c ≤ 30#5)) ∧
  decode (.regRead 0x0C 6#32) = .error (.reservedErr 6#32) ∧
  decode (.regRead 0x0C 7#32) = .error (.reservedErr 7#32) ∧
  decode (.regRead 0x10 15#32) = .error (.reservedErrInfo 15#32) ∧
  ∀ (b : Byte) (rest : List Byte), b ≠ 0x42#8 → b ≠ 0x4C#8 →
    decode (.artifact .marker (b :: rest)) = .error (.badMarker b)

/-- A step runs the instruction that the fetched encoding decodes to. Rests on 40_commands.md rule R138;
30_encoding.md; 10_state.md rules R22, R23. What is the model's own or its choice in it: log entries
1, 9. -/
def Obligations.StepRunsTheDecodedInstruction : Prop :=
  ∀ (s : State) (i : Instr) (rest : List Turn) (more : List Byte),
    (s.st = .busy → s.fine = false → s.script = [] → decode (.phase s.phase.code) = .ok (i, more) →
      step s = exec i s) ∧
    (s.st = .busy → s.fine = false → s.script = .core :: rest →
      decode (.phase s.phase.code) = .ok (i, more) →
      step s = exec i { s with script := rest }) ∧
    (∀ r, s.st = .busy → s.script = .item :: rest → itemRaw { s with script := rest } = some r →
      decode r = .ok (i, more) → step s = exec i { s with script := rest }) ∧
    (∀ off v, off % 4 = 0 → s.script = .host (.regWrite 4 off v) :: rest →
      decode (.regWrite off v) = .ok (i, more) → step s = exec i { s with script := rest }) ∧
    (∀ off, off % 4 = 0 → s.script = .host (.regRead 4 off) :: rest →
      decode (.regRead off (regValue { s with script := rest } off)) = .ok (i, more) →
      step s = exec i { s with script := rest })

/-- While ST is not BUSY the core has no step; P_IDLE changes nothing. Rests on 40_commands.md rule
R138; 40_commands.md rule R135. -/
def Obligations.IdleCoreTakesNoStep : Prop :=
  ∀ s : State, exec .pIdle s = .next s ∧ (s.st ≠ .busy → s.script = [] → step s = .next s)

/-- A register read returns the register and changes nothing, in every state. Formalises R62. What is
the model's own or its choice in it: log entry 15. -/
def Obligations.RegisterReadsHaveNoSideEffect : Prop :=
  ∀ (s : State) (off : Nat) (rest : List Turn), off % 4 = 0 →
    s.script = .host (.regRead 4 off) :: rest →
    ∃ t, step s = .next t ∧
      t = { s with script := rest, hostLog := t.hostLog, hostMatch := t.hostMatch } ∧
      t.hostLog =
        (if off = 0x04 then s.cmd.setWidth 32
         else if off = 0x08 then s.st.code.setWidth 32
         else if off = 0x0C then s.err.code.setWidth 32
         else if off = 0x10 then s.errInfo.code.setWidth 32
         else if off = 0x14 then s.inLen
         else if off = 0x18 then s.outLen
         else 0#32) :: s.hostLog

/-- Each status code row reads its register for the host and changes nothing of the block. Rests on
10_state.md rules R24, R25; 60_exceptions.md rules R320, R321; 20_memory.md rule R62. What is the
model's own or its choice in it: log entries 8, 15. -/
def Obligations.StatusCodesAreObserved : Prop :=
  ∀ s : State,
  exec .stIdle s = .next { s with hostLog := s.st.code.setWidth 32 :: s.hostLog, hostMatch := s.st == .idle } ∧
  exec .stBusy s = .next { s with hostLog := s.st.code.setWidth 32 :: s.hostLog, hostMatch := s.st == .busy } ∧
  exec .stDone s = .next { s with hostLog := s.st.code.setWidth 32 :: s.hostLog, hostMatch := s.st == .done } ∧
  exec .stError s = .next { s with hostLog := s.st.code.setWidth 32 :: s.hostLog, hostMatch := s.st == .error } ∧
  exec .errNone s = .next { s with hostLog := s.err.code.setWidth 32 :: s.hostLog, hostMatch := s.err == .none } ∧
  exec .errIo s = .next { s with hostLog := s.err.code.setWidth 32 :: s.hostLog, hostMatch := s.err == .io } ∧
  exec .errCorruptTree s = .next { s with hostLog := s.err.code.setWidth 32 :: s.hostLog, hostMatch := s.err == .corruptTree } ∧
  exec .errFormat s = .next { s with hostLog := s.err.code.setWidth 32 :: s.hostLog, hostMatch := s.err == .format } ∧
  exec .errDecode s = .next { s with hostLog := s.err.code.setWidth 32 :: s.hostLog, hostMatch := s.err == .decode } ∧
  exec .errUsage s = .next { s with hostLog := s.err.code.setWidth 32 :: s.hostLog, hostMatch := s.err == .usage } ∧
  exec .infoNone s = .next { s with hostLog := s.errInfo.code.setWidth 32 :: s.hostLog, hostMatch := s.errInfo == .none } ∧
  exec .infoBadCmd s = .next { s with hostLog := s.errInfo.code.setWidth 32 :: s.hostLog, hostMatch := s.errInfo == .badCmd } ∧
  exec .infoInRange s = .next { s with hostLog := s.errInfo.code.setWidth 32 :: s.hostLog, hostMatch := s.errInfo == .inRange } ∧
  exec .infoOutRange s = .next { s with hostLog := s.errInfo.code.setWidth 32 :: s.hostLog, hostMatch := s.errInfo == .outRange } ∧
  exec .infoTruncated s = .next { s with hostLog := s.errInfo.code.setWidth 32 :: s.hostLog, hostMatch := s.errInfo == .truncated } ∧
  exec .infoBadMarker s = .next { s with hostLog := s.errInfo.code.setWidth 32 :: s.hostLog, hostMatch := s.errInfo == .badMarker } ∧
  exec .infoTooLarge s = .next { s with hostLog := s.errInfo.code.setWidth 32 :: s.hostLog, hostMatch := s.errInfo == .tooLarge } ∧
  exec .infoNoDelim s = .next { s with hostLog := s.errInfo.code.setWidth 32 :: s.hostLog, hostMatch := s.errInfo == .noDelim } ∧
  exec .infoBadDelim s = .next { s with hostLog := s.errInfo.code.setWidth 32 :: s.hostLog, hostMatch := s.errInfo == .badDelim } ∧
  exec .infoNoLength s = .next { s with hostLog := s.errInfo.code.setWidth 32 :: s.hostLog, hostMatch := s.errInfo == .noLength } ∧
  exec .infoLenMismatch s = .next { s with hostLog := s.errInfo.code.setWidth 32 :: s.hostLog, hostMatch := s.errInfo == .lenMismatch } ∧
  exec .infoTrailing s = .next { s with hostLog := s.errInfo.code.setWidth 32 :: s.hostLog, hostMatch := s.errInfo == .trailing } ∧
  exec .infoCodeCollision s = .next { s with hostLog := s.errInfo.code.setWidth 32 :: s.hostLog, hostMatch := s.errInfo == .codeCollision } ∧
  exec .infoNullChild s = .next { s with hostLog := s.errInfo.code.setWidth 32 :: s.hostLog, hostMatch := s.errInfo == .nullChild } ∧
  exec .infoIncomplete s = .next { s with hostLog := s.errInfo.code.setWidth 32 :: s.hostLog, hostMatch := s.errInfo == .incomplete }

/-- START in IDLE or DONE begins the command; in BUSY or ERROR it changes nothing. Formalises R131,
R132. What is the model's own or its choice in it: log entry 9. -/
def Obligations.StartBeginsACommand : Prop :=
  ∀ (v : BitVec 30) (s : State),
    ((s.st = .idle ∨ s.st = .done) →
      exec (.start v) s = .next { s with
        err := .none, errInfo := .none, outLen := 0#32, st := .busy, phase := .check, fine := false }) ∧
    ((s.st = .busy ∨ s.st = .error) → exec (.start v) s = .next s)

/-- CLEAR in DONE or ERROR returns to IDLE; in IDLE or BUSY it changes nothing. Formalises R133. -/
def Obligations.ClearAcknowledges : Prop :=
  ∀ (v : BitVec 30) (s : State),
    ((s.st = .done ∨ s.st = .error) →
      exec (.clear v) s = .next { s with
        st := .idle, err := .none, errInfo := .none, outLen := 0#32 }) ∧
    ((s.st = .idle ∨ s.st = .busy) → exec (.clear v) s = .next s)

/-- A write of CTRL is decoded from v[1:0]; 00 and 11 change nothing; CTRL reads 0. Formalises R22. -/
def Obligations.ControlActionsFollowTheLowBits : Prop :=
  (∀ v : Word, decode (.regWrite 0x00 v) = .ok
      (if v % 4#32 = 0#32 then .ctrlNone ((v >>> 2).setWidth 30)
       else if v % 4#32 = 1#32 then .start ((v >>> 2).setWidth 30)
       else if v % 4#32 = 2#32 then .clear ((v >>> 2).setWidth 30)
       else .ctrlReserved ((v >>> 2).setWidth 30), [])) ∧
  ∀ (i : BitVec 30) (s : State),
    exec (.ctrlNone i) s = .next s ∧ exec (.ctrlReserved i) s = .next s ∧ regValue s 0x00 = 0#32

/-- All four CMD values can be stored and read back; legality is checked by CHECK; a write while BUSY is
dropped. Formalises R23. -/
def Obligations.CommandValuesAreStored : Prop :=
  ∀ (v : BitVec 30) (s : State),
    (s.st ≠ .busy →
      exec (.cmdReserved0 v) s = .next { s with cmd := 0#2 } ∧
      exec (.compress v) s = .next { s with cmd := 1#2 } ∧
      exec (.decompress v) s = .next { s with cmd := 2#2 } ∧
      exec (.cmdReserved3 v) s = .next { s with cmd := 3#2 }) ∧
    (s.st = .busy →
      exec (.cmdReserved0 v) s = .next s ∧ exec (.compress v) s = .next s ∧
      exec (.decompress v) s = .next s ∧ exec (.cmdReserved3 v) s = .next s) ∧
    regValue s 0x04 = s.cmd.setWidth 32 ∧
    ((s.cmd = 0#2 ∨ s.cmd = 3#2) →
      exec .pCheck s = .next (raise .badCmd s) ∧
      (raise .badCmd s).st = .error ∧ (raise .badCmd s).err = .usage) ∧
    (s.inLen.toNat ≤ s.ibufCap.toNat →
      (s.cmd = 1#2 → ∃ t, exec .pCheck s = .next t ∧ (t.phase = .empty ∨ t.phase = .fcount)) ∧
      (s.cmd = 2#2 → ∃ t, exec .pCheck s = .next t ∧ t.phase = .dhead)) ∧
    ∀ w : Word, ∃ i, decode (.regWrite 0x04 w) = .ok (i, []) ∧
      (s.st ≠ .busy → exec i s = .next { s with cmd := w.extractLsb' 0 2 })

/-- A register write acts by its offset: CTRL, CMD, IN_LEN, and nothing for every other offset.
Formalises R63. -/
def Obligations.RegisterWritesFollowTheTable : Prop :=
  ∀ (s : State) (off : Nat) (v : Word) (rest : List Turn), off % 4 = 0 →
    s.script = .host (.regWrite 4 off v) :: rest →
    let s1 := { s with script := rest }
    (off = 0x00 → v.extractLsb' 0 2 = 1#2 → step s = .next (beginCommand s1)) ∧
    (off = 0x00 → v.extractLsb' 0 2 = 2#2 → step s = .next (acknowledge s1)) ∧
    (off = 0x00 → v.extractLsb' 0 2 ≠ 1#2 → v.extractLsb' 0 2 ≠ 2#2 → step s = .next s1) ∧
    (off = 0x04 → s.st ≠ .busy → step s = .next { s1 with cmd := v.extractLsb' 0 2 }) ∧
    (off = 0x14 → s.st ≠ .busy → step s = .next { s1 with inLen := v }) ∧
    ((off = 0x04 ∨ off = 0x14) → s.st = .busy → step s = .next s1) ∧
    (off ≠ 0x00 → off ≠ 0x04 → off ≠ 0x14 → step s = .next s1)

/-- While not BUSY the buffers are plain storage; outside the buffer a write is ignored and a read
returns some value. Rests on 20_memory.md rule R66; 93_implementation_defined.md U6. What is the
model's own or its choice in it: log entry 5. -/
def Obligations.BufferAccessesArePlainStorage : Prop :=
  ∀ (s : State) (sp : Space) (off : Nat) (b : Byte) (rest : List Turn), s.st ≠ .busy →
    (s.script = .host (.bufWrite sp off b) :: rest → off < capOf s sp →
      ∃ t, step s = .next t ∧ bufByte t sp off = b ∧
        (∀ sp' a, (sp', a) ≠ (sp, off) → bufByte t sp' a = bufByte s sp' a) ∧
        t = { s with script := rest, ibuf := t.ibuf, obuf := t.obuf }) ∧
    (s.script = .host (.bufWrite sp off b) :: rest → capOf s sp ≤ off →
      step s = .next { s with script := rest }) ∧
    (s.script = .host (.bufRead sp off) :: rest → off < capOf s sp →
      step s = .next
        { s with script := rest, hostLog := (bufByte s sp off).setWidth 32 :: s.hostLog }) ∧
    (s.script = .host (.bufRead sp off) :: rest → capOf s sp ≤ off →
      ∃ x : Byte, step s = .next
        { s with script := rest, hostLog := x.setWidth 32 :: s.hostLog, draws := s.draws + 1 })

/-- While BUSY no host move but reset changes the block, and registers read BUSY, 0, 0, 0 and their
stable values. Formalises R367. What is the model's own or its choice in it: log entry 5. -/
def Obligations.BusyLocksTheHost : Prop :=
  ∀ (s : State) (m : Move) (rest : List Turn), s.st = .busy → StatusCoherent s → m ≠ .reset →
    s.script = .host m :: rest →
    (∃ t, step s = .next t ∧
      t = { s with script := rest, hostLog := t.hostLog, hostMatch := t.hostMatch, draws := t.draws } ∧
      (∀ sp off, m = .bufRead sp off →
        t.hostLog = (Config.freeByte s.draws).setWidth 32 :: s.hostLog ∧ t.draws = s.draws + 1) ∧
      (∀ off, off % 4 = 0 → m = .regRead 4 off → t.hostLog = regValue s off :: s.hostLog)) ∧
    regValue s 0x08 = 1#32 ∧ regValue s 0x0C = 0#32 ∧ regValue s 0x10 = 0#32 ∧
    regValue s 0x18 = 0#32 ∧ regValue s 0x00 = 0#32 ∧
    regValue s 0x04 = s.cmd.setWidth 32 ∧ regValue s 0x14 = s.inLen

/-- Reset, from any state, gives the registers and PHASE their reset values and leaves no buffer byte
defined. Formalises R360. -/
def Obligations.ResetMoveRestoresTheRegisters : Prop :=
  ∀ (s : State) (rest : List Turn), s.script = .host .reset :: rest →
    ∃ t, step s = .next t ∧
      t.cmd = 0#2 ∧ t.inLen = 0#32 ∧ t.outLen = 0#32 ∧ t.err = .none ∧ t.errInfo = .none ∧
      t.st = .idle ∧ t.phase = .idle ∧
      (∀ a, Table.find? t.ibuf a = none ∧ Table.find? t.obuf a = none) ∧
      (rest = [] → step t = .next t)

/-- The reset state has the register values the spec gives and meets the invariant of the block. Rests
on 00_scope.md rule R6; 10_state.md rule R43; 70_reset_and_hazards.md rule R360. What is the model's
own or its choice in it: log entries 2, 3. -/
def Obligations.ResetStateIsSound : Prop :=
  (∀ ibufCap obufCap : Word, let s := State.resetWith ibufCap obufCap
    s.cmd = 0#2 ∧ s.inLen = 0#32 ∧ s.st = .idle ∧ s.err = .none ∧ s.errInfo = .none ∧
    s.outLen = 0#32 ∧ s.phase = .idle ∧ (∀ a, Table.find? s.ibuf a = none) ∧
    (∀ a, Table.find? s.obuf a = none) ∧ s.ibufCap = ibufCap ∧ s.obufCap = obufCap ∧ Sound s) ∧
  ∃ ibufCap obufCap : Word, State.reset = State.resetWith ibufCap obufCap

/-- An error makes its five writes, keeps CMD, IN_LEN and IBUF, and leaves no byte of OBUF defined.
Formalises R325, R326. -/
def Obligations.RaiseRecordsTheError : Prop :=
  ∀ (e : ErrInfo) (s : State),
    (raise e s).err = e.cls ∧ (raise e s).errInfo = e ∧ (raise e s).outLen = 0#32 ∧
    (raise e s).st = .error ∧ (raise e s).phase = .idle ∧
    (raise e s).cmd = s.cmd ∧ (raise e s).inLen = s.inLen ∧
    (raise e s).ibuf = s.ibuf ∧ (raise e s).ibufEra = s.ibufEra ∧
    (∀ a, Table.find? (raise e s).obuf a = none) ∧ (raise e s).obufEra ≠ s.obufEra

/-- The only exits from ERROR are the CLEAR action and reset. Formalises R327. -/
def Obligations.ErrorIsLeftOnlyByClearOrReset : Prop :=
  (∀ s t : State, s.st = .error → step s = .next t → t.st ≠ .error →
    t.st = .idle ∧ t.err = .none ∧ t.errInfo = .none ∧ t.outLen = 0#32 ∧
    ∃ rest, s.script = .host .reset :: rest ∨
      ∃ v : Word, v.extractLsb' 0 2 = 2#2 ∧ s.script = .host (.regWrite 4 0x00 v) :: rest) ∧
  (∀ (s : State) (v : BitVec 30), s.st = .error → exec (.start v) s = .next s) ∧
  (∀ s : State, s.st = .error → s.script = [] → step s = .next s)

/-- CHECK tests the command, then the capacity, then chooses the first phase. Formalises R134. -/
def Obligations.CheckPhaseDecidesInOrder : Prop :=
  ∀ s : State,
    (s.cmd ≠ 1#2 → s.cmd ≠ 2#2 → exec .pCheck s = .next (raise .badCmd s)) ∧
    ((s.cmd = 1#2 ∨ s.cmd = 2#2) → s.ibufCap.toNat < s.inLen.toNat →
      exec .pCheck s = .next (raise .inRange s)) ∧
    ((s.cmd = 1#2 ∨ s.cmd = 2#2) → s.inLen.toNat ≤ s.ibufCap.toNat →
      exec .pCheck s = .next { s with
        ipos := 0#32
        opos := 0#32
        phase :=
          if s.cmd = 1#2 then (if s.inLen.toNat = 0 then .empty else .fcount) else .dhead })

/-- FINISH sets OUT_LEN to OPOS, ST to DONE and PHASE to P_IDLE at once, and keeps the written result
bytes. Rests on 40_commands.md rule R137; 70_reset_and_hazards.md rule R371. What is the model's own
or its choice in it: log entry 6. -/
def Obligations.FinishPublishesTheResult : Prop :=
  ∀ s : State, ∃ t, exec .pFinish s = .next t ∧
    t = { s with
      outLen := s.opos
      st := .done
      phase := .idle
      obuf := t.obuf
      obufEra := t.obufEra } ∧
    ∀ a, a < s.opos.toNat → (Table.find? s.obuf a).isSome = true → readOut t a = readOut s a

/-- EMPTY emits the one byte 0x45, or raises OUT_RANGE when there is no room. Formalises R272. -/
def Obligations.EmptyPhaseWritesTheToken : Prop :=
  ∀ s : State,
    (s.opos.toNat < s.obufCap.toNat →
      ∃ u, exec .pEmpty s = .next u ∧ Wrote [0x45#8] s u ∧
        u = { s with obuf := u.obuf, opos := u.opos, phase := .finish }) ∧
    (s.obufCap.toNat ≤ s.opos.toNat → exec .pEmpty s = .next (raise .outRange s))

/-- FCOUNT counts each byte value of the input, and K the values that occur. Formalises R161. -/
def Obligations.FcountCountsEveryByte : Prop :=
  ∀ s : State, ∃ u, exec .pFcount s = .next u ∧
    (∀ i, i < 256 → freqAt u i = (input s).countP (fun b => b.toNat == i)) ∧
    ((List.range 256).map (freqAt u)).sum = s.inLen.toNat ∧
    u.k.toNat = ((List.range 256).filter (fun i => decide (0 < freqAt u i))).length ∧
    u.ipos = s.inLen ∧
    u = { s with freq := u.freq, k := u.k, ipos := u.ipos, phase := .hinit }

/-- HINIT makes one leaf per symbol that occurs, in ascending order, and enqueues exactly these.
Formalises R173. -/
def Obligations.HinitEnqueuesTheLeaves : Prop :=
  ∀ s : State, ∃ u, exec .pHinit s = .next u ∧
    let syms := (List.range 256).filter (fun i => decide (0 < freqAt s i))
    u.nn.toNat = syms.length ∧
    (∀ j, j < syms.length →
      (nodeAt u.arena j).kind = .leaf ∧
      (nodeAt u.arena j).sym = BitVec.ofNat 8 (syms.getD j 0) ∧
      (nodeAt u.arena j).w = freqAt s (syms.getD j 0)) ∧
    (∀ j, syms.length ≤ j → nodeAt u.arena j = nodeAt s.arena j) ∧
    u.heap.Perm ((List.range u.nn.toNat).map (BitVec.ofNat 9)) ∧ IsHeap (less u.arena) u.heap ∧
    u.phase = (if s.k = 1#9 then .hwrap else .hmerge) ∧
    u = { s with arena := u.arena, nn := u.nn, heap := u.heap, phase := u.phase }

/-- The binary heap meets the queue: insert adds the index, extract_min takes the least one. Formalises
R172. -/
def Obligations.HeapKeepsThePriorityQueue : Prop :=
  ∀ (arena : Table Node) (h : List Index), IsHeap (less arena) h → h.Nodup →
    (∀ n, n ∉ h →
      IsHeap (less arena) (heapInsert (less arena) n h) ∧
      (heapInsert (less arena) n h).Perm (n :: h)) ∧
    (h ≠ [] → ∃ m rest, heapExtract (less arena) h = some (m, rest) ∧
      (∀ q ∈ h, q ≠ m → less arena m q = true) ∧
      h.Perm (m :: rest) ∧ IsHeap (less arena) rest)

/-- HMERGE ends with an empty queue and PHASE P_CGEN, and keeps every entry that was in use. Rests on
42_tree_builder.md rule R175. What is the model's own or its choice in it: log entry 13. -/
def Obligations.HmergeEmptiesTheQueue : Prop :=
  ∀ s : State, ∃ u, exec .pHmerge s = .next u ∧ u.heap = [] ∧
    u.nn = s.nn + BitVec.ofNat 10 (s.heap.length - 1) ∧
    (∀ i, s.nn.toNat + s.heap.length ≤ 512 → i < s.nn.toNat → nodeAt u.arena i = nodeAt s.arena i) ∧
    (s.heap ≠ [] → u.draws = s.draws) ∧
    u = { s with
      arena := u.arena
      nn := u.nn
      heap := u.heap
      root := u.root
      draws := u.draws
      phase := .cgen }

/-- HMERGE joins K leaves by joining the two least of the queue each round: NN = 2K-1, ROOT = 2K-2.
Rests on 42_tree_builder.md rules R171, R175, R176; 10_state.md rule R44. -/
def Obligations.HmergeBuildsAHuffmanTree : Prop :=
  ∀ s : State, 2 ≤ s.nn.toNat → s.nn.toNat ≤ 256 →
    (∀ i, i < s.nn.toNat → (nodeAt s.arena i).kind = .leaf) →
    s.heap.Perm ((List.range s.nn.toNat).map (BitVec.ofNat 9)) → IsHeap (less s.arena) s.heap →
    ∃ u t, exec .pHmerge s = .next u ∧
      u.nn.toNat = 2 * s.nn.toNat - 1 ∧ u.root.toNat = 2 * s.nn.toNat - 2 ∧
      (∀ i, s.nn.toNat ≤ i → i < u.nn.toNat →
        let l := (nodeAt u.arena i).left
        let r := (nodeAt u.arena i).right
        let queued : Index → Prop := fun x => x.toNat < i ∧
          ∀ j, s.nn.toNat ≤ j → j < i → x ≠ (nodeAt u.arena j).left ∧ x ≠ (nodeAt u.arena j).right
        (nodeAt u.arena i).kind = .internal ∧ queued l ∧ queued r ∧ less u.arena l r = true ∧
        (∀ x, queued x → x ≠ l → x ≠ r → less u.arena r x = true) ∧
        (nodeAt u.arena i).w = (nodeAt u.arena l.toNat).w + (nodeAt u.arena r.toNat).w) ∧
      rootTree u = some t ∧
      ((leaves t []).map (fun e => e.2)).Perm
        ((List.range s.nn.toNat).map (fun i => (nodeAt s.arena i).sym)) ∧
      (∀ e ∈ leaves t [], 1 ≤ e.1.length ∧ e.1.length ≤ s.nn.toNat - 1) ∧
      (nodeAt u.arena u.root.toNat).w =
        ((List.range s.nn.toNat).map (fun i => (nodeAt s.arena i).w)).sum

/-- HWRAP gives the sole leaf a duplicate placeholder and a root above both. Formalises R177. -/
def Obligations.HwrapWrapsTheSoleLeaf : Prop :=
  ∀ s : State, ∃ u, exec .pHwrap s = .next u ∧
    (nodeAt u.arena 1).kind = .leaf ∧ (nodeAt u.arena 1).sym = (nodeAt s.arena 0).sym ∧
    (nodeAt u.arena 1).w = 0 ∧
    (nodeAt u.arena 2).kind = .internal ∧ (nodeAt u.arena 2).left = 0#9 ∧
    (nodeAt u.arena 2).right = 1#9 ∧ (nodeAt u.arena 2).w = (nodeAt s.arena 0).w ∧
    (∀ i, i ≠ 1 → i ≠ 2 → nodeAt u.arena i = nodeAt s.arena i) ∧
    u = { s with arena := u.arena, nn := 3#10, heap := [], root := 2#9, phase := .cgen } ∧
    ((nodeAt s.arena 0).kind = .leaf →
      rootTree u = some (.node (.leaf (nodeAt s.arena 0).sym) (.leaf (nodeAt s.arena 0).sym))) ∧
    ∀ x : Byte, codeFor (.node (.leaf x) (.leaf x)) x = some [false]

/-- CGEN records every leaf in INV and the first leaf of each symbol as its code; the collision check
never fires. Formalises R203, R205. -/
def Obligations.CgenRecordsTheCodeBook : Prop :=
  ∀ (s : State) (t : Tree), rootTree s = some t →
      ∃ u, exec .pCgen s = .next u ∧ u.inv = leaves t [] ∧
        (∀ i, i < 256 →
          (cbLenAt u i).toNat = ((codeFor t (BitVec.ofNat 8 i)).getD []).length ∧
          codeOf u i = (codeFor t (BitVec.ofNat 8 i)).getD []) ∧
        u = { s with inv := u.inv, cbLen := u.cbLen, cbBits := u.cbBits, phase := .size }

/-- No leaf path of a tree is a prefix of the path of another leaf. Rests on 43_codebook.md rules R201,
R204. -/
def Obligations.LeafPathsArePrefixFree : Prop :=
  ∀ t : Tree,
    (∀ i j, i < (leaves t []).length → j < (leaves t []).length → i ≠ j →
      ¬ ((leaves t []).getD i ([], 0#8)).1 <+: ((leaves t []).getD j ([], 0#8)).1) ∧
    (∀ l r, t = .node l r → ∀ e ∈ leaves t [], 1 ≤ e.1.length)

/-- The Kraft sum over the leaves of a tree is 1. Rests on 43_codebook.md rule R208. -/
def Obligations.KraftSumIsOne : Prop :=
  ∀ (t : Tree) (D : Nat), (∀ e ∈ leaves t [], e.1.length ≤ D) →
    ((leaves t []).map (fun e => 2 ^ (D - e.1.length))).sum = 2 ^ D

/-- SIZE computes BITLEN and raises OUT_RANGE before any byte is written if the artifact does not fit.
Rests on 46_encoder_engine.md rule R274; 30_encoding.md rule R98. -/
def Obligations.SizeChecksTheWholeArtifact : Prop :=
  ∀ s : State,
    let bits : BitVec 64 :=
      BitVec.ofNat 64 (((List.range 256).map (fun i => freqAt s i * (cbLenAt s i).toNat)).sum)
    let total := 3 * ((s.nn.toNat + 1) / 2) + 8 + ceil8 bits.toNat
    (total ≤ s.obufCap.toNat →
      exec .pSize s = .next { s with bitlen := bits, phase := .tser }) ∧
    (s.obufCap.toNat < total → exec .pSize s = .next (raise .outRange { s with bitlen := bits }))

/-- TSER writes serialize(tree_of(ROOT)) at OPOS. Formalises R221. -/
def Obligations.TserWritesTheSerializedTree : Prop :=
  ∀ (s : State) (t : Tree), rootTree s = some t →
      (s.opos.toNat + (serialize t).length ≤ s.obufCap.toNat →
        ∃ u, exec .pTser s = .next u ∧ Wrote (serialize t) s u ∧
          u = { s with obuf := u.obuf, opos := u.opos, phase := .hdr }) ∧
      (s.obufCap.toNat < s.opos.toNat + (serialize t).length →
        ∃ v, exec .pTser s = .next (raise .outRange v) ∧
          v = { s with obuf := v.obuf, opos := v.opos })

/-- CGEN and TSER stop with noTree exactly where the entries at ROOT form no tree of depth at most 255.
Rests on 10_state.md rule R44; 43_codebook.md rule R203; 44_tree_codec.md rules R221, R229. What is
the model's own or its choice in it: log entry 12. -/
def Obligations.TreePhasesStopWithoutATree : Prop :=
  ∀ s : State,
    (rootTree s = none ↔ exec .pCgen s = .fault .noTree) ∧
    (rootTree s = none ↔ exec .pTser s = .fault .noTree)

/-- A tree with L leaves has 2L-1 nodes and serializes to 3L-1 bytes. Rests on 44_tree_codec.md rule
R222; 30_encoding.md rule R98. -/
def Obligations.SerializedLengthIsThreeLMinusOne : Prop :=
  ∀ t : Tree, (serialize t).length + 1 = 3 * leafCount t ∧ nodeCount t + 1 = 2 * leafCount t

/-- HDR writes 0x7C and the eight bytes of BITLEN, most significant first. Formalises R275. -/
def Obligations.HdrWritesDelimiterAndLength : Prop :=
  ∀ s : State,
    (s.opos.toNat + 9 ≤ s.obufCap.toNat →
      ∃ u, exec .pHdr s = .next u ∧
        Wrote (0x7C#8 :: (List.range 8).map (fun k => s.bitlen.extractLsb' (8 * (7 - k)) 8)) s u ∧
        u = { s with obuf := u.obuf, opos := u.opos, phase := .encode }) ∧
    (s.obufCap.toNat < s.opos.toNat + 9 →
      ∃ v, exec .pHdr s = .next (raise .outRange v) ∧
        v = { s with obuf := v.obuf, opos := v.opos })

/-- ENCODE emits the full bytes of pack of the concatenated codes and holds the rest in ACC. Formalises
R252. -/
def Obligations.EncodePacksTheCodes : Prop :=
  (∀ (b : Bool) (s : State),
    let acc := s.acc ||| (if b then 1#8 <<< (7 - s.accN.toNat) else 0#8)
    (s.accN ≠ 7#3 → putBit b s = .go { s with acc := acc, accN := s.accN + 1#3 }) ∧
    (s.accN = 7#3 → s.opos.toNat < s.obufCap.toNat →
      ∃ u, putBit b s = .go u ∧ Wrote [acc] s u ∧
        u = { s with obuf := u.obuf, opos := u.opos, acc := 0#8, accN := 0#3 })) ∧
  ∀ s : State,
    let bits := (input s).flatMap (fun b => codeOf s b.toNat)
    (bits.length / 8 = 0 ∨ s.opos.toNat + bits.length / 8 ≤ s.obufCap.toNat →
      ∃ u, exec .pEncode s = .next u ∧ Wrote ((pack bits).take (bits.length / 8)) s u ∧
        u.accN.toNat = bits.length % 8 ∧
        u.acc = (if bits.length % 8 = 0 then 0#8 else (pack bits).getD (bits.length / 8) 0#8) ∧
        u.ipos = s.inLen ∧
        u = { s with
          obuf := u.obuf
          opos := u.opos
          acc := u.acc
          accN := u.accN
          ipos := u.ipos
          phase := .flush }) ∧
    (0 < bits.length / 8 → s.obufCap.toNat < s.opos.toNat + bits.length / 8 →
      ∃ v, exec .pEncode s = .next (raise .outRange v))

/-- FLUSH writes ACC if it holds bits, and nothing when BITLEN is a multiple of 8. Formalises R253. -/
def Obligations.FlushWritesThePartialByte : Prop :=
  ∀ s : State,
    (s.accN = 0#3 → exec .pFlush s = .next { s with phase := .finish }) ∧
    (s.accN ≠ 0#3 → s.opos.toNat < s.obufCap.toNat →
      ∃ u, exec .pFlush s = .next u ∧ Wrote [s.acc] s u ∧
        u = { s with
          obuf := u.obuf
          opos := u.opos
          acc := 0#8
          accN := 0#3
          phase := .finish }) ∧
    (s.accN ≠ 0#3 → s.obufCap.toNat ≤ s.opos.toNat → exec .pFlush s = .next (raise .outRange s))

/-- unpack(pack(bits), len(bits)) = bits for every bit string. Formalises R256. -/
def Obligations.UnpackInvertsPack : Prop :=
  ∀ c : List Bool, unpack (pack c) c.length = c

/-- DHEAD: empty input TRUNCATED; 0x45 alone is the empty artifact, with more TRAILING; else on to TDES.
Formalises R291. -/
def Obligations.DheadLooksAtTheHead : Prop :=
  ∀ s : State,
    (s.inLen = 0#32 → exec .pDhead s = .next (raise .truncated s)) ∧
    (s.inLen ≠ 0#32 → readIn s 0 = 0x45#8 → s.inLen ≠ 1#32 →
      exec .pDhead s = .next (raise .trailing s)) ∧
    (s.inLen = 1#32 → readIn s 0 = 0x45#8 →
      exec .pDhead s = .next { s with phase := .finish }) ∧
    (s.inLen ≠ 0#32 → readIn s 0 ≠ 0x45#8 → exec .pDhead s = .next { s with phase := .tdes }) ∧
    ∀ rest, decode (.artifact .marker (0x45#8 :: rest)) = .error (.badMarker 0x45#8)

/-- TDES accepts exactly the inputs that begin with serialize(t) for a tree of at most 511 nodes, and
builds t. Formalises R232. -/
def Obligations.TdesInvertsSerialize : Prop :=
  (∀ (s : State) (t : Tree) (rest : List Byte),
    input s = serialize t ++ rest → nodeCount t ≤ 511 →
    ∃ u, exec .pTdes s = .next u ∧ rootTree u = some t ∧ u.root = 0#9 ∧
      u.nn.toNat = nodeCount t ∧ u.ipos.toNat = (serialize t).length ∧
      u = { s with
        arena := u.arena
        nn := u.nn
        root := u.root
        stack := []
        ipos := u.ipos
        phase := .delim
        fine := false }) ∧
  (∀ s u : State, exec .pTdes s = .next u → u.phase = .delim →
    ∃ t rest, rootTree u = some t ∧ nodeCount t ≤ 511 ∧ input s = serialize t ++ rest ∧
      u.ipos.toNat = (serialize t).length) ∧
  (∀ t1 t2 r1 r2, serialize t1 ++ r1 = serialize t2 ++ r2 → t1 = t2 ∧ r1 = r2)

/-- A BRANCH token opens one more pending subtree, a LEAF token closes one; the 512th node is TOO_LARGE.
Rests on 44_tree_codec.md rules R228, R229; 30_encoding.md rule R94. What is the model's own or its
choice in it: log entry 9. -/
def Obligations.TreeTokensBuildTheArena : Prop :=
  ∀ (s : State) (sym : Byte), let e := parseEnter s
    (e.nn.toNat < 511 →
      (∃ u, exec .tokBranch s = .next u ∧ (nodeAt u.arena e.nn.toNat).kind = .internal ∧
        (nextIndex e).toNat = e.nn.toNat ∧
        (∀ i, i ≠ e.nn.toNat → nodeAt u.arena i = nodeAt e.arena i) ∧
        pendingRight u.stack = pendingRight e.stack + 1 ∧
        u = { e with
          arena := u.arena
          nn := e.nn + 1#10
          stack := .left (nextIndex e) :: e.stack
          ipos := e.ipos + 1#32 }) ∧
      (∃ u, exec (.tokLeaf sym) s = .next u ∧ (nodeAt u.arena e.nn.toNat).kind = .leaf ∧
        (nodeAt u.arena e.nn.toNat).sym = sym ∧
        (∀ i, i ≠ e.nn.toNat → (nodeAt u.arena i).kind = (nodeAt e.arena i).kind ∧
          (nodeAt u.arena i).sym = (nodeAt e.arena i).sym) ∧
        (pendingRight e.stack = 0 → u.stack = [] ∧ u.phase = .delim ∧ u.fine = false) ∧
        (0 < pendingRight e.stack →
          pendingRight u.stack + 1 = pendingRight e.stack ∧ u.phase = e.phase ∧ u.fine = true) ∧
        u = { e with
          arena := u.arena
          nn := e.nn + 1#10
          root := u.root
          stack := u.stack
          ipos := e.ipos + 2#32
          phase := u.phase
          fine := u.fine })) ∧
    (511 ≤ e.nn.toNat →
      exec .tokBranch s = .next (raise .tooLarge e) ∧
      exec (.tokLeaf sym) s = .next (raise .tooLarge e))

/-- DELIM: NO_DELIM at the end of the artifact, BAD_DELIM for another byte, else past it to RDLEN.
Formalises R293. -/
def Obligations.DelimPhaseChecksTheByte : Prop :=
  ∀ s : State,
    (s.inLen.toNat ≤ s.ipos.toNat → exec .pDelim s = .next (raise .noDelim s)) ∧
    (s.ipos.toNat < s.inLen.toNat → readIn s s.ipos.toNat ≠ 0x7C#8 →
      exec .pDelim s = .next (raise .badDelim s)) ∧
    (s.ipos.toNat < s.inLen.toNat → readIn s s.ipos.toNat = 0x7C#8 →
      exec .pDelim s = .next { s with ipos := s.ipos + 1#32, phase := .rdlen })

/-- RDLEN: NO_LENGTH with fewer than 8 bytes left, else BITLEN is read most significant byte first.
Formalises R294. -/
def Obligations.RdlenReadsTheLength : Prop :=
  ∀ s : State,
    ((s.inLen - s.ipos).toNat < 8 → exec .pRdlen s = .next (raise .noLength s)) ∧
    (8 ≤ (s.inLen - s.ipos).toNat →
      ∃ u, exec .pRdlen s = .next u ∧
        u.bitlen.toNat =
          ((List.range 8).map (fun k => (readIn s (s.ipos.toNat + k)).toNat * 2 ^ (8 * (7 - k)))).sum ∧
        u = { s with bitlen := u.bitlen, ipos := s.ipos + 8#32, phase := .chklen }) ∧
    (s.ipos.toNat ≤ s.inLen.toNat → (s.inLen - s.ipos).toNat = s.inLen.toNat - s.ipos.toNat)

/-- CHKLEN demands exactly ceil8(BITLEN) payload bytes. Formalises R295. -/
def Obligations.ChklenDemandsEquality : Prop :=
  ∀ s : State,
    ((s.inLen - s.ipos).toNat ≠ (s.bitlen.toNat + 7) / 8 →
      exec .pChklen s = .next (raise .lenMismatch s)) ∧
    ((s.inLen - s.ipos).toNat = (s.bitlen.toNat + 7) / 8 →
      exec .pChklen s = .next { s with bitpos := 0#64, phase := .walk } ∧
      s.bitlen.toNat ≤ 8 * (s.inLen - s.ipos).toNat ∧ s.bitlen.toNat < 2 ^ 35)

/-- The items TOK_EMPTY, DELIM and BITLEN do what their phases do once they have read them. Rests on
47_decoder_engine.md rules R291, R293, R294; 30_encoding.md rules R91, R95, R96; 40_commands.md rule
R138. What is the model's own or its choice in it: log entry 9. -/
def Obligations.ItemsOfHeadDelimiterAndLength : Prop :=
  ∀ (s : State) (n : BitVec 64),
    (s.inLen = 1#32 → exec .tokEmpty s = .next { s with phase := .finish }) ∧
    (s.inLen ≠ 1#32 → exec .tokEmpty s = .next (raise .trailing s)) ∧
    exec .delim s = .next { s with ipos := s.ipos + 1#32, phase := .rdlen } ∧
    exec (.bitlen n) s = .next { s with bitlen := n, ipos := s.ipos + 8#32, phase := .chklen }

/-- WALK on a tree at ROOT emits the symbols of the walk of that tree over the payload bits. Rests on
47_decoder_engine.md rule R296; 45_bit_packer.md rule R255. -/
def Obligations.WalkEmitsTheDecodedSymbols : Prop :=
  ∀ (s : State) (t : Tree), rootTree s = some t → s.bitpos.toNat ≤ s.bitlen.toNat →
    match walkTree t (s.obufCap.toNat - s.opos.toNat) none
        (payloadBitsFrom s (s.bitlen.toNat - s.bitpos.toNat)) with
    | .ok (out, stand) =>
      ∃ u, exec .pWalk s = .next u ∧ Wrote out s u ∧ (u.cur = s.root ↔ stand = none) ∧
        u = { s with
          obuf := u.obuf
          opos := u.opos
          cur := u.cur
          bitpos := s.bitlen
          phase := .wend
          fine := false }
    | .error e =>
      ∃ v, exec .pWalk s = .next (raise e v) ∧
        v = { s with obuf := v.obuf, opos := v.opos, cur := v.cur, bitpos := v.bitpos }

/-- NULL_CHILD is raised exactly when the tree is a single LEAF and there is a bit to consume.
Formalises R297. -/
def Obligations.NullChildOnlyForARootLeaf : Prop :=
  ∀ (s : State) (t : Tree), rootTree s = some t → s.bitpos = 0#64 → s.errInfo ≠ .nullChild →
    ((∃ u, exec .pWalk s = .next u ∧ u.errInfo = .nullChild) ↔
      ((∃ x, t = .leaf x) ∧ 1 ≤ s.bitlen.toNat)) ∧
    ((∃ x, t = .leaf x) → 1 ≤ s.bitlen.toNat →
      exec .pWalk s = .next (raise .nullChild { s with cur := s.root, bitpos := 1#64 })) ∧
    ((∃ x, t = .leaf x) → s.bitlen.toNat = 0 →
      exec .pWalk s = .next { s with cur := s.root, phase := .wend, fine := false })

/-- PAYLOAD_BYTE walks the payload bits of its byte and leaves padding bits alone. Rests on
47_decoder_engine.md rule R296; 30_encoding.md rules R97, R114; 40_commands.md rule R138. What is
the model's own or its choice in it: log entry 9. -/
def Obligations.PayloadByteWalksItsBits : Prop :=
  ∀ (s : State) (b : Byte) (l r : Tree), rootTree s = some (.node l r) → s.fine = false →
    s.opos.toNat + 8 ≤ s.obufCap.toNat →
    let n := min (8 - s.bitpos.toNat % 8) (s.bitlen.toNat - s.bitpos.toNat)
    let bits := (List.range n).map (fun i => bitOf b (s.bitpos.toNat + i))
    ∃ u out stand, exec (.payloadByte b) s = .next u ∧
      walkTree (.node l r) (s.obufCap.toNat - s.opos.toNat) none bits = .ok (out, stand) ∧
      Wrote out s u ∧ (u.cur = s.root ↔ stand = none) ∧
      u = { s with
        obuf := u.obuf
        opos := u.opos
        cur := u.cur
        bitpos := s.bitpos + BitVec.ofNat 64 n
        phase := if s.bitlen.toNat ≤ s.bitpos.toNat + n then .wend else s.phase
        fine := if s.bitlen.toNat ≤ s.bitpos.toNat + n then false else true }

/-- WEND raises INCOMPLETE unless the walk ended at ROOT. Formalises R298. -/
def Obligations.WendDemandsAWholeCode : Prop :=
  ∀ s : State,
    (s.cur ≠ s.root → exec .pWend s = .next (raise .incomplete s) ∧
      (raise .incomplete s).outLen = 0#32 ∧ (raise .incomplete s).st = .error ∧
      (raise .incomplete s).err = .decode) ∧
    (s.cur = s.root → exec .pWend s = .next { s with phase := .finish })

/-- Every phase ends in its successor of the phase graph or in an error. Formalises R136. -/
def Obligations.PhasesFollowTheGraph : Prop :=
  (∀ (p : Phase) (s t : State), p ≠ .idle → s.phase = p → s.st = .busy →
    exec (phaseInstr p) s = .next t →
    (t.st = .error ∧ t.phase = .idle) ∨
    (t.phase ∈ successors p ∧
      (p ≠ .finish → t.st = .busy) ∧ (p = .finish → t.st = .done) ∧
      (p = .check → t.phase =
        if s.cmd = 1#2 then (if s.inLen = 0#32 then .empty else .fcount) else .dhead) ∧
      (p = .check → s.cmd = 1#2 ∨ s.cmd = 2#2) ∧
      (p = .hinit → t.phase = if s.k = 1#9 then .hwrap else .hmerge) ∧
      (p = .dhead → t.phase = if s.inLen = 1#32 ∧ readIn s 0 = 0x45#8 then .finish else .tdes))) ∧
  (∀ (s : State) (v : BitVec 30), s.st = .idle ∨ s.st = .done →
    ∃ t, exec (.start v) s = .next t ∧ t.phase = .check)

/-- No phase and no item writes IBUF, CMD, IN_LEN or the capacities, and no step changes the capacities.
Rests on 20_memory.md rule R60; 10_state.md rules R21, R39; 00_scope.md rule R10. -/
def Obligations.CoreLeavesTheHostSide : Prop :=
  (∀ (i : Instr) (s t : State), isCoreInstr i = true → exec i s = .next t →
    t.ibuf = s.ibuf ∧ t.ibufEra = s.ibufEra ∧ t.cmd = s.cmd ∧ t.inLen = s.inLen ∧
    t.ibufCap = s.ibufCap ∧ t.obufCap = s.obufCap ∧
    t.script = s.script ∧ t.hostLog = s.hostLog ∧ t.hostMatch = s.hostMatch) ∧
  (∀ s t : State, step s = .next t → t.ibufCap = s.ibufCap ∧ t.obufCap = s.obufCap)

/-- From every state that meets the invariant of the block, a step ends in a next state that meets it.
Rests on 10_state.md rules R25, R27, R28, R31, R33, R44; 20_memory.md rules R64, R65; 40_commands.md
rule R136; 60_exceptions.md rule R334. What is the model's own or its choice in it: log entry 9. -/
def Obligations.SoundStatesStepToSoundStates : Prop :=
  ∀ s : State, Sound s → ∃ t, step s = .next t ∧ Sound t

/-- Every running command ends in DONE or ERROR within eleven phases. Rests on 40_commands.md rule R139. -/
def Obligations.CommandsEnd : Prop :=
  ∀ s : State, Sound s → s.st = .busy → s.script = [] → s.fine = false →
    Reaches 11 s (fun t => t.st = .done ∨ t.st = .error)

/-- COMPRESS ends in DONE with the artifact of its input, or in the one capacity error that applies.
Formalises R140. -/
def Obligations.CompressComputesTheArtifact : Prop :=
  ∀ s : State, Started 1#2 s →
    (s.ibufCap.toNat < s.inLen.toNat → Reaches 11 s (EndsError .inRange)) ∧
    (s.inLen.toNat ≤ s.ibufCap.toNat →
      ((compressed (input s)).length ≤ s.obufCap.toNat →
        Reaches 11 s (EndsDone (compressed (input s)))) ∧
      (s.obufCap.toNat < (compressed (input s)).length → Reaches 11 s (EndsError .outRange))) ∧
    (input s = [] → compressed (input s) = [0x45#8]) ∧
    (input s ≠ [] → ∃ t, buildTree (input s) = some t ∧
      compressed (input s) = artifactOf t (input s))

/-- DECOMPRESS ends in DONE with the decoded bytes, or in the error of the first check that fails.
Formalises R141. -/
def Obligations.DecompressComputesTheOutput : Prop :=
  ∀ s : State, Started 2#2 s →
    (s.ibufCap.toNat < s.inLen.toNat → Reaches 9 s (EndsError .inRange)) ∧
    (s.inLen.toNat ≤ s.ibufCap.toNat →
      match decompressed s.obufCap.toNat (input s) with
      | .ok out => Reaches 9 s (EndsDone out)
      | .error e => Reaches 9 s (EndsError e) ∧
        e ∈ [.truncated, .badMarker, .tooLarge, .trailing, .noDelim, .badDelim, .noLength,
          .lenMismatch, .nullChild, .incomplete, .outRange])

/-- DECOMPRESS of what COMPRESS wrote ends in DONE with the original input. Formalises R142. -/
def Obligations.RoundTripRestoresTheInput : Prop :=
  ∀ s : State, Started 1#2 s → s.inLen.toNat ≤ s.ibufCap.toNat →
    (compressed (input s)).length ≤ s.obufCap.toNat →
    ∃ out, Reaches 11 s (EndsDone out) ∧
      ∀ s2 : State, Started 2#2 s2 → input s2 = out → s2.inLen.toNat ≤ s2.ibufCap.toNat →
        (input s).length ≤ s2.obufCap.toNat → Reaches 9 s2 (EndsDone (input s))

/-- Every proper prefix of an artifact COMPRESS wrote is rejected, with the error of the part it ends
in. Formalises R143. -/
def Obligations.TruncatedArtifactsAreRejected : Prop :=
  ∀ (s t s2 : State) (m n : Nat), Started 1#2 s → steps m s = .next t → t.st = .done →
    n < (result t).length → Started 2#2 s2 → input s2 = (result t).take n →
    s2.inLen.toNat ≤ s2.ibufCap.toNat →
    (input s = [] → Reaches 9 s2 (EndsError .truncated)) ∧
    (∀ tr, input s ≠ [] → buildTree (input s) = some tr →
      Reaches 9 s2 (EndsError
        (if n < (serialize tr).length then .truncated
         else if n = (serialize tr).length then .noDelim
         else if n < (serialize tr).length + 9 then .noLength
         else .lenMismatch)) ∧
      (serialize tr).length + 9 < (result t).length)

/-- The result of a command depends only on CMD, IN_LEN, the input bytes and the two capacities. Rests
on 00_scope.md rule R11; 10_state.md rule R45. -/
def Obligations.CommandResultIsAFunctionOfItsInput : Prop :=
  ∀ (c : BitVec 2) (s1 s2 : State), Started c s1 → Started c s2 →
    s1.inLen = s2.inLen → input s1 = input s2 → s1.ibufCap = s2.ibufCap → s1.obufCap = s2.obufCap →
    ∀ (n : Nat) (t1 t2 : State), steps n s1 = .next t1 → steps n s2 = .next t2 →
      t1.st = t2.st ∧ t1.err = t2.err ∧ t1.errInfo = t2.errInfo ∧ t1.outLen = t2.outLen ∧
      (t1.st = .done → result t1 = result t2)

/-- DECOMPRESS run item by item ends exactly as DECOMPRESS run phase by phase. Rests on 40_commands.md
rule R138. What is the model's own or its choice in it: log entry 9. -/
def Obligations.FineStepsGiveTheSameResult : Prop :=
  ∀ (s : State) (n : Nat), Begun 2#2 s → s.inLen.toNat ≤ s.ibufCap.toNat →
    s.script = List.replicate n .item → 7 + s.inLen.toNat ≤ n →
    match decompressed s.obufCap.toNat (input s) with
    | .ok out => Reaches n s (EndsDone out)
    | .error e => Reaches n s (EndsError e)
end

