-- ==== Sys2Proof/Laws/State.lean ====
section
/-! SUPPORT. One lemma per field per named update of the state, so that no proof unfolds a record update.
The updates that act on a condition (START, CLEAR, a CMD write) have one lemma per case and one per field
they never touch. -/

namespace Sys2Proof.Machine

/-! ### raise -/

@[simp] theorem raise_cmd (e : ErrInfo) (s : State) : (raise e s).cmd = s.cmd := rfl
@[simp] theorem raise_st (e : ErrInfo) (s : State) : (raise e s).st = .error := rfl
@[simp] theorem raise_err (e : ErrInfo) (s : State) : (raise e s).err = e.cls := rfl
@[simp] theorem raise_errInfo (e : ErrInfo) (s : State) : (raise e s).errInfo = e := rfl
@[simp] theorem raise_inLen (e : ErrInfo) (s : State) : (raise e s).inLen = s.inLen := rfl
@[simp] theorem raise_outLen (e : ErrInfo) (s : State) : (raise e s).outLen = 0#32 := rfl
@[simp] theorem raise_ibuf (e : ErrInfo) (s : State) : (raise e s).ibuf = s.ibuf := rfl
@[simp] theorem raise_obuf (e : ErrInfo) (s : State) : (raise e s).obuf = [] := rfl
@[simp] theorem raise_freq (e : ErrInfo) (s : State) : (raise e s).freq = s.freq := rfl
@[simp] theorem raise_k (e : ErrInfo) (s : State) : (raise e s).k = s.k := rfl
@[simp] theorem raise_arena (e : ErrInfo) (s : State) : (raise e s).arena = s.arena := rfl
@[simp] theorem raise_nn (e : ErrInfo) (s : State) : (raise e s).nn = s.nn := rfl
@[simp] theorem raise_root (e : ErrInfo) (s : State) : (raise e s).root = s.root := rfl
@[simp] theorem raise_heap (e : ErrInfo) (s : State) : (raise e s).heap = s.heap := rfl
@[simp] theorem raise_cbLen (e : ErrInfo) (s : State) : (raise e s).cbLen = s.cbLen := rfl
@[simp] theorem raise_cbBits (e : ErrInfo) (s : State) : (raise e s).cbBits = s.cbBits := rfl
@[simp] theorem raise_inv (e : ErrInfo) (s : State) : (raise e s).inv = s.inv := rfl
@[simp] theorem raise_phase (e : ErrInfo) (s : State) : (raise e s).phase = .idle := rfl
@[simp] theorem raise_ipos (e : ErrInfo) (s : State) : (raise e s).ipos = s.ipos := rfl
@[simp] theorem raise_opos (e : ErrInfo) (s : State) : (raise e s).opos = s.opos := rfl
@[simp] theorem raise_acc (e : ErrInfo) (s : State) : (raise e s).acc = s.acc := rfl
@[simp] theorem raise_accN (e : ErrInfo) (s : State) : (raise e s).accN = s.accN := rfl
@[simp] theorem raise_bitlen (e : ErrInfo) (s : State) : (raise e s).bitlen = s.bitlen := rfl
@[simp] theorem raise_bitpos (e : ErrInfo) (s : State) : (raise e s).bitpos = s.bitpos := rfl
@[simp] theorem raise_cur (e : ErrInfo) (s : State) : (raise e s).cur = s.cur := rfl
@[simp] theorem raise_stack (e : ErrInfo) (s : State) : (raise e s).stack = s.stack := rfl
@[simp] theorem raise_ibufCap (e : ErrInfo) (s : State) : (raise e s).ibufCap = s.ibufCap := rfl
@[simp] theorem raise_obufCap (e : ErrInfo) (s : State) : (raise e s).obufCap = s.obufCap := rfl
@[simp] theorem raise_script (e : ErrInfo) (s : State) : (raise e s).script = s.script := rfl
@[simp] theorem raise_fine (e : ErrInfo) (s : State) : (raise e s).fine = false := rfl
@[simp] theorem raise_hostLog (e : ErrInfo) (s : State) : (raise e s).hostLog = s.hostLog := rfl
@[simp] theorem raise_hostMatch (e : ErrInfo) (s : State) :
    (raise e s).hostMatch = s.hostMatch := rfl
@[simp] theorem raise_draws (e : ErrInfo) (s : State) : (raise e s).draws = s.draws := rfl
@[simp] theorem raise_ibufEra (e : ErrInfo) (s : State) : (raise e s).ibufEra = s.ibufEra := rfl
@[simp] theorem raise_obufEra (e : ErrInfo) (s : State) : (raise e s).obufEra = s.obufEra + 1 := rfl

/-! ### give -/

@[simp] theorem give_cmd (v : Word) (s : State) : (give v s).cmd = s.cmd := rfl
@[simp] theorem give_st (v : Word) (s : State) : (give v s).st = s.st := rfl
@[simp] theorem give_err (v : Word) (s : State) : (give v s).err = s.err := rfl
@[simp] theorem give_errInfo (v : Word) (s : State) : (give v s).errInfo = s.errInfo := rfl
@[simp] theorem give_inLen (v : Word) (s : State) : (give v s).inLen = s.inLen := rfl
@[simp] theorem give_outLen (v : Word) (s : State) : (give v s).outLen = s.outLen := rfl
@[simp] theorem give_ibuf (v : Word) (s : State) : (give v s).ibuf = s.ibuf := rfl
@[simp] theorem give_obuf (v : Word) (s : State) : (give v s).obuf = s.obuf := rfl
@[simp] theorem give_freq (v : Word) (s : State) : (give v s).freq = s.freq := rfl
@[simp] theorem give_k (v : Word) (s : State) : (give v s).k = s.k := rfl
@[simp] theorem give_arena (v : Word) (s : State) : (give v s).arena = s.arena := rfl
@[simp] theorem give_nn (v : Word) (s : State) : (give v s).nn = s.nn := rfl
@[simp] theorem give_root (v : Word) (s : State) : (give v s).root = s.root := rfl
@[simp] theorem give_heap (v : Word) (s : State) : (give v s).heap = s.heap := rfl
@[simp] theorem give_cbLen (v : Word) (s : State) : (give v s).cbLen = s.cbLen := rfl
@[simp] theorem give_cbBits (v : Word) (s : State) : (give v s).cbBits = s.cbBits := rfl
@[simp] theorem give_inv (v : Word) (s : State) : (give v s).inv = s.inv := rfl
@[simp] theorem give_phase (v : Word) (s : State) : (give v s).phase = s.phase := rfl
@[simp] theorem give_ipos (v : Word) (s : State) : (give v s).ipos = s.ipos := rfl
@[simp] theorem give_opos (v : Word) (s : State) : (give v s).opos = s.opos := rfl
@[simp] theorem give_acc (v : Word) (s : State) : (give v s).acc = s.acc := rfl
@[simp] theorem give_accN (v : Word) (s : State) : (give v s).accN = s.accN := rfl
@[simp] theorem give_bitlen (v : Word) (s : State) : (give v s).bitlen = s.bitlen := rfl
@[simp] theorem give_bitpos (v : Word) (s : State) : (give v s).bitpos = s.bitpos := rfl
@[simp] theorem give_cur (v : Word) (s : State) : (give v s).cur = s.cur := rfl
@[simp] theorem give_stack (v : Word) (s : State) : (give v s).stack = s.stack := rfl
@[simp] theorem give_ibufCap (v : Word) (s : State) : (give v s).ibufCap = s.ibufCap := rfl
@[simp] theorem give_obufCap (v : Word) (s : State) : (give v s).obufCap = s.obufCap := rfl
@[simp] theorem give_script (v : Word) (s : State) : (give v s).script = s.script := rfl
@[simp] theorem give_fine (v : Word) (s : State) : (give v s).fine = s.fine := rfl
@[simp] theorem give_hostLog (v : Word) (s : State) : (give v s).hostLog = v :: s.hostLog := rfl
@[simp] theorem give_hostMatch (v : Word) (s : State) : (give v s).hostMatch = s.hostMatch := rfl
@[simp] theorem give_draws (v : Word) (s : State) : (give v s).draws = s.draws := rfl
@[simp] theorem give_ibufEra (v : Word) (s : State) : (give v s).ibufEra = s.ibufEra := rfl
@[simp] theorem give_obufEra (v : Word) (s : State) : (give v s).obufEra = s.obufEra := rfl

/-! ### draw -/

@[simp] theorem draw_cmd (s : State) : (draw s).cmd = s.cmd := rfl
@[simp] theorem draw_st (s : State) : (draw s).st = s.st := rfl
@[simp] theorem draw_err (s : State) : (draw s).err = s.err := rfl
@[simp] theorem draw_errInfo (s : State) : (draw s).errInfo = s.errInfo := rfl
@[simp] theorem draw_inLen (s : State) : (draw s).inLen = s.inLen := rfl
@[simp] theorem draw_outLen (s : State) : (draw s).outLen = s.outLen := rfl
@[simp] theorem draw_ibuf (s : State) : (draw s).ibuf = s.ibuf := rfl
@[simp] theorem draw_obuf (s : State) : (draw s).obuf = s.obuf := rfl
@[simp] theorem draw_freq (s : State) : (draw s).freq = s.freq := rfl
@[simp] theorem draw_k (s : State) : (draw s).k = s.k := rfl
@[simp] theorem draw_arena (s : State) : (draw s).arena = s.arena := rfl
@[simp] theorem draw_nn (s : State) : (draw s).nn = s.nn := rfl
@[simp] theorem draw_root (s : State) : (draw s).root = s.root := rfl
@[simp] theorem draw_heap (s : State) : (draw s).heap = s.heap := rfl
@[simp] theorem draw_cbLen (s : State) : (draw s).cbLen = s.cbLen := rfl
@[simp] theorem draw_cbBits (s : State) : (draw s).cbBits = s.cbBits := rfl
@[simp] theorem draw_inv (s : State) : (draw s).inv = s.inv := rfl
@[simp] theorem draw_phase (s : State) : (draw s).phase = s.phase := rfl
@[simp] theorem draw_ipos (s : State) : (draw s).ipos = s.ipos := rfl
@[simp] theorem draw_opos (s : State) : (draw s).opos = s.opos := rfl
@[simp] theorem draw_acc (s : State) : (draw s).acc = s.acc := rfl
@[simp] theorem draw_accN (s : State) : (draw s).accN = s.accN := rfl
@[simp] theorem draw_bitlen (s : State) : (draw s).bitlen = s.bitlen := rfl
@[simp] theorem draw_bitpos (s : State) : (draw s).bitpos = s.bitpos := rfl
@[simp] theorem draw_cur (s : State) : (draw s).cur = s.cur := rfl
@[simp] theorem draw_stack (s : State) : (draw s).stack = s.stack := rfl
@[simp] theorem draw_ibufCap (s : State) : (draw s).ibufCap = s.ibufCap := rfl
@[simp] theorem draw_obufCap (s : State) : (draw s).obufCap = s.obufCap := rfl
@[simp] theorem draw_script (s : State) : (draw s).script = s.script := rfl
@[simp] theorem draw_fine (s : State) : (draw s).fine = s.fine := rfl
@[simp] theorem draw_hostLog (s : State) : (draw s).hostLog = s.hostLog := rfl
@[simp] theorem draw_hostMatch (s : State) : (draw s).hostMatch = s.hostMatch := rfl
@[simp] theorem draw_draws (s : State) : (draw s).draws = s.draws + 1 := rfl
@[simp] theorem draw_ibufEra (s : State) : (draw s).ibufEra = s.ibufEra := rfl
@[simp] theorem draw_obufEra (s : State) : (draw s).obufEra = s.obufEra := rfl

/-! ### observeStatus -/

@[simp] theorem observeStatus_cmd (c : St) (s : State) : (observeStatus c s).cmd = s.cmd := rfl
@[simp] theorem observeStatus_st (c : St) (s : State) : (observeStatus c s).st = s.st := rfl
@[simp] theorem observeStatus_err (c : St) (s : State) : (observeStatus c s).err = s.err := rfl
@[simp] theorem observeStatus_errInfo (c : St) (s : State) :
    (observeStatus c s).errInfo = s.errInfo := rfl
@[simp] theorem observeStatus_inLen (c : St) (s : State) :
    (observeStatus c s).inLen = s.inLen := rfl
@[simp] theorem observeStatus_outLen (c : St) (s : State) :
    (observeStatus c s).outLen = s.outLen := rfl
@[simp] theorem observeStatus_ibuf (c : St) (s : State) : (observeStatus c s).ibuf = s.ibuf := rfl
@[simp] theorem observeStatus_obuf (c : St) (s : State) : (observeStatus c s).obuf = s.obuf := rfl
@[simp] theorem observeStatus_freq (c : St) (s : State) : (observeStatus c s).freq = s.freq := rfl
@[simp] theorem observeStatus_k (c : St) (s : State) : (observeStatus c s).k = s.k := rfl
@[simp] theorem observeStatus_arena (c : St) (s : State) :
    (observeStatus c s).arena = s.arena := rfl
@[simp] theorem observeStatus_nn (c : St) (s : State) : (observeStatus c s).nn = s.nn := rfl
@[simp] theorem observeStatus_root (c : St) (s : State) : (observeStatus c s).root = s.root := rfl
@[simp] theorem observeStatus_heap (c : St) (s : State) : (observeStatus c s).heap = s.heap := rfl
@[simp] theorem observeStatus_cbLen (c : St) (s : State) :
    (observeStatus c s).cbLen = s.cbLen := rfl
@[simp] theorem observeStatus_cbBits (c : St) (s : State) :
    (observeStatus c s).cbBits = s.cbBits := rfl
@[simp] theorem observeStatus_inv (c : St) (s : State) : (observeStatus c s).inv = s.inv := rfl
@[simp] theorem observeStatus_phase (c : St) (s : State) :
    (observeStatus c s).phase = s.phase := rfl
@[simp] theorem observeStatus_ipos (c : St) (s : State) : (observeStatus c s).ipos = s.ipos := rfl
@[simp] theorem observeStatus_opos (c : St) (s : State) : (observeStatus c s).opos = s.opos := rfl
@[simp] theorem observeStatus_acc (c : St) (s : State) : (observeStatus c s).acc = s.acc := rfl
@[simp] theorem observeStatus_accN (c : St) (s : State) : (observeStatus c s).accN = s.accN := rfl
@[simp] theorem observeStatus_bitlen (c : St) (s : State) :
    (observeStatus c s).bitlen = s.bitlen := rfl
@[simp] theorem observeStatus_bitpos (c : St) (s : State) :
    (observeStatus c s).bitpos = s.bitpos := rfl
@[simp] theorem observeStatus_cur (c : St) (s : State) : (observeStatus c s).cur = s.cur := rfl
@[simp] theorem observeStatus_stack (c : St) (s : State) :
    (observeStatus c s).stack = s.stack := rfl
@[simp] theorem observeStatus_ibufCap (c : St) (s : State) :
    (observeStatus c s).ibufCap = s.ibufCap := rfl
@[simp] theorem observeStatus_obufCap (c : St) (s : State) :
    (observeStatus c s).obufCap = s.obufCap := rfl
@[simp] theorem observeStatus_script (c : St) (s : State) :
    (observeStatus c s).script = s.script := rfl
@[simp] theorem observeStatus_fine (c : St) (s : State) : (observeStatus c s).fine = s.fine := rfl
@[simp] theorem observeStatus_hostLog (c : St) (s : State) :
    (observeStatus c s).hostLog = regValue s offStatus :: s.hostLog := rfl
@[simp] theorem observeStatus_hostMatch (c : St) (s : State) :
    (observeStatus c s).hostMatch = (s.st == c) := rfl
@[simp] theorem observeStatus_draws (c : St) (s : State) :
    (observeStatus c s).draws = s.draws := rfl
@[simp] theorem observeStatus_ibufEra (c : St) (s : State) :
    (observeStatus c s).ibufEra = s.ibufEra := rfl
@[simp] theorem observeStatus_obufEra (c : St) (s : State) :
    (observeStatus c s).obufEra = s.obufEra := rfl

/-! ### observeErr -/

@[simp] theorem observeErr_cmd (c : ErrClass) (s : State) : (observeErr c s).cmd = s.cmd := rfl
@[simp] theorem observeErr_st (c : ErrClass) (s : State) : (observeErr c s).st = s.st := rfl
@[simp] theorem observeErr_err (c : ErrClass) (s : State) : (observeErr c s).err = s.err := rfl
@[simp] theorem observeErr_errInfo (c : ErrClass) (s : State) :
    (observeErr c s).errInfo = s.errInfo := rfl
@[simp] theorem observeErr_inLen (c : ErrClass) (s : State) :
    (observeErr c s).inLen = s.inLen := rfl
@[simp] theorem observeErr_outLen (c : ErrClass) (s : State) :
    (observeErr c s).outLen = s.outLen := rfl
@[simp] theorem observeErr_ibuf (c : ErrClass) (s : State) : (observeErr c s).ibuf = s.ibuf := rfl
@[simp] theorem observeErr_obuf (c : ErrClass) (s : State) : (observeErr c s).obuf = s.obuf := rfl
@[simp] theorem observeErr_freq (c : ErrClass) (s : State) : (observeErr c s).freq = s.freq := rfl
@[simp] theorem observeErr_k (c : ErrClass) (s : State) : (observeErr c s).k = s.k := rfl
@[simp] theorem observeErr_arena (c : ErrClass) (s : State) :
    (observeErr c s).arena = s.arena := rfl
@[simp] theorem observeErr_nn (c : ErrClass) (s : State) : (observeErr c s).nn = s.nn := rfl
@[simp] theorem observeErr_root (c : ErrClass) (s : State) : (observeErr c s).root = s.root := rfl
@[simp] theorem observeErr_heap (c : ErrClass) (s : State) : (observeErr c s).heap = s.heap := rfl
@[simp] theorem observeErr_cbLen (c : ErrClass) (s : State) :
    (observeErr c s).cbLen = s.cbLen := rfl
@[simp] theorem observeErr_cbBits (c : ErrClass) (s : State) :
    (observeErr c s).cbBits = s.cbBits := rfl
@[simp] theorem observeErr_inv (c : ErrClass) (s : State) : (observeErr c s).inv = s.inv := rfl
@[simp] theorem observeErr_phase (c : ErrClass) (s : State) :
    (observeErr c s).phase = s.phase := rfl
@[simp] theorem observeErr_ipos (c : ErrClass) (s : State) : (observeErr c s).ipos = s.ipos := rfl
@[simp] theorem observeErr_opos (c : ErrClass) (s : State) : (observeErr c s).opos = s.opos := rfl
@[simp] theorem observeErr_acc (c : ErrClass) (s : State) : (observeErr c s).acc = s.acc := rfl
@[simp] theorem observeErr_accN (c : ErrClass) (s : State) : (observeErr c s).accN = s.accN := rfl
@[simp] theorem observeErr_bitlen (c : ErrClass) (s : State) :
    (observeErr c s).bitlen = s.bitlen := rfl
@[simp] theorem observeErr_bitpos (c : ErrClass) (s : State) :
    (observeErr c s).bitpos = s.bitpos := rfl
@[simp] theorem observeErr_cur (c : ErrClass) (s : State) : (observeErr c s).cur = s.cur := rfl
@[simp] theorem observeErr_stack (c : ErrClass) (s : State) :
    (observeErr c s).stack = s.stack := rfl
@[simp] theorem observeErr_ibufCap (c : ErrClass) (s : State) :
    (observeErr c s).ibufCap = s.ibufCap := rfl
@[simp] theorem observeErr_obufCap (c : ErrClass) (s : State) :
    (observeErr c s).obufCap = s.obufCap := rfl
@[simp] theorem observeErr_script (c : ErrClass) (s : State) :
    (observeErr c s).script = s.script := rfl
@[simp] theorem observeErr_fine (c : ErrClass) (s : State) : (observeErr c s).fine = s.fine := rfl
@[simp] theorem observeErr_hostLog (c : ErrClass) (s : State) :
    (observeErr c s).hostLog = regValue s offErr :: s.hostLog := rfl
@[simp] theorem observeErr_hostMatch (c : ErrClass) (s : State) :
    (observeErr c s).hostMatch = (s.err == c) := rfl
@[simp] theorem observeErr_draws (c : ErrClass) (s : State) :
    (observeErr c s).draws = s.draws := rfl
@[simp] theorem observeErr_ibufEra (c : ErrClass) (s : State) :
    (observeErr c s).ibufEra = s.ibufEra := rfl
@[simp] theorem observeErr_obufEra (c : ErrClass) (s : State) :
    (observeErr c s).obufEra = s.obufEra := rfl

/-! ### observeErrInfo -/

@[simp] theorem observeErrInfo_cmd (c : ErrInfo) (s : State) :
    (observeErrInfo c s).cmd = s.cmd := rfl
@[simp] theorem observeErrInfo_st (c : ErrInfo) (s : State) : (observeErrInfo c s).st = s.st := rfl
@[simp] theorem observeErrInfo_err (c : ErrInfo) (s : State) :
    (observeErrInfo c s).err = s.err := rfl
@[simp] theorem observeErrInfo_errInfo (c : ErrInfo) (s : State) :
    (observeErrInfo c s).errInfo = s.errInfo := rfl
@[simp] theorem observeErrInfo_inLen (c : ErrInfo) (s : State) :
    (observeErrInfo c s).inLen = s.inLen := rfl
@[simp] theorem observeErrInfo_outLen (c : ErrInfo) (s : State) :
    (observeErrInfo c s).outLen = s.outLen := rfl
@[simp] theorem observeErrInfo_ibuf (c : ErrInfo) (s : State) :
    (observeErrInfo c s).ibuf = s.ibuf := rfl
@[simp] theorem observeErrInfo_obuf (c : ErrInfo) (s : State) :
    (observeErrInfo c s).obuf = s.obuf := rfl
@[simp] theorem observeErrInfo_freq (c : ErrInfo) (s : State) :
    (observeErrInfo c s).freq = s.freq := rfl
@[simp] theorem observeErrInfo_k (c : ErrInfo) (s : State) : (observeErrInfo c s).k = s.k := rfl
@[simp] theorem observeErrInfo_arena (c : ErrInfo) (s : State) :
    (observeErrInfo c s).arena = s.arena := rfl
@[simp] theorem observeErrInfo_nn (c : ErrInfo) (s : State) : (observeErrInfo c s).nn = s.nn := rfl
@[simp] theorem observeErrInfo_root (c : ErrInfo) (s : State) :
    (observeErrInfo c s).root = s.root := rfl
@[simp] theorem observeErrInfo_heap (c : ErrInfo) (s : State) :
    (observeErrInfo c s).heap = s.heap := rfl
@[simp] theorem observeErrInfo_cbLen (c : ErrInfo) (s : State) :
    (observeErrInfo c s).cbLen = s.cbLen := rfl
@[simp] theorem observeErrInfo_cbBits (c : ErrInfo) (s : State) :
    (observeErrInfo c s).cbBits = s.cbBits := rfl
@[simp] theorem observeErrInfo_inv (c : ErrInfo) (s : State) :
    (observeErrInfo c s).inv = s.inv := rfl
@[simp] theorem observeErrInfo_phase (c : ErrInfo) (s : State) :
    (observeErrInfo c s).phase = s.phase := rfl
@[simp] theorem observeErrInfo_ipos (c : ErrInfo) (s : State) :
    (observeErrInfo c s).ipos = s.ipos := rfl
@[simp] theorem observeErrInfo_opos (c : ErrInfo) (s : State) :
    (observeErrInfo c s).opos = s.opos := rfl
@[simp] theorem observeErrInfo_acc (c : ErrInfo) (s : State) :
    (observeErrInfo c s).acc = s.acc := rfl
@[simp] theorem observeErrInfo_accN (c : ErrInfo) (s : State) :
    (observeErrInfo c s).accN = s.accN := rfl
@[simp] theorem observeErrInfo_bitlen (c : ErrInfo) (s : State) :
    (observeErrInfo c s).bitlen = s.bitlen := rfl
@[simp] theorem observeErrInfo_bitpos (c : ErrInfo) (s : State) :
    (observeErrInfo c s).bitpos = s.bitpos := rfl
@[simp] theorem observeErrInfo_cur (c : ErrInfo) (s : State) :
    (observeErrInfo c s).cur = s.cur := rfl
@[simp] theorem observeErrInfo_stack (c : ErrInfo) (s : State) :
    (observeErrInfo c s).stack = s.stack := rfl
@[simp] theorem observeErrInfo_ibufCap (c : ErrInfo) (s : State) :
    (observeErrInfo c s).ibufCap = s.ibufCap := rfl
@[simp] theorem observeErrInfo_obufCap (c : ErrInfo) (s : State) :
    (observeErrInfo c s).obufCap = s.obufCap := rfl
@[simp] theorem observeErrInfo_script (c : ErrInfo) (s : State) :
    (observeErrInfo c s).script = s.script := rfl
@[simp] theorem observeErrInfo_fine (c : ErrInfo) (s : State) :
    (observeErrInfo c s).fine = s.fine := rfl
@[simp] theorem observeErrInfo_hostLog (c : ErrInfo) (s : State) :
    (observeErrInfo c s).hostLog = regValue s offErrInfo :: s.hostLog := rfl
@[simp] theorem observeErrInfo_hostMatch (c : ErrInfo) (s : State) :
    (observeErrInfo c s).hostMatch = (s.errInfo == c) := rfl
@[simp] theorem observeErrInfo_draws (c : ErrInfo) (s : State) :
    (observeErrInfo c s).draws = s.draws := rfl
@[simp] theorem observeErrInfo_ibufEra (c : ErrInfo) (s : State) :
    (observeErrInfo c s).ibufEra = s.ibufEra := rfl
@[simp] theorem observeErrInfo_obufEra (c : ErrInfo) (s : State) :
    (observeErrInfo c s).obufEra = s.obufEra := rfl

/-! ### resetBlock -/

@[simp] theorem resetBlock_cmd (s : State) : (resetBlock s).cmd = 0#2 := rfl
@[simp] theorem resetBlock_st (s : State) : (resetBlock s).st = .idle := rfl
@[simp] theorem resetBlock_err (s : State) : (resetBlock s).err = .none := rfl
@[simp] theorem resetBlock_errInfo (s : State) : (resetBlock s).errInfo = .none := rfl
@[simp] theorem resetBlock_inLen (s : State) : (resetBlock s).inLen = 0#32 := rfl
@[simp] theorem resetBlock_outLen (s : State) : (resetBlock s).outLen = 0#32 := rfl
@[simp] theorem resetBlock_ibuf (s : State) : (resetBlock s).ibuf = [] := rfl
@[simp] theorem resetBlock_obuf (s : State) : (resetBlock s).obuf = [] := rfl
@[simp] theorem resetBlock_freq (s : State) : (resetBlock s).freq = s.freq := rfl
@[simp] theorem resetBlock_k (s : State) : (resetBlock s).k = s.k := rfl
@[simp] theorem resetBlock_arena (s : State) : (resetBlock s).arena = s.arena := rfl
@[simp] theorem resetBlock_nn (s : State) : (resetBlock s).nn = s.nn := rfl
@[simp] theorem resetBlock_root (s : State) : (resetBlock s).root = s.root := rfl
@[simp] theorem resetBlock_heap (s : State) : (resetBlock s).heap = s.heap := rfl
@[simp] theorem resetBlock_cbLen (s : State) : (resetBlock s).cbLen = s.cbLen := rfl
@[simp] theorem resetBlock_cbBits (s : State) : (resetBlock s).cbBits = s.cbBits := rfl
@[simp] theorem resetBlock_inv (s : State) : (resetBlock s).inv = s.inv := rfl
@[simp] theorem resetBlock_phase (s : State) : (resetBlock s).phase = .idle := rfl
@[simp] theorem resetBlock_ipos (s : State) : (resetBlock s).ipos = s.ipos := rfl
@[simp] theorem resetBlock_opos (s : State) : (resetBlock s).opos = s.opos := rfl
@[simp] theorem resetBlock_acc (s : State) : (resetBlock s).acc = s.acc := rfl
@[simp] theorem resetBlock_accN (s : State) : (resetBlock s).accN = s.accN := rfl
@[simp] theorem resetBlock_bitlen (s : State) : (resetBlock s).bitlen = s.bitlen := rfl
@[simp] theorem resetBlock_bitpos (s : State) : (resetBlock s).bitpos = s.bitpos := rfl
@[simp] theorem resetBlock_cur (s : State) : (resetBlock s).cur = s.cur := rfl
@[simp] theorem resetBlock_stack (s : State) : (resetBlock s).stack = s.stack := rfl
@[simp] theorem resetBlock_ibufCap (s : State) : (resetBlock s).ibufCap = s.ibufCap := rfl
@[simp] theorem resetBlock_obufCap (s : State) : (resetBlock s).obufCap = s.obufCap := rfl
@[simp] theorem resetBlock_script (s : State) : (resetBlock s).script = s.script := rfl
@[simp] theorem resetBlock_fine (s : State) : (resetBlock s).fine = false := rfl
@[simp] theorem resetBlock_hostLog (s : State) : (resetBlock s).hostLog = s.hostLog := rfl
@[simp] theorem resetBlock_hostMatch (s : State) : (resetBlock s).hostMatch = s.hostMatch := rfl
@[simp] theorem resetBlock_draws (s : State) : (resetBlock s).draws = s.draws := rfl
@[simp] theorem resetBlock_ibufEra (s : State) : (resetBlock s).ibufEra = s.ibufEra + 1 := rfl
@[simp] theorem resetBlock_obufEra (s : State) : (resetBlock s).obufEra = s.obufEra + 1 := rfl

/-! ### pushTurns -/

@[simp] theorem pushTurns_cmd (ts : List Turn) (s : State) : (pushTurns ts s).cmd = s.cmd := rfl
@[simp] theorem pushTurns_st (ts : List Turn) (s : State) : (pushTurns ts s).st = s.st := rfl
@[simp] theorem pushTurns_err (ts : List Turn) (s : State) : (pushTurns ts s).err = s.err := rfl
@[simp] theorem pushTurns_errInfo (ts : List Turn) (s : State) :
    (pushTurns ts s).errInfo = s.errInfo := rfl
@[simp] theorem pushTurns_inLen (ts : List Turn) (s : State) :
    (pushTurns ts s).inLen = s.inLen := rfl
@[simp] theorem pushTurns_outLen (ts : List Turn) (s : State) :
    (pushTurns ts s).outLen = s.outLen := rfl
@[simp] theorem pushTurns_ibuf (ts : List Turn) (s : State) : (pushTurns ts s).ibuf = s.ibuf := rfl
@[simp] theorem pushTurns_obuf (ts : List Turn) (s : State) : (pushTurns ts s).obuf = s.obuf := rfl
@[simp] theorem pushTurns_freq (ts : List Turn) (s : State) : (pushTurns ts s).freq = s.freq := rfl
@[simp] theorem pushTurns_k (ts : List Turn) (s : State) : (pushTurns ts s).k = s.k := rfl
@[simp] theorem pushTurns_arena (ts : List Turn) (s : State) :
    (pushTurns ts s).arena = s.arena := rfl
@[simp] theorem pushTurns_nn (ts : List Turn) (s : State) : (pushTurns ts s).nn = s.nn := rfl
@[simp] theorem pushTurns_root (ts : List Turn) (s : State) : (pushTurns ts s).root = s.root := rfl
@[simp] theorem pushTurns_heap (ts : List Turn) (s : State) : (pushTurns ts s).heap = s.heap := rfl
@[simp] theorem pushTurns_cbLen (ts : List Turn) (s : State) :
    (pushTurns ts s).cbLen = s.cbLen := rfl
@[simp] theorem pushTurns_cbBits (ts : List Turn) (s : State) :
    (pushTurns ts s).cbBits = s.cbBits := rfl
@[simp] theorem pushTurns_inv (ts : List Turn) (s : State) : (pushTurns ts s).inv = s.inv := rfl
@[simp] theorem pushTurns_phase (ts : List Turn) (s : State) :
    (pushTurns ts s).phase = s.phase := rfl
@[simp] theorem pushTurns_ipos (ts : List Turn) (s : State) : (pushTurns ts s).ipos = s.ipos := rfl
@[simp] theorem pushTurns_opos (ts : List Turn) (s : State) : (pushTurns ts s).opos = s.opos := rfl
@[simp] theorem pushTurns_acc (ts : List Turn) (s : State) : (pushTurns ts s).acc = s.acc := rfl
@[simp] theorem pushTurns_accN (ts : List Turn) (s : State) : (pushTurns ts s).accN = s.accN := rfl
@[simp] theorem pushTurns_bitlen (ts : List Turn) (s : State) :
    (pushTurns ts s).bitlen = s.bitlen := rfl
@[simp] theorem pushTurns_bitpos (ts : List Turn) (s : State) :
    (pushTurns ts s).bitpos = s.bitpos := rfl
@[simp] theorem pushTurns_cur (ts : List Turn) (s : State) : (pushTurns ts s).cur = s.cur := rfl
@[simp] theorem pushTurns_stack (ts : List Turn) (s : State) :
    (pushTurns ts s).stack = s.stack := rfl
@[simp] theorem pushTurns_ibufCap (ts : List Turn) (s : State) :
    (pushTurns ts s).ibufCap = s.ibufCap := rfl
@[simp] theorem pushTurns_obufCap (ts : List Turn) (s : State) :
    (pushTurns ts s).obufCap = s.obufCap := rfl
@[simp] theorem pushTurns_script (ts : List Turn) (s : State) :
    (pushTurns ts s).script = ts ++ s.script := rfl
@[simp] theorem pushTurns_fine (ts : List Turn) (s : State) : (pushTurns ts s).fine = s.fine := rfl
@[simp] theorem pushTurns_hostLog (ts : List Turn) (s : State) :
    (pushTurns ts s).hostLog = s.hostLog := rfl
@[simp] theorem pushTurns_hostMatch (ts : List Turn) (s : State) :
    (pushTurns ts s).hostMatch = s.hostMatch := rfl
@[simp] theorem pushTurns_draws (ts : List Turn) (s : State) :
    (pushTurns ts s).draws = s.draws := rfl
@[simp] theorem pushTurns_ibufEra (ts : List Turn) (s : State) :
    (pushTurns ts s).ibufEra = s.ibufEra := rfl
@[simp] theorem pushTurns_obufEra (ts : List Turn) (s : State) :
    (pushTurns ts s).obufEra = s.obufEra := rfl

/-! ### countByte -/

@[simp] theorem countByte_cmd (s : State) (b : Byte) : (countByte s b).cmd = s.cmd := rfl
@[simp] theorem countByte_st (s : State) (b : Byte) : (countByte s b).st = s.st := rfl
@[simp] theorem countByte_err (s : State) (b : Byte) : (countByte s b).err = s.err := rfl
@[simp] theorem countByte_errInfo (s : State) (b : Byte) :
    (countByte s b).errInfo = s.errInfo := rfl
@[simp] theorem countByte_inLen (s : State) (b : Byte) : (countByte s b).inLen = s.inLen := rfl
@[simp] theorem countByte_outLen (s : State) (b : Byte) : (countByte s b).outLen = s.outLen := rfl
@[simp] theorem countByte_ibuf (s : State) (b : Byte) : (countByte s b).ibuf = s.ibuf := rfl
@[simp] theorem countByte_obuf (s : State) (b : Byte) : (countByte s b).obuf = s.obuf := rfl
@[simp] theorem countByte_freq (s : State) (b : Byte) :
    (countByte s b).freq = Table.put s.freq b.toNat (freqAt s b.toNat + 1) := rfl
@[simp] theorem countByte_k (s : State) (b : Byte) : (countByte s b).k = s.k := rfl
@[simp] theorem countByte_arena (s : State) (b : Byte) : (countByte s b).arena = s.arena := rfl
@[simp] theorem countByte_nn (s : State) (b : Byte) : (countByte s b).nn = s.nn := rfl
@[simp] theorem countByte_root (s : State) (b : Byte) : (countByte s b).root = s.root := rfl
@[simp] theorem countByte_heap (s : State) (b : Byte) : (countByte s b).heap = s.heap := rfl
@[simp] theorem countByte_cbLen (s : State) (b : Byte) : (countByte s b).cbLen = s.cbLen := rfl
@[simp] theorem countByte_cbBits (s : State) (b : Byte) : (countByte s b).cbBits = s.cbBits := rfl
@[simp] theorem countByte_inv (s : State) (b : Byte) : (countByte s b).inv = s.inv := rfl
@[simp] theorem countByte_phase (s : State) (b : Byte) : (countByte s b).phase = s.phase := rfl
@[simp] theorem countByte_ipos (s : State) (b : Byte) : (countByte s b).ipos = s.ipos + 1 := rfl
@[simp] theorem countByte_opos (s : State) (b : Byte) : (countByte s b).opos = s.opos := rfl
@[simp] theorem countByte_acc (s : State) (b : Byte) : (countByte s b).acc = s.acc := rfl
@[simp] theorem countByte_accN (s : State) (b : Byte) : (countByte s b).accN = s.accN := rfl
@[simp] theorem countByte_bitlen (s : State) (b : Byte) : (countByte s b).bitlen = s.bitlen := rfl
@[simp] theorem countByte_bitpos (s : State) (b : Byte) : (countByte s b).bitpos = s.bitpos := rfl
@[simp] theorem countByte_cur (s : State) (b : Byte) : (countByte s b).cur = s.cur := rfl
@[simp] theorem countByte_stack (s : State) (b : Byte) : (countByte s b).stack = s.stack := rfl
@[simp] theorem countByte_ibufCap (s : State) (b : Byte) :
    (countByte s b).ibufCap = s.ibufCap := rfl
@[simp] theorem countByte_obufCap (s : State) (b : Byte) :
    (countByte s b).obufCap = s.obufCap := rfl
@[simp] theorem countByte_script (s : State) (b : Byte) : (countByte s b).script = s.script := rfl
@[simp] theorem countByte_fine (s : State) (b : Byte) : (countByte s b).fine = s.fine := rfl
@[simp] theorem countByte_hostLog (s : State) (b : Byte) :
    (countByte s b).hostLog = s.hostLog := rfl
@[simp] theorem countByte_hostMatch (s : State) (b : Byte) :
    (countByte s b).hostMatch = s.hostMatch := rfl
@[simp] theorem countByte_draws (s : State) (b : Byte) : (countByte s b).draws = s.draws := rfl
@[simp] theorem countByte_ibufEra (s : State) (b : Byte) :
    (countByte s b).ibufEra = s.ibufEra := rfl
@[simp] theorem countByte_obufEra (s : State) (b : Byte) :
    (countByte s b).obufEra = s.obufEra := rfl

/-! ### parseStart -/

@[simp] theorem parseStart_cmd (s : State) : (parseStart s).cmd = s.cmd := rfl
@[simp] theorem parseStart_st (s : State) : (parseStart s).st = s.st := rfl
@[simp] theorem parseStart_err (s : State) : (parseStart s).err = s.err := rfl
@[simp] theorem parseStart_errInfo (s : State) : (parseStart s).errInfo = s.errInfo := rfl
@[simp] theorem parseStart_inLen (s : State) : (parseStart s).inLen = s.inLen := rfl
@[simp] theorem parseStart_outLen (s : State) : (parseStart s).outLen = s.outLen := rfl
@[simp] theorem parseStart_ibuf (s : State) : (parseStart s).ibuf = s.ibuf := rfl
@[simp] theorem parseStart_obuf (s : State) : (parseStart s).obuf = s.obuf := rfl
@[simp] theorem parseStart_freq (s : State) : (parseStart s).freq = s.freq := rfl
@[simp] theorem parseStart_k (s : State) : (parseStart s).k = s.k := rfl
@[simp] theorem parseStart_arena (s : State) : (parseStart s).arena = s.arena := rfl
@[simp] theorem parseStart_nn (s : State) : (parseStart s).nn = 0 := rfl
@[simp] theorem parseStart_root (s : State) : (parseStart s).root = s.root := rfl
@[simp] theorem parseStart_heap (s : State) : (parseStart s).heap = s.heap := rfl
@[simp] theorem parseStart_cbLen (s : State) : (parseStart s).cbLen = s.cbLen := rfl
@[simp] theorem parseStart_cbBits (s : State) : (parseStart s).cbBits = s.cbBits := rfl
@[simp] theorem parseStart_inv (s : State) : (parseStart s).inv = s.inv := rfl
@[simp] theorem parseStart_phase (s : State) : (parseStart s).phase = s.phase := rfl
@[simp] theorem parseStart_ipos (s : State) : (parseStart s).ipos = 0 := rfl
@[simp] theorem parseStart_opos (s : State) : (parseStart s).opos = s.opos := rfl
@[simp] theorem parseStart_acc (s : State) : (parseStart s).acc = s.acc := rfl
@[simp] theorem parseStart_accN (s : State) : (parseStart s).accN = s.accN := rfl
@[simp] theorem parseStart_bitlen (s : State) : (parseStart s).bitlen = s.bitlen := rfl
@[simp] theorem parseStart_bitpos (s : State) : (parseStart s).bitpos = s.bitpos := rfl
@[simp] theorem parseStart_cur (s : State) : (parseStart s).cur = s.cur := rfl
@[simp] theorem parseStart_stack (s : State) : (parseStart s).stack = [] := rfl
@[simp] theorem parseStart_ibufCap (s : State) : (parseStart s).ibufCap = s.ibufCap := rfl
@[simp] theorem parseStart_obufCap (s : State) : (parseStart s).obufCap = s.obufCap := rfl
@[simp] theorem parseStart_script (s : State) : (parseStart s).script = s.script := rfl
@[simp] theorem parseStart_fine (s : State) : (parseStart s).fine = s.fine := rfl
@[simp] theorem parseStart_hostLog (s : State) : (parseStart s).hostLog = s.hostLog := rfl
@[simp] theorem parseStart_hostMatch (s : State) : (parseStart s).hostMatch = s.hostMatch := rfl
@[simp] theorem parseStart_draws (s : State) : (parseStart s).draws = s.draws := rfl
@[simp] theorem parseStart_ibufEra (s : State) : (parseStart s).ibufEra = s.ibufEra := rfl
@[simp] theorem parseStart_obufEra (s : State) : (parseStart s).obufEra = s.obufEra := rfl

/-! ### passDelim -/

@[simp] theorem passDelim_cmd (s : State) : (passDelim s).cmd = s.cmd := rfl
@[simp] theorem passDelim_st (s : State) : (passDelim s).st = s.st := rfl
@[simp] theorem passDelim_err (s : State) : (passDelim s).err = s.err := rfl
@[simp] theorem passDelim_errInfo (s : State) : (passDelim s).errInfo = s.errInfo := rfl
@[simp] theorem passDelim_inLen (s : State) : (passDelim s).inLen = s.inLen := rfl
@[simp] theorem passDelim_outLen (s : State) : (passDelim s).outLen = s.outLen := rfl
@[simp] theorem passDelim_ibuf (s : State) : (passDelim s).ibuf = s.ibuf := rfl
@[simp] theorem passDelim_obuf (s : State) : (passDelim s).obuf = s.obuf := rfl
@[simp] theorem passDelim_freq (s : State) : (passDelim s).freq = s.freq := rfl
@[simp] theorem passDelim_k (s : State) : (passDelim s).k = s.k := rfl
@[simp] theorem passDelim_arena (s : State) : (passDelim s).arena = s.arena := rfl
@[simp] theorem passDelim_nn (s : State) : (passDelim s).nn = s.nn := rfl
@[simp] theorem passDelim_root (s : State) : (passDelim s).root = s.root := rfl
@[simp] theorem passDelim_heap (s : State) : (passDelim s).heap = s.heap := rfl
@[simp] theorem passDelim_cbLen (s : State) : (passDelim s).cbLen = s.cbLen := rfl
@[simp] theorem passDelim_cbBits (s : State) : (passDelim s).cbBits = s.cbBits := rfl
@[simp] theorem passDelim_inv (s : State) : (passDelim s).inv = s.inv := rfl
@[simp] theorem passDelim_phase (s : State) : (passDelim s).phase = .rdlen := rfl
@[simp] theorem passDelim_ipos (s : State) : (passDelim s).ipos = s.ipos + 1 := rfl
@[simp] theorem passDelim_opos (s : State) : (passDelim s).opos = s.opos := rfl
@[simp] theorem passDelim_acc (s : State) : (passDelim s).acc = s.acc := rfl
@[simp] theorem passDelim_accN (s : State) : (passDelim s).accN = s.accN := rfl
@[simp] theorem passDelim_bitlen (s : State) : (passDelim s).bitlen = s.bitlen := rfl
@[simp] theorem passDelim_bitpos (s : State) : (passDelim s).bitpos = s.bitpos := rfl
@[simp] theorem passDelim_cur (s : State) : (passDelim s).cur = s.cur := rfl
@[simp] theorem passDelim_stack (s : State) : (passDelim s).stack = s.stack := rfl
@[simp] theorem passDelim_ibufCap (s : State) : (passDelim s).ibufCap = s.ibufCap := rfl
@[simp] theorem passDelim_obufCap (s : State) : (passDelim s).obufCap = s.obufCap := rfl
@[simp] theorem passDelim_script (s : State) : (passDelim s).script = s.script := rfl
@[simp] theorem passDelim_fine (s : State) : (passDelim s).fine = s.fine := rfl
@[simp] theorem passDelim_hostLog (s : State) : (passDelim s).hostLog = s.hostLog := rfl
@[simp] theorem passDelim_hostMatch (s : State) : (passDelim s).hostMatch = s.hostMatch := rfl
@[simp] theorem passDelim_draws (s : State) : (passDelim s).draws = s.draws := rfl
@[simp] theorem passDelim_ibufEra (s : State) : (passDelim s).ibufEra = s.ibufEra := rfl
@[simp] theorem passDelim_obufEra (s : State) : (passDelim s).obufEra = s.obufEra := rfl

/-! ### takeLength -/

@[simp] theorem takeLength_cmd (n : BitVec 64) (s : State) : (takeLength n s).cmd = s.cmd := rfl
@[simp] theorem takeLength_st (n : BitVec 64) (s : State) : (takeLength n s).st = s.st := rfl
@[simp] theorem takeLength_err (n : BitVec 64) (s : State) : (takeLength n s).err = s.err := rfl
@[simp] theorem takeLength_errInfo (n : BitVec 64) (s : State) :
    (takeLength n s).errInfo = s.errInfo := rfl
@[simp] theorem takeLength_inLen (n : BitVec 64) (s : State) :
    (takeLength n s).inLen = s.inLen := rfl
@[simp] theorem takeLength_outLen (n : BitVec 64) (s : State) :
    (takeLength n s).outLen = s.outLen := rfl
@[simp] theorem takeLength_ibuf (n : BitVec 64) (s : State) : (takeLength n s).ibuf = s.ibuf := rfl
@[simp] theorem takeLength_obuf (n : BitVec 64) (s : State) : (takeLength n s).obuf = s.obuf := rfl
@[simp] theorem takeLength_freq (n : BitVec 64) (s : State) : (takeLength n s).freq = s.freq := rfl
@[simp] theorem takeLength_k (n : BitVec 64) (s : State) : (takeLength n s).k = s.k := rfl
@[simp] theorem takeLength_arena (n : BitVec 64) (s : State) :
    (takeLength n s).arena = s.arena := rfl
@[simp] theorem takeLength_nn (n : BitVec 64) (s : State) : (takeLength n s).nn = s.nn := rfl
@[simp] theorem takeLength_root (n : BitVec 64) (s : State) : (takeLength n s).root = s.root := rfl
@[simp] theorem takeLength_heap (n : BitVec 64) (s : State) : (takeLength n s).heap = s.heap := rfl
@[simp] theorem takeLength_cbLen (n : BitVec 64) (s : State) :
    (takeLength n s).cbLen = s.cbLen := rfl
@[simp] theorem takeLength_cbBits (n : BitVec 64) (s : State) :
    (takeLength n s).cbBits = s.cbBits := rfl
@[simp] theorem takeLength_inv (n : BitVec 64) (s : State) : (takeLength n s).inv = s.inv := rfl
@[simp] theorem takeLength_phase (n : BitVec 64) (s : State) :
    (takeLength n s).phase = .chklen := rfl
@[simp] theorem takeLength_ipos (n : BitVec 64) (s : State) :
    (takeLength n s).ipos = s.ipos + Config.bitlenBytes := rfl
@[simp] theorem takeLength_opos (n : BitVec 64) (s : State) : (takeLength n s).opos = s.opos := rfl
@[simp] theorem takeLength_acc (n : BitVec 64) (s : State) : (takeLength n s).acc = s.acc := rfl
@[simp] theorem takeLength_accN (n : BitVec 64) (s : State) : (takeLength n s).accN = s.accN := rfl
@[simp] theorem takeLength_bitlen (n : BitVec 64) (s : State) : (takeLength n s).bitlen = n := rfl
@[simp] theorem takeLength_bitpos (n : BitVec 64) (s : State) :
    (takeLength n s).bitpos = s.bitpos := rfl
@[simp] theorem takeLength_cur (n : BitVec 64) (s : State) : (takeLength n s).cur = s.cur := rfl
@[simp] theorem takeLength_stack (n : BitVec 64) (s : State) :
    (takeLength n s).stack = s.stack := rfl
@[simp] theorem takeLength_ibufCap (n : BitVec 64) (s : State) :
    (takeLength n s).ibufCap = s.ibufCap := rfl
@[simp] theorem takeLength_obufCap (n : BitVec 64) (s : State) :
    (takeLength n s).obufCap = s.obufCap := rfl
@[simp] theorem takeLength_script (n : BitVec 64) (s : State) :
    (takeLength n s).script = s.script := rfl
@[simp] theorem takeLength_fine (n : BitVec 64) (s : State) : (takeLength n s).fine = s.fine := rfl
@[simp] theorem takeLength_hostLog (n : BitVec 64) (s : State) :
    (takeLength n s).hostLog = s.hostLog := rfl
@[simp] theorem takeLength_hostMatch (n : BitVec 64) (s : State) :
    (takeLength n s).hostMatch = s.hostMatch := rfl
@[simp] theorem takeLength_draws (n : BitVec 64) (s : State) :
    (takeLength n s).draws = s.draws := rfl
@[simp] theorem takeLength_ibufEra (n : BitVec 64) (s : State) :
    (takeLength n s).ibufEra = s.ibufEra := rfl
@[simp] theorem takeLength_obufEra (n : BitVec 64) (s : State) :
    (takeLength n s).obufEra = s.obufEra := rfl

/-! ### acknowledge -/

@[simp] theorem acknowledge_cmd (s : State) : (acknowledge s).cmd = s.cmd := by
  unfold acknowledge; split <;> rfl
@[simp] theorem acknowledge_inLen (s : State) : (acknowledge s).inLen = s.inLen := by
  unfold acknowledge; split <;> rfl
@[simp] theorem acknowledge_ibuf (s : State) : (acknowledge s).ibuf = s.ibuf := by
  unfold acknowledge; split <;> rfl
@[simp] theorem acknowledge_obuf (s : State) : (acknowledge s).obuf = s.obuf := by
  unfold acknowledge; split <;> rfl
@[simp] theorem acknowledge_freq (s : State) : (acknowledge s).freq = s.freq := by
  unfold acknowledge; split <;> rfl
@[simp] theorem acknowledge_k (s : State) : (acknowledge s).k = s.k := by
  unfold acknowledge; split <;> rfl
@[simp] theorem acknowledge_arena (s : State) : (acknowledge s).arena = s.arena := by
  unfold acknowledge; split <;> rfl
@[simp] theorem acknowledge_nn (s : State) : (acknowledge s).nn = s.nn := by
  unfold acknowledge; split <;> rfl
@[simp] theorem acknowledge_root (s : State) : (acknowledge s).root = s.root := by
  unfold acknowledge; split <;> rfl
@[simp] theorem acknowledge_heap (s : State) : (acknowledge s).heap = s.heap := by
  unfold acknowledge; split <;> rfl
@[simp] theorem acknowledge_cbLen (s : State) : (acknowledge s).cbLen = s.cbLen := by
  unfold acknowledge; split <;> rfl
@[simp] theorem acknowledge_cbBits (s : State) : (acknowledge s).cbBits = s.cbBits := by
  unfold acknowledge; split <;> rfl
@[simp] theorem acknowledge_inv (s : State) : (acknowledge s).inv = s.inv := by
  unfold acknowledge; split <;> rfl
@[simp] theorem acknowledge_phase (s : State) : (acknowledge s).phase = s.phase := by
  unfold acknowledge; split <;> rfl
@[simp] theorem acknowledge_ipos (s : State) : (acknowledge s).ipos = s.ipos := by
  unfold acknowledge; split <;> rfl
@[simp] theorem acknowledge_opos (s : State) : (acknowledge s).opos = s.opos := by
  unfold acknowledge; split <;> rfl
@[simp] theorem acknowledge_acc (s : State) : (acknowledge s).acc = s.acc := by
  unfold acknowledge; split <;> rfl
@[simp] theorem acknowledge_accN (s : State) : (acknowledge s).accN = s.accN := by
  unfold acknowledge; split <;> rfl
@[simp] theorem acknowledge_bitlen (s : State) : (acknowledge s).bitlen = s.bitlen := by
  unfold acknowledge; split <;> rfl
@[simp] theorem acknowledge_bitpos (s : State) : (acknowledge s).bitpos = s.bitpos := by
  unfold acknowledge; split <;> rfl
@[simp] theorem acknowledge_cur (s : State) : (acknowledge s).cur = s.cur := by
  unfold acknowledge; split <;> rfl
@[simp] theorem acknowledge_stack (s : State) : (acknowledge s).stack = s.stack := by
  unfold acknowledge; split <;> rfl
@[simp] theorem acknowledge_ibufCap (s : State) : (acknowledge s).ibufCap = s.ibufCap := by
  unfold acknowledge; split <;> rfl
@[simp] theorem acknowledge_obufCap (s : State) : (acknowledge s).obufCap = s.obufCap := by
  unfold acknowledge; split <;> rfl
@[simp] theorem acknowledge_script (s : State) : (acknowledge s).script = s.script := by
  unfold acknowledge; split <;> rfl
@[simp] theorem acknowledge_fine (s : State) : (acknowledge s).fine = s.fine := by
  unfold acknowledge; split <;> rfl
@[simp] theorem acknowledge_hostLog (s : State) : (acknowledge s).hostLog = s.hostLog := by
  unfold acknowledge; split <;> rfl
@[simp] theorem acknowledge_hostMatch (s : State) : (acknowledge s).hostMatch = s.hostMatch := by
  unfold acknowledge; split <;> rfl
@[simp] theorem acknowledge_draws (s : State) : (acknowledge s).draws = s.draws := by
  unfold acknowledge; split <;> rfl
@[simp] theorem acknowledge_ibufEra (s : State) : (acknowledge s).ibufEra = s.ibufEra := by
  unfold acknowledge; split <;> rfl
@[simp] theorem acknowledge_obufEra (s : State) : (acknowledge s).obufEra = s.obufEra := by
  unfold acknowledge; split <;> rfl

/-! ### beginCommand -/

@[simp] theorem beginCommand_cmd (s : State) : (beginCommand s).cmd = s.cmd := by
  unfold beginCommand; split <;> rfl
@[simp] theorem beginCommand_inLen (s : State) : (beginCommand s).inLen = s.inLen := by
  unfold beginCommand; split <;> rfl
@[simp] theorem beginCommand_ibuf (s : State) : (beginCommand s).ibuf = s.ibuf := by
  unfold beginCommand; split <;> rfl
@[simp] theorem beginCommand_obuf (s : State) : (beginCommand s).obuf = s.obuf := by
  unfold beginCommand; split <;> rfl
@[simp] theorem beginCommand_freq (s : State) : (beginCommand s).freq = s.freq := by
  unfold beginCommand; split <;> rfl
@[simp] theorem beginCommand_k (s : State) : (beginCommand s).k = s.k := by
  unfold beginCommand; split <;> rfl
@[simp] theorem beginCommand_arena (s : State) : (beginCommand s).arena = s.arena := by
  unfold beginCommand; split <;> rfl
@[simp] theorem beginCommand_nn (s : State) : (beginCommand s).nn = s.nn := by
  unfold beginCommand; split <;> rfl
@[simp] theorem beginCommand_root (s : State) : (beginCommand s).root = s.root := by
  unfold beginCommand; split <;> rfl
@[simp] theorem beginCommand_heap (s : State) : (beginCommand s).heap = s.heap := by
  unfold beginCommand; split <;> rfl
@[simp] theorem beginCommand_cbLen (s : State) : (beginCommand s).cbLen = s.cbLen := by
  unfold beginCommand; split <;> rfl
@[simp] theorem beginCommand_cbBits (s : State) : (beginCommand s).cbBits = s.cbBits := by
  unfold beginCommand; split <;> rfl
@[simp] theorem beginCommand_inv (s : State) : (beginCommand s).inv = s.inv := by
  unfold beginCommand; split <;> rfl
@[simp] theorem beginCommand_ipos (s : State) : (beginCommand s).ipos = s.ipos := by
  unfold beginCommand; split <;> rfl
@[simp] theorem beginCommand_opos (s : State) : (beginCommand s).opos = s.opos := by
  unfold beginCommand; split <;> rfl
@[simp] theorem beginCommand_acc (s : State) : (beginCommand s).acc = s.acc := by
  unfold beginCommand; split <;> rfl
@[simp] theorem beginCommand_accN (s : State) : (beginCommand s).accN = s.accN := by
  unfold beginCommand; split <;> rfl
@[simp] theorem beginCommand_bitlen (s : State) : (beginCommand s).bitlen = s.bitlen := by
  unfold beginCommand; split <;> rfl
@[simp] theorem beginCommand_bitpos (s : State) : (beginCommand s).bitpos = s.bitpos := by
  unfold beginCommand; split <;> rfl
@[simp] theorem beginCommand_cur (s : State) : (beginCommand s).cur = s.cur := by
  unfold beginCommand; split <;> rfl
@[simp] theorem beginCommand_stack (s : State) : (beginCommand s).stack = s.stack := by
  unfold beginCommand; split <;> rfl
@[simp] theorem beginCommand_ibufCap (s : State) : (beginCommand s).ibufCap = s.ibufCap := by
  unfold beginCommand; split <;> rfl
@[simp] theorem beginCommand_obufCap (s : State) : (beginCommand s).obufCap = s.obufCap := by
  unfold beginCommand; split <;> rfl
@[simp] theorem beginCommand_script (s : State) : (beginCommand s).script = s.script := by
  unfold beginCommand; split <;> rfl
@[simp] theorem beginCommand_hostLog (s : State) : (beginCommand s).hostLog = s.hostLog := by
  unfold beginCommand; split <;> rfl
@[simp] theorem beginCommand_hostMatch (s : State) : (beginCommand s).hostMatch = s.hostMatch := by
  unfold beginCommand; split <;> rfl
@[simp] theorem beginCommand_draws (s : State) : (beginCommand s).draws = s.draws := by
  unfold beginCommand; split <;> rfl
@[simp] theorem beginCommand_ibufEra (s : State) : (beginCommand s).ibufEra = s.ibufEra := by
  unfold beginCommand; split <;> rfl
@[simp] theorem beginCommand_obufEra (s : State) : (beginCommand s).obufEra = s.obufEra := by
  unfold beginCommand; split <;> rfl

/-! ### selectCommand -/

@[simp] theorem selectCommand_st (v : BitVec 2) (s : State) : (selectCommand v s).st = s.st := by
  unfold selectCommand; split <;> rfl
@[simp] theorem selectCommand_err (v : BitVec 2) (s : State) : (selectCommand v s).err = s.err := by
  unfold selectCommand; split <;> rfl
@[simp] theorem selectCommand_errInfo (v : BitVec 2) (s : State) : (selectCommand v s).errInfo = s.errInfo := by
  unfold selectCommand; split <;> rfl
@[simp] theorem selectCommand_inLen (v : BitVec 2) (s : State) : (selectCommand v s).inLen = s.inLen := by
  unfold selectCommand; split <;> rfl
@[simp] theorem selectCommand_outLen (v : BitVec 2) (s : State) : (selectCommand v s).outLen = s.outLen := by
  unfold selectCommand; split <;> rfl
@[simp] theorem selectCommand_ibuf (v : BitVec 2) (s : State) : (selectCommand v s).ibuf = s.ibuf := by
  unfold selectCommand; split <;> rfl
@[simp] theorem selectCommand_obuf (v : BitVec 2) (s : State) : (selectCommand v s).obuf = s.obuf := by
  unfold selectCommand; split <;> rfl
@[simp] theorem selectCommand_freq (v : BitVec 2) (s : State) : (selectCommand v s).freq = s.freq := by
  unfold selectCommand; split <;> rfl
@[simp] theorem selectCommand_k (v : BitVec 2) (s : State) : (selectCommand v s).k = s.k := by
  unfold selectCommand; split <;> rfl
@[simp] theorem selectCommand_arena (v : BitVec 2) (s : State) : (selectCommand v s).arena = s.arena := by
  unfold selectCommand; split <;> rfl
@[simp] theorem selectCommand_nn (v : BitVec 2) (s : State) : (selectCommand v s).nn = s.nn := by
  unfold selectCommand; split <;> rfl
@[simp] theorem selectCommand_root (v : BitVec 2) (s : State) : (selectCommand v s).root = s.root := by
  unfold selectCommand; split <;> rfl
@[simp] theorem selectCommand_heap (v : BitVec 2) (s : State) : (selectCommand v s).heap = s.heap := by
  unfold selectCommand; split <;> rfl
@[simp] theorem selectCommand_cbLen (v : BitVec 2) (s : State) : (selectCommand v s).cbLen = s.cbLen := by
  unfold selectCommand; split <;> rfl
@[simp] theorem selectCommand_cbBits (v : BitVec 2) (s : State) : (selectCommand v s).cbBits = s.cbBits := by
  unfold selectCommand; split <;> rfl
@[simp] theorem selectCommand_inv (v : BitVec 2) (s : State) : (selectCommand v s).inv = s.inv := by
  unfold selectCommand; split <;> rfl
@[simp] theorem selectCommand_phase (v : BitVec 2) (s : State) : (selectCommand v s).phase = s.phase := by
  unfold selectCommand; split <;> rfl
@[simp] theorem selectCommand_ipos (v : BitVec 2) (s : State) : (selectCommand v s).ipos = s.ipos := by
  unfold selectCommand; split <;> rfl
@[simp] theorem selectCommand_opos (v : BitVec 2) (s : State) : (selectCommand v s).opos = s.opos := by
  unfold selectCommand; split <;> rfl
@[simp] theorem selectCommand_acc (v : BitVec 2) (s : State) : (selectCommand v s).acc = s.acc := by
  unfold selectCommand; split <;> rfl
@[simp] theorem selectCommand_accN (v : BitVec 2) (s : State) : (selectCommand v s).accN = s.accN := by
  unfold selectCommand; split <;> rfl
@[simp] theorem selectCommand_bitlen (v : BitVec 2) (s : State) : (selectCommand v s).bitlen = s.bitlen := by
  unfold selectCommand; split <;> rfl
@[simp] theorem selectCommand_bitpos (v : BitVec 2) (s : State) : (selectCommand v s).bitpos = s.bitpos := by
  unfold selectCommand; split <;> rfl
@[simp] theorem selectCommand_cur (v : BitVec 2) (s : State) : (selectCommand v s).cur = s.cur := by
  unfold selectCommand; split <;> rfl
@[simp] theorem selectCommand_stack (v : BitVec 2) (s : State) : (selectCommand v s).stack = s.stack := by
  unfold selectCommand; split <;> rfl
@[simp] theorem selectCommand_ibufCap (v : BitVec 2) (s : State) : (selectCommand v s).ibufCap = s.ibufCap := by
  unfold selectCommand; split <;> rfl
@[simp] theorem selectCommand_obufCap (v : BitVec 2) (s : State) : (selectCommand v s).obufCap = s.obufCap := by
  unfold selectCommand; split <;> rfl
@[simp] theorem selectCommand_script (v : BitVec 2) (s : State) : (selectCommand v s).script = s.script := by
  unfold selectCommand; split <;> rfl
@[simp] theorem selectCommand_fine (v : BitVec 2) (s : State) : (selectCommand v s).fine = s.fine := by
  unfold selectCommand; split <;> rfl
@[simp] theorem selectCommand_hostLog (v : BitVec 2) (s : State) : (selectCommand v s).hostLog = s.hostLog := by
  unfold selectCommand; split <;> rfl
@[simp] theorem selectCommand_hostMatch (v : BitVec 2) (s : State) : (selectCommand v s).hostMatch = s.hostMatch := by
  unfold selectCommand; split <;> rfl
@[simp] theorem selectCommand_draws (v : BitVec 2) (s : State) : (selectCommand v s).draws = s.draws := by
  unfold selectCommand; split <;> rfl
@[simp] theorem selectCommand_ibufEra (v : BitVec 2) (s : State) : (selectCommand v s).ibufEra = s.ibufEra := by
  unfold selectCommand; split <;> rfl
@[simp] theorem selectCommand_obufEra (v : BitVec 2) (s : State) : (selectCommand v s).obufEra = s.obufEra := by
  unfold selectCommand; split <;> rfl

/-- CLEAR acts in DONE and ERROR. -/
theorem acknowledge_acts (s : State) (h : s.st = .done ∨ s.st = .error) :
    acknowledge s = { s with st := .idle, err := .none, errInfo := .none, outLen := 0#32 } :=
  if_pos h

/-- CLEAR changes nothing in IDLE and BUSY. -/
theorem acknowledge_ignored (s : State) (h : s.st = .idle ∨ s.st = .busy) : acknowledge s = s :=
  if_neg (by rcases h with h | h <;> simp [h])

/-- START acts in IDLE and DONE. -/
theorem beginCommand_acts (s : State) (h : s.st = .idle ∨ s.st = .done) :
    beginCommand s = { s with
      err := .none, errInfo := .none, outLen := 0#32, st := .busy, phase := .check, fine := false } :=
  if_pos h

/-- START changes nothing in BUSY and ERROR. -/
theorem beginCommand_ignored (s : State) (h : s.st = .busy ∨ s.st = .error) : beginCommand s = s :=
  if_neg (by rcases h with h | h <;> simp [h])

/-- A CMD write is stored unless BUSY. -/
theorem selectCommand_stored (v : BitVec 2) (s : State) (h : s.st ≠ .busy) :
    selectCommand v s = { s with cmd := v } :=
  if_neg h

/-- A CMD write while BUSY is dropped. -/
theorem selectCommand_dropped (v : BitVec 2) (s : State) (h : s.st = .busy) : selectCommand v s = s :=
  if_pos h

end Sys2Proof.Machine
end

