-- ==== Sys2Proof/Laws/Table.lean ====
section
/-! SUPPORT. The laws of arrays and buffers: a read after a write, the canonical form, and that equal
contents in canonical form are equal data. -/

namespace Sys2Proof.Machine

variable {α : Type}

@[simp] theorem Table.find?_nil (k : Nat) : Table.find? ([] : Table α) k = none := rfl

/-- The entry just written reads back. -/
@[simp] theorem Table.find?_put_same (t : Table α) (k : Nat) (v : α) :
    Table.find? (Table.put t k v) k = some v := by
  induction t with
  | nil => simp [Table.put, Table.find?]
  | cons e rest ih =>
    obtain ⟨j, x⟩ := e
    unfold Table.put
    split
    · simp [Table.find?]
    · split
      · simp [Table.find?]
      · simp [Table.find?, *]

/-- A write leaves every other entry alone. -/
theorem Table.find?_put_other (t : Table α) (k i : Nat) (v : α) (h : i ≠ k) :
    Table.find? (Table.put t k v) i = Table.find? t i := by
  induction t with
  | nil => simp [Table.put, Table.find?, h]
  | cons e rest ih =>
    obtain ⟨j, x⟩ := e
    unfold Table.put
    split
    · simp [Table.find?, h]
    · split
      · rename_i hk
        subst hk
        simp [Table.find?, h]
      · simp [Table.find?, ih]

/-- What entry `i` is after a write of entry `k`. -/
theorem Table.find?_put (t : Table α) (k i : Nat) (v : α) :
    Table.find? (Table.put t k v) i = if i = k then some v else Table.find? t i := by
  split
  · rename_i h; rw [h, Table.find?_put_same]
  · rename_i h; exact Table.find?_put_other t k i v h

/-- What an array reads at `i` after a write of entry `k`. -/
theorem Table.get_put (d : α) (t : Table α) (k i : Nat) (v : α) :
    Table.get d (Table.put t k v) i = if i = k then v else Table.get d t i := by
  unfold Table.get
  rw [Table.find?_put]
  split <;> rfl

@[simp] theorem Table.get_put_same (d : α) (t : Table α) (k : Nat) (v : α) :
    Table.get d (Table.put t k v) k = v := by simp [Table.get_put]

theorem Table.get_put_other (d : α) (t : Table α) (k i : Nat) (v : α) (h : i ≠ k) :
    Table.get d (Table.put t k v) i = Table.get d t i := by simp [Table.get_put, h]

@[simp] theorem Table.get_nil (d : α) (k : Nat) : Table.get d [] k = d := rfl

/-- A lower bound of the indexes can be lowered. -/
theorem Table.risingFrom_mono {t : Table α} {lo lo' : Nat} (h : lo' ≤ lo)
    (ht : Table.risingFrom lo t = true) : Table.risingFrom lo' t = true := by
  cases t with
  | nil => rfl
  | cons e rest =>
    obtain ⟨j, x⟩ := e
    simp only [Table.risingFrom, Bool.and_eq_true, decide_eq_true_eq] at ht ⊢
    exact ⟨by omega, ht.2⟩

/-- A write keeps the indexes strictly rising. -/
theorem Table.risingFrom_put {t : Table α} {lo : Nat} (k : Nat) (v : α) (hk : lo ≤ k)
    (ht : Table.risingFrom lo t = true) : Table.risingFrom lo (Table.put t k v) = true := by
  induction t generalizing lo with
  | nil => simp [Table.put, Table.risingFrom, hk]
  | cons e rest ih =>
    obtain ⟨j, x⟩ := e
    simp only [Table.risingFrom, Bool.and_eq_true, decide_eq_true_eq] at ht
    unfold Table.put
    split
    · simp only [Table.risingFrom, Bool.and_eq_true, decide_eq_true_eq]
      exact ⟨hk, by omega, ht.2⟩
    · split
      · rename_i h
        subst h
        simp [Table.risingFrom, hk, ht.2]
      · simp only [Table.risingFrom, Bool.and_eq_true, decide_eq_true_eq]
        exact ⟨ht.1, ih (by omega) ht.2⟩

/-- Below the lower bound nothing is listed. -/
theorem Table.find?_lt {t : Table α} {lo k : Nat} (ht : Table.risingFrom lo t = true) (hk : k < lo) :
    Table.find? t k = none := by
  induction t generalizing lo with
  | nil => rfl
  | cons e rest ih =>
    obtain ⟨j, x⟩ := e
    simp only [Table.risingFrom, Bool.and_eq_true, decide_eq_true_eq] at ht
    have hne : ¬ k = j := by omega
    simp only [Table.find?, hne, if_false]
    exact ih ht.2 (by omega)

/-- Two arrays in canonical form with the same contents are the same data. -/
theorem Table.ext_of_rising {t u : Table α} {lo : Nat} (ht : Table.risingFrom lo t = true)
    (hu : Table.risingFrom lo u = true) (h : ∀ k, Table.find? t k = Table.find? u k) : t = u := by
  induction t generalizing lo u with
  | nil =>
    cases u with
    | nil => rfl
    | cons e rest => have := h e.1; simp [Table.find?] at this
  | cons e rest ih =>
    obtain ⟨j, x⟩ := e
    cases u with
    | nil => have := h j; simp [Table.find?] at this
    | cons e' rest' =>
      obtain ⟨j', x'⟩ := e'
      simp only [Table.risingFrom, Bool.and_eq_true, decide_eq_true_eq] at ht hu
      have hj : j = j' := by
        rcases Nat.lt_trichotomy j j' with hlt | heq | hlt
        · have h1 := h j
          have h2 := Table.find?_lt hu.2 (show j < j' + 1 by omega)
          simp [Table.find?, Nat.ne_of_lt hlt, h2] at h1
        · exact heq
        · have h1 := h j'
          have h2 := Table.find?_lt ht.2 (show j' < j + 1 by omega)
          simp [Table.find?, Nat.ne_of_lt hlt, h2] at h1
      subst hj
      have hx : x = x' := by simpa [Table.find?] using h j
      subst hx
      have hrest : rest = rest' := by
        apply ih ht.2 hu.2
        intro k
        by_cases hk : k = j
        · subst hk
          rw [Table.find?_lt ht.2 (Nat.lt_succ_self k), Table.find?_lt hu.2 (Nat.lt_succ_self k)]
        · simpa [Table.find?, hk] using h k
      rw [hrest]

/-! ### Buffers -/

/-- A buffer write keeps the canonical form. -/
theorem Memory.wf_put {m : Memory} (a : Nat) (b : Byte) (h : m.wf = true) :
    Memory.wf (Table.put m a b) = true :=
  Table.risingFrom_put a b (Nat.zero_le a) h

@[simp] theorem Memory.wf_nil : Memory.wf [] = true := rfl

theorem Memory.risingFrom_below {m : Memory} {lo : Nat} (n : Nat)
    (h : Table.risingFrom lo m = true) : Table.risingFrom lo (Memory.below m n) = true := by
  induction m generalizing lo with
  | nil => rfl
  | cons c rest ih =>
    obtain ⟨j, x⟩ := c
    simp only [Table.risingFrom, Bool.and_eq_true, decide_eq_true_eq] at h
    unfold Memory.below
    rw [List.filter_cons]
    split
    · simp only [Table.risingFrom, Bool.and_eq_true, decide_eq_true_eq]
      exact ⟨h.1, ih h.2⟩
    · exact Table.risingFrom_mono (by omega) (ih h.2)

/-- Forgetting the bytes beyond a result keeps the canonical form. -/
theorem Memory.wf_below {m : Memory} (n : Nat) (h : m.wf = true) : (Memory.below m n).wf = true :=
  Memory.risingFrom_below n h

/-- `below n` keeps exactly the bytes at addresses less than `n`. -/
theorem Memory.find?_below (m : Memory) (n a : Nat) :
    Table.find? (Memory.below m n) a = if a < n then Table.find? m a else none := by
  induction m with
  | nil => simp [Memory.below]
  | cons c rest ih =>
    obtain ⟨j, x⟩ := c
    unfold Memory.below at ih ⊢
    rw [List.filter_cons]
    by_cases hj : j < n
    · simp only [hj, decide_true, if_true, Table.find?, ih]
      by_cases ha : a = j
      · simp [ha, hj]
      · simp [ha]
    · simp only [hj, decide_false, Bool.false_eq_true, if_false, ih, Table.find?]
      by_cases ha : a = j
      · simp [ha, hj]
      · simp [ha]

/-- Buffers in canonical form with the same written bytes are equal data. -/
theorem Memory.ext_of_wf {m m' : Memory} (h : m.wf = true) (h' : m'.wf = true)
    (hr : ∀ a, Table.find? m a = Table.find? m' a) : m = m' :=
  Table.ext_of_rising h h' hr

/-! ### Reads of single cells -/

theorem readOut_put (s : State) (k a : Nat) (v : Byte) :
    readOut { s with obuf := Table.put s.obuf k v } a = if a = k then v else readOut s a := by
  unfold readOut
  simp only [Table.find?_put]
  split <;> rfl

theorem readIn_put (s : State) (k a : Nat) (v : Byte) :
    readIn { s with ibuf := Table.put s.ibuf k v } a = if a = k then v else readIn s a := by
  unfold readIn
  simp only [Table.find?_put]
  split <;> rfl

/-- The entries of an array after a write. -/
theorem Table.mem_put {α : Type} {t : Table α} {k : Nat} {v : α} {e : Nat × α}
    (h : e ∈ Table.put t k v) : e = (k, v) ∨ e ∈ t := by
  induction t with
  | nil => exact .inl (List.mem_singleton.mp h)
  | cons x t ih =>
    obtain ⟨j, w⟩ := x
    unfold Table.put at h
    split at h
    · exact (List.mem_cons.mp h).imp_right id
    · split at h
      · exact (List.mem_cons.mp h).imp_right (List.mem_cons_of_mem _)
      · rcases List.mem_cons.mp h with h | h
        · exact .inr (h ▸ List.mem_cons_self)
        · exact (ih h).imp_right (List.mem_cons_of_mem _)

/-- What entry `i` of the arena is after a write of entry `k`. -/
theorem nodeAt_put (arena : Table Node) (k i : Nat) (n : Node) :
    nodeAt (Table.put arena k n) i = if i = k then n else nodeAt arena i :=
  Table.get_put Node.blank arena k i n

@[simp] theorem nodeAt_put_same (arena : Table Node) (k : Nat) (n : Node) :
    nodeAt (Table.put arena k n) k = n := by simp [nodeAt_put]

theorem nodeAt_put_other (arena : Table Node) (k i : Nat) (n : Node) (h : i ≠ k) :
    nodeAt (Table.put arena k n) i = nodeAt arena i := by simp [nodeAt_put, h]

/-- FREQ after one count. -/
theorem freqAt_put (s : State) (k i n : Nat) :
    freqAt { s with freq := Table.put s.freq k n } i = if i = k then n else freqAt s i :=
  Table.get_put 0 s.freq k i n

/-- CB_LEN after one write. -/
theorem cbLenAt_put (s : State) (k i : Nat) (n : BitVec 8) :
    cbLenAt { s with cbLen := Table.put s.cbLen k n } i = if i = k then n else cbLenAt s i :=
  Table.get_put 0#8 s.cbLen k i n

/-- CB_BITS after one write. -/
theorem cbBitsAt_put (s : State) (k i : Nat) (p : List Bool) :
    cbBitsAt { s with cbBits := Table.put s.cbBits k p } i = if i = k then p else cbBitsAt s i :=
  Table.get_put [] s.cbBits k i p

end Sys2Proof.Machine
end

