-- ==== Sys2Proof/Laws/Flow.lean ====
section
/-! SUPPORT. The flow of a phase, and what the output cursor can do: `emit`, `emitAll` and the relation
`Wrote`. -/

namespace Sys2Proof.Machine

/-! ### Flow -/

@[simp] theorem Flow.bind_go (s : State) (k : State → Flow) : (Flow.go s).bind k = k s := rfl

@[simp] theorem Flow.bind_abort (e : ErrInfo) (s : State) (k : State → Flow) :
    (Flow.abort e s).bind k = .abort e s := rfl

theorem Flow.bind_assoc (f : Flow) (k l : State → Flow) :
    (f.bind k).bind l = f.bind (fun s => (k s).bind l) := by
  cases f <;> rfl

theorem Flow.bind_eq_go {f : Flow} {k : State → Flow} {u : State} :
    f.bind k = .go u ↔ ∃ s, f = .go s ∧ k s = .go u := by
  cases f <;> simp

theorem Flow.bind_eq_abort {f : Flow} {k : State → Flow} {e : ErrInfo} {u : State} :
    f.bind k = .abort e u ↔ f = .abort e u ∨ ∃ s, f = .go s ∧ k s = .abort e u := by
  cases f <;> simp

@[simp] theorem Flow.each_nil {α : Type} (body : α → State → Flow) (s : State) :
    Flow.each body [] s = .go s := rfl

@[simp] theorem Flow.each_cons {α : Type} (body : α → State → Flow) (x : α) (xs : List α) (s : State) :
    Flow.each body (x :: xs) s = (body x s).bind (Flow.each body xs) := rfl

theorem Flow.each_append {α : Type} (body : α → State → Flow) (xs ys : List α) (s : State) :
    Flow.each body (xs ++ ys) s = (Flow.each body xs s).bind (Flow.each body ys) := by
  induction xs generalizing s with
  | nil => rfl
  | cons x xs ih =>
    simp only [List.cons_append, Flow.each_cons, Flow.bind_assoc]
    congr 1
    funext t
    exact ih t

@[simp] theorem Flow.outcome_go (s : State) : (Flow.go s).outcome = .next s := rfl

@[simp] theorem Flow.outcome_abort (e : ErrInfo) (s : State) :
    (Flow.abort e s).outcome = .next (raise e s) := rfl

/-- Every phase written as a flow answers a next state. -/
theorem Flow.outcome_next (f : Flow) :
    (∃ s, f = .go s ∧ f.outcome = .next s) ∨
    (∃ e s, f = .abort e s ∧ f.outcome = .next (raise e s)) := by
  cases f with
  | go s => exact .inl ⟨s, rfl, rfl⟩
  | abort e s => exact .inr ⟨e, s, rfl, rfl⟩

/-- A relation that holds of every round and composes holds of the loop. -/
theorem Flow.each_relates {α : Type} {body : α → State → Flow} {R : State → State → Prop}
    (refl : ∀ s, R s s) (trans : ∀ s t u, R s t → R t u → R s u)
    (round : ∀ x s, (∀ t, body x s = .go t → R s t) ∧ ∀ e t, body x s = .abort e t → R s t) :
    ∀ (xs : List α) (s : State),
      (∀ t, Flow.each body xs s = .go t → R s t) ∧
      ∀ e t, Flow.each body xs s = .abort e t → R s t := by
  intro xs
  induction xs with
  | nil =>
    intro s
    constructor
    · intro t h
      cases h
      exact refl s
    · intro e t h
      cases h
  | cons x xs ih =>
    intro s
    simp only [Flow.each_cons]
    constructor
    · intro t h
      obtain ⟨m, hm, ht⟩ := Flow.bind_eq_go.mp h
      exact trans s m t ((round x s).1 m hm) ((ih m).1 t ht)
    · intro e t h
      rcases Flow.bind_eq_abort.mp h with h | ⟨m, hm, ht⟩
      · exact (round x s).2 e t h
      · exact trans s m t ((round x s).1 m hm) ((ih m).2 e t ht)

/-! ### What was written -/

/-- Nothing written. -/
theorem Wrote.nil (s : State) : Wrote [] s s := by simp [Wrote]

/-- Two pieces written one after the other. -/
theorem Wrote.append {b1 b2 : List Byte} {s t u : State} (h1 : Wrote b1 s t) (h2 : Wrote b2 t u) :
    Wrote (b1 ++ b2) s u := by
  obtain ⟨p1, r1, f1, e1⟩ := h1
  obtain ⟨p2, r2, f2, e2⟩ := h2
  refine ⟨by simp only [List.length_append]; omega, ?_, ?_, e2.trans e1⟩
  · intro j hj
    rw [List.length_append] at hj
    by_cases hlt : j < b1.length
    · rw [f2 _ (.inl (by omega)), r1 j hlt]
      simp [List.getD_eq_getElem?_getD, List.getElem?_append_left hlt]
    · have hr := r2 (j - b1.length) (by omega)
      rw [show t.opos.toNat + (j - b1.length) = s.opos.toNat + j by omega] at hr
      rw [hr]
      simp [List.getD_eq_getElem?_getD, List.getElem?_append_right (by omega : b1.length ≤ j)]
  · intro a ha
    rw [List.length_append] at ha
    rw [f2 a (by omega), f1 a (by omega)]

/-- Below OBUF_CAP the output cursor does not wrap. -/
theorem opos_succ (s : State) (h : s.opos.toNat < s.obufCap.toNat) :
    (s.opos + 1#32).toNat = s.opos.toNat + 1 := by
  have := s.obufCap.isLt
  simp only [BitVec.toNat_add, BitVec.toNat_ofNat]
  omega

/-- `emit` with room writes one byte at OPOS. -/
theorem emit_room (v : Byte) (s : State) (h : s.opos.toNat < s.obufCap.toNat) :
    emit v s =
      .go { s with obuf := Table.put s.obuf s.opos.toNat v, opos := s.opos + 1#32 } :=
  if_neg (by rw [BitVec.le_def]; omega)

/-- `emit` at or beyond OBUF_CAP raises OUT_RANGE and changes nothing. -/
theorem emit_full (v : Byte) (s : State) (h : s.obufCap.toNat ≤ s.opos.toNat) :
    emit v s = .abort .outRange s :=
  if_pos (BitVec.le_def.mpr h)

/-- Everything `emit` can do. -/
theorem emit_cases (v : Byte) (s : State) :
    (s.opos.toNat < s.obufCap.toNat ∧
      ∃ u, emit v s = .go u ∧ Wrote [v] s u ∧ u = { s with obuf := u.obuf, opos := s.opos + 1#32 } ∧
        u.obuf = Table.put s.obuf s.opos.toNat v) ∨
    (s.obufCap.toNat ≤ s.opos.toNat ∧ emit v s = .abort .outRange s) := by
  by_cases h : s.opos.toNat < s.obufCap.toNat
  · refine .inl ⟨h, _, emit_room v s h, ⟨opos_succ s h, ?_, ?_, rfl⟩, rfl, rfl⟩
    · intro j hj
      have : j = 0 := by simpa using hj
      subst this
      simp [readOut]
    · intro a ha
      simp only [List.length_singleton] at ha
      have hne : a ≠ s.opos.toNat := by omega
      simp [readOut, Table.find?_put_other _ _ _ _ hne]
  · exact .inr ⟨by omega, emit_full v s (by omega)⟩

@[simp] theorem emitAll_nil (s : State) : emitAll [] s = .go s := rfl

theorem emitAll_cons (b : Byte) (bs : List Byte) (s : State) :
    emitAll (b :: bs) s = (emit b s).bind (emitAll bs) := rfl

theorem emitAll_append (xs ys : List Byte) (s : State) :
    emitAll (xs ++ ys) s = (emitAll xs s).bind (emitAll ys) :=
  Flow.each_append emit xs ys s

/-- Emitting bytes that fit writes them all. -/
theorem emitAll_room (bytes : List Byte) (s : State)
    (h : bytes = [] ∨ s.opos.toNat + bytes.length ≤ s.obufCap.toNat) :
    ∃ u, emitAll bytes s = .go u ∧ Wrote bytes s u ∧
      u = { s with obuf := u.obuf, opos := s.opos + BitVec.ofNat 32 bytes.length } := by
  induction bytes generalizing s with
  | nil => exact ⟨s, rfl, Wrote.nil s, by simp⟩
  | cons b bs ih =>
    have hroom : s.opos.toNat + (bs.length + 1) ≤ s.obufCap.toNat := by
      rcases h with h | h
      · simp at h
      · simpa using h
    rcases emit_cases b s with ⟨hr, m, hm, wm, fm, _⟩ | ⟨hfull, _⟩
    · have hcap : m.obufCap = s.obufCap := by rw [fm]
      have hpos : m.opos = s.opos + 1#32 := by rw [fm]
      obtain ⟨u, hu, wu, fu⟩ := ih m (.inr (by rw [hcap, hpos, opos_succ s hr]; omega))
      refine ⟨u, by rw [emitAll_cons, hm]; exact hu, Wrote.append wm wu, ?_⟩
      have hlen : m.opos + BitVec.ofNat 32 bs.length = s.opos + BitVec.ofNat 32 (b :: bs).length := by
        rw [hpos, List.length_cons, BitVec.add_assoc, Nat.add_comm, BitVec.ofNat_add]
      rw [hlen, fm] at fu
      exact fu
    · omega

/-- Emitting bytes that do not fit raises OUT_RANGE; only OBUF and OPOS have changed by then. -/
theorem emitAll_full (bytes : List Byte) (s : State) (hne : bytes ≠ [])
    (h : s.obufCap.toNat < s.opos.toNat + bytes.length) :
    ∃ v, emitAll bytes s = .abort .outRange v ∧ v = { s with obuf := v.obuf, opos := v.opos } := by
  induction bytes generalizing s with
  | nil => exact absurd rfl hne
  | cons b bs ih =>
    rw [List.length_cons] at h
    rcases emit_cases b s with ⟨hroom, m, hm, _, fm, _⟩ | ⟨_, hab⟩
    · have hcap : m.obufCap = s.obufCap := by rw [fm]
      have hpos : m.opos = s.opos + 1#32 := by rw [fm]
      have hbs : bs ≠ [] := by
        intro hnil
        simp [hnil] at h
        omega
      obtain ⟨v, hv, fv⟩ := ih m hbs (by rw [hcap, hpos, opos_succ s hroom]; omega)
      refine ⟨v, by rw [emitAll_cons, hm]; exact hv, ?_⟩
      rw [fm] at fv
      exact fv
    · exact ⟨s, by rw [emitAll_cons, hab]; rfl, rfl⟩

/-- Whatever `emitAll` does, only OBUF and OPOS change, OPOS stays within OBUF_CAP if it was, and OBUF
keeps its canonical form. -/
theorem emitAll_frame (bytes : List Byte) (s u : State)
    (h : emitAll bytes s = .go u ∨ ∃ e, emitAll bytes s = .abort e u) :
    u = { s with obuf := u.obuf, opos := u.opos } ∧ s.opos ≤ u.opos ∧
    (s.opos ≤ s.obufCap → u.opos ≤ s.obufCap) ∧ (s.obuf.wf = true → u.obuf.wf = true) := by
  induction bytes generalizing s with
  | nil =>
    rcases h with h | ⟨e, h⟩
    · cases h; exact ⟨rfl, BitVec.le_refl _, id, id⟩
    · cases h
  | cons b bs ih =>
    rw [emitAll_cons] at h
    rcases emit_cases b s with ⟨hroom, m, hm, _, fm, om⟩ | ⟨_, hab⟩
    · rw [hm, Flow.bind_go] at h
      obtain ⟨f, l, c, w⟩ := ih m h
      have hcap : m.obufCap = s.obufCap := by rw [fm]
      have hpos : m.opos = s.opos + 1#32 := by rw [fm]
      have hs := opos_succ s hroom
      rw [hcap, hpos] at c
      rw [hpos] at l
      simp only [BitVec.le_def] at c l ⊢
      refine ⟨?_, by omega, fun _ => c (by omega), fun hw => w ?_⟩
      · rw [fm] at f; exact f
      · rw [om]; exact Memory.wf_put _ _ hw
    · rw [hab, Flow.bind_abort] at h
      rcases h with h | ⟨e, h⟩
      · cases h
      · cases h; exact ⟨rfl, BitVec.le_refl _, id, id⟩

/-- The result of a command whose bytes were written from 0 on. -/
theorem result_of_written {out : List Byte} {s : State} (hlen : s.outLen.toNat = out.length)
    (h : ∀ j, j < out.length → readOut s j = out.getD j 0#8) : result s = out := by
  unfold result
  rw [hlen]
  apply List.ext_getElem
  · simp
  · intro j h1 h2
    simp only [List.getElem_map, List.getElem_range]
    rw [h j h2]
    simp [List.getD_eq_getElem?_getD, List.getElem?_eq_getElem h2]

end Sys2Proof.Machine
end

