-- ==== Sys2Proof/Laws/Heap.lean ====
section
/-! SUPPORT. The binary heap as a list: every operation permutes the entries, `insert` adds one and
`extract_min` takes one away. -/

namespace Sys2Proof.Machine

@[simp] theorem heapSwap_length (h : List Index) (i j : Nat) : (heapSwap h i j).length = h.length := by
  simp [heapSwap]

/-- Entry `k` after two entries in use have changed places. -/
theorem heapAt_swap (h : List Index) (i j k : Nat) (hi : i < h.length) (hj : j < h.length) :
    heapAt (heapSwap h i j) k = if k = j then heapAt h i else if k = i then heapAt h j else heapAt h k := by
  unfold heapSwap
  unfold heapAt
  simp only [List.getD_eq_getElem?_getD, List.getElem?_set, List.length_set]
  by_cases hkj : k = j
  · simp [hkj, hj]
  · by_cases hki : k = i
    · subst hki
      have : ¬ j = k := fun h => hkj h.symm
      simp [this, hkj, hi]
    · have h1 : ¬ j = k := fun h => hkj h.symm
      have h2 : ¬ i = k := fun h => hki h.symm
      simp [h1, h2, hkj, hki]

theorem heapSwap_perm (h : List Index) (i j : Nat) (hi : i < h.length) (hj : j < h.length) :
    (heapSwap h i j).Perm h := by
  have e1 : heapAt h j = h[j] := by simp [heapAt, List.getD_eq_getElem?_getD, hj]
  have e2 : heapAt h i = h[i] := by simp [heapAt, List.getD_eq_getElem?_getD, hi]
  unfold heapSwap
  rw [e1, e2]
  exact List.set_set_perm hi hj

theorem leastChild_lt (lt : Index → Index → Bool) (h : List Index) (i : Nat) (hi : i < h.length) :
    leastChild lt h i < h.length := by
  have pick : ∀ (c : Bool) (a b : Nat), (c = true → a < h.length) → b < h.length →
      (if c then a else b) < h.length := by
    intro c a b ha hb
    cases c
    · exact hb
    · exact ha rfl
  have hfst : ∀ (a : Nat) (c : Bool), (decide (a < h.length) && c) = true → a < h.length := by
    intro a c hc
    simp only [Bool.and_eq_true, decide_eq_true_eq] at hc
    exact hc.1
  exact pick _ _ _ (hfst _ _) (pick _ _ _ (hfst _ _) hi)

@[simp] theorem siftUp_length (lt : Index → Index → Bool) (fuel : Nat) (h : List Index) (i : Nat) :
    (siftUp lt fuel h i).length = h.length := by
  induction fuel generalizing h i with
  | zero => rfl
  | succ fuel ih =>
    unfold siftUp
    split
    · rfl
    · split
      · rw [ih, heapSwap_length]
      · rfl

theorem siftUp_perm (lt : Index → Index → Bool) (fuel : Nat) (h : List Index) (i : Nat) (hi : i < h.length) :
    (siftUp lt fuel h i).Perm h := by
  induction fuel generalizing h i with
  | zero => exact List.Perm.refl _
  | succ fuel ih =>
    unfold siftUp
    split
    · exact List.Perm.refl _
    · split
      · exact (ih _ _ (by rw [heapSwap_length]; omega)).trans
          (heapSwap_perm h i _ hi (by omega))
      · exact List.Perm.refl _

@[simp] theorem siftDown_length (lt : Index → Index → Bool) (fuel : Nat) (h : List Index) (i : Nat) :
    (siftDown lt fuel h i).length = h.length := by
  induction fuel generalizing h i with
  | zero => rfl
  | succ fuel ih =>
    unfold siftDown
    split
    · rfl
    · rw [ih, heapSwap_length]

theorem siftDown_perm (lt : Index → Index → Bool) (fuel : Nat) (h : List Index) (i : Nat)
    (hi : i < h.length) : (siftDown lt fuel h i).Perm h := by
  induction fuel generalizing h i with
  | zero => exact List.Perm.refl _
  | succ fuel ih =>
    unfold siftDown
    split
    · exact List.Perm.refl _
    · have hc := leastChild_lt lt h i hi
      exact (ih _ _ (by rw [heapSwap_length]; exact hc)).trans (heapSwap_perm h i _ hi hc)

/-- `insert` lengthens the heap by one. -/
@[simp] theorem heapInsert_length (lt : Index → Index → Bool) (n : Index) (h : List Index) :
    (heapInsert lt n h).length = h.length + 1 := by simp [heapInsert]

/-- `insert` adds exactly the index inserted. -/
theorem heapInsert_perm (lt : Index → Index → Bool) (n : Index) (h : List Index) :
    (heapInsert lt n h).Perm (n :: h) := by
  unfold heapInsert
  exact (siftUp_perm lt _ _ _ (by simp)).trans (List.perm_append_comm (l₂ := [n]))

theorem heapExtract_cons (lt : Index → Index → Bool) (m : Index) (rest : List Index) :
    heapExtract lt (m :: rest) =
      match rest.getLast? with
      | none => some (m, [])
      | some x => some (m, siftDown lt rest.length (x :: rest.dropLast) 0) := rfl

/-- `extract_min` has a result on every non-empty heap. -/
theorem heapExtract_isSome (lt : Index → Index → Bool) (h : List Index) :
    (heapExtract lt h).isSome = true ↔ h ≠ [] := by
  cases h with
  | nil => simp [heapExtract]
  | cons m rest =>
    rw [heapExtract_cons]
    cases rest.getLast? <;> simp

/-- `extract_min` leaves exactly the other entries. -/
theorem heapExtract_perm (lt : Index → Index → Bool) (h : List Index) (m : Index) (rest : List Index)
    (he : heapExtract lt h = some (m, rest)) : h.Perm (m :: rest) := by
  cases h with
  | nil => simp [heapExtract] at he
  | cons a tail =>
    rw [heapExtract_cons] at he
    cases hl : tail.getLast? with
    | none =>
      rw [hl] at he
      simp only [Option.some.injEq, Prod.mk.injEq] at he
      obtain ⟨rfl, rfl⟩ := he
      rw [List.getLast?_eq_none_iff.mp hl]
    | some x =>
      rw [hl] at he
      simp only [Option.some.injEq, Prod.mk.injEq] at he
      obtain ⟨rfl, rfl⟩ := he
      refine List.Perm.cons _ ?_
      have hne : tail ≠ [] := by intro h0; simp [h0] at hl
      have hlast : tail.dropLast ++ [x] = tail := by
        have := List.dropLast_append_getLast hne
        rw [List.getLast?_eq_getLast_of_ne_nil hne, Option.some.injEq] at hl
        rw [← hl]
        exact this
      have hperm := siftDown_perm lt tail.length (x :: tail.dropLast) 0 (by simp)
      refine List.Perm.trans ?_ hperm.symm
      conv => lhs; rw [← hlast]
      exact List.perm_append_comm (l₂ := [x])

/-- `extract_min` shortens the heap by one. -/
theorem heapExtract_length (lt : Index → Index → Bool) (h : List Index) (m : Index) (rest : List Index)
    (he : heapExtract lt h = some (m, rest)) : h.length = rest.length + 1 := by
  simpa using (heapExtract_perm lt h m rest he).length_eq

/-- The first entry is the one extracted. -/
theorem heapExtract_head (lt : Index → Index → Bool) (m : Index) (h : List Index) :
    ∃ rest, heapExtract lt (m :: h) = some (m, rest) := by
  rw [heapExtract_cons]
  cases h.getLast? with
  | none => exact ⟨[], rfl⟩
  | some x => exact ⟨_, rfl⟩

/-! ### The order -/

theorem less_irrefl (arena : Table Node) (x : Index) : less arena x x = false := by simp [less]

theorem less_trans (arena : Table Node) (x y z : Index) (h1 : less arena x y = true)
    (h2 : less arena y z = true) : less arena x z = true := by
  simp only [less, Bool.or_eq_true, Bool.and_eq_true, decide_eq_true_eq, BitVec.lt_def] at *
  omega

/-- The order is total (R171): of two different indices one is less. -/
theorem less_total (arena : Table Node) (x y : Index) (h : x ≠ y) :
    less arena x y = true ∨ less arena y x = true := by
  have hne : x.toNat ≠ y.toNat := fun h' => h (BitVec.eq_of_toNat_eq h')
  simp only [less, Bool.or_eq_true, Bool.and_eq_true, decide_eq_true_eq, BitVec.lt_def]
  omega

theorem less_asymm (arena : Table Node) (x y : Index) (h : less arena x y = true) :
    less arena y x = false := by
  simp only [less, Bool.or_eq_true, Bool.and_eq_true, decide_eq_true_eq, Bool.or_eq_false_iff,
    Bool.and_eq_false_iff, decide_eq_false_iff_not, BitVec.lt_def] at *
  omega

end Sys2Proof.Machine
end

