-- ==== Sys2Proof/Laws/Operands.lean ====
section
/-! SUPPORT. The operand forms, the packer's functions and step, and the items of the artifact: lengths,
elements, and everything `putBit` can do. -/

namespace Sys2Proof.Machine

/-! ### The input -/

@[simp] theorem readRange_length (s : State) (start n : Nat) : (readRange s start n).length = n := by
  induction n generalizing start with
  | zero => rfl
  | succ n ih => simp [readRange, ih]

theorem readRange_getElem? (s : State) (start n i : Nat) (h : i < n) :
    (readRange s start n)[i]? = some (readIn s (start + i)) := by
  induction n generalizing start i with
  | zero => omega
  | succ n ih =>
    cases i with
    | zero => simp [readRange]
    | succ i =>
      simp only [readRange, List.getElem?_cons_succ]
      rw [ih (start + 1) i (by omega)]
      congr 2
      omega

theorem readRange_add (s : State) (start m n : Nat) :
    readRange s start (m + n) = readRange s start m ++ readRange s (start + m) n := by
  induction m generalizing start with
  | zero => simp [readRange]
  | succ m ih =>
    rw [show m + 1 + n = (m + n) + 1 by omega]
    simp only [readRange, List.cons_append, ih]
    congr 3
    omega

@[simp] theorem input_length (s : State) : (input s).length = s.inLen.toNat := readRange_length s 0 _

theorem input_getElem? (s : State) (i : Nat) (h : i < s.inLen.toNat) :
    (input s)[i]? = some (readIn s i) := by
  simpa [input] using readRange_getElem? s 0 s.inLen.toNat i h

/-- The bytes from `start` on are the input without its first `start` bytes. -/
theorem inputFrom_eq_drop (s : State) (start : Nat) : inputFrom s start = (input s).drop start := by
  unfold inputFrom input
  by_cases h : start ≤ s.inLen.toNat
  · conv => rhs; rw [show s.inLen.toNat = start + (s.inLen.toNat - start) by omega, readRange_add]
    simp
  · rw [show s.inLen.toNat - start = 0 by omega]
    simp [readRange, List.drop_eq_nil_of_le, show s.inLen.toNat ≤ start by omega]

/-- Reading IBUF depends on its contents and its era alone. -/
theorem readRange_congr {s t : State} (h : t.ibuf = s.ibuf) (he : t.ibufEra = s.ibufEra)
    (start n : Nat) : readRange t start n = readRange s start n := by
  induction n generalizing start with
  | zero => rfl
  | succ n ih => simp [readRange, readIn, h, he, ih]

theorem input_congr {s t : State} (h : t.ibuf = s.ibuf) (he : t.ibufEra = s.ibufEra)
    (hl : t.inLen = s.inLen) : input t = input s := by
  unfold input
  rw [hl, readRange_congr h he]

/-! ### Bits and bytes -/

theorem ceil8_eq (n : Nat) : ceil8 n = (n + 7) / 8 := by
  unfold ceil8
  split <;> omega

/-- `ceil8 n` bytes hold `n` bits, and one byte less does not. -/
theorem ceil8_bounds (n : Nat) : n ≤ 8 * ceil8 n ∧ 8 * ceil8 n < n + 8 := by
  rw [ceil8_eq]
  omega

@[simp] theorem pack_length (c : List Bool) : (pack c).length = ceil8 c.length := by simp [pack]

@[simp] theorem unpack_length (bytes : List Byte) (n : Nat) : (unpack bytes n).length = n := by
  simp [unpack]

@[simp] theorem be64_length (n : BitVec 64) : (be64 n).length = 8 := rfl

@[simp] theorem payloadBitsFrom_length (s : State) (n : Nat) : (payloadBitsFrom s n).length = n := by
  simp [payloadBitsFrom]

/-! ### The packer's step -/

/-- Everything `put_bit` can do. -/
theorem putBit_cases (b : Bool) (s : State) :
    (s.accN ≠ 7#3 ∧ ∃ acc, putBit b s = .go { s with acc := acc, accN := s.accN + 1#3 }) ∨
    (s.accN = 7#3 ∧ s.opos.toNat < s.obufCap.toNat ∧ ∃ u v, putBit b s = .go u ∧ Wrote [v] s u ∧
      u = { s with
        obuf := Table.put s.obuf s.opos.toNat v, opos := s.opos + 1#32, acc := 0#8, accN := 0#3 }) ∨
    (s.accN = 7#3 ∧ s.obufCap.toNat ≤ s.opos.toNat ∧
      ∃ acc, putBit b s = .abort .outRange { s with acc := acc }) := by
  by_cases hn : s.accN = 7#3
  · refine .inr ?_
    generalize hacc : s.acc ||| ((BitVec.ofBool b).setWidth 8 <<< (7 - s.accN.toNat)) = acc
    have hput : putBit b s =
        (emit acc { s with acc := acc }).bind (fun s1 => .go { s1 with acc := 0#8, accN := 0#3 }) := by
      unfold putBit
      simp only [hacc]
      exact if_pos hn
    by_cases hroom : s.opos.toNat < s.obufCap.toNat
    · refine .inl ⟨hn, hroom, _, acc, by rw [hput, emit_room acc { s with acc := acc } hroom]; rfl, ?_, rfl⟩
      refine ⟨opos_succ s hroom, fun j hj => ?_, fun a ha => ?_, rfl⟩
      · have : j = 0 := by simpa using hj
        subst this
        simp [readOut]
      · have hne : a ≠ s.opos.toNat := by simp only [List.length_singleton] at ha; omega
        simp [readOut, Table.find?_put_other _ _ _ _ hne]
    · exact .inr ⟨hn, by omega, acc, by rw [hput, emit_full acc { s with acc := acc } (by simpa using hroom)]; rfl⟩
  · exact .inl ⟨hn, _, if_neg hn⟩

/-- Whatever `put_bit` does, only OBUF, OPOS, ACC and ACC_N change. -/
theorem putBit_frame (b : Bool) (s u : State)
    (h : putBit b s = .go u ∨ ∃ e, putBit b s = .abort e u) :
    u = { s with obuf := u.obuf, opos := u.opos, acc := u.acc, accN := u.accN } ∧ s.opos ≤ u.opos ∧
    (s.opos ≤ s.obufCap → u.opos ≤ s.obufCap) ∧ (s.obuf.wf = true → u.obuf.wf = true) := by
  rcases putBit_cases b s with ⟨_, acc, hp⟩ | ⟨_, hroom, m, v, hp, _, fm⟩ | ⟨_, _, acc, hp⟩
  · rw [hp] at h
    rcases h with h | ⟨e, h⟩ <;> cases h
    exact ⟨rfl, BitVec.le_refl _, id, id⟩
  · rw [hp] at h
    rcases h with h | ⟨e, h⟩ <;> cases h
    rw [fm]
    have hs := opos_succ s hroom
    exact ⟨rfl, BitVec.le_def.mpr (by simp only [hs]; omega),
      fun _ => BitVec.le_def.mpr (by simp only [hs]; omega), fun hw => Memory.wf_put _ _ hw⟩
  · rw [hp] at h
    rcases h with h | ⟨e, h⟩ <;> cases h
    exact ⟨rfl, BitVec.le_refl _, id, id⟩

/-! ### Every operation keeps the buffers canonical -/

theorem writeBuf_canonical (sp : Space) (off : Nat) (b : Byte) (s : State) (h : BuffersCanonical s) :
    BuffersCanonical (writeBuf sp off b s) := by
  unfold writeBuf
  split
  · cases sp
    · exact ⟨Memory.wf_put off b h.1, h.2⟩
    · exact ⟨h.1, Memory.wf_put off b h.2⟩
  · exact h

theorem raise_canonical (e : ErrInfo) (s : State) (h : BuffersCanonical s) :
    BuffersCanonical (raise e s) := ⟨h.1, rfl⟩

theorem resetBlock_canonical (s : State) : BuffersCanonical (resetBlock s) := ⟨rfl, rfl⟩

theorem finish_canonical (s t : State) (h : BuffersCanonical s) (ht : execPFinish s = .next t) :
    BuffersCanonical t := by
  unfold execPFinish at ht
  cases ht
  exact ⟨h.1, Memory.wf_below s.opos.toNat h.2⟩

theorem placeBytes_canonical (off : Nat) (bytes : List Byte) (s : State) (h : BuffersCanonical s) :
    BuffersCanonical (placeBytes off bytes s) := by
  refine ⟨?_, h.2⟩
  have key : ∀ (es : List (Byte × Nat)) (m : Memory), m.wf = true →
      Memory.wf (es.foldl (fun m e => Table.put m e.2 e.1) m) = true := by
    intro es
    induction es with
    | nil => exact fun m hm => hm
    | cons e es ih => exact fun m hm => ih _ (Memory.wf_put _ _ hm)
  exact key _ _ h.1

theorem reset_canonical : BuffersCanonical State.reset := ⟨rfl, rfl⟩

end Sys2Proof.Machine
end

