-- ==== Sys2Proof/Laws/PerInstr.lean ====
section
/-! SUPPORT. A statement for all instructions, proved constructor by constructor: every instruction is
well formed, and its encoding has the width the opcode table gives its row. -/

namespace Sys2Proof.Laws.Width

/-- The encoding of `i` is 32 bits wide for a register write, 2, 3 or 4 for a code read, 5 for a PHASE
code, and 8, 16 or 64 for an item of the artifact; every operand value is well formed. -/
def Statement (i : Instr) : Prop :=
  i.wellFormed = true ∧ [2, 3, 4, 5, 8, 16, 32, 64].contains (encode i).bits = true

theorem ctrlNone (ignored : BitVec 30) : Statement (.ctrlNone ignored) := ⟨rfl, rfl⟩
theorem start (ignored : BitVec 30) : Statement (.start ignored) := ⟨rfl, rfl⟩
theorem clear (ignored : BitVec 30) : Statement (.clear ignored) := ⟨rfl, rfl⟩
theorem ctrlReserved (ignored : BitVec 30) : Statement (.ctrlReserved ignored) := ⟨rfl, rfl⟩
theorem cmdReserved0 (ignored : BitVec 30) : Statement (.cmdReserved0 ignored) := ⟨rfl, rfl⟩
theorem compress (ignored : BitVec 30) : Statement (.compress ignored) := ⟨rfl, rfl⟩
theorem decompress (ignored : BitVec 30) : Statement (.decompress ignored) := ⟨rfl, rfl⟩
theorem cmdReserved3 (ignored : BitVec 30) : Statement (.cmdReserved3 ignored) := ⟨rfl, rfl⟩
theorem pIdle : Statement .pIdle := ⟨rfl, rfl⟩
theorem pCheck : Statement .pCheck := ⟨rfl, rfl⟩
theorem pEmpty : Statement .pEmpty := ⟨rfl, rfl⟩
theorem pFcount : Statement .pFcount := ⟨rfl, rfl⟩
theorem pHinit : Statement .pHinit := ⟨rfl, rfl⟩
theorem pHmerge : Statement .pHmerge := ⟨rfl, rfl⟩
theorem pHwrap : Statement .pHwrap := ⟨rfl, rfl⟩
theorem pCgen : Statement .pCgen := ⟨rfl, rfl⟩
theorem pSize : Statement .pSize := ⟨rfl, rfl⟩
theorem pTser : Statement .pTser := ⟨rfl, rfl⟩
theorem pHdr : Statement .pHdr := ⟨rfl, rfl⟩
theorem pEncode : Statement .pEncode := ⟨rfl, rfl⟩
theorem pFlush : Statement .pFlush := ⟨rfl, rfl⟩
theorem pDhead : Statement .pDhead := ⟨rfl, rfl⟩
theorem pTdes : Statement .pTdes := ⟨rfl, rfl⟩
theorem pDelim : Statement .pDelim := ⟨rfl, rfl⟩
theorem pRdlen : Statement .pRdlen := ⟨rfl, rfl⟩
theorem pChklen : Statement .pChklen := ⟨rfl, rfl⟩
theorem pWalk : Statement .pWalk := ⟨rfl, rfl⟩
theorem pWend : Statement .pWend := ⟨rfl, rfl⟩
theorem pFinish : Statement .pFinish := ⟨rfl, rfl⟩
theorem tokBranch : Statement .tokBranch := ⟨rfl, rfl⟩
theorem tokLeaf (sym : Byte) : Statement (.tokLeaf sym) := ⟨rfl, rfl⟩
theorem delim : Statement .delim := ⟨rfl, rfl⟩
theorem tokEmpty : Statement .tokEmpty := ⟨rfl, rfl⟩
theorem bitlen (n : BitVec 64) : Statement (.bitlen n) := ⟨rfl, rfl⟩
theorem payloadByte (bits : Byte) : Statement (.payloadByte bits) := ⟨rfl, rfl⟩
theorem errNone : Statement .errNone := ⟨rfl, rfl⟩
theorem errIo : Statement .errIo := ⟨rfl, rfl⟩
theorem errCorruptTree : Statement .errCorruptTree := ⟨rfl, rfl⟩
theorem errFormat : Statement .errFormat := ⟨rfl, rfl⟩
theorem errDecode : Statement .errDecode := ⟨rfl, rfl⟩
theorem errUsage : Statement .errUsage := ⟨rfl, rfl⟩
theorem infoNone : Statement .infoNone := ⟨rfl, rfl⟩
theorem infoBadCmd : Statement .infoBadCmd := ⟨rfl, rfl⟩
theorem infoInRange : Statement .infoInRange := ⟨rfl, rfl⟩
theorem infoOutRange : Statement .infoOutRange := ⟨rfl, rfl⟩
theorem infoTruncated : Statement .infoTruncated := ⟨rfl, rfl⟩
theorem infoBadMarker : Statement .infoBadMarker := ⟨rfl, rfl⟩
theorem infoTooLarge : Statement .infoTooLarge := ⟨rfl, rfl⟩
theorem infoNoDelim : Statement .infoNoDelim := ⟨rfl, rfl⟩
theorem infoBadDelim : Statement .infoBadDelim := ⟨rfl, rfl⟩
theorem infoNoLength : Statement .infoNoLength := ⟨rfl, rfl⟩
theorem infoLenMismatch : Statement .infoLenMismatch := ⟨rfl, rfl⟩
theorem infoTrailing : Statement .infoTrailing := ⟨rfl, rfl⟩
theorem infoCodeCollision : Statement .infoCodeCollision := ⟨rfl, rfl⟩
theorem infoNullChild : Statement .infoNullChild := ⟨rfl, rfl⟩
theorem infoIncomplete : Statement .infoIncomplete := ⟨rfl, rfl⟩
theorem stIdle : Statement .stIdle := ⟨rfl, rfl⟩
theorem stBusy : Statement .stBusy := ⟨rfl, rfl⟩
theorem stDone : Statement .stDone := ⟨rfl, rfl⟩
theorem stError : Statement .stError := ⟨rfl, rfl⟩

end Sys2Proof.Laws.Width
end

