-- ==== Sys2Proof/Laws/Tree.lean ====
section
/-! SUPPORT. Trees: more levels find the same tree, the leaf list under a path, and that a tree depends on
kinds, symbols and children alone. -/

namespace Sys2Proof.Machine

/-- With more levels allowed the same tree is found. -/
theorem treeOf_mono {arena : Table Node} {fuel fuel' i : Nat} {t : Tree} (hf : fuel ≤ fuel')
    (h : treeOf arena fuel i = some t) : treeOf arena fuel' i = some t := by
  induction fuel generalizing fuel' i t with
  | zero => simp [treeOf] at h
  | succ fuel ih =>
    obtain ⟨f', rfl⟩ : ∃ f', fuel' = f' + 1 := ⟨fuel' - 1, by omega⟩
    rw [treeOf] at h ⊢
    cases hk : (nodeAt arena i).kind with
    | leaf => simpa [hk] using h
    | internal =>
      simp only [hk] at h ⊢
      cases hl : treeOf arena fuel (nodeAt arena i).left.toNat with
      | none => simp [hl] at h
      | some l =>
        cases hr : treeOf arena fuel (nodeAt arena i).right.toNat with
        | none => simp [hl, hr] at h
        | some r =>
          rw [ih (by omega) hl, ih (by omega) hr]
          simpa [hl, hr] using h

/-- An entry that is a LEAF is the tree of its symbol. -/
theorem treeOf_leaf {arena : Table Node} {fuel i : Nat} (hk : (nodeAt arena i).kind = .leaf)
    (hf : 1 ≤ fuel) : treeOf arena fuel i = some (.leaf (nodeAt arena i).sym) := by
  obtain ⟨f, rfl⟩ : ∃ f, fuel = f + 1 := ⟨fuel - 1, by omega⟩
  simp [treeOf, hk]

/-- An entry that is INTERNAL has the trees of its children below it. -/
theorem treeOf_internal {arena : Table Node} {fuel i : Nat} {l r : Tree}
    (hk : (nodeAt arena i).kind = .internal)
    (hl : treeOf arena fuel (nodeAt arena i).left.toNat = some l)
    (hr : treeOf arena fuel (nodeAt arena i).right.toNat = some r) :
    treeOf arena (fuel + 1) i = some (.node l r) := by
  simp [treeOf, hk, hl, hr]

/-- The kind of the entry at the root of a tree. -/
theorem treeOf_kind {arena : Table Node} {fuel i : Nat} {t : Tree} (h : treeOf arena fuel i = some t) :
    (∃ x, t = .leaf x ∧ (nodeAt arena i).kind = .leaf ∧ (nodeAt arena i).sym = x) ∨
    (∃ l r f, t = .node l r ∧ (nodeAt arena i).kind = .internal ∧ fuel = f + 1 ∧
      treeOf arena f (nodeAt arena i).left.toNat = some l ∧
      treeOf arena f (nodeAt arena i).right.toNat = some r) := by
  cases fuel with
  | zero => simp [treeOf] at h
  | succ f =>
    rw [treeOf] at h
    cases hk : (nodeAt arena i).kind with
    | leaf =>
      simp only [hk, Option.some.injEq] at h
      exact .inl ⟨_, h.symm, rfl, rfl⟩
    | internal =>
      simp only [hk] at h
      cases hl : treeOf arena f (nodeAt arena i).left.toNat with
      | none => simp [hl] at h
      | some l =>
        cases hr : treeOf arena f (nodeAt arena i).right.toNat with
        | none => simp [hl, hr] at h
        | some r =>
          simp only [hl, hr, Option.some.injEq] at h
          exact .inr ⟨l, r, f, h.symm, rfl, rfl, hl, hr⟩

/-- Two arenas that agree in kind, symbol and children hold the same trees. -/
theorem treeOf_congr {a b : Table Node}
    (h : ∀ i, (nodeAt a i).kind = (nodeAt b i).kind ∧ (nodeAt a i).sym = (nodeAt b i).sym ∧
      (nodeAt a i).left = (nodeAt b i).left ∧ (nodeAt a i).right = (nodeAt b i).right)
    (fuel i : Nat) : treeOf a fuel i = treeOf b fuel i := by
  induction fuel generalizing i with
  | zero => rfl
  | succ fuel ih =>
    obtain ⟨hk, hs, hl, hr⟩ := h i
    rw [treeOf, treeOf, hk, hs, hl, hr, ih, ih]

/-- The leaves under a path are those under no path, each path continued. -/
theorem leaves_path (t : Tree) (p : List Bool) :
    leaves t p = (leaves t []).map (fun e => (p ++ e.1, e.2)) := by
  induction t generalizing p with
  | leaf x => simp [leaves]
  | node l r ihl ihr =>
    simp only [leaves, List.nil_append]
    rw [ihl (p ++ [false]), ihr (p ++ [true]), ihl [false], ihr [true]]
    simp [Function.comp_def]

/-- There is one entry in the leaf list for each Leaf. -/
@[simp] theorem leaves_length (t : Tree) (p : List Bool) : (leaves t p).length = leafCount t := by
  induction t generalizing p with
  | leaf x => rfl
  | node l r ihl ihr => simp [leaves, leafCount, ihl, ihr]

theorem leafCount_pos (t : Tree) : 1 ≤ leafCount t := by
  induction t with
  | leaf x => exact Nat.le_refl 1
  | node l r ihl ihr => simp only [leafCount]; omega

theorem leaves_ne_nil (t : Tree) (p : List Bool) : leaves t p ≠ [] := by
  intro h
  have := leaves_length t p
  rw [h] at this
  have := leafCount_pos t
  simp at *
  omega

/-- A symbol with a code has a Leaf with that path. -/
theorem codeFor_mem {t : Tree} {sym : Byte} {p : List Bool} (h : codeFor t sym = some p) :
    (p, sym) ∈ leaves t [] := by
  unfold codeFor at h
  rw [Option.map_eq_some_iff] at h
  obtain ⟨e, he, rfl⟩ := h
  have hm := List.mem_of_find?_eq_some he
  have hs := List.find?_some he
  simp only [beq_iff_eq] at hs
  subst hs
  exact hm

/-- A symbol with a Leaf has a code. -/
theorem codeFor_isSome {t : Tree} {sym : Byte} {p : List Bool} (h : (p, sym) ∈ leaves t []) :
    (codeFor t sym).isSome = true := by
  unfold codeFor
  rw [Option.isSome_map, List.find?_isSome]
  exact ⟨(p, sym), h, by simp⟩

/-- A tree found within `fuel` levels has no path of `fuel` bits. -/
theorem treeOf_depth {arena : Table Node} {fuel i : Nat} {t : Tree} (h : treeOf arena fuel i = some t) :
    ∀ e ∈ leaves t [], e.1.length < fuel := by
  induction fuel generalizing i t with
  | zero => simp [treeOf] at h
  | succ fuel ih =>
    rcases treeOf_kind h with ⟨x, rfl, _, _⟩ | ⟨l, r, f, rfl, _, hf, hl, hr⟩
    · simp [leaves]
    · cases hf
      intro e he
      simp only [leaves, List.nil_append, List.mem_append] at he
      rw [leaves_path l [false], leaves_path r [true]] at he
      simp only [List.mem_map] at he
      rcases he with ⟨d, hd, rfl⟩ | ⟨d, hd, rfl⟩
      · have := ih hl d hd
        simp only [List.cons_append, List.nil_append, List.length_cons]
        omega
      · have := ih hr d hd
        simp only [List.cons_append, List.nil_append, List.length_cons]
        omega

/-- Entries whose children stay below `n` hold the same trees in an arena that agrees below `n`. -/
theorem treeOf_below {a b : Table Node} {n : Nat} (same : ∀ i, i < n → nodeAt b i = nodeAt a i)
    (closed : ∀ i, i < n → (nodeAt a i).kind = .leaf ∨
      ((nodeAt a i).left.toNat < n ∧ (nodeAt a i).right.toNat < n))
    (fuel i : Nat) (hi : i < n) : treeOf b fuel i = treeOf a fuel i := by
  induction fuel generalizing i with
  | zero => rfl
  | succ fuel ih =>
    rw [treeOf, treeOf, same i hi]
    rcases closed i hi with hk | ⟨hl, hr⟩
    · rw [hk]
    · rw [ih _ hl, ih _ hr]

theorem serialize_ne_nil (t : Tree) : serialize t ≠ [] := by cases t <;> simp [serialize]

end Sys2Proof.Machine
end

