-- ==== Sys2Proof/Laws/Phases.lean ====
section
/-! SUPPORT. What the rounds and loops of the phases can change: one frame lemma per shared operation. -/

namespace Sys2Proof.Machine

/-! ### Arena indexes -/

/-- NN as an arena index while an entry can still be created (R28). -/
theorem nextIndex_toNat (s : State) (h : s.nn.toNat ≤ Config.nodeCap) :
    (nextIndex s).toNat = s.nn.toNat := by
  simp only [Config.nodeCap] at h
  simp only [nextIndex, BitVec.toNat_setWidth]
  omega

/-- NN after one more entry. -/
theorem nn_succ (s : State) (h : s.nn.toNat ≤ Config.nodeCap) :
    (s.nn + 1#10).toNat = s.nn.toNat + 1 := by
  simp only [Config.nodeCap] at h
  simp only [BitVec.toNat_add, BitVec.toNat_ofNat]
  omega

/-- A cursor moved by one and then by `n` more. -/
theorem cursor_succ {w : Nat} (x : BitVec w) (n : Nat) :
    x + BitVec.ofNat w 1 + BitVec.ofNat w n = x + BitVec.ofNat w (n + 1) := by
  rw [BitVec.add_assoc, Nat.add_comm n 1, BitVec.ofNat_add]

/-! ### The tree builder -/

/-- FCOUNT's loop changes FREQ and IPOS only. -/
theorem countByte_foldl_frame (bytes : List Byte) (s : State) :
    ∃ freq, bytes.foldl countByte s = { s with freq := freq, ipos := s.ipos + BitVec.ofNat 32 bytes.length } := by
  induction bytes generalizing s with
  | nil => exact ⟨s.freq, by simp⟩
  | cons b bs ih =>
    obtain ⟨freq, h⟩ := ih (countByte s b)
    refine ⟨freq, ?_⟩
    rw [List.foldl_cons, h, List.length_cons]
    simp only [countByte]
    congr 1
    exact cursor_succ s.ipos bs.length

/-- HINIT's round for a symbol that does not occur. -/
theorem hinitSymbol_absent (s : State) (i : Nat) (h : freqAt s i = 0) : hinitSymbol s i = s :=
  if_neg (by omega)

/-- HINIT's round for a symbol that occurs: one more leaf, one more entry in the queue. -/
theorem hinitSymbol_present (s : State) (i : Nat) (h : 0 < freqAt s i) :
    ∃ arena heap, hinitSymbol s i = { s with arena := arena, nn := s.nn + 1#10, heap := heap } ∧
      (nodeAt arena (nextIndex s).toNat).kind = .leaf ∧
      (nodeAt arena (nextIndex s).toNat).sym = BitVec.ofNat 8 i ∧
      (nodeAt arena (nextIndex s).toNat).w = freqAt s i ∧
      (∀ j, j ≠ (nextIndex s).toNat → nodeAt arena j = nodeAt s.arena j) ∧
      heap = heapInsert (less arena) (nextIndex s) s.heap := by
  refine ⟨_, _, if_pos h, ?_, ?_, ?_, ?_, rfl⟩
  · simp
  · simp
  · simp
  · intro j hj
    exact nodeAt_put_other _ _ _ _ hj

/-- HINIT's loop changes the arena, NN and HEAP only. -/
theorem hinitSymbol_foldl_frame (is : List Nat) (s : State) :
    ∃ arena nn heap, is.foldl hinitSymbol s = { s with arena := arena, nn := nn, heap := heap } := by
  induction is generalizing s with
  | nil => exact ⟨s.arena, s.nn, s.heap, rfl⟩
  | cons i is ih =>
    rw [List.foldl_cons]
    obtain ⟨arena, nn, heap, h⟩ := ih (hinitSymbol s i)
    refine ⟨arena, nn, heap, ?_⟩
    rw [h]
    by_cases hf : 0 < freqAt s i
    · obtain ⟨a1, h1, e, _⟩ := hinitSymbol_present s i hf
      rw [e]
    · rw [hinitSymbol_absent s i (by omega)]

/-- HMERGE's round with two or more entries in the queue: a new INTERNAL entry with the two extracted
ones as its children takes their place. -/
theorem mergeOnce_two (s : State) (h : 1 < s.heap.length) :
    ∃ a b h1 h2 arena heap,
      heapExtract (less s.arena) s.heap = some (a, h1) ∧
      heapExtract (less s.arena) h1 = some (b, h2) ∧
      mergeOnce s = { s with arena := arena, nn := s.nn + 1#10, heap := heap } ∧
      (nodeAt arena (nextIndex s).toNat).kind = .internal ∧
      (nodeAt arena (nextIndex s).toNat).left = a ∧
      (nodeAt arena (nextIndex s).toNat).right = b ∧
      (nodeAt arena (nextIndex s).toNat).w = (nodeAt s.arena a.toNat).w + (nodeAt s.arena b.toNat).w ∧
      (∀ j, j ≠ (nextIndex s).toNat → nodeAt arena j = nodeAt s.arena j) ∧
      heap = heapInsert (less arena) (nextIndex s) h2 := by
  have e1 : (heapExtract (less s.arena) s.heap).isSome = true := by
    rw [heapExtract_isSome]
    intro h0
    simp [h0] at h
  obtain ⟨⟨a, h1⟩, e1⟩ := Option.isSome_iff_exists.mp e1
  have l1 := heapExtract_length _ _ _ _ e1
  have e2 : (heapExtract (less s.arena) h1).isSome = true := by
    rw [heapExtract_isSome]
    intro h0
    simp [h0] at l1
    omega
  obtain ⟨⟨b, h2⟩, e2⟩ := Option.isSome_iff_exists.mp e2
  obtain ⟨ar, har⟩ : ∃ ar, ar = Table.put s.arena (nextIndex s).toNat
      { nodeAt s.arena (nextIndex s).toNat with
        kind := .internal
        left := a
        right := b
        w := (nodeAt s.arena a.toNat).w + (nodeAt s.arena b.toNat).w } := ⟨_, rfl⟩
  refine ⟨a, b, h1, h2, ar, heapInsert (less ar) (nextIndex s) h2, e1, e2, ?_, ?_, ?_, ?_, ?_, ?_, rfl⟩
  · simp only [mergeOnce, e1, e2, har]
  · simp [har]
  · simp [har]
  · simp [har]
  · simp [har]
  · intro j hj
    rw [har]
    exact nodeAt_put_other _ _ _ _ hj

/-- Each round takes one entry from the queue. -/
theorem mergeOnce_length (s : State) (h : 1 < s.heap.length) :
    (mergeOnce s).heap.length + 1 = s.heap.length := by
  obtain ⟨a, b, h1, h2, arena, heap, e1, e2, hm, _, _, _, _, _, hh⟩ := mergeOnce_two s h
  have l1 := heapExtract_length _ _ _ _ e1
  have l2 := heapExtract_length _ _ _ _ e2
  rw [hm]
  simp only [hh, heapInsert_length]
  omega

/-- HMERGE's loop changes the arena, NN and HEAP only, leaves at most one entry in the queue and, where
the arena has room for the new entries, keeps those below NN. -/
theorem mergeLoop_spec (n : Nat) (s : State) (hn : s.heap.length ≤ n + 1) :
    ∃ arena nn heap, mergeLoop n s = { s with arena := arena, nn := nn, heap := heap } ∧
      nn = s.nn + BitVec.ofNat 10 (s.heap.length - 1) ∧ heap.length = min s.heap.length 1 ∧
      (s.nn.toNat + s.heap.length ≤ Config.nodeCap + 1 →
        ∀ i, i < s.nn.toNat → nodeAt arena i = nodeAt s.arena i) := by
  have done : ∀ s : State, s.heap.length ≤ 1 →
      s.nn = s.nn + BitVec.ofNat 10 (s.heap.length - 1) ∧ s.heap.length = min s.heap.length 1 := by
    intro s h
    rw [show s.heap.length - 1 = 0 by omega]
    exact ⟨by simp, by omega⟩
  induction n generalizing s with
  | zero =>
    exact ⟨s.arena, s.nn, s.heap, rfl, (done s hn).1, (done s hn).2, fun _ _ _ => rfl⟩
  | succ n ih =>
    unfold mergeLoop
    by_cases h : 1 < s.heap.length
    · rw [if_pos h]
      have hlen := mergeOnce_length s h
      obtain ⟨arena, nn, heap, e, hnn, hh, hk⟩ := ih (mergeOnce s) (by omega)
      obtain ⟨a, b, h1, h2, ar, hp, _, _, hm, _, _, _, _, hkeep, _⟩ := mergeOnce_two s h
      have hnn1 : (mergeOnce s).nn = s.nn + 1#10 := by rw [hm]
      have har : (mergeOnce s).arena = ar := by rw [hm]
      refine ⟨arena, nn, heap, ?_, ?_, by omega, ?_⟩
      · rw [e, hm]
      · rw [hnn, hnn1, cursor_succ]
        congr 2
        omega
      · intro hfit i hi
        have hx := nextIndex_toNat s (by omega)
        have hs := nn_succ s (by omega)
        rw [← hnn1] at hs
        rw [hk (by omega) i (by omega), har, hkeep i (by omega)]
    · rw [if_neg h]
      exact ⟨s.arena, s.nn, s.heap, rfl, (done s (by omega)).1, (done s (by omega)).2,
        fun _ _ _ => rfl⟩

/-- The queue holds trees: every queued entry is a tree below NN, and `b` levels are enough for all of
them side by side. -/
def QueueHolds (b : Nat) (s : State) : Prop :=
  (∀ i, i < s.nn.toNat → (nodeAt s.arena i).kind = .leaf ∨
    ((nodeAt s.arena i).left.toNat < s.nn.toNat ∧ (nodeAt s.arena i).right.toNat < s.nn.toNat)) ∧
  ∃ levels : Index → Nat,
    (∀ x ∈ s.heap, x.toNat < s.nn.toNat ∧ (treeOf s.arena (levels x) x.toNat).isSome = true) ∧
    (s.heap.map levels).sum ≤ b

/-- A queue of leaves holds trees, one level each. -/
theorem QueueHolds.of_leaves (s : State) (below : ∀ x ∈ s.heap, x.toNat < s.nn.toNat)
    (leafs : ∀ i, i < s.nn.toNat → (nodeAt s.arena i).kind = .leaf) : QueueHolds s.heap.length s := by
  refine ⟨fun i hi => .inl (leafs i hi), fun _ => 1, fun x hx => ⟨below x hx, ?_⟩, ?_⟩
  · rw [treeOf_leaf (leafs _ (below x hx)) (Nat.le_refl 1)]
    rfl
  · simp

/-- HMERGE's round keeps the queue one of trees, within the same number of levels: the parent of two trees
needs one level more than the deeper of them. -/
theorem QueueHolds.mergeOnce {b : Nat} {s : State} (h : QueueHolds b s) (two : 1 < s.heap.length)
    (room : s.nn.toNat < Config.nodeCap) : QueueHolds b (mergeOnce s) := by
  obtain ⟨closed, levels, trees, sum⟩ := h
  obtain ⟨x, y, h1, h2, arena, heap, e1, e2, hm, hk, hl, hr, _, keep, hh⟩ := mergeOnce_two s two
  have hidx := nextIndex_toNat s (by omega)
  have hnn := nn_succ s (by omega)
  rw [hidx] at hk hl hr keep
  have p1 := heapExtract_perm _ _ _ _ e1
  have p2 := heapExtract_perm _ _ _ _ e2
  have hp : s.heap.Perm (x :: y :: h2) := p1.trans (p2.cons x)
  have hx := trees x (hp.mem_iff.mpr (by simp))
  have hy := trees y (hp.mem_iff.mpr (by simp))
  have hrest : ∀ z ∈ h2, z ∈ s.heap := fun z hz => hp.mem_iff.mpr (by simp [hz])
  have hq := heapInsert_perm (less arena) (nextIndex s) h2
  have hsum : (s.heap.map levels).sum = levels x + (levels y + (h2.map levels).sum) := by
    rw [(hp.map levels).sum_eq]
    simp
  have same : ∀ i, i < s.nn.toNat → nodeAt arena i = nodeAt s.arena i :=
    fun i hi => keep i (by omega)
  have below : ∀ f i, i < s.nn.toNat → treeOf arena f i = treeOf s.arena f i :=
    fun f i hi => treeOf_below same closed f i hi
  have pos : ∀ z, (treeOf s.arena (levels z) z.toNat).isSome = true → 1 ≤ levels z := by
    intro z hz
    cases hlz : levels z with
    | zero => rw [hlz] at hz; simp [treeOf] at hz
    | succ n => omega
  have px := pos x hx.2
  have py := pos y hy.2
  rw [hm]
  refine ⟨?_, fun z => if z = nextIndex s then max (levels x) (levels y) + 1 else levels z, ?_, ?_⟩
  · intro i hi
    simp only at hi ⊢
    rw [hnn] at hi ⊢
    by_cases hlast : i = s.nn.toNat
    · subst hlast
      rw [hl, hr]
      exact .inr ⟨by omega, by omega⟩
    · rw [keep i hlast]
      rcases closed i (by omega) with h | ⟨h, h'⟩
      · exact .inl h
      · exact .inr ⟨by omega, by omega⟩
  · intro z hz
    simp only at hz ⊢
    rw [hnn]
    rw [hh, hq.mem_iff, List.mem_cons] at hz
    by_cases hnew : z = nextIndex s
    · subst hnew
      rw [if_pos rfl, hidx]
      refine ⟨by omega, ?_⟩
      obtain ⟨tx, ex⟩ := Option.isSome_iff_exists.mp hx.2
      obtain ⟨ty, ey⟩ := Option.isSome_iff_exists.mp hy.2
      rw [treeOf_internal (l := tx) (r := ty) hk]
      · rfl
      · rw [hl, below _ _ hx.1]; exact treeOf_mono (by omega) ex
      · rw [hr, below _ _ hy.1]; exact treeOf_mono (by omega) ey
    · rw [if_neg hnew]
      have hz' := trees z (hrest z (hz.resolve_left hnew))
      refine ⟨by omega, ?_⟩
      rw [below _ _ hz'.1]
      exact hz'.2
  · simp only
    rw [hh, (hq.map _).sum_eq]
    have hne : ∀ z ∈ h2, z ≠ nextIndex s := by
      intro z hz heq
      have := (trees z (hrest z hz)).1
      rw [heq, hidx] at this
      omega
    rw [List.map_cons, List.sum_cons, if_pos rfl,
      List.map_congr_left (fun z hz => if_neg (hne z hz))]
    omega

/-- HMERGE's loop keeps the queue one of trees while the arena has room for the new entries. -/
theorem QueueHolds.mergeLoop {b : Nat} (n : Nat) {s : State} (h : QueueHolds b s)
    (room : s.nn.toNat + s.heap.length ≤ Config.nodeCap + 1) : QueueHolds b (mergeLoop n s) := by
  induction n generalizing s with
  | zero => exact h
  | succ n ih =>
    unfold Sys2Proof.Machine.mergeLoop
    by_cases two : 1 < s.heap.length
    · rw [if_pos two]
      have hlen := mergeOnce_length s two
      obtain ⟨_, _, _, _, _, _, _, _, hm, _⟩ := mergeOnce_two s two
      have hnn : (Sys2Proof.Machine.mergeOnce s).nn.toNat = s.nn.toNat + 1 := by
        rw [hm]
        exact nn_succ s (by omega)
      exact ih (h.mergeOnce two (by omega)) (by omega)
    · rw [if_neg two]
      exact h

/-- ROOT taken from a queue of one entry. -/
theorem takeRoot_one (s : State) (m : Index) (h : s.heap = [m]) :
    takeRoot s = { s with root := m, heap := [] } := by
  unfold takeRoot
  rw [h]
  rfl

/-- ROOT taken from an empty queue is a free value. -/
theorem takeRoot_empty (s : State) (h : s.heap = []) :
    takeRoot s = { s with root := Config.freeRoot s.draws, draws := s.draws + 1 } := by
  unfold takeRoot
  rw [h]
  rfl

/-! ### The code book and the encoder -/

/-- CGEN's visit of a leaf changes INV, CB_LEN and CB_BITS only. -/
theorem recordLeaf_frame (e : List Bool × Byte) (s : State) :
    (∀ u, recordLeaf e s = .go u →
      u = { s with inv := u.inv, cbLen := u.cbLen, cbBits := u.cbBits } ∧ u.inv = s.inv ++ [e]) ∧
    ∀ x u, recordLeaf e s = .abort x u → x = .codeCollision ∧ u = s ∧ ∃ y ∈ s.inv, y.1 = e.1 := by
  unfold recordLeaf
  split
  · rename_i h
    constructor
    · intro u hu
      cases hu
    · intro x u hu
      cases hu
      rw [List.any_eq_true] at h
      obtain ⟨y, hy, hb⟩ := h
      exact ⟨rfl, rfl, y, hy, by simpa using hb⟩
  · simp only
    split
    · constructor
      · intro u hu
        cases hu
        exact ⟨rfl, rfl⟩
      · intro x u hu
        cases hu
    · constructor
      · intro u hu
        cases hu
        exact ⟨rfl, rfl⟩
      · intro x u hu
        cases hu

/-- CGEN's visit of a leaf whose path fits CB_BITS keeps the code book within its capacity. -/
theorem recordLeaf_codesFit {e : List Bool × Byte} {s u : State} (hs : CodesFit s)
    (he : e.1.length ≤ Config.depthMax) (h : recordLeaf e s = .go u) : CodesFit u := by
  unfold recordLeaf at h
  split at h
  · cases h
  · simp only at h
    split at h <;> cases h
    · intro x hx
      rcases Table.mem_put hx with rfl | hx
      · exact he
      · exact hs x hx
    · exact hs

/-- Putting bits changes OBUF, OPOS, ACC and ACC_N only. -/
theorem putBits_frame (bits : List Bool) (s u : State)
    (h : Flow.each putBit bits s = .go u ∨ ∃ e, Flow.each putBit bits s = .abort e u) :
    u = { s with obuf := u.obuf, opos := u.opos, acc := u.acc, accN := u.accN } ∧ s.opos ≤ u.opos ∧
    (s.opos ≤ s.obufCap → u.opos ≤ s.obufCap) ∧ (s.obuf.wf = true → u.obuf.wf = true) := by
  have key := Flow.each_relates (body := putBit)
    (R := fun s u => u = { s with obuf := u.obuf, opos := u.opos, acc := u.acc, accN := u.accN } ∧
      s.opos ≤ u.opos ∧ (s.opos ≤ s.obufCap → u.opos ≤ s.obufCap) ∧
      (s.obuf.wf = true → u.obuf.wf = true))
    (fun s => ⟨rfl, BitVec.le_refl _, id, id⟩)
    (fun s t u h1 h2 => by
      obtain ⟨f1, l1, c1, w1⟩ := h1
      obtain ⟨f2, l2, c2, w2⟩ := h2
      have hcap : t.obufCap = s.obufCap := by rw [f1]
      refine ⟨?_, BitVec.le_trans l1 l2, fun h => ?_, fun h => w2 (w1 h)⟩
      · rw [f1] at f2; exact f2
      · rw [hcap] at c2; exact c2 (c1 h))
    (fun b s => ⟨fun t ht => putBit_frame b s t (.inl ht), fun e t ht => putBit_frame b s t (.inr ⟨e, ht⟩)⟩)
    bits s
  rcases h with h | ⟨e, h⟩
  · exact key.1 u h
  · exact key.2 e u h

/-- ENCODE's loop changes OBUF, OPOS, ACC, ACC_N and IPOS only. -/
theorem encodeBytes_frame (bytes : List Byte) (s u : State)
    (h : Flow.each encodeByte bytes s = .go u ∨ ∃ e, Flow.each encodeByte bytes s = .abort e u) :
    u = { s with obuf := u.obuf, opos := u.opos, acc := u.acc, accN := u.accN, ipos := u.ipos } ∧
    s.opos ≤ u.opos ∧ (s.opos ≤ s.obufCap → u.opos ≤ s.obufCap) ∧
    (s.obuf.wf = true → u.obuf.wf = true) := by
  have key := Flow.each_relates (body := encodeByte)
    (R := fun s u =>
      u = { s with obuf := u.obuf, opos := u.opos, acc := u.acc, accN := u.accN, ipos := u.ipos } ∧
      s.opos ≤ u.opos ∧ (s.opos ≤ s.obufCap → u.opos ≤ s.obufCap) ∧
      (s.obuf.wf = true → u.obuf.wf = true))
    (fun s => ⟨rfl, BitVec.le_refl _, id, id⟩)
    (fun s t u h1 h2 => by
      obtain ⟨f1, l1, c1, w1⟩ := h1
      obtain ⟨f2, l2, c2, w2⟩ := h2
      have hcap : t.obufCap = s.obufCap := by rw [f1]
      refine ⟨?_, BitVec.le_trans l1 l2, fun h => ?_, fun h => w2 (w1 h)⟩
      · rw [f1] at f2; exact f2
      · rw [hcap] at c2; exact c2 (c1 h))
    (fun b s => by
      constructor
      · intro t ht
        obtain ⟨f, l, c, w⟩ := putBits_frame _ _ t (.inl ht)
        exact ⟨by rw [f], l, c, w⟩
      · intro e t ht
        obtain ⟨f, l, c, w⟩ := putBits_frame _ _ t (.inr ⟨e, ht⟩)
        exact ⟨by rw [f], l, c, w⟩)
    bytes s
  rcases h with h | ⟨e, h⟩
  · exact key.1 u h
  · exact key.2 e u h

/-! ### The tree parser -/

/-- Completing a subtree changes the arena, ROOT and STACK only, and of the arena only children. -/
theorem completeSubtree_frame (j : Index) (stack : List Frame) (s : State) :
    ∃ arena root stk,
      completeSubtree j stack s = { s with arena := arena, root := root, stack := stk } ∧
      (∀ i, (nodeAt arena i).kind = (nodeAt s.arena i).kind ∧
        (nodeAt arena i).sym = (nodeAt s.arena i).sym ∧ (nodeAt arena i).w = (nodeAt s.arena i).w) ∧
      (pendingRight stack = 0 → stk = []) ∧
      (0 < pendingRight stack → root = s.root ∧ stk ≠ [] ∧ pendingRight stk + 1 = pendingRight stack) := by
  induction stack generalizing j s with
  | nil => exact ⟨s.arena, j, [], rfl, fun _ => ⟨rfl, rfl, rfl⟩, fun _ => rfl, fun h => by
      simp [pendingRight] at h⟩
  | cons f rest ih =>
    cases f with
    | left i =>
      refine ⟨s.arena, s.root, .right i j :: rest, rfl, fun _ => ⟨rfl, rfl, rfl⟩, ?_, ?_⟩
      · intro h
        simp [pendingRight] at h
      · intro _
        exact ⟨rfl, by simp, by simp [pendingRight]⟩
    | right i l =>
      obtain ⟨arena, root, stk, e, hk, h0, hp⟩ := ih i
        { s with
          arena := Table.put s.arena i.toNat { nodeAt s.arena i.toNat with left := l, right := j } }
      have hpend : pendingRight (.right i l :: rest) = pendingRight rest := by simp [pendingRight]
      refine ⟨arena, root, stk, by rw [completeSubtree, e], ?_, ?_, ?_⟩
      · intro k
        obtain ⟨h1, h2, h3⟩ := hk k
        rw [h1, h2, h3]
        simp only [nodeAt_put]
        split
        · rename_i h; subst h; exact ⟨rfl, rfl, rfl⟩
        · exact ⟨rfl, rfl, rfl⟩
      · rw [hpend]; exact h0
      · rw [hpend]; exact hp

/-- Completing a subtree keeps the arena within its capacity. -/
theorem completeSubtree_arenaFits (j : Index) (stack : List Frame) (s : State)
    (ha : ∀ e ∈ s.arena, e.1 < Config.nodeCap) (hn : s.nn.toNat ≤ Config.nodeCap)
    (hf : ∀ f ∈ stack, f.node.toNat < Config.nodeCap) : ArenaFits (completeSubtree j stack s) := by
  induction stack generalizing j s with
  | nil => exact ⟨ha, hn, fun f hf => by cases hf⟩
  | cons f rest ih =>
    have h1 := hf f List.mem_cons_self
    have h2 : ∀ g ∈ rest, g.node.toNat < Config.nodeCap := fun g hg => hf g (List.mem_cons_of_mem _ hg)
    cases f with
    | left i =>
      refine ⟨ha, hn, fun g hg => ?_⟩
      rcases List.mem_cons.mp hg with rfl | hg
      · exact h1
      · exact h2 g hg
    | right i l =>
      refine ih i _ (fun e he => ?_) hn h2
      rcases Table.mem_put he with rfl | he
      · exact h1
      · exact ha e he

theorem parseBranch_room (s : State) (h : s.nn.toNat < Config.nodeCap) :
    parseBranch s = .go { s with
      arena := Table.put s.arena (nextIndex s).toNat
        { nodeAt s.arena (nextIndex s).toNat with kind := .internal }
      nn := s.nn + 1#10
      stack := .left (nextIndex s) :: s.stack
      ipos := s.ipos + 1#32 } :=
  if_neg (by omega)

theorem parseBranch_full (s : State) (h : Config.nodeCap ≤ s.nn.toNat) :
    parseBranch s = .abort .tooLarge s :=
  if_pos h

theorem parseLeaf_room (sym : Byte) (s : State) (h : s.nn.toNat < Config.nodeCap) :
    parseLeaf sym s = .go (completeSubtree (nextIndex s) s.stack { s with
      arena := Table.put s.arena (nextIndex s).toNat
        { nodeAt s.arena (nextIndex s).toNat with kind := .leaf, sym := sym }
      nn := s.nn + 1#10
      ipos := s.ipos + 2#32 }) :=
  if_neg (by omega)

theorem parseLeaf_full (sym : Byte) (s : State) (h : Config.nodeCap ≤ s.nn.toNat) :
    parseLeaf sym s = .abort .tooLarge s :=
  if_pos h

/-- What one token of the tree can change: the arena, NN, ROOT, STACK and IPOS. -/
def ParseFrame (s u : State) : Prop :=
  u = { s with arena := u.arena, nn := u.nn, root := u.root, stack := u.stack, ipos := u.ipos }

theorem ParseFrame.refl (s : State) : ParseFrame s s := rfl

theorem ParseFrame.trans {s t u : State} (h1 : ParseFrame s t) (h2 : ParseFrame t u) :
    ParseFrame s u := by
  unfold ParseFrame at *
  rw [h1] at h2
  exact h2

theorem parseBranch_frame (s u : State)
    (h : parseBranch s = .go u ∨ ∃ e, parseBranch s = .abort e u) : ParseFrame s u := by
  by_cases hn : s.nn.toNat < Config.nodeCap
  · rw [parseBranch_room s hn] at h
    rcases h with h | ⟨e, h⟩ <;> cases h
    rfl
  · rw [parseBranch_full s (by omega)] at h
    rcases h with h | ⟨e, h⟩ <;> cases h
    rfl

theorem parseLeaf_frame (sym : Byte) (s u : State)
    (h : parseLeaf sym s = .go u ∨ ∃ e, parseLeaf sym s = .abort e u) : ParseFrame s u := by
  by_cases hn : s.nn.toNat < Config.nodeCap
  · rw [parseLeaf_room sym s hn] at h
    rcases h with h | ⟨e, h⟩ <;> cases h
    obtain ⟨arena, root, stk, e, _⟩ := completeSubtree_frame (nextIndex s) s.stack { s with
      arena := Table.put s.arena (nextIndex s).toNat
        { nodeAt s.arena (nextIndex s).toNat with kind := .leaf, sym := sym }
      nn := s.nn + 1#10
      ipos := s.ipos + 2#32 }
    rw [e]
    rfl
  · rw [parseLeaf_full sym s (by omega)] at h
    rcases h with h | ⟨e, h⟩ <;> cases h
    rfl

/-- A BRANCH token keeps the arena within its capacity. -/
theorem parseBranch_arenaFits {s u : State} (hs : ArenaFits s) (h : parseBranch s = .go u) :
    ArenaFits u := by
  obtain ⟨ha, _, hf⟩ := hs
  by_cases hn : s.nn.toNat < Config.nodeCap
  · have hx := nextIndex_toNat s (by omega)
    have hnn := nn_succ s (by omega)
    rw [parseBranch_room s hn] at h
    cases h
    refine ⟨fun e he => ?_, by simp only [hnn]; omega, fun g hg => ?_⟩
    · rcases Table.mem_put he with rfl | he
      · simp only [hx]; exact hn
      · exact ha e he
    · rcases List.mem_cons.mp hg with rfl | hg
      · simp only [Frame.node, hx]; exact hn
      · exact hf g hg
  · rw [parseBranch_full s (by omega)] at h
    cases h

/-- A LEAF token keeps the arena within its capacity. -/
theorem parseLeaf_arenaFits {sym : Byte} {s u : State} (hs : ArenaFits s)
    (h : parseLeaf sym s = .go u) : ArenaFits u := by
  obtain ⟨ha, _, hf⟩ := hs
  by_cases hn : s.nn.toNat < Config.nodeCap
  · have hx := nextIndex_toNat s (by omega)
    have hnn := nn_succ s (by omega)
    rw [parseLeaf_room sym s hn] at h
    cases h
    refine completeSubtree_arenaFits _ _ _ (fun e he => ?_) (by simp only [hnn]; omega) hf
    rcases Table.mem_put he with rfl | he
    · simp only [hx]; exact hn
    · exact ha e he
  · rw [parseLeaf_full sym s (by omega)] at h
    cases h

/-- TDES changes the arena, NN, ROOT, STACK and IPOS only, and its errors are CorruptTreeErrors. -/
theorem parseLoop_frame (bytes : List Byte) (s : State) :
    (∀ u, parseLoop bytes s = .go u → ParseFrame s u) ∧
    ∀ e u, parseLoop bytes s = .abort e u → ParseFrame s u ∧ e.cls = .corruptTree := by
  induction bytes using List.twoStepInduction generalizing s with
  | nil =>
    constructor
    · intro u h; cases h
    · intro e u h; cases h; exact ⟨rfl, rfl⟩
  | singleton m =>
    simp only [parseLoop]
    split
    · constructor
      · intro u h; cases h
      · intro e u h
        cases h
        exact ⟨rfl, by split <;> rfl⟩
    · split
      · constructor
        · intro u h
          obtain ⟨t, _, ht⟩ := Flow.bind_eq_go.mp h
          cases ht
        · intro e u h
          rcases Flow.bind_eq_abort.mp h with h | ⟨t, ht, h⟩
          · refine ⟨parseBranch_frame s u (.inr ⟨e, h⟩), ?_⟩
            unfold parseBranch at h
            split at h <;> cases h
            rfl
          · have f := parseBranch_frame s t (.inl ht)
            cases h
            exact ⟨f, rfl⟩
      · constructor
        · intro u h; cases h
        · intro e u h; cases h; exact ⟨rfl, rfl⟩
  | cons_cons m sym rest ih0 ih1 =>
    simp only [parseLoop]
    split
    · constructor
      · intro u h
        obtain ⟨t, ht, h⟩ := Flow.bind_eq_go.mp h
        have f := parseLeaf_frame sym s t (.inl ht)
        split at h
        · cases h; exact f
        · exact f.trans ((ih0 t).1 u h)
      · intro e u h
        rcases Flow.bind_eq_abort.mp h with h | ⟨t, ht, h⟩
        · refine ⟨parseLeaf_frame sym s u (.inr ⟨e, h⟩), ?_⟩
          unfold parseLeaf at h
          split at h <;> cases h
          rfl
        · have f := parseLeaf_frame sym s t (.inl ht)
          split at h
          · cases h
          · exact ⟨f.trans ((ih0 t).2 e u h).1, ((ih0 t).2 e u h).2⟩
    · split
      · constructor
        · intro u h
          obtain ⟨t, ht, h⟩ := Flow.bind_eq_go.mp h
          exact (parseBranch_frame s t (.inl ht)).trans ((ih1 sym t).1 u h)
        · intro e u h
          rcases Flow.bind_eq_abort.mp h with h | ⟨t, ht, h⟩
          · refine ⟨parseBranch_frame s u (.inr ⟨e, h⟩), ?_⟩
            unfold parseBranch at h
            split at h <;> cases h
            rfl
          · exact ⟨(parseBranch_frame s t (.inl ht)).trans ((ih1 sym t).2 e u h).1,
              ((ih1 sym t).2 e u h).2⟩
      · constructor
        · intro u h; cases h
        · intro e u h; cases h; exact ⟨rfl, rfl⟩

/-! ### The walker -/

/-- What the walk can change: OBUF, OPOS, CUR and BITPOS; OPOS stays within OBUF_CAP if it was and OBUF keeps
its canonical form. -/
def WalkFrame (s u : State) : Prop :=
  u = { s with obuf := u.obuf, opos := u.opos, cur := u.cur, bitpos := u.bitpos } ∧ s.opos ≤ u.opos ∧
  (s.opos ≤ s.obufCap → u.opos ≤ s.obufCap) ∧ (s.obuf.wf = true → u.obuf.wf = true)

theorem WalkFrame.refl (s : State) : WalkFrame s s := ⟨rfl, BitVec.le_refl _, id, id⟩

theorem WalkFrame.trans {s t u : State} (h1 : WalkFrame s t) (h2 : WalkFrame t u) : WalkFrame s u := by
  obtain ⟨f1, l1, c1, w1⟩ := h1
  obtain ⟨f2, l2, c2, w2⟩ := h2
  have hcap : t.obufCap = s.obufCap := by rw [f1]
  rw [hcap] at c2
  refine ⟨?_, BitVec.le_trans l1 l2, fun h => c2 (c1 h), fun h => w2 (w1 h)⟩
  rw [f1] at f2
  exact f2

/-- One bit of the walk. -/
theorem walkBit_frame (b : Bool) (s : State) :
    (∀ u, walkBit b s = .go u → WalkFrame s u ∧ u.bitpos = s.bitpos + 1#64) ∧
    ∀ e u, walkBit b s = .abort e u → WalkFrame s u ∧ (e = .nullChild ∨ e = .outRange) := by
  unfold walkBit
  simp only
  split
  · constructor
    · intro u h; cases h
    · intro e u h; cases h; exact ⟨⟨rfl, BitVec.le_refl _, id, id⟩, .inl rfl⟩
  · split
    · constructor
      · intro u h
        obtain ⟨t, ht, h⟩ := Flow.bind_eq_go.mp h
        cases h
        rcases emit_cases _ _ with ⟨hroom, m, hm, _, fm, om⟩ | ⟨_, hab⟩
        · rw [hm] at ht
          cases ht
          rw [om] at fm
          rw [fm]
          have hs := opos_succ s hroom
          exact ⟨⟨rfl, BitVec.le_def.mpr (by simp only [hs]; omega),
            fun _ => BitVec.le_def.mpr (by simp only [hs]; exact hroom),
            fun hw => Memory.wf_put _ _ hw⟩, rfl⟩
        · rw [hab] at ht; cases ht
      · intro e u h
        rcases Flow.bind_eq_abort.mp h with h | ⟨t, _, h⟩
        · rcases emit_cases _ _ with ⟨_, m, hm, _⟩ | ⟨_, hab⟩
          · rw [hm] at h; cases h
          · rw [hab] at h
            cases h
            exact ⟨⟨rfl, BitVec.le_refl _, id, id⟩, .inr rfl⟩
        · cases h
    · constructor
      · intro u h
        cases h
        exact ⟨⟨rfl, BitVec.le_refl _, id, id⟩, rfl⟩
      · intro e u h; cases h

/-- WALK's loop. -/
theorem walkLoop_frame (n : Nat) (s : State) :
    (∀ u, walkLoop n s = .go u → WalkFrame s u ∧ u.bitpos = s.bitpos + BitVec.ofNat 64 n) ∧
    ∀ e u, walkLoop n s = .abort e u → WalkFrame s u ∧ (e = .nullChild ∨ e = .outRange) := by
  induction n generalizing s with
  | zero =>
    constructor
    · intro u h; cases h; exact ⟨WalkFrame.refl _, by simp⟩
    · intro e u h; cases h
  | succ n ih =>
    unfold walkLoop
    constructor
    · intro u h
      obtain ⟨t, ht, h⟩ := Flow.bind_eq_go.mp h
      obtain ⟨f, p⟩ := (walkBit_frame _ s).1 t ht
      obtain ⟨f', p'⟩ := (ih t).1 u h
      exact ⟨f.trans f', by rw [p', p]; exact cursor_succ _ _⟩
    · intro e u h
      rcases Flow.bind_eq_abort.mp h with h | ⟨t, ht, h⟩
      · exact (walkBit_frame _ s).2 e u h
      · exact ⟨((walkBit_frame _ s).1 t ht).1.trans ((ih t).2 e u h).1, ((ih t).2 e u h).2⟩

/-- PAYLOAD_BYTE's rounds. -/
theorem walkByte_frame (b : Byte) (n : Nat) (s : State) :
    (∀ u, walkByte b n s = .go u → WalkFrame s u ∧ u.bitpos = s.bitpos + BitVec.ofNat 64 n) ∧
    ∀ e u, walkByte b n s = .abort e u → WalkFrame s u ∧ (e = .nullChild ∨ e = .outRange) := by
  induction n generalizing s with
  | zero =>
    constructor
    · intro u h; cases h; exact ⟨WalkFrame.refl _, by simp⟩
    · intro e u h; cases h
  | succ n ih =>
    unfold walkByte
    constructor
    · intro u h
      obtain ⟨t, ht, h⟩ := Flow.bind_eq_go.mp h
      obtain ⟨f, p⟩ := (walkBit_frame _ s).1 t ht
      obtain ⟨f', p'⟩ := (ih t).1 u h
      exact ⟨f.trans f', by rw [p', p]; exact cursor_succ _ _⟩
    · intro e u h
      rcases Flow.bind_eq_abort.mp h with h | ⟨t, ht, h⟩
      · exact (walkBit_frame _ s).2 e u h
      · exact ⟨((walkBit_frame _ s).1 t ht).1.trans ((ih t).2 e u h).1, ((ih t).2 e u h).2⟩

end Sys2Proof.Machine
end

