-- ==== Sys2Proof/Laws/Step.lean ====
section
/-! SUPPORT. The codes, the register values, and what a step does first: one lemma for each kind of turn. -/

namespace Sys2Proof.Machine

/-! ### Codes -/

@[simp] theorem phase_ofCode_code (p : Phase) : Phase.ofCode p.code = some p := by
  cases p <;> decide

@[simp] theorem st_ofCode_code (x : St) : St.ofCode x.code = some x := by cases x <;> decide

@[simp] theorem errClass_ofCode_code (x : ErrClass) : ErrClass.ofCode x.code = some x := by
  cases x <;> decide

@[simp] theorem errInfo_ofCode_code (x : ErrInfo) : ErrInfo.ofCode x.code = some x := by
  cases x <;> decide

/-- No phase code means two phases. -/
theorem phase_code_injective (p q : Phase) (h : p.code = q.code) : p = q := by
  have := phase_ofCode_code p
  rw [h, phase_ofCode_code] at this
  exact (Option.some.inj this).symm

/-- The instruction of the code PHASE holds. -/
@[simp] theorem instrOf_phase (p : Phase) : instrOf (.phase p.code) = some (phaseInstr p) := by
  simp [instrOf, decode]

/-! ### Register values -/

@[simp] theorem regValue_ctrl (s : State) : regValue s offCtrl = 0#32 := rfl
@[simp] theorem regValue_cmd (s : State) : regValue s offCmd = s.cmd.setWidth 32 := rfl
@[simp] theorem regValue_status (s : State) : regValue s offStatus = s.st.code.setWidth 32 := rfl
@[simp] theorem regValue_err (s : State) : regValue s offErr = s.err.code.setWidth 32 := rfl
@[simp] theorem regValue_errInfo (s : State) :
    regValue s offErrInfo = s.errInfo.code.setWidth 32 := rfl
@[simp] theorem regValue_inLen (s : State) : regValue s offInLen = s.inLen := rfl
@[simp] theorem regValue_outLen (s : State) : regValue s offOutLen = s.outLen := rfl

/-! ### The turns -/

/-- With no turn left it is the core's turn. -/
theorem fetch_nil {s : State} (h : s.script = []) : fetch s = fetchCore s := by
  unfold fetch
  rw [h]

/-- The first turn of the script is taken from it. -/
theorem fetch_cons {s : State} {t : Turn} {rest : List Turn} (h : s.script = t :: rest) :
    fetch s = fetchTurn t { s with script := rest } := by
  unfold fetch
  rw [h]

/-- The core's turn while BUSY, in phase steps. -/
theorem fetchCore_busy {s : State} (hb : s.st = .busy) (hf : s.fine = false) :
    fetchCore s = .run (phaseInstr s.phase) s := by
  unfold fetchCore
  rw [hf, hb]
  rfl

/-- The core's turn while not BUSY. -/
theorem fetchCore_idle {s : State} (hb : s.st ≠ .busy) : fetchCore s = .run .pIdle s := by
  unfold fetchCore fetchItem
  simp [hb]

/-- A step that fetched an instruction runs it. -/
theorem step_run {s s1 : State} {i : Instr} (h : fetch s = .run i s1) : step s = exec i s1 := by
  unfold step
  rw [h]

/-- A step that fetched a move is done with it. -/
theorem step_done {s s1 : State} (h : fetch s = .done s1) : step s = .next s1 := by
  unfold step
  rw [h]

/-- A line of a program unfolds into its accesses. -/
theorem step_line {s : State} {l : Line} {rest : List Turn} (h : s.script = .line l :: rest) :
    step s = .next { s with script := unfoldLine l ++ rest } :=
  step_done (fetch_cons h)

/-- A buffer write. -/
theorem step_bufWrite {s : State} {sp : Space} {off : Nat} {b : Byte} {rest : List Turn}
    (h : s.script = .host (.bufWrite sp off b) :: rest) :
    step s = .next (writeBuf sp off b { s with script := rest }) :=
  step_done (fetch_cons h)

/-- A buffer read. -/
theorem step_bufRead {s : State} {sp : Space} {off : Nat} {rest : List Turn}
    (h : s.script = .host (.bufRead sp off) :: rest) :
    step s = .next (readBuf sp off { s with script := rest }) :=
  step_done (fetch_cons h)

/-- A reset. -/
theorem step_reset {s : State} {rest : List Turn} (h : s.script = .host .reset :: rest) :
    step s = .next (resetBlock { s with script := rest }) :=
  step_done (fetch_cons h)

/-- A register access outside the interface (R69): a write changes nothing. -/
theorem step_badWrite {s : State} {width off : Nat} {v : Word} {rest : List Turn}
    (hw : (Move.regWrite width off v).wellFormed = false)
    (h : s.script = .host (.regWrite width off v) :: rest) :
    step s = .next { s with script := rest } := by
  refine step_done ((fetch_cons h).trans ?_)
  simp [fetchTurn, fetchMove, moveRaw, hostMove, hw]

/-- A register access outside the interface (R69): a read returns a drawn value. -/
theorem step_badRead {s : State} {width off : Nat} {rest : List Turn}
    (hw : (Move.regRead width off).wellFormed = false)
    (h : s.script = .host (.regRead width off) :: rest) :
    step s = .next { s with
      script := rest
      hostLog := Config.freeWord s.draws :: s.hostLog
      draws := s.draws + 1 } := by
  refine step_done ((fetch_cons h).trans ?_)
  simp [fetchTurn, fetchMove, moveRaw, hostMove, hw, give, draw]

/-- Steps compose. -/
theorem steps_add (m n : Nat) (s t : State) (h : steps m s = .next t) :
    steps (m + n) s = steps n t := by
  induction m generalizing s with
  | zero =>
    simp only [steps] at h
    cases h
    simp
  | succ m ih =>
    rw [show m + 1 + n = (m + n) + 1 by omega, steps]
    rw [steps] at h
    cases hs : step s with
    | next u =>
      rw [hs] at h
      exact ih u h
    | fault f => rw [hs] at h; cases h
    | refused r => rw [hs] at h; cases h

/-- One step more before what is reached. -/
theorem Reaches.step {b : Nat} {s t : State} {P : State → Prop} (hs : Machine.step s = .next t)
    (h : Reaches b t P) : Reaches (b + 1) s P := by
  obtain ⟨n, hn, u, hu, hp⟩ := h
  refine ⟨n + 1, by omega, u, ?_, hp⟩
  unfold steps
  rw [hs]
  exact hu

/-- What holds is reached in no step. -/
theorem Reaches.here {b : Nat} {s : State} {P : State → Prop} (h : P s) : Reaches b s P :=
  ⟨0, Nat.zero_le b, s, rfl, h⟩

/-- A larger bound is weaker. -/
theorem Reaches.mono {b b' : Nat} {s : State} {P : State → Prop} (hb : b ≤ b') (h : Reaches b s P) :
    Reaches b' s P := by
  obtain ⟨n, hn, u, hu, hp⟩ := h
  exact ⟨n, Nat.le_trans hn hb, u, hu, hp⟩

end Sys2Proof.Machine
end

