-- ==== Sys2Proof/Tests/Slice0.lean ====
section
/-! SUPPORT. The model's own tests: ill-formed terms refused, every constructor decoded from its written-out
encoding, one step of each instruction on the spec's examples (95_test_vectors.md and the rules'
Example lines), and for every statement with hypotheses a state and operands that meet them. -/

namespace Sys2Proof.Tests

open Sys2Proof.Machine

/-! ### Helpers -/

/-- The outcome is a next state with `p`. -/
def gives (o : Host.Outcome State Fault Refusal) (p : State → Bool) : Bool :=
  match o with
  | .next t => p t
  | .fault _ => false
  | .refused _ => false

/-- An outcome that gives a next state with `p` is one. -/
theorem exists_of_gives {o : Host.Outcome State Fault Refusal} {p : State → Bool}
    (h : gives o p = true) : ∃ t, o = .next t ∧ p t = true := by
  cases o with
  | next t => exact ⟨t, rfl, h⟩
  | fault f => cases h
  | refused r => cases h

/-- The instruction answers a next state with `p`. -/
def after (i : Instr) (s : State) (p : State → Bool) : Bool := gives (exec i s) p

/-- The step answers a next state with `p`. -/
def stepped (s : State) (p : State → Bool) : Bool := gives (step s) p

/-- Command `c` running in phase `p` on the input `bytes`. -/
def running (c : BitVec 2) (p : Phase) (bytes : List Byte) : State :=
  { State.reset with
    cmd := c
    st := .busy
    phase := p
    ibuf := bytes.zipIdx.map (fun e => (e.2, e.1))
    inLen := BitVec.ofNat 32 bytes.length }

/-- A Leaf entry. -/
def leafNode (sym : Byte) (w : Nat) : Node := { Node.blank with sym := sym, w := w }

/-- An INTERNAL entry. -/
def innerNode (l r : Index) (w : Nat) : Node := { Node.blank with kind := .internal, left := l, right := r, w := w }

/-- The leaves of R175's example: a 5, b 2, c 1, d 1. -/
def abcdLeaves : Table Node :=
  [(0, leafNode 0x61#8 5), (1, leafNode 0x62#8 2), (2, leafNode 0x63#8 1), (3, leafNode 0x64#8 1)]

/-- The arena of R175's example after HMERGE. -/
def abcdArena : Table Node :=
  abcdLeaves ++ [(4, innerNode 2 3 2), (5, innerNode 1 4 4), (6, innerNode 5 0 9)]

/-- A state whose tree is that of R175's example. -/
def abcd (p : Phase) : State := { running 1#2 p [] with arena := abcdArena, nn := 7, root := 6 }

/-- A state whose tree is Internal(Leaf b, Leaf a), as TDES builds it (R228's example). -/
def treeBA (p : Phase) (bytes : List Byte) : State :=
  { running 2#2 p bytes with
    arena := [(0, innerNode 1 2 0), (1, leafNode 0x62#8 0), (2, leafNode 0x61#8 0)], nn := 3, root := 0 }

/-- The artifact of "aaaaaaaaab" (R140's example). -/
def artifactAB : List Byte :=
  [0x42#8, 0x4C#8, 0x62#8, 0x4C#8, 0x61#8, 0x7C#8, 0#8, 0#8, 0#8, 0#8, 0#8, 0#8, 0#8, 0x0A#8, 0xFF#8, 0x80#8]

/-! ### Well-formed terms -/

/-- R69: only 32-bit accesses at multiples of 4 are inside the interface. -/
theorem test_wellFormed_moves :
    (Move.regRead 4 0x18).wellFormed = true ∧ (Move.regRead 2 0x18).wellFormed = false ∧
    (Move.regRead 4 0x1A).wellFormed = false ∧ (Move.regWrite 4 0x00 1#32).wellFormed = true ∧
    (Move.regWrite 1 0x00 1#32).wellFormed = false ∧ (Move.regWrite 4 0x01 1#32).wellFormed = false := by
  decide

/-- R26, R120: IN_LEN has 32 bits, so a longer `load` is refused. -/
theorem test_wellFormed_load (bytes : List Byte) (h : bytes.length = 2 ^ 32) :
    (Line.load [0x61#8]).wellFormed = true ∧ (Line.load bytes).wellFormed = false := by
  refine ⟨rfl, ?_⟩
  have hlong : ¬ bytes.length < 2 ^ 32 := by omega
  exact decide_eq_false hlong

/-! ### Decoding, from words written out of the spec's tables -/

/-- R22. -/
theorem test_decode_ctrl :
    decode (.regWrite 0x00 0x00000000#32) = .ok (.ctrlNone 0#30, []) ∧
    decode (.regWrite 0x00 0x00000005#32) = .ok (.start 1#30, []) ∧
    decode (.regWrite 0x00 0x80000002#32) = .ok (.clear 0x20000000#30, []) ∧
    decode (.regWrite 0x00 0xFFFFFFFF#32) = .ok (.ctrlReserved 0x3FFFFFFF#30, []) := by decide

/-- R23. -/
theorem test_decode_cmd :
    decode (.regWrite 0x04 0x00000000#32) = .ok (.cmdReserved0 0#30, []) ∧
    decode (.regWrite 0x04 0x00000001#32) = .ok (.compress 0#30, []) ∧
    decode (.regWrite 0x04 0xFFFFFFFE#32) = .ok (.decompress 0x3FFFFFFF#30, []) ∧
    decode (.regWrite 0x04 0x00000003#32) = .ok (.cmdReserved3 0#30, []) := by decide

/-- R135, the codes of both commands and of COMPRESS. -/
theorem test_decode_phase_compress :
    ∀ e ∈ ([(0b00000#5, .pIdle), (0b00001#5, .pCheck), (0b00010#5, .pEmpty), (0b00011#5, .pFcount),
     (0b00100#5, .pHinit), (0b00101#5, .pHmerge), (0b00110#5, .pHwrap), (0b00111#5, .pCgen),
     (0b01000#5, .pSize), (0b01001#5, .pTser), (0b01010#5, .pHdr), (0b01011#5, .pEncode),
     (0b01100#5, .pFlush), (0b11111#5, .pFinish)] : List (BitVec 5 × Instr)),
      decode (.phase e.1) = .ok (e.2, []) := by decide

/-- R135, the codes of DECOMPRESS. -/
theorem test_decode_phase_decompress :
    ∀ e ∈ ([(0b10000#5, .pDhead), (0b10001#5, .pTdes), (0b10010#5, .pDelim), (0b10011#5, .pRdlen),
     (0b10100#5, .pChklen), (0b10101#5, .pWalk), (0b10110#5, .pWend)] : List (BitVec 5 × Instr)),
      decode (.phase e.1) = .ok (e.2, []) := by decide

/-- R91, R93, R95, R96, R97; the symbol 0x7C after a LEAF marker is no delimiter (R100). -/
theorem test_decode_items :
    decode (.artifact .marker [0x42#8, 0x4C#8]) = .ok (.tokBranch, [0x4C#8]) ∧
    decode (.artifact .marker [0x4C#8, 0x7C#8]) = .ok (.tokLeaf 0x7C#8, []) ∧
    decode (.artifact .delim [0x7C#8, 0#8]) = .ok (.delim, [0#8]) ∧
    decode (.artifact .head [0x45#8]) = .ok (.tokEmpty, []) ∧
    decode (.artifact .length [1#8, 2#8, 3#8, 4#8, 5#8, 6#8, 7#8, 8#8, 9#8]) =
      .ok (.bitlen 0x0102030405060708#64, [9#8]) ∧
    decode (.artifact .payload [0x7C#8]) = .ok (.payloadByte 0x7C#8, []) := by decide

/-- R320. -/
theorem test_decode_err :
    decode (.regRead 0x0C 0#32) = .ok (.errNone, []) ∧ decode (.regRead 0x0C 1#32) = .ok (.errIo, []) ∧
    decode (.regRead 0x0C 2#32) = .ok (.errCorruptTree, []) ∧
    decode (.regRead 0x0C 3#32) = .ok (.errFormat, []) ∧
    decode (.regRead 0x0C 4#32) = .ok (.errDecode, []) ∧
    decode (.regRead 0x0C 5#32) = .ok (.errUsage, []) := by decide

/-- R321. -/
theorem test_decode_errInfo :
    ∀ e ∈ ([(0#32, .infoNone), (1#32, .infoBadCmd), (2#32, .infoInRange), (3#32, .infoOutRange),
     (4#32, .infoTruncated), (5#32, .infoBadMarker), (6#32, .infoTooLarge), (7#32, .infoNoDelim),
     (8#32, .infoBadDelim), (9#32, .infoNoLength), (10#32, .infoLenMismatch),
     (11#32, .infoTrailing), (12#32, .infoCodeCollision), (13#32, .infoNullChild),
     (14#32, .infoIncomplete)] : List (Word × Instr)),
      decode (.regRead 0x10 e.1) = .ok (e.2, []) := by decide

/-- R24. -/
theorem test_decode_status :
    decode (.regRead 0x08 0#32) = .ok (.stIdle, []) ∧ decode (.regRead 0x08 1#32) = .ok (.stBusy, []) ∧
    decode (.regRead 0x08 2#32) = .ok (.stDone, []) ∧ decode (.regRead 0x08 3#32) = .ok (.stError, []) := by
  decide

/-- R135, R320, R321, R110, R111, R291: what is no instruction is refused by name. -/
theorem test_decode_refused :
    decode (.phase 13#5) = .error (.reservedPhase 13#5) ∧
    decode (.phase 23#5) = .error (.reservedPhase 23#5) ∧
    decode (.regRead 0x0C 6#32) = .error (.reservedErr 6#32) ∧
    decode (.regRead 0x10 15#32) = .error (.reservedErrInfo 15#32) ∧
    decode (.artifact .marker [0x45#8]) = .error (.badMarker 0x45#8) ∧
    decode (.artifact .marker [0x4C#8]) = .error .truncated ∧
    decode (.artifact .delim [0x42#8]) = .error (.badDelim 0x42#8) ∧
    decode (.artifact .head [0x42#8]) = .error (.notEmptyToken 0x42#8) ∧
    decode (.artifact .length [0#8, 0#8, 0#8, 0#8, 0#8, 0#8, 0#8]) = .error .truncated ∧
    decode (.regWrite 0x14 1#32) = .error (.notActionRegister 0x14) := by decide

/-- The opcode table's numbers: START, P_FCOUNT, a LEAF of 0x61, BRANCH, the length 10, ERR_INFO 14. -/
theorem test_decode_tableWord :
    decodeTableWord 32 1 = some (.start 0#30) ∧ decodeTableWord 8 3 = some .pFcount ∧
    decodeTableWord 16 0x4C61 = some (.tokLeaf 0x61#8) ∧ decodeTableWord 8 0x42 = some .tokBranch ∧
    decodeTableWord 64 10 = some (.bitlen 10#64) ∧ decodeTableWord 8 14 = some .infoIncomplete ∧
    decodeTableWord 2 1 = some .stBusy ∧ decodeTableWord 3 5 = some .errUsage ∧
    decodeTableWord 4 4 = some .infoTruncated ∧ decodeTableWord 24 0 = none := by decide

/-! ### Placing a table row where the next step fetches it -/

/-- START, a PHASE code and a status code run as the first instruction after reset. -/
theorem test_fetchWord_control :
    stepped (State.reset.withFetchWord 32 1) (fun t => t.st == .busy && t.phase == .check) = true ∧
    stepped (State.reset.withFetchWord 8 16) (fun t => t.errInfo == .truncated) = true ∧
    stepped (State.reset.withFetchWord 4 14)
      (fun t => t.hostMatch && t.hostLog == [14#32]) = true := by decide

/-- Every kind of item runs as the first instruction after reset. -/
theorem test_fetchWord_items :
    stepped (State.reset.withFetchWord 8 0x45) (fun t => t.phase == .finish) = true ∧
    stepped (State.reset.withFetchWord 8 0x42) (fun t => t.stack == [.left 0]) = true ∧
    stepped (State.reset.withFetchWord 16 0x4C61)
      (fun t => t.phase == .delim && (nodeAt t.arena 0).sym == 0x61#8) = true ∧
    stepped (State.reset.withFetchWord 8 0x7C) (fun t => t.phase == .rdlen && t.ipos == 1) = true ∧
    stepped (State.reset.withFetchWord 64 10) (fun t => t.bitlen == 10#64) = true ∧
    stepped (State.reset.withFetchWord 8 0xB3) (fun t => t.errInfo == .nullChild) = true := by decide

/-! ### One step of each instruction, from the spec's examples -/

/-- H17: CTRL 0 and 3 change nothing. -/
theorem test_ctrl_ignored :
    after (.ctrlNone 7#30) State.reset (fun t => decide (t = State.reset)) = true ∧
    after (.ctrlReserved 7#30) State.reset (fun t => decide (t = State.reset)) = true := by decide

/-- R131's and R132's examples. -/
theorem test_start :
    after (.start 0#30) State.reset (fun t => t.st == .busy && t.phase == .check) = true ∧
    after (.start 0#30) { State.reset with st := .error, err := .format, errInfo := .badDelim }
      (fun t => t.st == .error && t.err == .format) = true := by decide

/-- R133's example and H11. -/
theorem test_clear :
    after (.clear 0#30) { State.reset with st := .error, err := .corruptTree, errInfo := .truncated }
      (fun t => t.st == .idle && t.err == .none && t.errInfo == .none) = true ∧
    after (.clear 0#30) { State.reset with st := .done, outLen := 16#32 }
      (fun t => t.st == .idle && t.outLen == 0#32) = true := by decide

/-- H2: CMD takes the two low bits; a write while BUSY is dropped. -/
theorem test_cmd :
    after (.decompress 0x3FFFFFFF#30) State.reset (fun t => regValue t 0x04 == 2#32) = true ∧
    after (.compress 0#30) (running 2#2 .check []) (fun t => t.cmd == 2#2) = true ∧
    after (.cmdReserved0 0#30) { State.reset with cmd := 1#2 } (fun t => t.cmd == 0#2) = true ∧
    after (.cmdReserved3 0#30) State.reset (fun t => t.cmd == 3#2) = true := by decide

/-- R138: the core has no step in IDLE. -/
theorem test_pIdle : stepped State.reset (fun t => decide (t = State.reset)) = true := by decide

/-- R134's example, H6 and H7. -/
theorem test_pCheck :
    after .pCheck { running 1#2 .check [] with inLen := 10#32 } (fun t => t.phase == .fcount) = true ∧
    after .pCheck { running 3#2 .check [] with inLen := 4097#32 } (fun t => t.errInfo == .badCmd) = true ∧
    after .pCheck { running 1#2 .check [] with inLen := 4097#32 }
      (fun t => t.err == .io && t.errInfo == .inRange) = true ∧
    after .pCheck { running 2#2 .check [] with inLen := 4096#32 } (fun t => t.phase == .dhead) = true := by
  decide

/-- R272: the empty token, or OUT_RANGE with OBUF_CAP = 0. -/
theorem test_pEmpty :
    after .pEmpty (running 1#2 .empty []) (fun t => t.obuf == [(0, 0x45#8)] && t.opos == 1) = true ∧
    after .pEmpty { running 1#2 .empty [] with obufCap := 0#32 } (fun t => t.errInfo == .outRange) = true := by
  decide

/-- R161's example. -/
theorem test_pFcount :
    after .pFcount (running 1#2 .fcount (List.replicate 9 0x61#8 ++ [0x62#8]))
      (fun t => t.freq == [(0x61, 9), (0x62, 1)] && t.k == 2 && t.phase == .hinit) = true := by
  decide +kernel

/-- R173's example. -/
theorem test_pHinit :
    after .pHinit { running 1#2 .hinit [] with freq := [(0x61, 9), (0x62, 1)], k := 2 }
      (fun t => t.arena == [(0, leafNode 0x61#8 9), (1, leafNode 0x62#8 1)] && t.nn == 2 &&
        t.phase == .hmerge) = true := by decide +kernel

/-- R175's example: the merges and the tie at weight 2. -/
theorem test_pHmerge :
    after .pHmerge { running 1#2 .hmerge [] with arena := abcdLeaves, nn := 4, heap := [2, 3, 1, 0] }
      (fun t => t.arena == abcdArena && t.root == 6 && t.nn == 7 && t.heap == []) = true := by decide

/-- R177's example. -/
theorem test_pHwrap :
    after .pHwrap { running 1#2 .hwrap [] with arena := [(0, leafNode 0x41#8 1000)], nn := 1, heap := [0] }
      (fun t => t.arena == [(0, leafNode 0x41#8 1000), (1, leafNode 0x41#8 0), (2, innerNode 0 1 1000)] &&
        t.root == 2 && t.nn == 3 && t.heap == []) = true := by decide

/-- R203's example. -/
theorem test_pCgen :
    after .pCgen (abcd .cgen)
      (fun t => t.inv == [([false, false], 0x62#8), ([false, true, false], 0x63#8),
          ([false, true, true], 0x64#8), ([true], 0x61#8)] &&
        t.cbLen == [(0x61, 1), (0x62, 2), (0x63, 3), (0x64, 3)]) = true := by decide

/-- R274's example: 16 bytes fit in 16, not in 15. -/
theorem test_pSize :
    after .pSize { running 1#2 .size [] with
        freq := [(0x61, 9), (0x62, 1)], cbLen := [(0x61, 1), (0x62, 1)], nn := 3, obufCap := 16#32 }
      (fun t => t.bitlen == 10#64 && t.phase == .tser) = true ∧
    after .pSize { running 1#2 .size [] with
        freq := [(0x61, 9), (0x62, 1)], cbLen := [(0x61, 1), (0x62, 1)], nn := 3, obufCap := 15#32 }
      (fun t => t.errInfo == .outRange) = true := by decide +kernel

/-- R221's example. -/
theorem test_pTser :
    after .pTser (abcd .tser)
      (fun t => t.obuf.map Prod.snd == [0x42#8, 0x42#8, 0x4C#8, 0x62#8, 0x42#8, 0x4C#8, 0x63#8, 0x4C#8,
        0x64#8, 0x4C#8, 0x61#8] && t.opos == 11) = true := by decide

/-- R275's example. -/
theorem test_pHdr :
    after .pHdr { running 1#2 .hdr [] with bitlen := 10#64 }
      (fun t => t.obuf.map Prod.snd == [0x7C#8, 0#8, 0#8, 0#8, 0#8, 0#8, 0#8, 0#8, 0x0A#8]) = true := by
  decide

/-- R253's example, before FLUSH: the codes of nine bits 1 and one bit 0. -/
theorem test_pEncode :
    after .pEncode { running 1#2 .encode (List.replicate 9 0x61#8 ++ [0x62#8]) with
        cbLen := [(0x61, 1), (0x62, 1)], cbBits := [(0x61, [true]), (0x62, [false])] }
      (fun t => t.obuf == [(0, 0xFF#8)] && t.acc == 0x80#8 && t.accN == 2#3 && t.ipos == 10) = true := by
  decide +kernel

/-- R253's example. -/
theorem test_pFlush :
    after .pFlush { running 1#2 .flush [] with acc := 0x80#8, accN := 2#3, opos := 1 }
      (fun t => t.obuf == [(1, 0x80#8)] && t.accN == 0#3 && t.phase == .finish) = true ∧
    after .pFlush (running 1#2 .flush []) (fun t => t.obuf == [] && t.phase == .finish) = true := by decide

/-- R137. -/
theorem test_pFinish :
    after .pFinish { running 1#2 .finish [] with obuf := [(0, 0x45#8), (1, 0x99#8)], opos := 1 }
      (fun t => t.st == .done && t.phase == .idle && t.outLen == 1#32 && t.obuf == [(0, 0x45#8)]) = true := by
  decide

/-- R291's examples and corner cases. -/
theorem test_pDhead :
    after .pDhead (running 2#2 .dhead [0x45#8]) (fun t => t.phase == .finish) = true ∧
    after .pDhead (running 2#2 .dhead [0x45#8, 0#8]) (fun t => t.errInfo == .trailing) = true ∧
    after .pDhead (running 2#2 .dhead []) (fun t => t.err == .corruptTree && t.errInfo == .truncated) = true ∧
    after .pDhead (running 2#2 .dhead [0x4C#8]) (fun t => t.phase == .tdes) = true := by decide

/-- R228's example. -/
theorem test_pTdes :
    after .pTdes (running 2#2 .tdes artifactAB)
      (fun t => t.arena == [(0, innerNode 1 2 0), (1, leafNode 0x62#8 0), (2, leafNode 0x61#8 0)] &&
        t.nn == 3 && t.root == 0 && t.ipos == 5 && t.phase == .delim) = true := by decide

/-- R228, R110: a bad marker and a missing symbol. -/
theorem test_pTdes_errors :
    after .pTdes (running 2#2 .tdes [0x42#8, 0x45#8]) (fun t => t.errInfo == .badMarker) = true ∧
    after .pTdes (running 2#2 .tdes [0x42#8, 0x4C#8]) (fun t => t.errInfo == .truncated) = true := by decide

/-- R293's example and its two errors. -/
theorem test_pDelim :
    after .pDelim { running 2#2 .delim artifactAB with ipos := 5 } (fun t => t.ipos == 6) = true ∧
    after .pDelim { running 2#2 .delim artifactAB with ipos := 4 } (fun t => t.errInfo == .badDelim) = true ∧
    after .pDelim { running 2#2 .delim artifactAB with ipos := 16 } (fun t => t.errInfo == .noDelim) = true := by
  decide

/-- R294's example, and one byte too few. -/
theorem test_pRdlen :
    after .pRdlen { running 2#2 .rdlen artifactAB with ipos := 6 }
      (fun t => t.bitlen == 10#64 && t.ipos == 14) = true ∧
    after .pRdlen { running 2#2 .rdlen artifactAB with ipos := 9 } (fun t => t.errInfo == .noLength) = true := by
  decide

/-- R295's example: two bytes for 10 bits pass; one does not. -/
theorem test_pChklen :
    after .pChklen { running 2#2 .chklen artifactAB with ipos := 14, bitlen := 10#64 }
      (fun t => t.phase == .walk && t.bitpos == 0) = true ∧
    after .pChklen { running 2#2 .chklen artifactAB with ipos := 15, bitlen := 10#64 }
      (fun t => t.errInfo == .lenMismatch) = true := by decide

/-- R296's example: FF 80, 10 bits, gives nine a and one b. -/
theorem test_pWalk :
    after .pWalk { treeBA .walk artifactAB with ipos := 14, bitlen := 10#64 }
      (fun t => t.obuf.map Prod.snd == List.replicate 9 0x61#8 ++ [0x62#8] && t.cur == 0 &&
        t.bitpos == 10 && t.phase == .wend) = true := by decide

/-- R297: a bit and a tree that is one LEAF. -/
theorem test_pWalk_nullChild :
    after .pWalk { running 2#2 .walk [0x80#8] with arena := [(0, leafNode 0x61#8 0)], bitlen := 1#64 }
      (fun t => t.err == .decode && t.errInfo == .nullChild) = true := by decide

/-- R298. -/
theorem test_pWend :
    after .pWend { running 2#2 .wend [] with cur := 3, root := 0 }
      (fun t => t.errInfo == .incomplete && t.outLen == 0#32) = true ∧
    after .pWend (running 2#2 .wend []) (fun t => t.phase == .finish) = true := by decide

/-- R228's example token by token: BRANCH, then the Leaf b, which leaves the right subtree to come. -/
theorem test_tokens :
    after .tokBranch (running 2#2 .tdes artifactAB)
      (fun t => t.nn == 1 && t.ipos == 1 && t.stack == [.left 0] && t.fine) = true ∧
    after (.tokLeaf 0x62#8) { running 2#2 .tdes artifactAB with
        arena := [(0, innerNode 0 0 0)], nn := 1, ipos := 1, stack := [.left 0], fine := true }
      (fun t => t.nn == 2 && t.ipos == 3 && t.stack == [.right 0 1]) = true := by decide

/-- R229: the token of node number 512 is TOO_LARGE. -/
theorem test_tokens_tooLarge :
    after .tokBranch { running 2#2 .tdes [] with nn := 511, fine := true }
      (fun t => t.errInfo == .tooLarge) = true ∧
    after (.tokLeaf 0#8) { running 2#2 .tdes [] with nn := 510, stack := [.right 0 1], fine := true }
      (fun t => t.nn == 511 && t.phase == .delim) = true := by decide

/-- R91, R95, R96: the other items. -/
theorem test_items :
    after .tokEmpty (running 2#2 .dhead [0x45#8, 0#8]) (fun t => t.errInfo == .trailing) = true ∧
    after .delim { running 2#2 .delim artifactAB with ipos := 5 } (fun t => t.ipos == 6) = true ∧
    after (.bitlen 10#64) { running 2#2 .rdlen artifactAB with ipos := 6 }
      (fun t => t.bitlen == 10#64 && t.ipos == 14 && t.phase == .chklen) = true := by decide

/-- R296's example: the second payload byte holds two bits, 1 and 0, and six padding bits. -/
theorem test_payloadByte :
    after (.payloadByte 0x80#8) { treeBA .walk artifactAB with ipos := 14, bitlen := 10#64, bitpos := 8 }
      (fun t => t.obuf.map Prod.snd == [0x61#8, 0x62#8] && t.bitpos == 10 && t.phase == .wend) = true := by
  decide

/-- R320, R321, R24: a code is observed where the field holds it, and the read gives the register. -/
theorem test_codes :
    after .errFormat { State.reset with st := .error, err := .format, errInfo := .lenMismatch }
      (fun t => t.hostMatch && t.hostLog == [3#32]) = true ∧
    after .infoTrailing { State.reset with st := .error, err := .format, errInfo := .lenMismatch }
      (fun t => !t.hostMatch && t.hostLog == [10#32]) = true ∧
    after .stBusy (running 1#2 .check []) (fun t => t.hostMatch && t.hostLog == [1#32]) = true := by decide

/-! ### The host's moves -/

/-- H14, H15, H16: what the lock drops. -/
theorem test_busy_lock :
    stepped { running 1#2 .check [] with script := [.host (.regWrite 4 0x14 5#32)] }
      (fun t => t.inLen == 0#32) = true ∧
    stepped { running 1#2 .check [] with script := [.host (.regWrite 4 0x00 2#32)] }
      (fun t => t.st == .busy) = true ∧
    stepped { running 1#2 .check [] with script := [.host (.regRead 4 0x18)] }
      (fun t => t.hostLog == [0#32]) = true ∧
    stepped { running 1#2 .check [] with script := [.host (.bufWrite .ibuf 0 1#8)] }
      (fun t => t.ibuf == []) = true := by decide

/-- H18, H19, H20. -/
theorem test_host_moves :
    stepped { State.reset with script := [.host (.regWrite 4 0x00 5#32)] } (fun t => t.st == .busy) = true ∧
    stepped { State.reset with script := [.host (.regRead 4 0x1C)] } (fun t => t.hostLog == [0#32]) = true ∧
    stepped { State.reset with script := [.host (.regWrite 4 0x20 7#32)] }
      (fun t => decide (t = State.reset)) = true ∧
    stepped { running 1#2 .encode [0x61#8] with script := [.host .reset] }
      (fun t => t.st == .idle && t.phase == .idle && t.cmd == 0#2 && t.inLen == 0#32 && t.ibuf == []) = true := by
  decide

/-- R120: `load` writes the bytes, then the length. -/
theorem test_line_load :
    unfoldLine (.load [0x61#8, 0x62#8]) =
      [.host (.bufWrite .ibuf 0 0x61#8), .host (.bufWrite .ibuf 1 0x62#8),
       .host (.regWrite 4 0x14 2#32)] := by decide

/-- The functions statements compare with: R140's example, R91, and back (R141's example). -/
theorem test_artifact :
    compressed (List.replicate 9 0x61#8 ++ [0x62#8]) = artifactAB ∧ compressed [] = [0x45#8] ∧
    decompressed 4096 artifactAB = .ok (List.replicate 9 0x61#8 ++ [0x62#8]) := by decide +kernel

/-! ### States and operands that meet the hypotheses of the statements

One theorem per statement with hypotheses; a statement with several clauses has a witness for each, at
the boundary of its range. -/

/-- A turn script before an idle state. -/
def scripted (t : Turn) : State := { State.reset with script := [t] }

/-- The state in which a command has just begun on the input `bytes`. -/
def begun (c : BitVec 2) (bytes : List Byte) : State := running c .check bytes

theorem witness_EncodedInstructionsDecode :
    (Instr.tokLeaf 0x7C#8).wellFormed = true ∧
    encode (.tokLeaf 0x7C#8) = .artifact .marker [0x4C#8, 0x7C#8] := by decide

theorem witness_DecodedEncodingsAreUnique :
    decode (.artifact .marker [0x4C#8, 0x7C#8, 1#8]) = .ok (.tokLeaf 0x7C#8, [1#8]) ∧
    decode (.regWrite 0 0xFFFFFFFF#32) = .ok (.ctrlReserved 0x3FFFFFFF#30, []) ∧
    decode (.regRead 0x10 14#32) = .ok (.infoIncomplete, []) ∧
    decode (.phase 31#5) = .ok (.pFinish, []) := by decide

theorem witness_UnusedCodesAreRejected :
    (13#5 ≤ 13#5 ∧ 13#5 ≤ 15#5) ∧ (23#5 ≤ 30#5 ∧ 30#5 ≤ 30#5) ∧
    (0x43#8 ≠ 0x42#8 ∧ 0x43#8 ≠ 0x4C#8) := by decide

theorem witness_StepRunsTheDecodedInstruction :
    (let s := running 1#2 .fcount [0x61#8]
     s.st = .busy ∧ s.fine = false ∧ s.script = [] ∧ decode (.phase s.phase.code) = .ok (.pFcount, [])) ∧
    (let s := { running 1#2 .fcount [0x61#8] with script := [.core, .item] }
     s.st = .busy ∧ s.fine = false ∧ s.script = .core :: [.item] ∧
     decode (.phase s.phase.code) = .ok (.pFcount, [])) ∧
    (let s := { running 2#2 .tdes [0x42#8] with script := [.item] }
     s.st = .busy ∧ s.script = .item :: [] ∧
     itemRaw { s with script := [] } = some (.artifact .marker [0x42#8]) ∧
     decode (.artifact .marker [0x42#8]) = .ok (.tokBranch, [])) ∧
    ((scripted (.host (.regWrite 4 0x04 1#32))).script = .host (.regWrite 4 0x04 1#32) :: [] ∧
     decode (.regWrite 0x04 1#32) = .ok (.compress 0#30, [])) ∧
    ((scripted (.host (.regRead 4 0x08))).script = .host (.regRead 4 0x08) :: [] ∧
     decode (.regRead 0x08 (regValue (scripted (.host (.regRead 4 0x08))) 0x08)) =
       .ok (.stIdle, [])) := by decide

theorem witness_IdleCoreTakesNoStep : State.reset.st ≠ .busy ∧ State.reset.script = [] := by decide

theorem witness_RegisterReadsHaveNoSideEffect :
    (0x18 % 4 = 0 ∧ (scripted (.host (.regRead 4 0x18))).script = .host (.regRead 4 0x18) :: []) ∧
    (0x1C % 4 = 0 ∧ (scripted (.host (.regRead 4 0x1C))).script = .host (.regRead 4 0x1C) :: []) := by
  decide

theorem witness_StartBeginsACommand :
    State.reset.st = .idle ∧ { State.reset with st := .done }.st = .done ∧
    (begun 1#2 []).st = .busy ∧ { State.reset with st := .error }.st = .error := by decide

theorem witness_ClearAcknowledges :
    { State.reset with st := .done }.st = .done ∧ { State.reset with st := .error }.st = .error ∧
    State.reset.st = .idle ∧ (begun 1#2 []).st = .busy := by decide

theorem witness_CommandValuesAreStored :
    State.reset.st ≠ .busy ∧ (begun 1#2 []).st = .busy ∧ State.reset.cmd = 0#2 ∧
    { State.reset with cmd := 3#2 }.cmd = 3#2 ∧
    ((begun 1#2 []).inLen.toNat ≤ (begun 1#2 []).ibufCap.toNat ∧ (begun 1#2 []).cmd = 1#2) ∧
    ({ begun 2#2 [] with inLen := 4096#32 }.inLen.toNat ≤ (begun 2#2 []).ibufCap.toNat ∧
      (begun 2#2 []).cmd = 2#2) := by decide

theorem witness_RegisterWritesFollowTheTable :
    (∀ e ∈ ([(0x00, 1#32), (0x00, 2#32), (0x00, 3#32), (0x04, 2#32), (0x14, 5#32), (0x18, 1#32),
        (0x1C, 1#32)] : List (Nat × Word)),
      e.1 % 4 = 0 ∧ (scripted (.host (.regWrite 4 e.1 e.2))).script = .host (.regWrite 4 e.1 e.2) :: [] ∧
      (scripted (.host (.regWrite 4 e.1 e.2))).st ≠ .busy) ∧
    (1#32 : Word).extractLsb' 0 2 = 1#2 ∧ (2#32 : Word).extractLsb' 0 2 = 2#2 ∧
    ((3#32 : Word).extractLsb' 0 2 ≠ 1#2 ∧ (3#32 : Word).extractLsb' 0 2 ≠ 2#2) ∧
    { begun 1#2 [] with script := [.host (.regWrite 4 0x14 5#32)] }.st = .busy := by decide

theorem witness_BufferAccessesArePlainStorage :
    (∀ m ∈ [Move.bufWrite .ibuf 4095 1#8, Move.bufWrite .obuf 4096 1#8, Move.bufRead .obuf 4095,
        Move.bufRead .ibuf 4096],
      (scripted (.host m)).st ≠ .busy ∧ (scripted (.host m)).script = .host m :: []) ∧
    4095 < capOf (scripted (.host (.bufWrite .ibuf 4095 1#8))) .ibuf ∧
    capOf (scripted (.host (.bufWrite .obuf 4096 1#8))) .obuf ≤ 4096 ∧
    4095 < capOf (scripted (.host (.bufRead .obuf 4095))) .obuf ∧
    capOf (scripted (.host (.bufRead .ibuf 4096))) .ibuf ≤ 4096 ∧
    ((Space.obuf, 4095) ≠ (Space.ibuf, 4095)) := by decide

/-- A running command is coherent. -/
theorem running_coherent : StatusCoherent (begun 1#2 [0x61#8]) := by
  unfold StatusCoherent
  decide

theorem witness_BusyLocksTheHost :
    ∀ m ∈ [Move.regWrite 4 0x00 2#32, Move.bufRead .obuf 0, Move.regRead 4 0x1C],
      let s := { begun 1#2 [0x61#8] with script := [.host m] }
      s.st = .busy ∧ StatusCoherent s ∧ m ≠ .reset ∧ s.script = .host m :: [] := by
  intro m hm
  refine ⟨rfl, running_coherent, ?_, rfl⟩
  simp only [List.mem_cons, List.not_mem_nil, or_false] at hm
  rcases hm with rfl | rfl | rfl <;> decide

theorem witness_ResetMoveRestoresTheRegisters :
    { begun 1#2 [0x61#8] with script := [.host .reset] }.script = .host .reset :: [] := by decide

/-- A command that ended in UsageError(BAD_CMD). -/
def failed : State := { State.reset with st := .error, errInfo := .badCmd, err := .usage }

theorem witness_ErrorIsLeftOnlyByClearOrReset :
    (∃ t, step { failed with script := [.host (.regWrite 4 0x00 2#32)] } = .next t ∧
      (t.st == .idle) = true) ∧
    (∃ t, step { failed with script := [.host .reset] } = .next t ∧ (t.st == .idle) = true) ∧
    (failed.st = .error ∧ failed.script = []) :=
  ⟨exists_of_gives (by decide), exists_of_gives (by decide), by decide⟩

theorem witness_CheckPhaseDecidesInOrder :
    (∀ c ∈ [0#2, 3#2], (begun c []).cmd ≠ 1#2 ∧ (begun c []).cmd ≠ 2#2) ∧
    (∀ c ∈ [1#2, 2#2], ((begun c []).cmd = 1#2 ∨ (begun c []).cmd = 2#2) ∧
      (begun c []).ibufCap.toNat < { begun c [] with inLen := 4097#32 }.inLen.toNat ∧
      { begun c [] with inLen := 4096#32 }.inLen.toNat ≤ (begun c []).ibufCap.toNat) := by decide

theorem witness_FinishPublishesTheResult :
    let s := { running 1#2 .finish [] with obuf := [(0, 0x45#8)], opos := 1 }
    0 < s.opos.toNat ∧ (Table.find? s.obuf 0).isSome = true := by decide

theorem witness_EmptyPhaseWritesTheToken :
    (running 1#2 .empty []).opos.toNat < { running 1#2 .empty [] with obufCap := 1#32 }.obufCap.toNat ∧
    { running 1#2 .empty [] with obufCap := 0#32 }.obufCap.toNat ≤ (running 1#2 .empty []).opos.toNat := by
  decide

theorem witness_FcountCountsEveryByte : 255 < 256 ∧ (running 1#2 .fcount [0xFF#8]).inLen ≠ 0#32 := by
  decide

theorem witness_HinitEnqueuesTheLeaves :
    let s := { running 1#2 .hinit [] with freq := [(0, 1), (255, 1)], k := 2 }
    ((List.range 256).filter (fun i => decide (0 < freqAt s i))).length = 2 := by decide +kernel

/-- The heap of R175's example after the four inserts is one (95_test_vectors.md, T3). -/
theorem abcd_isHeap : IsHeap (less abcdLeaves) [2, 3, 1, 0] := by
  intro i h1 h2
  have h4 : i < 4 := h2
  interval_cases i <;> decide

theorem witness_HeapKeepsThePriorityQueue :
    IsHeap (less abcdLeaves) [2, 3, 1, 0] ∧ [2, 3, 1, 0].Nodup ∧ 4 ∉ [2, 3, 1, 0] ∧
    [2, 3, 1, 0] ≠ [] ∧ 0 ∈ [2, 3, 1, 0] ∧ 0 ≠ 2 :=
  ⟨abcd_isHeap, by decide, by decide, by decide, by decide, by decide⟩

/-- The state HINIT leaves in R175's example. -/
def abcdQueue : State := { running 1#2 .hmerge [] with arena := abcdLeaves, nn := 4, heap := [2, 3, 1, 0] }

theorem witness_HmergeEmptiesTheQueue :
    (3 < abcdQueue.nn.toNat ∧ abcdQueue.nn.toNat + abcdQueue.heap.length ≤ 512 ∧ abcdQueue.heap ≠ []) ∧
    (let s := { abcdQueue with nn := 508#10 }
     507 < s.nn.toNat ∧ s.nn.toNat + s.heap.length = 512) := by decide

theorem witness_HmergeBuildsAHuffmanTree :
    2 ≤ abcdQueue.nn.toNat ∧ abcdQueue.nn.toNat ≤ 256 ∧
    (∀ i, i < abcdQueue.nn.toNat → (nodeAt abcdQueue.arena i).kind = .leaf) ∧
    abcdQueue.heap.Perm ((List.range abcdQueue.nn.toNat).map (BitVec.ofNat 9)) ∧
    IsHeap (less abcdQueue.arena) abcdQueue.heap :=
  ⟨by decide, by decide, by decide, by decide, abcd_isHeap⟩

theorem witness_HwrapWrapsTheSoleLeaf :
    (nodeAt { running 1#2 .hwrap [] with arena := [(0, leafNode 0x41#8 3)] }.arena 0).kind = .leaf := by
  decide

/-- An arena whose entry 0 is its own child. -/
def loopArena : Table Node := [(0, innerNode 0 0 0)]

/-- Such an arena is no tree of any number of levels. -/
theorem loop_no_tree (fuel : Nat) : treeOf loopArena fuel 0 = none := by
  induction fuel with
  | zero => rfl
  | succ fuel ih =>
    have hk : (nodeAt loopArena 0).kind = .internal := by decide
    have hl : (nodeAt loopArena 0).left.toNat = 0 := by decide
    rw [treeOf, hk, hl, ih]

/-- A running command whose arena is no tree. -/
def looped : State := { running 1#2 .cgen [] with arena := loopArena }

theorem abcd_tree (p : Phase) : rootTree (abcd p) =
    some (.node (.node (.leaf 0x62#8) (.node (.leaf 0x63#8) (.leaf 0x64#8))) (.leaf 0x61#8)) := rfl

theorem witness_CgenRecordsTheCodeBook :
    (∃ t, rootTree (abcd .cgen) = some t) ∧ 255 < 256 := ⟨⟨_, abcd_tree .cgen⟩, by decide⟩

/-- Both cases occur: an arena that is no tree, and one that is. -/
theorem witness_TreePhasesStopWithoutATree :
    rootTree looped = none ∧ rootTree (abcd .cgen) ≠ none :=
  ⟨loop_no_tree _, by simp [abcd_tree]⟩

theorem witness_LeafPathsArePrefixFree :
    let t := Tree.node (.leaf 0x62#8) (.leaf 0x61#8)
    0 < (leaves t []).length ∧ 1 < (leaves t []).length ∧ 0 ≠ 1 ∧
    t = .node (.leaf 0x62#8) (.leaf 0x61#8) ∧ ([true], 0x61#8) ∈ leaves t [] := by decide

theorem witness_KraftSumIsOne :
    ∀ e ∈ leaves (.node (.leaf 0x62#8) (.leaf 0x61#8)) [], e.1.length ≤ 1 := by decide

theorem witness_SizeChecksTheWholeArtifact :
    let s := { running 1#2 .size [] with
      freq := [(0x61, 9), (0x62, 1)], cbLen := [(0x61, 1), (0x62, 1)], nn := 3 }
    3 * ((s.nn.toNat + 1) / 2) + 8 + ceil8 (codedBits s) ≤ { s with obufCap := 16#32 }.obufCap.toNat ∧
    { s with obufCap := 15#32 }.obufCap.toNat < 3 * ((s.nn.toNat + 1) / 2) + 8 + ceil8 (codedBits s) := by
  decide +kernel

theorem witness_TserWritesTheSerializedTree :
    ∃ t, rootTree (abcd .tser) = some t ∧
      (abcd .tser).opos.toNat + (serialize t).length ≤
        { abcd .tser with obufCap := 11#32 }.obufCap.toNat ∧
      { abcd .tser with obufCap := 10#32 }.obufCap.toNat <
        (abcd .tser).opos.toNat + (serialize t).length :=
  ⟨_, abcd_tree .tser, by decide, by decide⟩

theorem witness_HdrWritesDelimiterAndLength :
    let s := running 1#2 .hdr []
    s.opos.toNat + 9 ≤ { s with obufCap := 9#32 }.obufCap.toNat ∧
    { s with obufCap := 8#32 }.obufCap.toNat < s.opos.toNat + 9 := by decide

/-- A running ENCODE whose input has an 8-bit code. -/
def encoding : State :=
  { running 1#2 .encode [0x61#8] with cbLen := [(0x61, 8)], cbBits := [(0x61, List.replicate 8 true)] }

theorem witness_EncodePacksTheCodes :
    (let bits := (input encoding).flatMap (fun b => codeOf encoding b.toNat)
     encoding.opos.toNat + bits.length / 8 ≤ { encoding with obufCap := 1#32 }.obufCap.toNat ∧
     0 < bits.length / 8 ∧
     { encoding with obufCap := 0#32 }.obufCap.toNat < encoding.opos.toNat + bits.length / 8) ∧
    encoding.accN ≠ 7#3 ∧
    ({ encoding with accN := 7#3 }.accN = 7#3 ∧ encoding.opos.toNat < encoding.obufCap.toNat) := by decide

theorem witness_FlushWritesThePartialByte :
    (running 1#2 .flush []).accN = 0#3 ∧
    (let s := { running 1#2 .flush [] with accN := 1#3, obufCap := 1#32 }
     s.accN ≠ 0#3 ∧ s.opos.toNat < s.obufCap.toNat ∧ s.obufCap.toNat ≤ { s with opos := 1#32 }.opos.toNat) := by decide

theorem witness_DheadLooksAtTheHead :
    (running 2#2 .dhead []).inLen = 0#32 ∧
    (let s := running 2#2 .dhead [0x45#8, 0#8]
     s.inLen ≠ 0#32 ∧ readIn s 0 = 0x45#8 ∧ s.inLen ≠ 1#32) ∧
    (let s := running 2#2 .dhead [0x45#8]
     s.inLen = 1#32 ∧ readIn s 0 = 0x45#8) ∧
    (let s := running 2#2 .dhead [0x42#8]
     s.inLen ≠ 0#32 ∧ readIn s 0 ≠ 0x45#8) := by decide

theorem witness_TdesInvertsSerialize :
    (input (running 2#2 .tdes artifactAB) =
      serialize (.node (.leaf 0x62#8) (.leaf 0x61#8)) ++ artifactAB.drop 5 ∧
      nodeCount (.node (.leaf 0x62#8) (.leaf 0x61#8)) ≤ 511) ∧
    (∃ u, exec .pTdes (running 2#2 .tdes artifactAB) = .next u ∧ (u.phase == .delim) = true) ∧
    serialize (.leaf 1#8) ++ [2#8] = serialize (.leaf 1#8) ++ [2#8] :=
  ⟨by decide, exists_of_gives (by decide), rfl⟩

theorem witness_TreeTokensBuildTheArena :
    (let e := parseEnter { running 2#2 .tdes [] with nn := 510, fine := true }
     e.nn.toNat < 511 ∧ pendingRight e.stack = 0) ∧
    (let e := parseEnter { running 2#2 .tdes [] with nn := 1, stack := [.left 0], fine := true }
     e.nn.toNat < 511 ∧ 0 < pendingRight e.stack ∧ 0 ≠ e.nn.toNat) ∧
    511 ≤ (parseEnter { running 2#2 .tdes [] with nn := 511, fine := true }).nn.toNat := by decide

theorem witness_DelimPhaseChecksTheByte :
    (let s := { running 2#2 .delim artifactAB with ipos := 16 }
     s.inLen.toNat ≤ s.ipos.toNat) ∧
    (let s := { running 2#2 .delim artifactAB with ipos := 15 }
     s.ipos.toNat < s.inLen.toNat ∧ readIn s s.ipos.toNat ≠ 0x7C#8) ∧
    (let s := { running 2#2 .delim artifactAB with ipos := 5 }
     s.ipos.toNat < s.inLen.toNat ∧ readIn s s.ipos.toNat = 0x7C#8) := by decide

theorem witness_RdlenReadsTheLength :
    (let s := { running 2#2 .rdlen artifactAB with ipos := 9 }
     (s.inLen - s.ipos).toNat < 8 ∧ s.ipos.toNat ≤ s.inLen.toNat) ∧
    (let s := { running 2#2 .rdlen artifactAB with ipos := 8 }
     8 ≤ (s.inLen - s.ipos).toNat) := by decide

theorem witness_ChklenDemandsEquality :
    (let s := { running 2#2 .chklen artifactAB with ipos := 14, bitlen := 17#64 }
     (s.inLen - s.ipos).toNat ≠ (s.bitlen.toNat + 7) / 8) ∧
    (let s := { running 2#2 .chklen artifactAB with ipos := 14, bitlen := 16#64 }
     (s.inLen - s.ipos).toNat = (s.bitlen.toNat + 7) / 8) := by decide

/-- TOK_EMPTY alone and with a byte after it; DELIM and BITLEN have no hypothesis. -/
theorem witness_ItemsOfHeadDelimiterAndLength :
    (running 2#2 .dhead [0x45#8]).inLen = 1#32 ∧ (running 2#2 .dhead [0x45#8, 0#8]).inLen ≠ 1#32 := by
  decide

theorem treeBA_tree (p : Phase) (bytes : List Byte) :
    rootTree (treeBA p bytes) = some (.node (.leaf 0x62#8) (.leaf 0x61#8)) := rfl

/-- R296's example as a walk of the abstract tree: it goes through with room for the output and fails
without. -/
theorem witness_WalkEmitsTheDecodedSymbols :
    let s := { treeBA .walk artifactAB with ipos := 14, bitlen := 10#64 }
    rootTree s = some (.node (.leaf 0x62#8) (.leaf 0x61#8)) ∧ s.bitpos.toNat ≤ s.bitlen.toNat ∧
    walkTree (.node (.leaf 0x62#8) (.leaf 0x61#8)) (s.obufCap.toNat - s.opos.toNat) none
      (payloadBitsFrom s (s.bitlen.toNat - s.bitpos.toNat)) =
        .ok (List.replicate 9 0x61#8 ++ [0x62#8], none) ∧
    walkTree (.node (.leaf 0x62#8) (.leaf 0x61#8)) 9 none
      (payloadBitsFrom s (s.bitlen.toNat - s.bitpos.toNat)) = .error .outRange :=
  ⟨treeBA_tree .walk artifactAB, by decide, by decide +kernel, by decide +kernel⟩

theorem witness_NullChildOnlyForARootLeaf :
    (let s := { running 2#2 .walk [0x80#8] with arena := [(0, leafNode 0x61#8 0)], bitlen := 1#64 }
     rootTree s = some (.leaf 0x61#8) ∧ s.bitpos = 0#64 ∧ s.errInfo ≠ .nullChild ∧ 1 ≤ s.bitlen.toNat) ∧
    (let s := { running 2#2 .walk [] with arena := [(0, leafNode 0x61#8 0)] }
     rootTree s = some (.leaf 0x61#8) ∧ s.bitpos = 0#64 ∧ s.errInfo ≠ .nullChild ∧ s.bitlen.toNat = 0) :=
  ⟨⟨rfl, by decide⟩, ⟨rfl, by decide⟩⟩

theorem witness_PayloadByteWalksItsBits :
    let s := { treeBA .walk artifactAB with ipos := 14, bitlen := 10#64, bitpos := 8, obufCap := 8#32 }
    rootTree s = some (.node (.leaf 0x62#8) (.leaf 0x61#8)) ∧ s.fine = false ∧
    s.opos.toNat + 8 ≤ s.obufCap.toNat :=
  ⟨rfl, by decide⟩

theorem witness_WendDemandsAWholeCode :
    (let s := { running 2#2 .wend [] with cur := 3 }
     s.cur ≠ s.root) ∧ (running 2#2 .wend []).cur = (running 2#2 .wend []).root := by decide

theorem witness_PhasesFollowTheGraph :
    (Phase.hinit ≠ .idle ∧ (running 1#2 .hinit []).phase = .hinit ∧ (running 1#2 .hinit []).st = .busy ∧
      ∃ t, exec (phaseInstr .hinit) (running 1#2 .hinit []) = .next t ∧ (t.phase == .hmerge) = true) ∧
    State.reset.st = .idle ∧ { State.reset with st := .done }.st = .done :=
  ⟨⟨by decide, rfl, rfl, exists_of_gives (by decide +kernel)⟩, by decide⟩

theorem witness_CoreLeavesTheHostSide :
    (isCoreInstr .pDhead = true ∧
      ∃ t, exec .pDhead (running 2#2 .dhead artifactAB) = .next t ∧ (t.phase == .tdes) = true) ∧
    (∃ t, step (running 2#2 .dhead artifactAB) = .next t ∧ (t.phase == .tdes) = true) :=
  ⟨⟨by decide, exists_of_gives (by decide)⟩, exists_of_gives (by decide)⟩

/-- The state HINIT leaves in R175's example meets the invariant. -/
theorem abcdQueue_sound : Sound abcdQueue := by
  unfold Sound StatusCoherent BuffersCanonical CommandFits FineCoherent BuilderReady ArenaFits CodesFit
  refine ⟨by decide, by decide, by decide, by decide, ?_, by decide, by decide⟩
  refine ⟨by decide, fun h => ?_, by decide, by decide, fun h => ?_⟩
  · cases h
  · rcases h with h | h | h <;> cases h

theorem witness_SoundStatesStepToSoundStates : Sound abcdQueue := abcdQueue_sound

theorem witness_CommandsEnd :
    Sound abcdQueue ∧ abcdQueue.st = .busy ∧ abcdQueue.script = [] ∧ abcdQueue.fine = false :=
  ⟨abcdQueue_sound, by decide⟩

/-- A command has just begun on its input. -/
theorem begun_started (c : BitVec 2) (bytes : List Byte) : Started c (begun c bytes) :=
  ⟨⟨rfl, rfl, rfl, rfl, rfl, rfl, rfl⟩, rfl⟩

/-- "aaaaaaaaab". -/
def textAB : List Byte := List.replicate 9 0x61#8 ++ [0x62#8]

theorem witness_CompressComputesTheArtifact :
    Started 1#2 (begun 1#2 textAB) ∧
    ((begun 1#2 textAB).inLen.toNat ≤ (begun 1#2 textAB).ibufCap.toNat ∧
      (compressed (input (begun 1#2 textAB))).length ≤ { begun 1#2 textAB with obufCap := 16#32 }.obufCap.toNat ∧
      { begun 1#2 textAB with obufCap := 15#32 }.obufCap.toNat <
        (compressed (input (begun 1#2 textAB))).length) ∧
    { begun 1#2 textAB with ibufCap := 9#32 }.ibufCap.toNat < (begun 1#2 textAB).inLen.toNat ∧
    input (begun 1#2 []) = [] ∧ input (begun 1#2 textAB) ≠ [] :=
  ⟨begun_started 1#2 textAB, by decide +kernel⟩

theorem witness_DecompressComputesTheOutput :
    Started 2#2 (begun 2#2 artifactAB) ∧
    (begun 2#2 artifactAB).inLen.toNat ≤ (begun 2#2 artifactAB).ibufCap.toNat ∧
    { begun 2#2 artifactAB with ibufCap := 15#32 }.ibufCap.toNat < (begun 2#2 artifactAB).inLen.toNat ∧
    decompressed 10 (input (begun 2#2 artifactAB)) = .ok textAB ∧
    decompressed 9 (input (begun 2#2 artifactAB)) = .error .outRange :=
  ⟨begun_started 2#2 artifactAB, by decide +kernel⟩

theorem witness_RoundTripRestoresTheInput :
    Started 1#2 (begun 1#2 textAB) ∧ Started 2#2 (begun 2#2 artifactAB) ∧
    (begun 1#2 textAB).inLen.toNat ≤ (begun 1#2 textAB).ibufCap.toNat ∧
    (compressed (input (begun 1#2 textAB))).length ≤ (begun 1#2 textAB).obufCap.toNat ∧
    input (begun 2#2 artifactAB) = compressed (input (begun 1#2 textAB)) ∧
    (begun 2#2 artifactAB).inLen.toNat ≤ (begun 2#2 artifactAB).ibufCap.toNat ∧
    (input (begun 1#2 textAB)).length ≤ (begun 2#2 artifactAB).obufCap.toNat :=
  ⟨begun_started 1#2 textAB, begun_started 2#2 artifactAB, by decide +kernel⟩

/-- COMPRESS of the one byte "a" and of nothing, and a proper prefix of each artifact. -/
theorem witness_TruncatedArtifactsAreRejected :
    (Started 1#2 (begun 1#2 [0x61#8]) ∧ Started 2#2 (begun 2#2 (artifactAB.take 14)) ∧
      (∃ t, steps 11 (begun 1#2 [0x61#8]) = .next t ∧
        (decide (t.st = .done ∧ 14 < (result t).length ∧
          input (begun 2#2 [0x42#8]) = (result t).take 1)) = true) ∧
      (begun 2#2 [0x42#8]).inLen.toNat ≤ (begun 2#2 [0x42#8]).ibufCap.toNat ∧
      input (begun 1#2 [0x61#8]) ≠ [] ∧
      buildTree (input (begun 1#2 [0x61#8])) = some (.node (.leaf 0x61#8) (.leaf 0x61#8))) ∧
    (Started 1#2 (begun 1#2 []) ∧ Started 2#2 (begun 2#2 []) ∧
      (∃ t, steps 3 (begun 1#2 []) = .next t ∧
        (decide (t.st = .done ∧ 0 < (result t).length ∧ input (begun 2#2 []) = (result t).take 0)) = true) ∧
      input (begun 1#2 []) = []) :=
  ⟨⟨begun_started _ _, begun_started _ _, exists_of_gives (by decide +kernel), by decide +kernel,
      by decide +kernel, by decide +kernel⟩,
    ⟨begun_started _ _, begun_started _ _, exists_of_gives (by decide +kernel), by decide +kernel⟩⟩

/-- Two states with other leftovers in the working state, in OBUF and in its era. -/
theorem witness_CommandResultIsAFunctionOfItsInput :
    let s1 := begun 1#2 []
    let s2 := { begun 1#2 [] with freq := [(1, 1)], nn := 3, obuf := [(0, 1#8)], obufEra := 7, acc := 5#8 }
    Started 1#2 s1 ∧ Started 1#2 s2 ∧ s1.inLen = s2.inLen ∧ input s1 = input s2 ∧
    s1.ibufCap = s2.ibufCap ∧ s1.obufCap = s2.obufCap ∧
    (∃ t, steps 3 s1 = .next t ∧ (t.st == .done) = true) ∧
    (∃ t, steps 3 s2 = .next t ∧ (t.st == .done) = true) :=
  ⟨begun_started 1#2 [], ⟨⟨rfl, rfl, rfl, rfl, rfl, rfl, rfl⟩, rfl⟩, rfl, rfl, rfl, rfl,
    exists_of_gives (by decide +kernel), exists_of_gives (by decide +kernel)⟩

theorem witness_FineStepsGiveTheSameResult :
    let s := { begun 2#2 artifactAB with script := List.replicate 23 .item }
    Begun 2#2 s ∧ s.inLen.toNat ≤ s.ibufCap.toNat ∧ s.script = List.replicate 23 .item ∧
    7 + s.inLen.toNat ≤ 23 ∧ decompressed 4096 (input s) = .ok textAB :=
  ⟨⟨rfl, rfl, rfl, rfl, rfl, rfl, rfl⟩, by decide, rfl, by decide, by decide +kernel⟩

end Sys2Proof.Tests
end

section
/-! SUPPORT. Two runs of one command side by side (R11, R45): what two states must agree on, phase by
phase, for their results to agree, whatever leftovers they hold elsewhere. -/

namespace Sys2Proof.Machine

/-! ### What two running states share -/

/-- Both states run the same command on the same input bytes with the same capacities. -/
structure SameJob (s t : State) : Prop where
  busy : s.st = .busy
  busy' : t.st = .busy
  script : s.script = []
  script' : t.script = []
  fine : s.fine = false
  fine' : t.fine = false
  err : s.err = t.err
  errInfo : s.errInfo = t.errInfo
  outLen : s.outLen = t.outLen
  cmd : s.cmd = t.cmd
  inLen : s.inLen = t.inLen
  ibufCap : s.ibufCap = t.ibufCap
  obufCap : s.obufCap = t.obufCap
  bytes : ∀ a, a < s.inLen.toNat → readIn s a = readIn t a

/-- The bytes below `n` are written in both buffers, with the same values. -/
def SameBytes (n : Nat) (m m' : Memory) : Prop :=
  ∀ a, a < n → ∃ b, Table.find? m a = some b ∧ Table.find? m' a = some b

/-- Both states run the same command and have written the same output so far. -/
structure SameOutput (s t : State) : Prop extends SameJob s t where
  opos : s.opos = t.opos
  out : SameBytes s.opos.toNat s.obuf t.obuf

/-- The command has ended in both states in the same way; after DONE the results are equal. -/
structure SameEnd (s t : State) : Prop where
  idle : s.st ≠ .busy
  script : s.script = []
  script' : t.script = []
  st : s.st = t.st
  err : s.err = t.err
  errInfo : s.errInfo = t.errInfo
  outLen : s.outLen = t.outLen
  result : s.st = .done → result s = result t

/-- Two pieces of pseudocode go on in related states or raise the same error. -/
inductive FlowAgrees (R : State → State → Prop) : Flow → Flow → Prop where
  | go {s t : State} (h : R s t) : FlowAgrees R (.go s) (.go t)
  | abort (e : ErrInfo) {s t : State} (hs : s.script = []) (ht : t.script = []) :
    FlowAgrees R (.abort e s) (.abort e t)

/-- One piece of pseudocode after another, the state the first one ends in known. -/
theorem FlowAgrees.bind_of_go {R Q : State → State → Prop} {f g : Flow} {k l : State → Flow}
    (h : FlowAgrees R f g) (hk : ∀ s t, f = .go s → R s t → FlowAgrees Q (k s) (l t)) :
    FlowAgrees Q (f.bind k) (g.bind l) := by
  cases h with
  | go h => exact hk _ _ rfl h
  | abort e hs ht => exact .abort e hs ht

/-- One piece of pseudocode after another. -/
theorem FlowAgrees.bind {R Q : State → State → Prop} {f g : Flow} {k l : State → Flow}
    (h : FlowAgrees R f g) (hk : ∀ s t, R s t → FlowAgrees Q (k s) (l t)) :
    FlowAgrees Q (f.bind k) (g.bind l) :=
  h.bind_of_go fun s t _ => hk s t

/-- A loop over the same list in both states. -/
theorem FlowAgrees.each {α : Type} {R : State → State → Prop} {body : α → State → Flow}
    (round : ∀ x s t, R s t → FlowAgrees R (body x s) (body x t)) (xs : List α) {s t : State}
    (h : R s t) : FlowAgrees R (Flow.each body xs s) (Flow.each body xs t) := by
  induction xs generalizing s t with
  | nil => exact .go h
  | cons x xs ih => exact (round x s t h).bind fun _ _ => ih

/-- Two branches on the same condition. -/
theorem agrees_ite {α : Type} {R : α → α → Prop} {p q : Prop} [Decidable p] [Decidable q]
    {a b c d : α} (hpq : p ↔ q) (hthen : p → R a c) (helse : ¬ p → R b d) :
    R (if p then a else b) (if q then c else d) := by
  by_cases hp : p
  · rw [if_pos hp, if_pos (hpq.mp hp)]
    exact hthen hp
  · rw [if_neg hp, if_neg (mt hpq.mpr hp)]
    exact helse hp

theorem input_agrees {s t : State} (h : SameJob s t) : input s = input t := by
  apply List.ext_getElem?
  intro i
  by_cases hi : i < s.inLen.toNat
  · rw [input_getElem? s i hi, input_getElem? t i (h.inLen ▸ hi), h.bytes i hi]
  · rw [List.getElem?_eq_none (by simpa using hi), List.getElem?_eq_none (by simpa [← h.inLen] using hi)]

/-- Bytes within the input read the same in both states. -/
theorem readRange_agrees {s t : State} (h : SameJob s t) (start n : Nat)
    (hn : start + n ≤ s.inLen.toNat) : readRange s start n = readRange t start n := by
  induction n generalizing start with
  | zero => rfl
  | succ n ih => simp only [readRange, h.bytes start (by omega), ih (start + 1) (by omega)]

theorem SameBytes.zero (m m' : Memory) : SameBytes 0 m m' := fun _ h => absurd h (Nat.not_lt_zero _)

/-- The same byte written next in both buffers. -/
theorem SameBytes.put {n : Nat} {m m' : Memory} (h : SameBytes n m m') (b : Byte) :
    SameBytes (n + 1) (Table.put m n b) (Table.put m' n b) := by
  intro a ha
  rw [Table.find?_put, Table.find?_put]
  split
  · exact ⟨b, rfl, rfl⟩
  · exact h a (by omega)

/-- `emit` of the same byte: both states write it, which must keep `R`, or both raise OUT_RANGE. -/
theorem emit_agrees {R : State → State → Prop} {s t : State} (h : SameOutput s t) (v : Byte)
    (hR : ∀ opos obuf obuf', SameBytes opos.toNat obuf obuf' →
      R { s with obuf := obuf, opos := opos } { t with obuf := obuf', opos := opos }) :
    FlowAgrees R (emit v s) (emit v t) := by
  by_cases room : s.opos.toNat < s.obufCap.toNat
  · rw [emit_room v s room, emit_room v t (by rwa [← h.opos, ← h.obufCap]), ← h.opos]
    exact .go (hR _ _ _ (by rw [opos_succ s room]; exact h.out.put v))
  · rw [emit_full v s (by omega), emit_full v t (by rw [← h.opos, ← h.obufCap]; omega)]
    exact .abort _ h.script h.script'

/-! ### What the tree builder shares -/

/-- Two arena entries agree in the fields their kind uses, and children lie below `n`. -/
def SameNode (n : Nat) (x y : Node) : Prop :=
  (x.kind = .leaf ∧ y.kind = .leaf ∧ x.sym = y.sym) ∨
  (x.kind = .internal ∧ y.kind = .internal ∧ x.left = y.left ∧ x.right = y.right ∧
    x.left.toNat < n ∧ x.right.toNat < n)

theorem SameNode.mono {n n' : Nat} {x y : Node} (hn : n ≤ n') (h : SameNode n x y) :
    SameNode n' x y :=
  h.imp_right fun ⟨hx, hy, hl, hr, bl, br⟩ => ⟨hx, hy, hl, hr, by omega, by omega⟩

/-- The entries below `n` agree in both arenas. -/
def SameShape (n : Nat) (a b : Table Node) : Prop :=
  ∀ i, i < n → SameNode n (nodeAt a i) (nodeAt b i)

/-- Arenas that agree below `n` hold the same trees there. -/
theorem treeOf_agrees {n : Nat} {a b : Table Node} (h : SameShape n a b) (fuel i : Nat) (hi : i < n) :
    treeOf a fuel i = treeOf b fuel i := by
  induction fuel generalizing i with
  | zero => rfl
  | succ fuel ih =>
    rcases h i hi with ⟨hx, hy, hs⟩ | ⟨hx, hy, hl, hr, bl, br⟩
    · rw [treeOf, treeOf, hx, hy, hs]
    · rw [treeOf, treeOf, hx, hy, ih _ bl, ih _ br, hl, hr]

/-! ### The heap under two orders that agree on its entries -/

/-- The two orders agree on the entries of `h`. -/
def SameOrder (lt lt' : Index → Index → Bool) (h : List Index) : Prop :=
  ∀ x ∈ h, ∀ y ∈ h, lt x y = lt' x y

theorem SameOrder.perm {lt lt' : Index → Index → Bool} {h h' : List Index}
    (o : SameOrder lt lt' h) (p : h'.Perm h) : SameOrder lt lt' h' :=
  fun x hx y hy => o x (p.mem_iff.mp hx) y (p.mem_iff.mp hy)

theorem heapAt_mem {h : List Index} {i : Nat} (hi : i < h.length) : heapAt h i ∈ h := by
  simp [heapAt, List.getD_eq_getElem?_getD, hi]

theorem SameOrder.heapAt {lt lt' : Index → Index → Bool} {h : List Index} (o : SameOrder lt lt' h)
    {i j : Nat} (hi : i < h.length) (hj : j < h.length) :
    lt (heapAt h i) (heapAt h j) = lt' (heapAt h i) (heapAt h j) :=
  o _ (heapAt_mem hi) _ (heapAt_mem hj)

theorem siftUp_agrees {lt lt' : Index → Index → Bool} (fuel : Nat) {h : List Index} {i : Nat}
    (o : SameOrder lt lt' h) (hi : i < h.length) : siftUp lt fuel h i = siftUp lt' fuel h i := by
  induction fuel generalizing h i with
  | zero => rfl
  | succ fuel ih =>
    have hp : (i - 1) / 2 < h.length := by omega
    simp only [siftUp]
    rw [o.heapAt hi hp, ih (o.perm (heapSwap_perm h i _ hi hp)) (by rwa [heapSwap_length])]

theorem leastChild_agrees {lt lt' : Index → Index → Bool} {h : List Index} {i : Nat}
    (o : SameOrder lt lt' h) (hi : i < h.length) : leastChild lt h i = leastChild lt' h i := by
  have first : (decide (2 * i + 1 < h.length) && lt (heapAt h (2 * i + 1)) (heapAt h i)) =
      (decide (2 * i + 1 < h.length) && lt' (heapAt h (2 * i + 1)) (heapAt h i)) := by
    by_cases hl : 2 * i + 1 < h.length
    · rw [o.heapAt hl hi]
    · simp [hl]
  have second : ∀ j, j < h.length →
      (decide (2 * i + 2 < h.length) && lt (heapAt h (2 * i + 2)) (heapAt h j)) =
      (decide (2 * i + 2 < h.length) && lt' (heapAt h (2 * i + 2)) (heapAt h j)) := by
    intro j hj
    by_cases hr : 2 * i + 2 < h.length
    · rw [o.heapAt hr hj]
    · simp [hr]
  simp only [leastChild]
  rw [first, second]
  split
  · rename_i left
    exact of_decide_eq_true (Bool.and_eq_true_iff.mp left).1
  · exact hi

theorem siftDown_agrees {lt lt' : Index → Index → Bool} (fuel : Nat) {h : List Index} {i : Nat}
    (o : SameOrder lt lt' h) (hi : i < h.length) : siftDown lt fuel h i = siftDown lt' fuel h i := by
  induction fuel generalizing h i with
  | zero => rfl
  | succ fuel ih =>
    have hc := leastChild_lt lt h i hi
    simp only [siftDown]
    rw [← leastChild_agrees o hi,
      ih (o.perm (heapSwap_perm h i _ hi hc)) (by rwa [heapSwap_length])]

theorem heapInsert_agrees {lt lt' : Index → Index → Bool} {n : Index} {h : List Index}
    (o : SameOrder lt lt' (n :: h)) : heapInsert lt n h = heapInsert lt' n h :=
  siftUp_agrees _ (o.perm (List.perm_append_comm (l₂ := [n]))) (by simp)

theorem heapExtract_agrees {lt lt' : Index → Index → Bool} {h : List Index}
    (o : SameOrder lt lt' h) : heapExtract lt h = heapExtract lt' h := by
  cases h with
  | nil => rfl
  | cons m rest =>
    rw [heapExtract_cons, heapExtract_cons]
    cases hl : rest.getLast? with
    | none => rfl
    | some x =>
      have hx : x ∈ rest := List.mem_of_getLast? hl
      have sub : SameOrder lt lt' (x :: rest.dropLast) := by
        have mem : ∀ y ∈ x :: rest.dropLast, y ∈ m :: rest := by
          intro y hy
          rcases List.mem_cons.mp hy with rfl | hy
          · exact List.mem_cons_of_mem _ hx
          · exact List.mem_cons_of_mem _ (List.dropLast_subset _ hy)
        exact fun y hy z hz => o y (mem y hy) z (mem z hz)
      simp only [siftDown_agrees rest.length sub (by simp : 0 < (x :: rest.dropLast).length)]

/-- Arenas with equal weights below `n` order the indexes below `n` alike (R171). -/
theorem less_agrees {n : Nat} {a b : Table Node} {h : List Index}
    (hw : ∀ i, i < n → (nodeAt a i).w = (nodeAt b i).w) (hh : ∀ x ∈ h, x.toNat < n) :
    SameOrder (less a) (less b) h := by
  intro x hx y hy
  simp only [less, hw _ (hh x hx), hw _ (hh y hy)]

end Sys2Proof.Machine
end

section
/-! SUPPORT. COMPRESS in two states side by side: what each phase keeps in agreement. -/

namespace Sys2Proof.Machine

/-- After FCOUNT: the same frequencies. -/
structure SameCounts (s t : State) : Prop extends SameOutput s t where
  freq : s.freq = t.freq

theorem SameCounts.freqAt {s t : State} (h : SameCounts s t) (i : Nat) : freqAt s i = freqAt t i := by
  simp only [Machine.freqAt, h.freq]

/-- Some symbol occurs. -/
def SomeSymbol (n : Nat) (s : State) : Prop := ∃ i, i < n ∧ 0 < freqAt s i

theorem countByte_agrees {s t : State} (h : SameCounts s t) (b : Byte) :
    SameCounts (countByte s b) (countByte t b) :=
  { h with freq := by simp only [countByte_freq, h.freq, h.freqAt] }

/-- FCOUNT's round leaves its own byte with a count. -/
theorem someSymbol_countByte (s : State) (b : Byte) : SomeSymbol Config.alphaMax (countByte s b) :=
  ⟨b.toNat, b.isLt, by simp [freqAt, countByte]⟩

theorem countBytes_agree (bytes : List Byte) {s t : State} (h : SameCounts s t) :
    SameCounts (bytes.foldl countByte s) (bytes.foldl countByte t) :=
  List.foldl_rel h fun b _ _ _ h => countByte_agrees h b

theorem someSymbol_countBytes {bytes : List Byte} (hne : bytes ≠ []) (s : State) :
    SomeSymbol Config.alphaMax (bytes.foldl countByte s) := by
  obtain ⟨init, b, rfl⟩ := (List.eq_nil_or_concat' bytes).resolve_left hne
  rw [List.foldl_append]
  exact someSymbol_countByte _ b

theorem alphabetSize_agrees {s t : State} (h : SameCounts s t) : alphabetSize s = alphabetSize t := by
  simp only [alphabetSize, h.freqAt]

/-- In HINIT: the same leaves so far, and the same queue of exactly these. -/
structure SameLeaves (s t : State) : Prop extends SameCounts s t where
  k : s.k = t.k
  nn : s.nn = t.nn
  heap : s.heap = t.heap
  queued : s.heap.length = s.nn.toNat
  below : ∀ x ∈ s.heap, x.toNat < s.nn.toNat
  leaf : ∀ i, i < s.nn.toNat → (nodeAt s.arena i).kind = .leaf ∧ (nodeAt t.arena i).kind = .leaf ∧
    (nodeAt s.arena i).sym = (nodeAt t.arena i).sym
  weight : ∀ i, i < s.nn.toNat → (nodeAt s.arena i).w = (nodeAt t.arena i).w

/-- `insert` of the new entry `n` under the two arenas, which agree in weight up to it. -/
theorem heapInsert_next {n : Nat} {a b : Table Node} {x : Index} {h : List Index}
    (hw : ∀ i, i < n + 1 → (nodeAt a i).w = (nodeAt b i).w) (hx : x.toNat = n)
    (hh : ∀ y ∈ h, y.toNat < n) :
    heapInsert (less a) x h = heapInsert (less b) x h ∧
    ∀ y ∈ heapInsert (less a) x h, y.toNat < n + 1 := by
  have below : ∀ y ∈ x :: h, y.toNat < n + 1 := by
    intro y hy
    rcases List.mem_cons.mp hy with rfl | hy
    · omega
    · have := hh y hy
      omega
  exact ⟨heapInsert_agrees (less_agrees hw below),
    fun y hy => below y ((heapInsert_perm _ x h).mem_iff.mp hy)⟩

theorem hinitSymbol_agrees {s t : State} (h : SameLeaves s t) (room : s.nn.toNat < Config.alphaMax)
    (i : Nat) : SameLeaves (hinitSymbol s i) (hinitSymbol t i) := by
  by_cases hf : 0 < freqAt s i
  · obtain ⟨a, q, es, ak, as, aw, ao, rfl⟩ := hinitSymbol_present s i hf
    obtain ⟨b, q', et, bk, bs, bw, bo, rfl⟩ := hinitSymbol_present t i (h.freqAt i ▸ hf)
    have hroom : s.nn.toNat ≤ Config.nodeCap := Nat.le_trans (Nat.le_of_lt room) (by decide)
    have hnn := nn_succ s hroom
    have hx := nextIndex_toNat s hroom
    have hy : nextIndex t = nextIndex s := by simp only [nextIndex, h.nn]
    rw [hy, hx] at bk bs bw bo
    rw [hx] at ak as aw ao
    have hw : ∀ j, j < s.nn.toNat + 1 → (nodeAt a j).w = (nodeAt b j).w := by
      intro j hj
      by_cases hlast : j = s.nn.toNat
      · rw [hlast, aw, bw, h.freqAt]
      · rw [ao j hlast, bo j hlast, h.weight j (by omega)]
    obtain ⟨hq, hb⟩ := heapInsert_next hw hx h.below
    rw [es, et]
    exact
      { h with
        nn := by simp only [h.nn]
        heap := by simp only [hy, ← h.heap, hq]
        queued := by simp only [heapInsert_length, hnn, h.queued]
        below := by simpa only [hnn] using hb
        leaf := by
          simp only [hnn]
          intro j hj
          by_cases hlast : j = s.nn.toNat
          · rw [hlast, ak, bk, as, bs]
            exact ⟨rfl, rfl, rfl⟩
          · rw [ao j hlast, bo j hlast]
            exact h.leaf j (by omega)
        weight := by simpa only [hnn] using hw }
  · rw [hinitSymbol_absent s i (by omega), hinitSymbol_absent t i (by rw [← h.freqAt]; omega)]
    exact h

/-- FREQ after HINIT's loop. -/
theorem freqAt_hinitSymbols (is : List Nat) (s : State) (i : Nat) :
    freqAt (is.foldl hinitSymbol s) i = freqAt s i := by
  obtain ⟨arena, nn, heap, h⟩ := hinitSymbol_foldl_frame is s
  rw [h]
  rfl

/-- HINIT's loop over the first `n` symbols: the same leaves, at most `n`, and one if a symbol occurs. -/
theorem hinitSymbols_agree {n : Nat} (hn : n ≤ Config.alphaMax) {s t : State} (h : SameLeaves s t)
    (h0 : s.nn = 0#10) :
    SameLeaves ((List.range n).foldl hinitSymbol s) ((List.range n).foldl hinitSymbol t) ∧
    ((List.range n).foldl hinitSymbol s).nn.toNat ≤ n ∧
    (SomeSymbol n s → 1 ≤ ((List.range n).foldl hinitSymbol s).nn.toNat) := by
  induction n with
  | zero => exact ⟨h, by simp [h0], fun ⟨i, hi, _⟩ => absurd hi (Nat.not_lt_zero i)⟩
  | succ n ih =>
    obtain ⟨hs, hle, hpos⟩ := ih (by omega)
    simp only [List.range_succ, List.foldl_append, List.foldl_cons, List.foldl_nil]
    refine ⟨hinitSymbol_agrees hs (by omega) n, ?_⟩
    by_cases hf : 0 < freqAt ((List.range n).foldl hinitSymbol s) n
    · obtain ⟨a, q, e, _⟩ := hinitSymbol_present _ n hf
      have hnn := nn_succ ((List.range n).foldl hinitSymbol s)
        (Nat.le_trans (by omega : _ ≤ Config.alphaMax) (by decide))
      rw [e]
      simp only [hnn]
      exact ⟨by omega, fun _ => by omega⟩
    · rw [hinitSymbol_absent _ n (by omega)]
      rw [freqAt_hinitSymbols] at hf
      refine ⟨by omega, fun ⟨i, hi, hfi⟩ => hpos ⟨i, ?_, hfi⟩⟩
      have : i ≠ n := fun h => hf (h ▸ hfi)
      omega

/-- In HMERGE: the same entries below NN and the same queue of some of these, with room for the new
entries. -/
structure SameQueue (s t : State) : Prop extends SameCounts s t where
  nn : s.nn = t.nn
  heap : s.heap = t.heap
  nonempty : 1 ≤ s.heap.length
  room : s.nn.toNat + s.heap.length ≤ Config.nodeCap + 1
  below : ∀ x ∈ s.heap, x.toNat < s.nn.toNat
  shape : SameShape s.nn.toNat s.arena t.arena
  weight : ∀ i, i < s.nn.toNat → (nodeAt s.arena i).w = (nodeAt t.arena i).w

theorem SameLeaves.toSameQueue {s t : State} (h : SameLeaves s t) (one : 1 ≤ s.nn.toNat)
    (le : s.nn.toNat ≤ Config.alphaMax) : SameQueue s t :=
  { h with
    nonempty := h.queued ▸ one
    room := by
      have := h.queued
      simp only [Config.alphaMax, Config.nodeCap] at *
      omega
    shape := fun i hi => .inl (h.leaf i hi) }

theorem mergeOnce_agrees {s t : State} (h : SameQueue s t) (two : 1 < s.heap.length) :
    SameQueue (mergeOnce s) (mergeOnce t) := by
  have hroom : s.nn.toNat ≤ Config.nodeCap := by have := h.room; omega
  have hlen := mergeOnce_length s two
  have hnn := nn_succ s hroom
  have hx := nextIndex_toNat s hroom
  have hy : nextIndex t = nextIndex s := by simp only [nextIndex, h.nn]
  obtain ⟨l, r, q1, q2, a, q, e1, e2, es, ak, al, ar, aw, ao, rfl⟩ := mergeOnce_two s two
  obtain ⟨l', r', q1', q2', b, q', e1', e2', et, bk, bl, br, bw, bo, rfl⟩ :=
    mergeOnce_two t (h.heap ▸ two)
  have p1 := heapExtract_perm _ _ _ _ e1
  have below1 : ∀ x ∈ l :: q1, x.toNat < s.nn.toNat := fun x hx => h.below x (p1.mem_iff.mpr hx)
  obtain ⟨hl, below1⟩ := List.forall_mem_cons.mp below1
  have p2 := heapExtract_perm _ _ _ _ e2
  have below2 : ∀ x ∈ r :: q2, x.toNat < s.nn.toNat := fun x hx => below1 x (p2.mem_iff.mpr hx)
  obtain ⟨hr, below2⟩ := List.forall_mem_cons.mp below2
  rw [← h.heap, ← heapExtract_agrees (less_agrees h.weight h.below), e1] at e1'
  cases e1'
  rw [← heapExtract_agrees (less_agrees h.weight below1), e2] at e2'
  cases e2'
  rw [hy, hx] at bk bl br bw bo
  rw [hx] at ak al ar aw ao
  have hw : ∀ j, j < s.nn.toNat + 1 → (nodeAt a j).w = (nodeAt b j).w := by
    intro j hj
    by_cases hlast : j = s.nn.toNat
    · rw [hlast, aw, bw, h.weight _ hl, h.weight _ hr]
    · rw [ao j hlast, bo j hlast, h.weight j (by omega)]
  obtain ⟨hq, hb⟩ := heapInsert_next hw hx below2
  rw [es] at hlen ⊢
  rw [et]
  exact
    { h with
      nn := by simp only [h.nn]
      heap := by simp only [hq, hy]
      nonempty := by simp
      room := by have := h.room; simp only [hnn] at hlen ⊢; omega
      below := by simpa only [hnn] using hb
      shape := by
        simp only [hnn]
        intro j hj
        by_cases hlast : j = s.nn.toNat
        · rw [hlast]
          exact .inr ⟨ak, bk, by rw [al, bl], by rw [ar, br], by rw [al]; omega, by rw [ar]; omega⟩
        · rw [ao j hlast, bo j hlast]
          exact (h.shape j (by omega)).mono (by omega)
      weight := by simpa only [hnn] using hw }

theorem mergeLoop_agrees (n : Nat) {s t : State} (h : SameQueue s t) :
    SameQueue (mergeLoop n s) (mergeLoop n t) := by
  induction n generalizing s t with
  | zero => exact h
  | succ n ih =>
    unfold mergeLoop
    rw [← h.heap]
    split
    · rename_i two
      exact ih (mergeOnce_agrees h two)
    · exact h

/-- After HMERGE or HWRAP: the same tree, with the same number of entries. -/
structure SameTree (s t : State) : Prop extends SameCounts s t where
  nn : s.nn = t.nn
  tree : rootTree s = rootTree t

/-- ROOT taken from a queue of one entry. -/
theorem takeRoot_agrees {s t : State} (h : SameQueue s t) (one : s.heap.length = 1) :
    SameTree (takeRoot s) (takeRoot t) := by
  obtain ⟨m, hm⟩ := List.length_eq_one_iff.mp one
  rw [takeRoot_one s m hm, takeRoot_one t m (h.heap ▸ hm)]
  exact { h with tree := treeOf_agrees h.shape _ _ (h.below m (by simp [hm])) }

/-- In CGEN and SIZE: the same code book. CB_BITS may differ beyond the codes. -/
structure SameBook (s t : State) : Prop extends SameTree s t where
  inv : s.inv = t.inv
  cbLen : s.cbLen = t.cbLen
  codes : ∀ i, codeOf s i = codeOf t i

theorem recordLeaf_agrees (e : List Bool × Byte) {s t : State} (h : SameBook s t) :
    FlowAgrees SameBook (recordLeaf e s) (recordLeaf e t) := by
  have hlen : ∀ i, cbLenAt s i = cbLenAt t i := fun i => by simp only [cbLenAt, h.cbLen]
  unfold recordLeaf
  rw [← h.inv]
  split
  · exact .abort _ h.script h.script'
  · simp only
    rw [show cbLenAt { t with inv := s.inv ++ [e] } e.2.toNat =
      cbLenAt { s with inv := s.inv ++ [e] } e.2.toNat from (hlen _).symm]
    split
    · refine .go { h with inv := rfl, cbLen := by simp only [h.cbLen], codes := fun i => ?_ }
      have hi := h.codes i
      simp only [codeOf, cbBitsAt, cbLenAt, Table.get_put] at hi ⊢
      split
      · rfl
      · exact hi
    · exact .go { h with inv := rfl }

/-- From SIZE on: the same code book and the same BITLEN. -/
structure SameCoding (s t : State) : Prop extends SameOutput s t where
  bitlen : s.bitlen = t.bitlen
  codes : ∀ i, codeOf s i = codeOf t i

theorem emitAll_agrees (bytes : List Byte) {s t : State} (h : SameCoding s t) :
    FlowAgrees SameCoding (emitAll bytes s) (emitAll bytes t) :=
  FlowAgrees.each (fun b _ _ h => emit_agrees h.toSameOutput b fun _ _ _ out =>
    { h with opos := rfl, out := out }) bytes h

/-- In ENCODE and FLUSH: the same code book and the same bits in the packer. -/
structure SamePacking (s t : State) : Prop extends SameOutput s t where
  codes : ∀ i, codeOf s i = codeOf t i
  acc : s.acc = t.acc
  accN : s.accN = t.accN

theorem putBit_agrees (b : Bool) {s t : State} (h : SamePacking s t) :
    FlowAgrees SamePacking (putBit b s) (putBit b t) := by
  unfold putBit
  simp only [← h.acc, ← h.accN]
  split
  · generalize s.acc ||| ((BitVec.ofBool b).setWidth 8 <<< (7 - s.accN.toNat)) = acc
    have filled : SamePacking { s with acc := acc } { t with acc := acc, accN := s.accN } :=
      { h with acc := rfl, accN := rfl }
    exact (emit_agrees (R := SamePacking) filled.toSameOutput acc fun _ _ _ out =>
      { filled with opos := rfl, out := out }).bind fun _ _ hu =>
        .go { hu with acc := rfl, accN := rfl }
  · exact .go { h with acc := rfl, accN := rfl }

theorem encodeByte_agrees (b : Byte) {s t : State} (h : SamePacking s t) :
    FlowAgrees SamePacking (encodeByte b s) (encodeByte b t) := by
  unfold encodeByte
  rw [← h.codes]
  exact FlowAgrees.each putBit_agrees _ { h with }

end Sys2Proof.Machine
end

section
/-! SUPPORT. DECOMPRESS in two states side by side: the tree TDES builds and the walk of it. -/

namespace Sys2Proof.Machine

/-- The indexes a frame of STACK holds lie below `n`. -/
def Frame.Below (n : Nat) : Frame → Prop
  | .left i => i.toNat < n
  | .right i l => i.toNat < n ∧ l.toNat < n

theorem Frame.Below.mono {n n' : Nat} (hn : n ≤ n') {f : Frame} (h : f.Below n) : f.Below n' := by
  cases f with
  | left i => exact Nat.lt_of_lt_of_le h hn
  | right i l => exact ⟨Nat.lt_of_lt_of_le h.1 hn, Nat.lt_of_lt_of_le h.2 hn⟩

/-- In TDES, with the subtrees of `pending` still open: the same entries below NN, except that the
children of an open entry are not written yet. -/
structure SameParse (pending : List Frame) (s t : State) : Prop extends SameOutput s t where
  nn : s.nn = t.nn
  fits : s.nn.toNat ≤ Config.nodeCap
  ipos : s.ipos = t.ipos
  below : ∀ f ∈ pending, f.Below s.nn.toNat
  shape : ∀ i, i < s.nn.toNat → SameNode s.nn.toNat (nodeAt s.arena i) (nodeAt t.arena i) ∨
    ((nodeAt s.arena i).kind = .internal ∧ (nodeAt t.arena i).kind = .internal ∧
      ∃ f ∈ pending, f.node.toNat = i)

/-- After a LEAF token: the same subtrees pending, or the same ROOT when none is. -/
structure SameParsed (s t : State) : Prop extends SameParse s.stack s t where
  stack : s.stack = t.stack
  root : s.stack = [] → s.root = t.root ∧ s.root.toNat < s.nn.toNat

/-- A parent gets its two children: its entry agrees from now on, the others as before. -/
theorem SameParse.link {i l j : Index} {rest : List Frame} {s t : State}
    (h : SameParse (.right i l :: rest) s t) (hj : j.toNat < s.nn.toNat) :
    SameParse rest
      { s with
        arena := Table.put s.arena i.toNat { nodeAt s.arena i.toNat with left := l, right := j } }
      { t with
        arena := Table.put t.arena i.toNat { nodeAt t.arena i.toNat with left := l, right := j } } := by
  obtain ⟨⟨hi, hl⟩, below⟩ := List.forall_mem_cons.mp h.below
  refine { h with below := below, shape := fun a ha => ?_ }
  simp only [nodeAt_put]
  by_cases hai : a = i.toNat
  · simp only [hai, if_true]
    rcases h.shape i.toNat hi with (⟨hx, hy, hs⟩ | ⟨hx, hy, _⟩) | ⟨hx, hy, _⟩
    · exact .inl (.inl ⟨hx, hy, hs⟩)
    · exact .inl (.inr ⟨hx, hy, rfl, rfl, hl, hj⟩)
    · exact .inl (.inr ⟨hx, hy, rfl, rfl, hl, hj⟩)
  · simp only [hai, if_false]
    refine (h.shape a ha).imp_right fun ⟨hx, hy, f, hf, hfa⟩ => ⟨hx, hy, f, ?_, hfa⟩
    exact (List.mem_cons.mp hf).resolve_left fun e => hai (by rw [← hfa, e]; rfl)

theorem completeSubtree_agrees (j : Index) (pending : List Frame) {s t : State}
    (h : SameParse pending s t) (hj : j.toNat < s.nn.toNat) :
    SameParsed (completeSubtree j pending s) (completeSubtree j pending t) := by
  induction pending generalizing j s t with
  | nil => exact { h with stack := rfl, root := fun _ => ⟨rfl, hj⟩ }
  | cons f rest ih =>
    cases f with
    | left i =>
      obtain ⟨hi, below⟩ := List.forall_mem_cons.mp h.below
      refine { h with
        below := List.forall_mem_cons.mpr ⟨⟨hi, hj⟩, below⟩
        shape := fun a ha => (h.shape a ha).imp_right ?_
        stack := rfl
        root := fun e => by cases e }
      rintro ⟨hx, hy, f, hf, hfa⟩
      rcases List.mem_cons.mp hf with rfl | hf
      · exact ⟨hx, hy, .right i j, List.mem_cons_self, hfa⟩
      · exact ⟨hx, hy, f, List.mem_cons_of_mem _ hf, hfa⟩
    | right i l =>
      obtain ⟨⟨hi, _⟩, _⟩ := List.forall_mem_cons.mp h.below
      exact ih i (h.link hj) hi

/-- A new entry that agrees, or whose subtrees are open. -/
theorem SameParse.newEntry {pending pending' : List Frame} {s t : State} {x y : Node} {ipos : Word}
    (h : SameParse pending s t) (room : s.nn.toNat < Config.nodeCap)
    (sub : ∀ f ∈ pending, f ∈ pending') (below : ∀ f ∈ pending', f.Below (s.nn.toNat + 1))
    (new : SameNode (s.nn.toNat + 1) x y ∨
      (x.kind = .internal ∧ y.kind = .internal ∧ ∃ f ∈ pending', f.node.toNat = s.nn.toNat)) :
    SameParse pending'
      { s with
        arena := Table.put s.arena s.nn.toNat x, nn := s.nn + 1#10, stack := pending', ipos := ipos }
      { t with
        arena := Table.put t.arena s.nn.toNat y, nn := s.nn + 1#10, stack := pending', ipos := ipos } := by
  have hnn := nn_succ s (by omega)
  refine { h with
    nn := rfl
    fits := by simp only [hnn]; omega
    ipos := rfl
    below := by simpa only [hnn] using below
    shape := fun a ha => ?_ }
  simp only [hnn, nodeAt_put] at ha ⊢
  by_cases hlast : a = s.nn.toNat
  · simpa only [hlast, if_true] using new
  · simp only [hlast, if_false]
    refine (h.shape a (by omega)).imp (SameNode.mono (by omega)) ?_
    exact fun ⟨hx, hy, f, hf, hfa⟩ => ⟨hx, hy, f, sub f hf, hfa⟩

theorem parseBranch_agrees {s t : State} (hs : s.stack = t.stack) (h : SameParse s.stack s t) :
    FlowAgrees (fun u v => u.stack = v.stack ∧ SameParse u.stack u v) (parseBranch s) (parseBranch t) := by
  by_cases room : s.nn.toNat < Config.nodeCap
  · have hx := nextIndex_toNat s (by omega)
    have hy : nextIndex t = nextIndex s := by simp only [nextIndex, h.nn]
    rw [parseBranch_room s room, parseBranch_room t (h.nn ▸ room), hy, hx, ← h.nn, ← h.ipos, ← hs]
    refine .go ⟨rfl, h.newEntry room (fun f hf => List.mem_cons_of_mem _ hf)
      (List.forall_mem_cons.mpr ⟨?_, fun f hf => (h.below f hf).mono (by omega)⟩) ?_⟩
    · simp only [Frame.Below, hx]
      omega
    · exact .inr ⟨rfl, rfl, _, List.mem_cons_self, hx⟩
  · rw [parseBranch_full s (by omega), parseBranch_full t (by rw [← h.nn]; omega)]
    exact .abort _ h.script h.script'

theorem parseLeaf_agrees (sym : Byte) {s t : State} (hs : s.stack = t.stack)
    (h : SameParse s.stack s t) : FlowAgrees SameParsed (parseLeaf sym s) (parseLeaf sym t) := by
  by_cases room : s.nn.toNat < Config.nodeCap
  · have hx := nextIndex_toNat s (by omega)
    have hy : nextIndex t = nextIndex s := by simp only [nextIndex, h.nn]
    have hnn := nn_succ s (by omega)
    rw [parseLeaf_room sym s room, parseLeaf_room sym t (h.nn ▸ room), hy, hx, ← h.nn, ← h.ipos, ← hs]
    refine .go (completeSubtree_agrees _ _ (h.newEntry room (fun _ => id)
      (fun f hf => (h.below f hf).mono (by omega)) ?_) ?_)
    · exact .inl (.inl ⟨rfl, rfl, rfl⟩)
    · simp only [hnn, hx]
      omega
  · rw [parseLeaf_full sym s (by omega), parseLeaf_full sym t (by rw [← h.nn]; omega)]
    exact .abort _ h.script h.script'

/-- After TDES: the same tree at ROOT, entry by entry, and the input cursor at the same place. -/
structure SameRoot (s t : State) : Prop extends SameOutput s t where
  ipos : s.ipos = t.ipos
  shape : SameShape s.nn.toNat s.arena t.arena
  root : s.root = t.root
  rootBelow : s.root.toNat < s.nn.toNat

/-- With no subtree pending the whole tree agrees. -/
theorem SameParsed.toSameRoot {s t : State} (h : SameParsed s t) (whole : s.stack = []) :
    SameRoot s t :=
  { h with
    shape := fun i hi => (h.shape i hi).resolve_right fun ⟨_, _, f, hf, _⟩ => by
      rw [whole] at hf
      cases hf
    root := (h.root whole).1
    rootBelow := (h.root whole).2 }

theorem parseLoop_agrees (bytes : List Byte) {s t : State} (hs : s.stack = t.stack)
    (h : SameParse s.stack s t) : FlowAgrees SameRoot (parseLoop bytes s) (parseLoop bytes t) := by
  induction bytes using List.twoStepInduction generalizing s t with
  | nil => exact .abort _ h.script h.script'
  | singleton m =>
    simp only [parseLoop]
    split
    · rw [← h.nn]
      exact .abort _ h.script h.script'
    · split
      · exact (parseBranch_agrees hs h).bind fun _ _ ⟨_, h⟩ => .abort _ h.script h.script'
      · exact .abort _ h.script h.script'
  | cons_cons m sym rest ih0 ih1 =>
    simp only [parseLoop]
    split
    · refine (parseLeaf_agrees sym hs h).bind fun u v h => ?_
      rw [← h.stack]
      split
      · exact .go (h.toSameRoot ‹_›)
      · exact ih0 h.stack h.toSameParse
    · split
      · exact (parseBranch_agrees hs h).bind fun _ _ ⟨hs, h⟩ => ih1 sym hs h
      · exact .abort _ h.script h.script'

/-- After RDLEN: the same BITLEN, the input cursor within the input. -/
structure SameLength (s t : State) : Prop extends SameRoot s t where
  bitlen : s.bitlen = t.bitlen
  inside : s.ipos.toNat ≤ s.inLen.toNat

/-- After CHKLEN: the payload lies within the input, the same bit of it comes next. -/
structure SamePayload (s t : State) : Prop extends SameLength s t where
  payload : s.ipos.toNat + ceil8 s.bitlen.toNat = s.inLen.toNat
  bitpos : s.bitpos = t.bitpos

/-- In WALK: the walker at the same entry as well. -/
structure SameWalk (s t : State) : Prop extends SamePayload s t where
  cur : s.cur = t.cur
  curBelow : s.cur.toNat < s.nn.toNat

theorem walkBit_agrees (b : Bool) {s t : State} (h : SameWalk s t) :
    FlowAgrees SameWalk (walkBit b s) (walkBit b t) := by
  simp only [walkBit, ← h.cur]
  rcases h.shape _ h.curBelow with ⟨hx, hy, _⟩ | ⟨hx, hy, hl, hr, bl, br⟩
  · rw [hx, hy]
    exact .abort _ h.script h.script'
  · rw [hx, hy, ← hl, ← hr]
    simp only
    have hnext : (if b then (nodeAt s.arena s.cur.toNat).right
        else (nodeAt s.arena s.cur.toNat).left).toNat < s.nn.toNat := by
      cases b <;> assumption
    generalize (if b then (nodeAt s.arena s.cur.toNat).right
      else (nodeAt s.arena s.cur.toNat).left) = next at hnext ⊢
    have moved : SameWalk { s with bitpos := s.bitpos + 1#64, cur := next }
        { t with bitpos := t.bitpos + 1#64, cur := next } :=
      { h with bitpos := by simp only [h.bitpos], cur := rfl, curBelow := hnext }
    rcases h.shape _ hnext with ⟨nx, ny, ns⟩ | ⟨nx, ny, _⟩
    · rw [nx, ny, ns]
      exact (emit_agrees (R := SameWalk) moved.toSameOutput _ fun _ _ _ out =>
        { moved with opos := rfl, out := out }).bind fun _ _ hu =>
          .go { hu with cur := hu.root, curBelow := hu.rootBelow }
    · rw [nx, ny]
      exact .go moved

/-- The byte of a payload bit lies within the input. -/
theorem payloadByteAt_agrees {s t : State} (h : SameWalk s t) (hb : s.bitpos.toNat < s.bitlen.toNat) :
    payloadByteAt s = payloadByteAt t := by
  have := ceil8_bounds s.bitlen.toNat
  have := h.payload
  unfold payloadByteAt
  rw [← h.ipos, ← h.bitpos]
  exact h.bytes _ (by omega)

theorem walkLoop_agrees (n : Nat) {s t : State} (h : SameWalk s t)
    (hn : s.bitpos.toNat + n ≤ s.bitlen.toNat) : FlowAgrees SameWalk (walkLoop n s) (walkLoop n t) := by
  induction n generalizing s t with
  | zero => exact .go h
  | succ n ih =>
    simp only [walkLoop]
    rw [← payloadByteAt_agrees h (by omega), ← h.bitpos]
    refine (walkBit_agrees _ h).bind_of_go fun u v hu h' => ih h' ?_
    obtain ⟨⟨frame, _⟩, hpos⟩ := (walkBit_frame _ s).1 u hu
    have hlen : u.bitlen = s.bitlen := by rw [frame]
    have := s.bitlen.isLt
    simp only [hpos, hlen, BitVec.toNat_add, BitVec.toNat_ofNat]
    omega

end Sys2Proof.Machine
end

section
/-! SUPPORT. Every phase in two states side by side, and runs of phases. -/

namespace Sys2Proof.Machine

/-- What two states agree on when a phase begins: of the working state only what the phase and its
successors read before they write it (R45). -/
def Live : Phase → State → State → Prop
  | .idle, _, _ => False
  | .check, s, t => SameJob s t
  | .empty, s, t => SameOutput s t
  | .fcount, s, t => SameOutput s t ∧ s.inLen ≠ 0#32
  | .hinit, s, t => SameCounts s t ∧ s.k = t.k ∧ SomeSymbol Config.alphaMax s
  | .hmerge, s, t => SameQueue s t
  | .hwrap, s, t => SameLeaves s t ∧ 1 ≤ s.nn.toNat
  | .cgen, s, t => SameTree s t
  | .size, s, t => SameBook s t
  | .tser, s, t => SameCoding s t ∧ rootTree s = rootTree t
  | .hdr, s, t => SameCoding s t
  | .encode, s, t => SameCoding s t
  | .flush, s, t => SamePacking s t
  | .dhead, s, t => SameOutput s t
  | .tdes, s, t => SameOutput s t
  | .delim, s, t => SameRoot s t
  | .rdlen, s, t => SameRoot s t ∧ s.ipos.toNat ≤ s.inLen.toNat
  | .chklen, s, t => SameLength s t
  | .walk, s, t => SamePayload s t ∧ s.bitpos = 0#64
  | .wend, s, t => SameWalk s t
  | .finish, s, t => SameOutput s t

theorem Live.sameJob {p : Phase} {s t : State} (h : Live p s t) : SameJob s t := by
  cases p
  case idle => exact h.elim
  case check => exact h
  case fcount => exact h.1.toSameJob
  case hinit => exact h.1.toSameJob
  case hwrap => exact h.1.toSameJob
  case tser => exact h.1.toSameJob
  case rdlen => exact h.1.toSameJob
  case walk => exact h.1.toSameJob
  all_goals exact h.toSameJob

/-- Two states at the same point of the same command, or after the same end of it. -/
inductive Agree (s t : State) : Prop where
  | running (p : Phase) (hs : s.phase = p) (ht : t.phase = p) (live : Live p s t)
  | ended (h : SameEnd s t)

/-- Two steps end in states that agree, or both stop for the same reason. -/
inductive OutcomeAgrees :
    Host.Outcome State Fault Refusal → Host.Outcome State Fault Refusal → Prop where
  | next {s t : State} (h : Agree s t) : OutcomeAgrees (.next s) (.next t)
  | fault (f : Fault) : OutcomeAgrees (.fault f) (.fault f)
  | refused (r : Refusal) : OutcomeAgrees (.refused r) (.refused r)

theorem OutcomeAgrees.agree {s t : State} (h : OutcomeAgrees (.next s) (.next t)) : Agree s t := by
  cases h
  assumption

/-- Both commands go on with phase `p`. -/
theorem OutcomeAgrees.running (p : Phase) {s t : State} (hs : s.phase = p) (ht : t.phase = p)
    (live : Live p s t) : OutcomeAgrees (.next s) (.next t) := .next (.running p hs ht live)

/-- Both commands go on with phase `p`, at the end of a flow. -/
theorem FlowAgrees.running (p : Phase) {s t : State} (hs : s.phase = p) (ht : t.phase = p)
    (live : Live p s t) : FlowAgrees Agree (.go s) (.go t) := .go (.running p hs ht live)

/-- The same error raised in both states. -/
theorem raise_agrees (e : ErrInfo) {s t : State} (hs : s.script = []) (ht : t.script = []) :
    OutcomeAgrees (.next (raise e s)) (.next (raise e t)) :=
  .next <| .ended ⟨by simp, hs, ht, rfl, rfl, rfl, rfl, by simp⟩

/-- A flow at the end of its phase. -/
theorem FlowAgrees.outcome {f g : Flow} (h : FlowAgrees Agree f g) :
    OutcomeAgrees f.outcome g.outcome := by
  cases h with
  | go h => exact .next h
  | abort e hs ht => exact raise_agrees e hs ht

/-! ### The phases common to both commands -/

theorem execPCheck_agrees {s t : State} (h : SameJob s t) :
    OutcomeAgrees (execPCheck s) (execPCheck t) := by
  have out : ∀ p, SameOutput { s with ipos := 0#32, opos := 0#32, phase := p }
      { t with ipos := 0#32, opos := 0#32, phase := p } :=
    fun p => { h with opos := rfl, out := SameBytes.zero _ _ }
  refine agrees_ite (by rw [h.cmd]) (fun _ => raise_agrees _ h.script h.script') fun _ =>
    agrees_ite (by rw [h.ibufCap, h.inLen]) (fun _ => raise_agrees _ h.script h.script') fun _ => ?_
  by_cases compress : s.cmd = 1#2
  · have compress' : t.cmd = 1#2 := h.cmd ▸ compress
    by_cases empty : s.inLen = 0#32
    · rw [if_pos compress, if_pos empty, if_pos compress', if_pos (h.inLen ▸ empty)]
      exact .running .empty rfl rfl (out .empty)
    · rw [if_pos compress, if_neg empty, if_pos compress', if_neg (h.inLen ▸ empty)]
      exact .running .fcount rfl rfl ⟨out .fcount, empty⟩
  · rw [if_neg compress, if_neg (h.cmd ▸ compress)]
    exact .running .dhead rfl rfl (out .dhead)

theorem execPFinish_agrees {s t : State} (h : SameOutput s t) :
    OutcomeAgrees (execPFinish s) (execPFinish t) := by
  refine .next <| .ended ⟨by simp, h.script, h.script', rfl, h.err, h.errInfo, h.opos, fun _ => ?_⟩
  simp only [result, ← h.opos]
  refine List.map_congr_left fun a ha => ?_
  have ha := List.mem_range.mp ha
  obtain ⟨b, hs, ht⟩ := h.out a ha
  simp only [readOut, Memory.find?_below, if_pos ha, hs, ht, Option.getD_some]

/-! ### COMPRESS -/

theorem execPEmpty_agrees {s t : State} (h : SameOutput s t) :
    OutcomeAgrees (execPEmpty s) (execPEmpty t) :=
  FlowAgrees.outcome <|
    (emit_agrees (R := SameOutput) h _ fun _ _ _ out => { h with opos := rfl, out := out }).bind
      fun _ _ hu => .running .finish rfl rfl { hu with }

theorem execPFcount_agrees {s t : State} (h : SameOutput s t) (hne : s.inLen ≠ 0#32) :
    OutcomeAgrees (execPFcount s) (execPFcount t) := by
  have start : SameCounts { s with freq := [], ipos := 0#32 } { t with freq := [], ipos := 0#32 } :=
    { h with freq := rfl }
  have nonempty : input s ≠ [] := fun h0 =>
    hne (BitVec.eq_of_toNat_eq (by rw [← input_length s, h0]; rfl))
  have counted := countBytes_agree (input s) start
  simp only [execPFcount, ← input_agrees h.toSameJob, ← alphabetSize_agrees counted]
  exact .running .hinit rfl rfl ⟨{ counted with }, rfl, someSymbol_countBytes nonempty _⟩

/-- HINIT after its loop chooses the same successor in both states. -/
theorem hinitDone_agrees {s t : State} (h : SameLeaves s t) (one : 1 ≤ s.nn.toNat)
    (le : s.nn.toNat ≤ Config.alphaMax) :
    Agree { s with phase := if s.k = 1#9 then .hwrap else .hmerge }
      { t with phase := if t.k = 1#9 then .hwrap else .hmerge } := by
  rw [← h.k]
  split
  · exact .running .hwrap rfl rfl ⟨{ h with k := rfl }, one⟩
  · exact .running .hmerge rfl rfl { h.toSameQueue one le with }

theorem execPHinit_agrees {s t : State} (h : SameCounts s t) (hk : s.k = t.k)
    (present : SomeSymbol Config.alphaMax s) : OutcomeAgrees (execPHinit s) (execPHinit t) := by
  have start : SameLeaves { s with nn := 0#10, heap := [] } { t with nn := 0#10, heap := [] } :=
    { h with
      k := hk, nn := rfl, heap := rfl, queued := rfl, below := List.forall_mem_nil _
      leaf := fun i hi => absurd hi (Nat.not_lt_zero i)
      weight := fun i hi => absurd hi (Nat.not_lt_zero i) }
  obtain ⟨leaves, le, pos⟩ := hinitSymbols_agree (Nat.le_refl _) start rfl
  exact .next (hinitDone_agrees leaves (pos present) le)

theorem execPHmerge_agrees {s t : State} (h : SameQueue s t) :
    OutcomeAgrees (execPHmerge s) (execPHmerge t) := by
  have merged := mergeLoop_agrees s.heap.length h
  have one : (mergeLoop s.heap.length s).heap.length = 1 := by
    obtain ⟨_, _, heap, e, _, hlen, _⟩ := mergeLoop_spec s.heap.length s (by omega)
    have := h.nonempty
    rw [e]
    simp only
    omega
  have root := takeRoot_agrees merged one
  simp only [execPHmerge, ← h.heap]
  exact .running .cgen rfl rfl { root with }

/-- The wrapper of HWRAP: entry 1 a copy of the one leaf, entry 2 their parent. -/
theorem execPHwrap_agrees {s t : State} (h : SameLeaves s t) (one : 1 ≤ s.nn.toNat) :
    OutcomeAgrees (execPHwrap s) (execPHwrap t) := by
  obtain ⟨hs, ht, sym⟩ := h.leaf 0 one
  refine .running .cgen rfl rfl { h with nn := rfl, tree := treeOf_agrees (n := 3) ?_ _ 2 (by decide) }
  intro i hi
  simp only [nodeAt_put]
  obtain rfl | rfl | rfl : i = 0 ∨ i = 1 ∨ i = 2 := by omega
  · exact .inl ⟨hs, ht, sym⟩
  · exact .inl ⟨rfl, rfl, sym⟩
  · exact .inr ⟨rfl, rfl, rfl, rfl, (by decide : (0#9).toNat < 3), (by decide : (1#9).toNat < 3)⟩

theorem execPCgen_agrees {s t : State} (h : SameTree s t) :
    OutcomeAgrees (execPCgen s) (execPCgen t) := by
  unfold execPCgen
  rw [← h.tree]
  cases rootTree s with
  | none => exact .fault .noTree
  | some tree =>
    have start : SameBook { s with cbLen := [], inv := [] } { t with cbLen := [], inv := [] } :=
      { h with inv := rfl, cbLen := rfl, codes := fun i => by simp [codeOf, cbLenAt] }
    exact FlowAgrees.outcome <| (FlowAgrees.each recordLeaf_agrees (leaves tree []) start).bind
      fun _ _ hu => .running .size rfl rfl { hu with }

theorem execPSize_agrees {s t : State} (h : SameBook s t) :
    OutcomeAgrees (execPSize s) (execPSize t) := by
  have bits : codedBits s = codedBits t := by simp only [codedBits, h.freqAt, cbLenAt, h.cbLen]
  simp only [execPSize]
  exact agrees_ite (by simp only [artifactBytes, bits, h.obufCap, h.nn])
    (fun _ => raise_agrees _ h.script h.script') fun _ =>
      .running .tser rfl rfl ⟨{ h with bitlen := by simp only [bits] }, h.tree⟩

theorem execPTser_agrees {s t : State} (h : SameCoding s t) (ht : rootTree s = rootTree t) :
    OutcomeAgrees (execPTser s) (execPTser t) := by
  unfold execPTser
  rw [← ht]
  cases rootTree s with
  | none => exact .fault .noTree
  | some tree =>
    exact FlowAgrees.outcome <| (emitAll_agrees (serialize tree) h).bind
      fun _ _ hu => .running .hdr rfl rfl { hu with }

theorem execPHdr_agrees {s t : State} (h : SameCoding s t) :
    OutcomeAgrees (execPHdr s) (execPHdr t) := by
  unfold execPHdr
  rw [← h.bitlen]
  exact FlowAgrees.outcome <| (emitAll_agrees _ h).bind
    fun _ _ hu => .running .encode rfl rfl { hu with }

theorem execPEncode_agrees {s t : State} (h : SameCoding s t) :
    OutcomeAgrees (execPEncode s) (execPEncode t) := by
  have start : SamePacking { s with acc := 0#8, accN := 0#3, ipos := 0#32 }
      { t with acc := 0#8, accN := 0#3, ipos := 0#32 } := { h with acc := rfl, accN := rfl }
  unfold execPEncode
  rw [← input_agrees h.toSameJob]
  exact FlowAgrees.outcome <| (FlowAgrees.each encodeByte_agrees (input s) start).bind
    fun _ _ hu => .running .flush rfl rfl { hu with }

theorem execPFlush_agrees {s t : State} (h : SamePacking s t) :
    OutcomeAgrees (execPFlush s) (execPFlush t) := by
  simp only [execPFlush, ← h.accN, ← h.acc]
  split
  · exact .running .finish rfl rfl { h with }
  · exact FlowAgrees.outcome <| (emit_agrees (R := SameOutput) h.toSameOutput _ fun _ _ _ out =>
      { h with opos := rfl, out := out }).bind fun _ _ hu => .running .finish rfl rfl { hu with }

/-! ### DECOMPRESS -/

theorem execPDhead_agrees {s t : State} (h : SameOutput s t) :
    OutcomeAgrees (execPDhead s) (execPDhead t) := by
  refine agrees_ite (by rw [h.inLen]) (fun _ => raise_agrees _ h.script h.script') fun hne => ?_
  have pos : 0 < s.inLen.toNat := Nat.pos_of_ne_zero fun h0 => hne (BitVec.eq_of_toNat_eq h0)
  refine agrees_ite (by rw [h.bytes 0 pos]) (fun _ => FlowAgrees.outcome ?_) fun _ =>
    .running .tdes rfl rfl { h with }
  exact agrees_ite (by rw [h.inLen]) (fun _ => .abort _ h.script h.script') fun _ =>
    .running .finish rfl rfl { h with }

theorem execPTdes_agrees {s t : State} (h : SameOutput s t) :
    OutcomeAgrees (execPTdes s) (execPTdes t) := by
  have start : SameParse [] (parseStart s) (parseStart t) :=
    { h with
      nn := rfl, fits := Nat.zero_le _, ipos := rfl, below := List.forall_mem_nil _
      shape := fun i hi => absurd hi (Nat.not_lt_zero i) }
  unfold execPTdes
  rw [← input_agrees h.toSameJob]
  have parsed := parseLoop_agrees (input s) (s := parseStart s) (t := parseStart t) rfl start
  refine FlowAgrees.outcome (parsed.bind fun _ _ hu => ?_)
  exact .running .delim rfl rfl { hu with fine := rfl, fine' := rfl }

theorem execPDelim_agrees {s t : State} (h : SameRoot s t) :
    OutcomeAgrees (execPDelim s) (execPDelim t) := by
  simp only [execPDelim, ← h.inLen, ← h.ipos]
  split
  · exact raise_agrees _ h.script h.script'
  · rename_i hle
    have lt : s.ipos.toNat < s.inLen.toNat := by rw [BitVec.le_def] at hle; omega
    rw [← h.bytes _ lt]
    split
    · exact raise_agrees _ h.script h.script'
    · refine .running .rdlen rfl rfl ⟨{ h with ipos := by simp only [passDelim, h.ipos] }, ?_⟩
      have := s.inLen.isLt
      simp only [passDelim, BitVec.toNat_add, BitVec.toNat_ofNat]
      omega

/-- How many bytes follow the input cursor (R294, R295). -/
theorem toNat_sub_of_inside {s : State} (h : s.ipos.toNat ≤ s.inLen.toNat) :
    (s.inLen - s.ipos).toNat = s.inLen.toNat - s.ipos.toNat :=
  BitVec.toNat_sub_of_le (BitVec.le_def.mpr h)

theorem execPRdlen_agrees {s t : State} (h : SameRoot s t) (inside : s.ipos.toNat ≤ s.inLen.toNat) :
    OutcomeAgrees (execPRdlen s) (execPRdlen t) := by
  simp only [execPRdlen, ← h.inLen, ← h.ipos, toNat_sub_of_inside inside]
  split
  · exact raise_agrees _ h.script h.script'
  · rename_i hlen
    simp only [Config.bitlenBytes] at hlen
    rw [← readRange_agrees h.toSameJob _ _ (by simp only [Config.bitlenBytes]; omega)]
    refine .running .chklen rfl rfl
      { h with ipos := by simp only [takeLength, h.ipos], bitlen := rfl, inside := ?_ }
    have := s.inLen.isLt
    simp only [takeLength, Config.bitlenBytes, BitVec.toNat_add, BitVec.toNat_ofNat]
    omega

theorem execPChklen_agrees {s t : State} (h : SameLength s t) :
    OutcomeAgrees (execPChklen s) (execPChklen t) := by
  refine agrees_ite (by rw [h.inLen, h.ipos, h.bitlen]) (fun _ => raise_agrees _ h.script h.script')
    fun hlen => ?_
  rw [toNat_sub_of_inside h.inside, not_not] at hlen
  have inside := h.inside
  exact .running .walk rfl rfl ⟨{ h with payload := by simp only; omega, bitpos := rfl }, rfl⟩

/-- WALK begins at ROOT and at bit 0, as CHKLEN left it. -/
theorem execPWalk_agrees {s t : State} (h : SamePayload s t) (h0 : s.bitpos = 0#64) :
    OutcomeAgrees (execPWalk s) (execPWalk t) := by
  have start : SameWalk { s with cur := s.root } { t with cur := t.root } :=
    { h with cur := h.root, curBelow := h.rootBelow }
  have count : t.bitlen.toNat - t.bitpos.toNat = s.bitlen.toNat - s.bitpos.toNat := by
    rw [h.bitlen, h.bitpos]
  unfold execPWalk
  rw [count]
  have walked := walkLoop_agrees (s.bitlen.toNat - s.bitpos.toNat) start (by simp [h0])
  refine FlowAgrees.outcome (walked.bind fun _ _ hu => ?_)
  exact .running .wend rfl rfl { hu with fine := rfl, fine' := rfl }

theorem execPWend_agrees {s t : State} (h : SameWalk s t) :
    OutcomeAgrees (execPWend s) (execPWend t) :=
  agrees_ite (by rw [h.cur, h.root]) (fun _ => raise_agrees _ h.script h.script') fun _ =>
    .running .finish rfl rfl { h with }

/-! ### Steps -/

/-- The core's turn in two states that agree. -/
theorem phase_agrees {p : Phase} {s t : State} (h : Live p s t) :
    OutcomeAgrees (exec (phaseInstr p) s) (exec (phaseInstr p) t) := by
  cases p <;> simp only [phaseInstr, exec]
  case idle => exact h.elim
  case check => exact execPCheck_agrees h
  case empty => exact execPEmpty_agrees h
  case fcount => exact execPFcount_agrees h.1 h.2
  case hinit =>
    obtain ⟨counts, k, present⟩ := h
    exact execPHinit_agrees counts k present
  case hmerge => exact execPHmerge_agrees h
  case hwrap => exact execPHwrap_agrees h.1 h.2
  case cgen => exact execPCgen_agrees h
  case size => exact execPSize_agrees h
  case tser => exact execPTser_agrees h.1 h.2
  case hdr => exact execPHdr_agrees h
  case encode => exact execPEncode_agrees h
  case flush => exact execPFlush_agrees h
  case dhead => exact execPDhead_agrees h
  case tdes => exact execPTdes_agrees h
  case delim => exact execPDelim_agrees h
  case rdlen => exact execPRdlen_agrees h.1 h.2
  case chklen => exact execPChklen_agrees h
  case walk => exact execPWalk_agrees h.1 h.2
  case wend => exact execPWend_agrees h
  case finish => exact execPFinish_agrees h

/-- A step of the core while BUSY, in phase steps. -/
theorem step_busy {s : State} (hb : s.st = .busy) (hs : s.script = []) (hf : s.fine = false) :
    step s = exec (phaseInstr s.phase) s :=
  step_run ((fetch_nil hs).trans (fetchCore_busy hb hf))

/-- Once a command has ended the core has no step. -/
theorem step_ended {s : State} (hb : s.st ≠ .busy) (hs : s.script = []) : step s = .next s :=
  step_run ((fetch_nil hs).trans (fetchCore_idle hb))

theorem step_agrees {s t : State} (h : Agree s t) : OutcomeAgrees (step s) (step t) := by
  cases h with
  | running p hs ht live =>
    have job := live.sameJob
    rw [step_busy job.busy job.script job.fine, step_busy job.busy' job.script' job.fine', hs, ht]
    exact phase_agrees live
  | ended h =>
    rw [step_ended h.idle h.script, step_ended (h.st ▸ h.idle) h.script']
    exact .next (.ended h)

theorem steps_agree (n : Nat) {s t : State} (h : Agree s t) :
    OutcomeAgrees (steps n s) (steps n t) := by
  induction n generalizing s t with
  | zero => exact .next h
  | succ n ih =>
    have hstep := step_agrees h
    simp only [steps]
    generalize step s = o, step t = o' at hstep
    cases hstep with
    | next h => exact ih h
    | fault f => exact .fault f
    | refused r => exact .refused r

/-- What the host sees of two states that agree. -/
theorem Agree.observed {s t : State} (h : Agree s t) :
    s.st = t.st ∧ s.err = t.err ∧ s.errInfo = t.errInfo ∧ s.outLen = t.outLen ∧
    (s.st = .done → result s = result t) := by
  cases h with
  | running p _ _ live =>
    have job := live.sameJob
    exact ⟨job.busy.trans job.busy'.symm, job.err, job.errInfo, job.outLen, fun hd => by
      rw [job.busy] at hd
      cases hd⟩
  | ended h => exact ⟨h.st, h.err, h.errInfo, h.outLen, h.result⟩

/-- START of one command on one input with one pair of capacities, whatever else the states hold. -/
theorem Started.agree {c : BitVec 2} {s t : State} (hs : Started c s) (ht : Started c t)
    (inLen : s.inLen = t.inLen) (inp : input s = input t) (ibufCap : s.ibufCap = t.ibufCap)
    (obufCap : s.obufCap = t.obufCap) : Agree s t := by
  obtain ⟨⟨busy, check, err, errInfo, outLen, cmd, fine⟩, script⟩ := hs
  obtain ⟨⟨busy', check', err', errInfo', outLen', cmd', fine'⟩, script'⟩ := ht
  refine .running .check check check'
    { busy, busy', script, script', fine, fine', inLen, ibufCap, obufCap
      err := err.trans err'.symm
      errInfo := errInfo.trans errInfo'.symm
      outLen := outLen.trans outLen'.symm
      cmd := cmd.trans cmd'.symm
      bytes := fun a ha => Option.some.inj ?_ }
  rw [← input_getElem? s a ha, ← input_getElem? t a (inLen ▸ ha), inp]

end Sys2Proof.Machine

/-- Settles O59, by running both states side by side: before each phase they agree on what it reads. -/
theorem commandResultIsAFunctionOfItsInput : Obligations.CommandResultIsAFunctionOfItsInput := by
  unfold Obligations.CommandResultIsAFunctionOfItsInput
  intro c s1 s2 h1 h2 inLen inp ibufCap obufCap n t1 t2 e1 e2
  have agree := Sys2Proof.Machine.steps_agree n (h1.agree h2 inLen inp ibufCap obufCap)
  rw [e1, e2] at agree
  exact agree.agree.observed
end

section
/-! SUPPORT. The reset state meets the invariant of the block (R43, R360). -/

namespace Sys2Proof.Machine

variable (ibufCap obufCap : Word)

/-- ST is IDLE and PHASE is P_IDLE, with every status register 0. -/
theorem resetWith_statusCoherent : StatusCoherent (State.resetWith ibufCap obufCap) :=
  ⟨by simp [State.resetWith], fun _ => ⟨rfl, rfl⟩, by simp [State.resetWith], fun _ => rfl⟩

/-- No phase of the tree builder runs after reset. -/
theorem resetWith_builderReady : BuilderReady (State.resetWith ibufCap obufCap) := by
  simp [BuilderReady, State.resetWith]

/-- The arena and STACK are empty after reset. -/
theorem resetWith_arenaFits : ArenaFits (State.resetWith ibufCap obufCap) :=
  ⟨List.forall_mem_nil _, Nat.zero_le _, List.forall_mem_nil _⟩

/-- The invariant holds after reset; what it says of a running command is void there. -/
theorem resetWith_sound : Sound (State.resetWith ibufCap obufCap) :=
  ⟨resetWith_statusCoherent _ _, ⟨rfl, rfl⟩, by simp [CommandFits, State.resetWith],
    by simp [FineCoherent, State.resetWith], resetWith_builderReady _ _, resetWith_arenaFits _ _,
    List.forall_mem_nil _⟩

end Sys2Proof.Machine

/-- Settles O17: the registers by the definition of the reset state, the invariant part by part. -/
theorem resetStateIsSound : Obligations.ResetStateIsSound := by
  unfold Obligations.ResetStateIsSound
  exact ⟨fun ibufCap obufCap => ⟨rfl, rfl, rfl, rfl, rfl, rfl, rfl, fun _ => rfl, fun _ => rfl, rfl, rfl,
    Sys2Proof.Machine.resetWith_sound ibufCap obufCap⟩, 4096#32, 4096#32, rfl⟩
end

section
/-! SUPPORT. The decoder and the encoder are inverse to each other at every place (R22 to R25, R91 to R97,
R135): first the control values and the codes, then the items of the artifact. -/

namespace Sys2Proof

/-! ### Control values (R22, R23) -/

@[simp] theorem joinAction_high (hi : BitVec 30) (lo : BitVec 2) :
    (joinAction hi lo).extractLsb' 2 30 = hi := BitVec.extractLsb'_append_eq_left

@[simp] theorem joinAction_low (hi : BitVec 30) (lo : BitVec 2) :
    (joinAction hi lo).extractLsb' 0 2 = lo := BitVec.extractLsb'_append_eq_right

/-- A word is its bits 31:2 and its bits 1:0. -/
theorem joinAction_extract (v : Word) : joinAction (v.extractLsb' 2 30) (v.extractLsb' 0 2) = v := by
  rw [joinAction, BitVec.extractLsb'_append_extractLsb'_eq_extractLsb' (by rfl)]
  exact BitVec.extractLsb'_eq_self

/-- The four values of two bits. -/
theorem twoBits_cases (c : BitVec 2) : c = 0#2 ∨ c = 1#2 ∨ c = 2#2 ∨ c = 3#2 := by
  revert c; decide

theorem decodeCtrl_cases (v : Word) :
    (v.extractLsb' 0 2 = 0#2 ∧ decodeCtrl v = .ctrlNone (v.extractLsb' 2 30)) ∨
    (v.extractLsb' 0 2 = 1#2 ∧ decodeCtrl v = .start (v.extractLsb' 2 30)) ∨
    (v.extractLsb' 0 2 = 2#2 ∧ decodeCtrl v = .clear (v.extractLsb' 2 30)) ∨
    (v.extractLsb' 0 2 = 3#2 ∧ decodeCtrl v = .ctrlReserved (v.extractLsb' 2 30)) := by
  rcases twoBits_cases (v.extractLsb' 0 2) with h | h | h | h <;> simp [decodeCtrl, h]

theorem decodeCmd_cases (v : Word) :
    (v.extractLsb' 0 2 = 0#2 ∧ decodeCmd v = .cmdReserved0 (v.extractLsb' 2 30)) ∨
    (v.extractLsb' 0 2 = 1#2 ∧ decodeCmd v = .compress (v.extractLsb' 2 30)) ∨
    (v.extractLsb' 0 2 = 2#2 ∧ decodeCmd v = .decompress (v.extractLsb' 2 30)) ∨
    (v.extractLsb' 0 2 = 3#2 ∧ decodeCmd v = .cmdReserved3 (v.extractLsb' 2 30)) := by
  rcases twoBits_cases (v.extractLsb' 0 2) with h | h | h | h <;> simp [decodeCmd, h]

theorem encode_decodeCtrl (v : Word) : encode (decodeCtrl v) = .regWrite offCtrl v := by
  have hv := joinAction_extract v
  rcases decodeCtrl_cases v with ⟨h, e⟩ | ⟨h, e⟩ | ⟨h, e⟩ | ⟨h, e⟩ <;>
    · rw [h] at hv
      rw [e, encode, hv]

theorem encode_decodeCmd (v : Word) : encode (decodeCmd v) = .regWrite offCmd v := by
  have hv := joinAction_extract v
  rcases decodeCmd_cases v with ⟨h, e⟩ | ⟨h, e⟩ | ⟨h, e⟩ | ⟨h, e⟩ <;>
    · rw [h] at hv
      rw [e, encode, hv]

/-! ### Codes (R24, R135, R320, R321) -/

/-- A code that a table lists is the code of the entry found. -/
theorem code_of_find {α : Type} {w : Nat} {code : α → BitVec w} {all : List α} {c : BitVec w} {x : α}
    (h : all.find? (fun y => code y == c) = some x) : code x = c := by
  simpa using List.find?_some h

theorem encode_phaseInstr (p : Phase) : encode (phaseInstr p) = .phase p.code := by cases p <;> rfl

theorem encode_stInstr (x : St) : encode (stInstr x) = .regRead offStatus (x.code.setWidth 32) := by
  cases x <;> rfl

theorem encode_errInstr (x : ErrClass) : encode (errInstr x) = .regRead offErr (x.code.setWidth 32) := by
  cases x <;> rfl

theorem encode_infoInstr (x : ErrInfo) :
    encode (infoInstr x) = .regRead offErrInfo (x.code.setWidth 32) := by
  cases x <;> rfl

/-- A word whose bits from `k` on are 0 is its low `k` bits (R21). -/
theorem setWidth_low_of_high_zero {k m : Nat} {v : Word} (hw : k + m = 32)
    (h : v.extractLsb' k m = 0#m) : (v.extractLsb' 0 k).setWidth 32 = v := by
  ext i hi
  by_cases hk : i < k
  · simp [hk, hi]
  · have zero : v.getLsbD i = false := by
      have hbit : (v.extractLsb' k m).getLsbD (i - k) = false := by rw [h, BitVec.getLsbD_zero]
      simpa [show i - k < m by omega, show k + (i - k) = i by omega] using hbit
    simp [hk, ← BitVec.getLsbD_eq_getElem hi, zero]

/-- STATUS answers a code only with every other bit 0 (R24). -/
theorem decodeStatus_ok {v : Word} {i : Instr} (h : decodeStatus v = .ok i) :
    ∃ x : St, i = stInstr x ∧ x.code.setWidth 32 = v := by
  unfold decodeStatus at h
  split at h
  next high =>
    split at h <;> cases h
    next x hx => exact ⟨x, rfl, by rw [code_of_find hx, setWidth_low_of_high_zero rfl high]⟩
  next => cases h

/-- ERR answers a class only with every other bit 0 (R320). -/
theorem decodeErr_ok {v : Word} {i : Instr} (h : decodeErr v = .ok i) :
    ∃ x : ErrClass, i = errInstr x ∧ x.code.setWidth 32 = v := by
  unfold decodeErr at h
  split at h
  next high =>
    split at h <;> cases h
    next x hx => exact ⟨x, rfl, by rw [code_of_find hx, setWidth_low_of_high_zero rfl high]⟩
  next => cases h

/-- ERR_INFO answers a sub-cause only with every other bit 0 (R321). -/
theorem decodeErrInfo_ok {v : Word} {i : Instr} (h : decodeErrInfo v = .ok i) :
    ∃ x : ErrInfo, i = infoInstr x ∧ x.code.setWidth 32 = v := by
  unfold decodeErrInfo at h
  split at h
  next high =>
    split at h <;> cases h
    next x hx => exact ⟨x, rfl, by rw [code_of_find hx, setWidth_low_of_high_zero rfl high]⟩
  next => cases h

/-! ### The length field (R96) -/

/-- One more byte of a field moves the value of those before it by eight bits (R294). -/
theorem beValue_concat (bytes : List Byte) (b : Byte) :
    beValue (bytes ++ [b]) = (beValue bytes <<< 8) ||| b.setWidth 64 := by
  simp [beValue, List.foldl_append]

/-- The bits of `n` from `k + 8` on, followed by the byte at `k`, are its bits from `k` on. -/
theorem shiftLeft_or_byte (n : BitVec 64) (k : Nat) :
    ((n >>> (k + 8)) <<< 8) ||| (n.extractLsb' k 8).setWidth 64 = n >>> k := by
  ext i hi
  by_cases low : i < 8
  · simp [low]
  · simp [low, show k + 8 + (i - 8) = k + i by omega]

/-- The bytes of a length field give its value back. -/
theorem beValue_be64 (n : BitVec 64) : beValue (be64 n) = n := by
  have none : 0#64 = n >>> (56 + 8) := BitVec.ushiftRight_eq_zero (Nat.le_refl 64) |>.symm
  simp only [beValue, be64, List.foldl_cons, List.foldl_nil]
  rw [none, shiftLeft_or_byte n 56, shiftLeft_or_byte n 48, shiftLeft_or_byte n 40,
    shiftLeft_or_byte n 32, shiftLeft_or_byte n 24, shiftLeft_or_byte n 16, shiftLeft_or_byte n 8,
    shiftLeft_or_byte n 0, BitVec.ushiftRight_zero]

/-- The last byte of a value made of bytes. -/
theorem extract_last_byte (acc : BitVec 64) (b : Byte) :
    ((acc <<< 8) ||| b.setWidth 64).extractLsb' 0 8 = b := by
  ext i hi
  simp [hi, show i < 64 by omega]

/-- The other bytes of a value made of bytes are those of the value before its last byte. -/
theorem extract_other_byte (acc : BitVec 64) (b : Byte) (k : Nat) (lo : 8 ≤ k) (hi : k + 8 ≤ 64) :
    ((acc <<< 8) ||| b.setWidth 64).extractLsb' k 8 = acc.extractLsb' (k - 8) 8 := by
  ext i hi
  have inside : k - 8 + i < 64 := by omega
  simp [show k + i < 64 by omega, show ¬ k + i < 8 by omega, show k + i - 8 = k - 8 + i by omega,
    BitVec.getLsbD_of_ge b (k + i) (by omega), BitVec.getLsbD_eq_getElem inside]

/-- Eight bytes are the length field of their value. -/
theorem be64_beValue {bytes : List Byte} (h : bytes.length = 8) : be64 (beValue bytes) = bytes := by
  match bytes, h with
  | [b0, b1, b2, b3, b4, b5, b6, b7], _ =>
    simp (disch := decide) only [be64, beValue, List.foldl_cons, List.foldl_nil,
      extract_last_byte, extract_other_byte, Nat.reduceSub]

/-! ### The items of the artifact (R91 to R97) -/

/-- The items that stand at each place, with their own bytes. -/
inductive ItemAt : Pos → Instr → List Byte → Prop where
  | head : ItemAt .head .tokEmpty [Config.tokEmpty]
  | branch : ItemAt .marker .tokBranch [Config.tokBranch]
  | leaf (sym : Byte) : ItemAt .marker (.tokLeaf sym) [Config.tokLeaf, sym]
  | delim : ItemAt .delim .delim [Config.delim]
  | length (n : BitVec 64) : ItemAt .length (.bitlen n) (be64 n)
  | payload (b : Byte) : ItemAt .payload (.payloadByte b) [b]

theorem decodeArtifact_nil (pos : Pos) : decodeArtifact pos [] = .error .truncated := by
  cases pos <;> rfl

/-- A length field is the next eight bytes. -/
theorem decodeArtifact_length {bytes : List Byte} (h : Config.bitlenBytes ≤ bytes.length) :
    decodeArtifact .length bytes =
      .ok (.bitlen (beValue (bytes.take Config.bitlenBytes)), bytes.drop Config.bitlenBytes) := by
  cases bytes with
  | nil => cases h
  | cons b rest => exact if_neg (Nat.not_lt.mpr h)

/-- Fewer than eight bytes are no length field. -/
theorem decodeArtifact_length_short {bytes : List Byte} (h : bytes.length < Config.bitlenBytes) :
    decodeArtifact .length bytes = .error .truncated := by
  cases bytes with
  | nil => rfl
  | cons b rest => exact if_pos h

/-- An item is decoded from its own bytes, whatever follows them. -/
theorem ItemAt.decode_append {pos : Pos} {i : Instr} {own : List Byte} (h : ItemAt pos i own)
    (rest : List Byte) : decodeArtifact pos (own ++ rest) = .ok (i, rest) := by
  cases h with
  | head | branch | leaf | delim | payload => rfl
  | length n =>
    have eight : (be64 n).length = Config.bitlenBytes := rfl
    rw [decodeArtifact_length (by simp [eight]), List.take_left' eight, List.drop_left' eight,
      beValue_be64]

/-- What is decoded at a place is an item of this place, from its own bytes. -/
theorem itemAt_of_decode {pos : Pos} {i : Instr} {bytes rest : List Byte}
    (h : decodeArtifact pos bytes = .ok (i, rest)) : ∃ own, ItemAt pos i own ∧ bytes = own ++ rest := by
  cases bytes with
  | nil => rw [decodeArtifact_nil] at h; cases h
  | cons b more =>
    cases pos with
    | head =>
      simp only [decodeArtifact] at h
      split at h <;> cases h
      next hb => exact ⟨_, .head, by rw [hb]; rfl⟩
    | marker =>
      simp only [decodeArtifact] at h
      split at h
      next hb => cases h; exact ⟨_, .branch, by rw [hb]; rfl⟩
      split at h
      next hb =>
        cases more with
        | nil => cases h
        | cons sym more => cases h; exact ⟨_, .leaf sym, by rw [hb]; rfl⟩
      next => cases h
    | delim =>
      simp only [decodeArtifact] at h
      split at h <;> cases h
      next hb => exact ⟨_, .delim, by rw [hb]; rfl⟩
    | length =>
      by_cases short : (b :: more).length < Config.bitlenBytes
      · rw [decodeArtifact_length_short short] at h; cases h
      · rw [decodeArtifact_length (Nat.le_of_not_lt short)] at h
        cases h
        have eight : ((b :: more).take Config.bitlenBytes).length = 8 :=
          List.length_take_of_le (Nat.le_of_not_lt short)
        exact ⟨_, .length _, by rw [be64_beValue eight, List.take_append_drop]⟩
    | payload => cases h; exact ⟨_, .payload b, rfl⟩

theorem ItemAt.encode_eq {pos : Pos} {i : Instr} {own : List Byte} (h : ItemAt pos i own) :
    encode i = .artifact pos own := by
  cases h <;> rfl

/-! ### Both directions -/

/-- The instruction is decoded from its encoding, and an item of the artifact whatever follows it. -/
def DecodesBack (i : Instr) : Prop :=
  decode (encode i) = .ok (i, []) ∧
  ∀ pos bytes rest, encode i = .artifact pos bytes →
    decode (.artifact pos (bytes ++ rest)) = .ok (i, rest)

theorem DecodesBack.of_item {pos : Pos} {i : Instr} {own : List Byte} (h : ItemAt pos i own) :
    DecodesBack i := by
  constructor
  · rw [h.encode_eq]
    exact (congrArg (decodeArtifact pos) (List.append_nil own).symm).trans (h.decode_append [])
  · intro pos' own' rest he
    rw [h.encode_eq] at he
    cases he
    exact h.decode_append rest

/-- Of a control value or a code there is only one encoding to decode. -/
theorem DecodesBack.of_word {i : Instr} (h : decode (encode i) = .ok (i, []))
    (word : ∀ pos bytes, encode i ≠ .artifact pos bytes) : DecodesBack i :=
  ⟨h, fun pos bytes _ he => absurd he (word pos bytes)⟩

theorem decodesBack (i : Instr) : DecodesBack i := by
  cases i with
  | ctrlNone hi | start hi | clear hi | ctrlReserved hi =>
    exact .of_word (by simp [encode, decode, decodeCtrl]) nofun
  | cmdReserved0 hi | compress hi | decompress hi | cmdReserved3 hi =>
    exact .of_word (by simp [encode, decode, decodeCmd, offCmd, offCtrl]) nofun
  | tokBranch => exact .of_item .branch
  | tokLeaf sym => exact .of_item (.leaf sym)
  | delim => exact .of_item .delim
  | tokEmpty => exact .of_item .head
  | bitlen n => exact .of_item (.length n)
  | payloadByte b => exact .of_item (.payload b)
  | _ => exact .of_word rfl nofun

/-- The instruction a register write decodes to, by the register. -/
theorem decode_regWrite_cases {off : Nat} {v : Word} {i : Instr} {rest : List Byte}
    (h : decode (.regWrite off v) = .ok (i, rest)) :
    rest = [] ∧ ((off = offCtrl ∧ i = decodeCtrl v) ∨ (off = offCmd ∧ i = decodeCmd v)) := by
  simp only [decode] at h
  split at h
  next ho => cases h; exact ⟨rfl, .inl ⟨ho, rfl⟩⟩
  split at h
  next ho => cases h; exact ⟨rfl, .inr ⟨ho, rfl⟩⟩
  next => cases h

/-- The value written to a register is the encoding of what it decodes to (R22, R23). -/
theorem encode_of_decode_regWrite {off : Nat} {v : Word} {i : Instr} {rest : List Byte}
    (h : decode (.regWrite off v) = .ok (i, rest)) : encode i = .regWrite off v ∧ rest = [] := by
  obtain ⟨hrest, ⟨rfl, rfl⟩ | ⟨rfl, rfl⟩⟩ := decode_regWrite_cases h
  · exact ⟨encode_decodeCtrl v, hrest⟩
  · exact ⟨encode_decodeCmd v, hrest⟩

/-- The value under a map that answered one. -/
theorem ok_of_map_ok {ε α β : Type} {f : α → β} {x : Except ε α} {y : β} (h : x.map f = .ok y) :
    ∃ a, x = .ok a ∧ f a = y := by
  cases x with
  | error e => cases h
  | ok a => exact ⟨a, rfl, by injection h⟩

/-- The code a register returned, by the register. -/
theorem decode_regRead_cases {off : Nat} {v : Word} {i : Instr} {rest : List Byte}
    (h : decode (.regRead off v) = .ok (i, rest)) :
    rest = [] ∧
    ((off = offStatus ∧ ∃ x : St, i = stInstr x ∧ x.code.setWidth 32 = v) ∨
     (off = offErr ∧ ∃ x : ErrClass, i = errInstr x ∧ x.code.setWidth 32 = v) ∨
     (off = offErrInfo ∧ ∃ x : ErrInfo, i = infoInstr x ∧ x.code.setWidth 32 = v)) := by
  simp only [decode] at h
  split at h
  next ho =>
    obtain ⟨j, hj, e⟩ := ok_of_map_ok h
    cases e
    exact ⟨rfl, .inl ⟨ho, decodeStatus_ok hj⟩⟩
  split at h
  next ho =>
    obtain ⟨j, hj, e⟩ := ok_of_map_ok h
    cases e
    exact ⟨rfl, .inr (.inl ⟨ho, decodeErr_ok hj⟩)⟩
  split at h
  next ho =>
    obtain ⟨j, hj, e⟩ := ok_of_map_ok h
    cases e
    exact ⟨rfl, .inr (.inr ⟨ho, decodeErrInfo_ok hj⟩)⟩
  next => cases h

/-- The value a register returned is the encoding of what it decodes to. -/
theorem encode_of_decode_regRead {off : Nat} {v : Word} {i : Instr} {rest : List Byte}
    (h : decode (.regRead off v) = .ok (i, rest)) : encode i = .regRead off v ∧ rest = [] := by
  obtain ⟨hrest, ⟨rfl, x, rfl, rfl⟩ | ⟨rfl, x, rfl, rfl⟩ | ⟨rfl, x, rfl, rfl⟩⟩ := decode_regRead_cases h
  · exact ⟨encode_stInstr x, hrest⟩
  · exact ⟨encode_errInstr x, hrest⟩
  · exact ⟨encode_infoInstr x, hrest⟩

/-- A PHASE code is the encoding of the phase it decodes to (R135). -/
theorem encode_of_decode_phase {c : BitVec 5} {i : Instr} {rest : List Byte}
    (h : decode (.phase c) = .ok (i, rest)) : encode i = .phase c ∧ rest = [] := by
  simp only [decode] at h
  split at h <;> cases h
  next p hp => exact ⟨by rw [encode_phaseInstr, code_of_find hp], rfl⟩

end Sys2Proof

/-- Settles O1: item by item of the artifact, and one word each for the control values and the codes. -/
theorem encodedInstructionsDecode : Obligations.EncodedInstructionsDecode := by
  unfold Obligations.EncodedInstructionsDecode
  exact fun i _ => Sys2Proof.decodesBack i

/-- Settles O2, place by place. -/
theorem decodedEncodingsAreUnique : Obligations.DecodedEncodingsAreUnique := by
  unfold Obligations.DecodedEncodingsAreUnique
  intro r i rest h
  cases r with
  | artifact pos bytes =>
    obtain ⟨own, item, hb⟩ := Sys2Proof.itemAt_of_decode h
    exact ⟨own, item.encode_eq, hb⟩
  | regWrite off v => exact Sys2Proof.encode_of_decode_regWrite h
  | regRead off v => exact Sys2Proof.encode_of_decode_regRead h
  | phase c => exact Sys2Proof.encode_of_decode_phase h
end

section
/-! SUPPORT. Control actions and CMD values (R22, R23) by the value written, the status codes as they are
read (R24, R320, R321), and where the two tree phases stop (log 12). -/

namespace Sys2Proof

/-- Bits 31:2 of a value are the value shifted down. -/
theorem extract_high_eq_shift (v : Word) : v.extractLsb' 2 30 = (v >>> 2).setWidth 30 := by
  ext i hi
  simp [show i < 32 by omega]

/-- Bits 1:0 of a value are its remainder by 4. -/
theorem mod_four_eq_low (v : Word) : v % 4#32 = (v.extractLsb' 0 2).setWidth 32 := by
  apply BitVec.eq_of_toNat_eq
  simp [Nat.mod_eq_of_lt (show v.toNat % 4 < 4294967296 by omega)]

/-- A write of CTRL decodes by the value's remainder by 4 (R22). -/
theorem decodeCtrl_mod_four (v : Word) :
    decodeCtrl v =
      (if v % 4#32 = 0#32 then .ctrlNone ((v >>> 2).setWidth 30)
       else if v % 4#32 = 1#32 then .start ((v >>> 2).setWidth 30)
       else if v % 4#32 = 2#32 then .clear ((v >>> 2).setWidth 30)
       else .ctrlReserved ((v >>> 2).setWidth 30)) := by
  rw [mod_four_eq_low, ← extract_high_eq_shift]
  rcases decodeCtrl_cases v with ⟨h, e⟩ | ⟨h, e⟩ | ⟨h, e⟩ | ⟨h, e⟩ <;> simp [h, e]

namespace Machine

/-! ### CMD (R23, R63, R134) -/

/-- What a CMD write decodes to stores the value's bits 1:0. -/
theorem exec_decodeCmd (v : Word) (s : State) :
    exec (decodeCmd v) s = .next (selectCommand (v.extractLsb' 0 2) s) := by
  rcases decodeCmd_cases v with ⟨h, e⟩ | ⟨h, e⟩ | ⟨h, e⟩ | ⟨h, e⟩ <;>
    · rw [h, e]
      rfl

/-- CHECK refuses the two CMD values that are no command. -/
theorem execPCheck_illegal {s : State} (h : s.cmd ≠ 1#2 ∧ s.cmd ≠ 2#2) :
    execPCheck s = .next (raise .badCmd s) := if_pos h

/-- CHECK refuses an input that does not fit IBUF. -/
theorem execPCheck_tooLong {s : State} (legal : s.cmd = 1#2 ∨ s.cmd = 2#2) (h : s.ibufCap < s.inLen) :
    execPCheck s = .next (raise .inRange s) := by
  unfold execPCheck
  rw [if_neg (fun n => legal.elim n.1 n.2), if_pos h]

/-- The phase CHECK goes on to (R134, R136). -/
def checkedPhase (s : State) : Phase :=
  if s.cmd = 1#2 then (if s.inLen = 0#32 then .empty else .fcount) else .dhead

/-- CHECK passes a command whose input fits IBUF. -/
theorem execPCheck_passes {s : State} (legal : s.cmd = 1#2 ∨ s.cmd = 2#2) (h : s.inLen ≤ s.ibufCap) :
    execPCheck s = .next { s with ipos := 0#32, opos := 0#32, phase := checkedPhase s } := by
  unfold execPCheck
  rw [if_neg (fun n => legal.elim n.1 n.2), if_neg (BitVec.not_lt.mpr h)]
  rfl

/-! ### CGEN and TSER without a tree -/

/-- A phase written as a flow never stops. -/
theorem Flow.outcome_ne_fault (f : Flow) (r : Fault) : f.outcome ≠ .fault r := by
  cases f <;> nofun

/-- CGEN stops exactly without a tree at ROOT. -/
theorem execPCgen_fault_iff (s : State) : rootTree s = none ↔ execPCgen s = .fault .noTree := by
  unfold execPCgen
  cases rootTree s with
  | none => simp
  | some t => simp [Flow.outcome_ne_fault]

/-- TSER stops exactly without a tree at ROOT. -/
theorem execPTser_fault_iff (s : State) : rootTree s = none ↔ execPTser s = .fault .noTree := by
  unfold execPTser
  cases rootTree s with
  | none => simp
  | some t => simp [Flow.outcome_ne_fault]

/-! ### Reads of the status codes -/

/-- The row of a STATUS code reads STATUS and compares ST with it. -/
theorem exec_stInstr (x : St) (s : State) : exec (stInstr x) s = .next (observeStatus x s) := by
  cases x <;> rfl

/-- The row of an ERR code reads ERR and compares the class with it. -/
theorem exec_errInstr (x : ErrClass) (s : State) : exec (errInstr x) s = .next (observeErr x s) := by
  cases x <;> rfl

/-- The row of an ERR_INFO code reads ERR_INFO and compares the sub-cause with it. -/
theorem exec_infoInstr (x : ErrInfo) (s : State) :
    exec (infoInstr x) s = .next (observeErrInfo x s) := by
  cases x <;> rfl

end Machine
end Sys2Proof

open Sys2Proof Sys2Proof.Machine

/-- Settles O11: CTRL by the remainder of the value written; NONE and RESERVED by their meaning. -/
theorem controlActionsFollowTheLowBits : Obligations.ControlActionsFollowTheLowBits := by
  unfold Obligations.ControlActionsFollowTheLowBits
  exact ⟨fun v => congrArg (fun i => Except.ok (i, [])) (decodeCtrl_mod_four v),
    fun _ s => ⟨rfl, rfl, regValue_ctrl s⟩⟩

/-- Settles O8: each row is the host's read of its register. -/
theorem statusCodesAreObserved : Obligations.StatusCodesAreObserved := by
  unfold Obligations.StatusCodesAreObserved
  intro s
  exact ⟨exec_stInstr .idle s, exec_stInstr .busy s, exec_stInstr .done s, exec_stInstr .error s,
    exec_errInstr .none s, exec_errInstr .io s, exec_errInstr .corruptTree s,
    exec_errInstr .format s, exec_errInstr .decode s, exec_errInstr .usage s,
    exec_infoInstr .none s, exec_infoInstr .badCmd s, exec_infoInstr .inRange s,
    exec_infoInstr .outRange s, exec_infoInstr .truncated s, exec_infoInstr .badMarker s,
    exec_infoInstr .tooLarge s, exec_infoInstr .noDelim s, exec_infoInstr .badDelim s,
    exec_infoInstr .noLength s, exec_infoInstr .lenMismatch s, exec_infoInstr .trailing s,
    exec_infoInstr .codeCollision s, exec_infoInstr .nullChild s, exec_infoInstr .incomplete s⟩

/-- Settles O12: the CMD write by ST, CHECK by CMD. -/
theorem commandValuesAreStored : Obligations.CommandValuesAreStored := by
  unfold Obligations.CommandValuesAreStored
  intro v s
  have stored (c : BitVec 2) (h : s.st ≠ .busy) := congrArg (Host.Outcome.next (φ := Fault) (ρ := Refusal))
    (selectCommand_stored c s h)
  have dropped (c : BitVec 2) (h : s.st = .busy) := congrArg (Host.Outcome.next (φ := Fault) (ρ := Refusal))
    (selectCommand_dropped c s h)
  refine ⟨fun h => ⟨stored 0 h, stored 1 h, stored 2 h, stored 3 h⟩,
    fun h => ⟨dropped 0 h, dropped 1 h, dropped 2 h, dropped 3 h⟩, regValue_cmd s,
    fun h => ⟨execPCheck_illegal ?_, rfl, rfl⟩, fun fits => ⟨fun h => ?_, fun h => ?_⟩,
    fun w => ⟨decodeCmd w, rfl, fun h => (exec_decodeCmd w s).trans (stored _ h)⟩⟩
  · rcases h with h | h <;> simp [h]
  · refine ⟨_, execPCheck_passes (.inl h) (BitVec.le_def.mpr fits), ?_⟩
    by_cases empty : s.inLen = 0#32 <;> simp [checkedPhase, h, empty]
  · refine ⟨_, execPCheck_passes (.inr h) (BitVec.le_def.mpr fits), ?_⟩
    simp [checkedPhase, h]

/-- Settles O34: a phase written as a flow never stops, so the match on the tree decides. -/
theorem treePhasesStopWithoutATree : Obligations.TreePhasesStopWithoutATree := by
  unfold Obligations.TreePhasesStopWithoutATree
  exact fun s => ⟨execPCgen_fault_iff s, execPTser_fault_iff s⟩
end

section
/-! SUPPORT. The invariant of the block, for a command that runs: what a phase finds (`During`), what an
error leaves (`Kept`), and that the rounds of the phases keep the one or raise with the other. -/

namespace Sys2Proof.Machine

/-! ### What a phase finds, and what an error leaves -/

/-- What every step keeps: IBUF in canonical form, the arena and the code book within their capacities. -/
structure Kept (s : State) : Prop where
  ibuf : s.ibuf.wf = true
  arena : ArenaFits s
  codes : CodesFit s

/-- A command runs in phase `p`. -/
structure Executing (p : Phase) (s : State) : Prop extends Kept s where
  busy : s.st = .busy
  phase : s.phase = p
  err : s.err = .none
  errInfo : s.errInfo = .none
  outLen : s.outLen = 0#32
  obuf : s.obuf.wf = true

/-- A command that passed CHECK runs in phase `p`, begun in fine steps or not. -/
structure During (p : Phase) (fine : Bool) (s : State) : Prop extends Executing p s where
  cmd : s.cmd = 1#2 ∨ s.cmd = 2#2
  inLen : s.inLen ≤ s.ibufCap
  opos : s.opos ≤ s.obufCap
  fine : s.fine = fine

/-- The phases of the tree builder, which need something ready. -/
def builderPhases : List Phase := [.fcount, .hinit, .hwrap, .hmerge, .cgen, .size, .tser]

/-- The other phases need nothing of the builder. -/
theorem builderReady_of_phase {p : Phase} {s : State} (h : s.phase = p) (hp : p ∉ builderPhases) :
    BuilderReady s := by
  subst h
  simp only [builderPhases, List.mem_cons, List.not_mem_nil, or_false, not_or] at hp
  obtain ⟨fcount, hinit, hwrap, hmerge, cgen, size, tser⟩ := hp
  exact ⟨fun e => absurd e fcount, fun e => absurd e hinit, fun e => absurd e hwrap,
    fun e => absurd e hmerge, fun e => e.elim (absurd · cgen) (·.elim (absurd · size) (absurd · tser))⟩

theorem Sound.kept {s : State} (h : Sound s) : Kept s := by
  obtain ⟨_, ⟨ibuf, _⟩, _, _, _, arena, codes⟩ := h
  exact ⟨ibuf, arena, codes⟩

theorem Sound.builderReady {s : State} (h : Sound s) : BuilderReady s := by
  obtain ⟨_, _, _, _, ready, _⟩ := h
  exact ready

/-- While the core does not run, PHASE is P_IDLE (R33). -/
theorem Sound.phase_idle {s : State} (h : Sound s) (hb : s.st ≠ .busy) : s.phase = .idle := by
  obtain ⟨⟨running, _⟩, _⟩ := h
  exact Decidable.not_not.mp fun hp => hb (running.mpr hp)

theorem Sound.fine_busy {s : State} (h : Sound s) (hf : s.fine = true) : s.st = .busy := by
  obtain ⟨_, _, _, fine, _⟩ := h
  exact (fine hf).1

/-- Outside TDES and WALK no phase runs in fine steps. -/
theorem Sound.fine_eq_false {s : State} (h : Sound s) (tdes : s.phase ≠ .tdes)
    (walk : s.phase ≠ .walk) : s.fine = false := by
  obtain ⟨_, _, _, fine, _⟩ := h
  exact Bool.eq_false_of_not_eq_true fun hf => (fine hf).2.elim tdes walk

theorem Sound.executing {s : State} (h : Sound s) (hb : s.st = .busy) : Executing s.phase s := by
  have kept := h.kept
  obtain ⟨⟨_, clean, _, empty⟩, ⟨_, obuf⟩, _⟩ := h
  obtain ⟨err, errInfo⟩ := clean (by simp [hb])
  exact { kept with
    busy := hb, phase := rfl, err := err, errInfo := errInfo, outLen := empty (by simp [hb])
    obuf := obuf }

theorem Sound.during {s : State} (h : Sound s) (hb : s.st = .busy) (hc : s.phase ≠ .check) :
    During s.phase s.fine s := by
  have running := h.executing hb
  obtain ⟨_, _, fits, _⟩ := h
  obtain ⟨cmd, inLen, opos⟩ := fits hb hc
  exact { running with cmd := cmd, inLen := inLen, opos := opos, fine := rfl }

/-- A running command that has what its phase needs meets the invariant. -/
theorem During.sound {p : Phase} {fine : Bool} {s : State} (h : During p fine s) (idle : p ≠ .idle)
    (ready : BuilderReady s) (hf : fine = true → p = .tdes ∨ p = .walk := by simp) : Sound s :=
  ⟨⟨iff_of_true h.busy (h.phase ▸ idle), fun _ => ⟨h.err, h.errInfo⟩,
      fun e => absurd (h.busy.symm.trans e) (by decide), fun _ => h.outLen⟩,
    ⟨h.ibuf, h.obuf⟩, fun _ _ => ⟨h.cmd, h.inLen, h.opos⟩,
    fun e => ⟨h.busy, by rw [h.phase]; exact hf (h.fine.symm.trans e)⟩, ready, h.arena, h.codes⟩

/-- Outside the tree builder nothing more is needed. -/
theorem During.sound_plain {p : Phase} {fine : Bool} {s : State} (h : During p fine s)
    (hp : p ∉ .idle :: builderPhases := by decide)
    (hf : fine = true → p = .tdes ∨ p = .walk := by simp) : Sound s := by
  rw [List.mem_cons, not_or] at hp
  exact h.sound hp.1 (builderReady_of_phase h.phase hp.2) hf

/-- An error taken leaves a state that meets the invariant (R325). -/
theorem Kept.raise_sound {s : State} (h : Kept s) {e : ErrInfo} (he : e ≠ .none) : Sound (raise e s) :=
  ⟨⟨by simp, fun n => absurd rfl n, fun _ => ⟨he, rfl⟩, fun _ => rfl⟩, ⟨h.ibuf, rfl⟩,
    by simp [CommandFits], by simp [FineCoherent], builderReady_of_phase (p := .idle) rfl (by decide),
    h.arena, h.codes⟩

/-! ### Flows -/

/-- The outcome is a next state that meets the invariant. -/
def AnswersSound (o : Host.Outcome State Fault Refusal) : Prop := ∃ t, o = .next t ∧ Sound t

/-- The flow goes on with `P`, or has raised an error that leaves what every step keeps. -/
def Flow.Meets (P : State → Prop) : Flow → Prop
  | .go s => P s
  | .abort e s => e ≠ .none ∧ Kept s

theorem Flow.Meets.mono {P Q : State → Prop} {f : Flow} (h : f.Meets P) (hPQ : ∀ s, P s → Q s) :
    f.Meets Q := by
  cases f with
  | go s => exact hPQ s h
  | abort e s => exact h

theorem Flow.Meets.bind {P Q : State → Prop} {f : Flow} {k : State → Flow} (h : f.Meets P)
    (hk : ∀ s, P s → (k s).Meets Q) : (f.bind k).Meets Q := by
  cases f with
  | go s => exact hk s h
  | abort e s => exact h

theorem Flow.Meets.each {α : Type} {P : State → Prop} {body : α → State → Flow} {xs : List α}
    (round : ∀ x ∈ xs, ∀ s, P s → (body x s).Meets P) {s : State} (h : P s) :
    (Flow.each body xs s).Meets P := by
  induction xs generalizing s with
  | nil => exact h
  | cons x xs ih =>
    exact (round x List.mem_cons_self s h).bind
      fun _ => ih fun y hy => round y (List.mem_cons_of_mem x hy)

theorem Flow.Meets.outcome {f : Flow} (h : f.Meets Sound) : AnswersSound f.outcome := by
  cases f with
  | go s => exact ⟨s, rfl, h⟩
  | abort e s => exact ⟨_, rfl, h.2.raise_sound h.1⟩

/-! ### Rounds that write OBUF -/

section
variable {p : Phase} {fine : Bool} {s : State}

theorem emit_meets (v : Byte) (h : During p fine s) : (emit v s).Meets (During p fine) := by
  by_cases room : s.opos.toNat < s.obufCap.toNat
  · rw [emit_room v s room]
    have next := opos_succ s room
    exact { h with
      obuf := Memory.wf_put _ _ h.obuf
      opos := BitVec.le_def.mpr (next ▸ room) }
  · rw [emit_full v s (Nat.le_of_not_lt room)]
    exact ⟨nofun, h.toKept⟩

theorem emitAll_meets (bytes : List Byte) (h : During p fine s) :
    (emitAll bytes s).Meets (During p fine) :=
  .each (fun v _ _ => emit_meets v) h

/-- The packer's registers are no part of the invariant. -/
theorem During.pack (h : During p fine s) (acc : Byte) (accN : BitVec 3) :
    During p fine { s with acc := acc, accN := accN } :=
  { h with }

theorem putBit_meets (b : Bool) (h : During p fine s) : (putBit b s).Meets (During p fine) := by
  unfold putBit
  simp only
  split
  · exact (emit_meets _ (h.pack _ _)).bind fun _ h => h.pack _ _
  · exact h.pack _ _

theorem encodeByte_meets (b : Byte) (h : During p fine s) :
    (encodeByte b s).Meets (During p fine) :=
  .each (fun b _ _ => putBit_meets b) { h with }

/-! ### The walk -/

/-- What the walk can change keeps a running command one. -/
theorem During.walked {u : State} (h : During p fine s) (w : WalkFrame s u) : During p fine u := by
  obtain ⟨frame, _, inside, canonical⟩ := w
  rw [frame]
  exact { h with obuf := canonical h.obuf, opos := inside h.opos }

/-- A piece of the walk, from what it can change. -/
theorem During.meets_of_walk {f : Flow} (h : During p fine s) (go : ∀ u, f = .go u → WalkFrame s u)
    (abort : ∀ e u, f = .abort e u → WalkFrame s u ∧ (e = .nullChild ∨ e = .outRange)) :
    f.Meets (During p fine) := by
  cases f with
  | go u => exact h.walked (go u rfl)
  | abort e u =>
    obtain ⟨w, he⟩ := abort e u rfl
    exact ⟨by rcases he with rfl | rfl <;> nofun, (h.walked w).toKept⟩

theorem walkLoop_meets (n : Nat) (h : During p fine s) : (walkLoop n s).Meets (During p fine) :=
  h.meets_of_walk (fun u hu => ((walkLoop_frame n s).1 u hu).1) (walkLoop_frame n s).2

theorem walkByte_meets (b : Byte) (n : Nat) (h : During p fine s) :
    (walkByte b n s).Meets (During p fine) :=
  h.meets_of_walk (fun u hu => ((walkByte_frame b n s).1 u hu).1) (walkByte_frame b n s).2

/-! ### The tree parser -/

/-- What a token can change keeps a running command one, with the arena within its capacity. -/
theorem During.parsed {u : State} (h : During p fine s) (frame : ParseFrame s u) (fits : ArenaFits u) :
    During p fine u := by
  rw [frame] at fits ⊢
  exact { h with arena := fits }

theorem parseBranch_meets (h : During p fine s) : (parseBranch s).Meets (During p fine) := by
  by_cases room : s.nn.toNat < Config.nodeCap
  · have e := parseBranch_room s room
    rw [e]
    exact h.parsed (parseBranch_frame s _ (.inl e)) (parseBranch_arenaFits h.arena e)
  · rw [parseBranch_full s (Nat.le_of_not_lt room)]
    exact ⟨nofun, h.toKept⟩

theorem parseLeaf_meets (sym : Byte) (h : During p fine s) :
    (parseLeaf sym s).Meets (During p fine) := by
  by_cases room : s.nn.toNat < Config.nodeCap
  · have e := parseLeaf_room sym s room
    rw [e]
    exact h.parsed (parseLeaf_frame sym s _ (.inl e)) (parseLeaf_arenaFits h.arena e)
  · rw [parseLeaf_full sym s (Nat.le_of_not_lt room)]
    exact ⟨nofun, h.toKept⟩

theorem parseLoop_meets (bytes : List Byte) (h : During p fine s) :
    (parseLoop bytes s).Meets (During p fine) := by
  induction bytes using List.twoStepInduction generalizing s with
  | nil => exact ⟨nofun, h.toKept⟩
  | singleton m =>
    simp only [parseLoop]
    split
    · exact ⟨by split <;> nofun, h.toKept⟩
    · split
      · exact (parseBranch_meets h).bind fun _ h => ⟨nofun, h.toKept⟩
      · exact ⟨nofun, h.toKept⟩
  | cons_cons m sym rest ih0 ih1 =>
    simp only [parseLoop]
    split
    · refine (parseLeaf_meets sym h).bind fun u hu => ?_
      split
      · exact hu
      · exact ih0 hu
    · split
      · exact (parseBranch_meets h).bind fun _ => ih1 sym
      · exact ⟨nofun, h.toKept⟩

end

/-! ### The code book -/

/-- A command runs with a tree at ROOT. -/
structure WithTree (p : Phase) (s : State) : Prop extends During p false s where
  tree : (rootTree s).isSome = true

theorem recordLeaf_meets {p : Phase} {s : State} {e : List Bool × Byte}
    (fits : e.1.length ≤ Config.depthMax) (h : WithTree p s) : (recordLeaf e s).Meets (WithTree p) := by
  cases hr : recordLeaf e s with
  | go u =>
    obtain ⟨frame, _⟩ := (recordLeaf_frame e s).1 u hr
    have codes := recordLeaf_codesFit h.codes fits hr
    rw [frame] at codes ⊢
    exact { h with codes := codes }
  | abort x u =>
    obtain ⟨rfl, rfl, _⟩ := (recordLeaf_frame e s).2 x u hr
    exact ⟨nofun, h.toKept⟩

/-! ### The tree builder -/

/-- One more entry in an arena with room for it. -/
theorem ArenaFits.push {s : State} (h : ArenaFits s) (room : s.nn.toNat < Config.nodeCap) (n : Node)
    (heap : List Index) :
    ArenaFits { s with
      arena := Table.put s.arena (nextIndex s).toNat n, nn := s.nn + 1#10, heap := heap } := by
  obtain ⟨entries, _, frames⟩ := h
  have index := nextIndex_toNat s (Nat.le_of_lt room)
  refine ⟨fun e he => ?_, (nn_succ s (Nat.le_of_lt room)).trans_le room, frames⟩
  rcases Table.mem_put he with rfl | he
  · exact index.trans_lt room
  · exact entries e he

theorem hinitSymbol_arenaFits {s : State} (h : ArenaFits s) (room : s.nn.toNat < Config.nodeCap)
    (i : Nat) : ArenaFits (hinitSymbol s i) := by
  unfold hinitSymbol
  split
  · exact h.push room _ _
  · exact h

theorem mergeOnce_arenaFits {s : State} (h : ArenaFits s) (room : s.nn.toNat < Config.nodeCap) :
    ArenaFits (mergeOnce s) := by
  unfold mergeOnce
  split
  · exact h
  · split
    · exact h
    · exact h.push room _ _

theorem mergeLoop_arenaFits (n : Nat) {s : State} (h : ArenaFits s)
    (room : s.nn.toNat + s.heap.length ≤ Config.nodeCap + 1) : ArenaFits (mergeLoop n s) := by
  induction n generalizing s with
  | zero => exact h
  | succ n ih =>
    unfold mergeLoop
    split
    next two =>
      have shorter := mergeOnce_length s two
      obtain ⟨_, _, _, _, _, _, _, _, merged, _⟩ := mergeOnce_two s two
      have more : (mergeOnce s).nn.toNat = s.nn.toNat + 1 := by
        rw [merged]
        exact nn_succ s (by omega)
      exact ih (mergeOnce_arenaFits h (by omega)) (by omega)
    next => exact h

/-- HINIT after its first `n` symbols: one leaf for each that occurs, and the queue of them (R173). -/
structure Leaves (n : Nat) (s : State) : Prop extends During .hinit false s where
  count : s.nn.toNat = (List.range n).countP (fun i => decide (0 < freqAt s i))
  queued : s.heap.length = s.nn.toNat
  below : ∀ x ∈ s.heap, x.toNat < s.nn.toNat
  leaf : ∀ i, i < s.nn.toNat → (nodeAt s.arena i).kind = .leaf

theorem Leaves.nn_le {n : Nat} {s : State} (h : Leaves n s) : s.nn.toNat ≤ n := by
  rw [h.count]
  simpa using List.countP_le_length (p := fun i => decide (0 < freqAt s i)) (l := List.range n)

theorem Leaves.hinitSymbol {n : Nat} {s : State} (h : Leaves n s) (hn : n < Config.alphaMax) :
    Leaves (n + 1) (hinitSymbol s n) := by
  have le := h.nn_le
  have room : s.nn.toNat < Config.nodeCap := by
    simp only [Config.alphaMax, Config.nodeCap] at *
    omega
  have counted := List.countP_append (p := fun i => decide (0 < freqAt s i)) (l₁ := List.range n) (l₂ := [n])
  rw [← List.range_succ, ← h.count] at counted
  by_cases hf : 0 < freqAt s n
  · have fits := hinitSymbol_arenaFits h.arena room n
    obtain ⟨arena, heap, e, kind, _, _, other, queue⟩ := hinitSymbol_present s n hf
    have next := nn_succ s (Nat.le_of_lt room)
    have index := nextIndex_toNat s (Nat.le_of_lt room)
    have total : s.nn.toNat + 1 =
        (List.range (n + 1)).countP (fun i => decide (0 < freqAt s i)) := by
      simpa [hf] using counted.symm
    rw [index] at kind other
    rw [e] at fits ⊢
    exact
      { h with
        arena := fits
        count := next.trans total
        queued := by simp only [queue, heapInsert_length, next, h.queued]
        below := by
          simp only [next, queue, (heapInsert_perm _ _ _).mem_iff, List.mem_cons]
          rintro x (rfl | hx)
          · omega
          · exact Nat.lt_succ_of_lt (h.below x hx)
        leaf := by
          simp only [next]
          intro i hi
          by_cases last : i = s.nn.toNat
          · rw [last, kind]
          · rw [other i last]
            exact h.leaf i (by omega) }
  · rw [hinitSymbol_absent s n (by omega)]
    exact { h with count := by simpa [hf] using counted.symm }

theorem Leaves.hinitSymbols {n : Nat} {s : State} (h : Leaves 0 s) (hn : n ≤ Config.alphaMax) :
    Leaves n ((List.range n).foldl Machine.hinitSymbol s) := by
  induction n with
  | zero => exact h
  | succ n ih =>
    rw [List.range_succ, List.foldl_append]
    exact (ih (Nat.le_of_lt hn)).hinitSymbol hn

end Sys2Proof.Machine
end

section
/-! SUPPORT. Each phase and each item of the artifact, run where it may run, answers a state that meets the
invariant of the block (R334). -/

namespace Sys2Proof.Machine

/-! ### The phases common to both commands -/

/-- CHECK leaves what FCOUNT needs: a non-empty input. -/
theorem checkedPhase_ready {s t : State} (hp : t.phase = checkedPhase s) (hl : t.inLen = s.inLen) :
    BuilderReady t := by
  unfold checkedPhase at hp
  split at hp
  · split at hp
    · exact builderReady_of_phase hp (by decide)
    next nonempty => simp [BuilderReady, hp, hl, nonempty]
  · exact builderReady_of_phase hp (by decide)

theorem checkedPhase_ne_idle (s : State) : checkedPhase s ≠ .idle := by
  unfold checkedPhase
  split
  · split <;> nofun
  · nofun

theorem execPCheck_sound {s : State} (h : Executing .check s) (hf : s.fine = false) :
    AnswersSound (execPCheck s) := by
  by_cases legal : s.cmd = 1#2 ∨ s.cmd = 2#2
  · by_cases fits : s.inLen ≤ s.ibufCap
    · have go : During (checkedPhase s) false
          { s with ipos := 0#32, opos := 0#32, phase := checkedPhase s } :=
        { h with
          phase := rfl
          cmd := legal
          inLen := fits
          opos := BitVec.le_def.mpr (Nat.zero_le _)
          fine := hf }
      exact ⟨_, execPCheck_passes legal fits,
        go.sound (checkedPhase_ne_idle s) (checkedPhase_ready rfl rfl)⟩
    · exact ⟨_, execPCheck_tooLong legal (BitVec.not_le.mp fits), h.toKept.raise_sound nofun⟩
  · exact ⟨_, execPCheck_illegal (not_or.mp legal), h.toKept.raise_sound nofun⟩

theorem execPFinish_sound {s : State} (h : During .finish false s) : AnswersSound (execPFinish s) :=
  ⟨_, rfl, ⟨by simp, fun _ => ⟨h.err, h.errInfo⟩, nofun, fun n => absurd rfl n⟩,
    ⟨h.ibuf, Memory.wf_below _ h.obuf⟩, nofun, fun f => absurd (h.fine.symm.trans f) (by decide),
    builderReady_of_phase (p := .idle) rfl (by decide), h.arena, h.codes⟩

/-! ### The phases of COMPRESS -/

theorem execPEmpty_sound {s : State} (h : During .empty false s) : AnswersSound (execPEmpty s) :=
  Flow.Meets.outcome <| (emit_meets _ h).bind fun s1 h =>
    show Sound _ from During.sound_plain (p := .finish) (fine := false) { h with phase := rfl }

/-- There are 256 symbols. -/
theorem alphabetSize_le (s : State) : alphabetSize s ≤ Config.alphaMax := by
  unfold alphabetSize
  simpa using List.countP_le_length (p := fun i => decide (0 < freqAt s i))
    (l := List.range Config.alphaMax)

theorem alphabetSize_pos {s : State} (h : SomeSymbol Config.alphaMax s) : 1 ≤ alphabetSize s := by
  obtain ⟨i, hi, hf⟩ := h
  exact List.countP_pos_iff.mpr ⟨i, List.mem_range.mpr hi, by simpa using hf⟩

/-- K holds the alphabet size (R29: 9 bits). -/
theorem alphabetSize_toNat (s : State) : (BitVec.ofNat 9 (alphabetSize s)).toNat = alphabetSize s := by
  have := alphabetSize_le s
  simp only [Config.alphaMax] at this
  simp only [BitVec.toNat_ofNat]
  omega

theorem execPFcount_sound {s : State} (h : During .fcount false s) (nonempty : s.inLen ≠ 0#32) :
    AnswersSound (execPFcount s) := by
  have bytes : input s ≠ [] := by
    intro e
    have length := input_length s
    rw [e] at length
    exact nonempty (BitVec.eq_of_toNat_eq length.symm)
  have one := alphabetSize_pos (someSymbol_countBytes bytes { s with freq := [], ipos := 0#32 })
  have size := alphabetSize_toNat ((input s).foldl countByte { s with freq := [], ipos := 0#32 })
  refine ⟨_, rfl, ?_⟩
  obtain ⟨freq, counted⟩ := countByte_foldl_frame (input s) { s with freq := [], ipos := 0#32 }
  rw [counted] at one size ⊢
  refine During.sound (p := .hinit) (fine := false) { h with phase := rfl } nofun ?_
  exact ⟨nofun, fun _ => ⟨size, one.trans_eq size.symm⟩, nofun, nofun, nofun⟩

theorem execPHinit_sound {s : State} (h : During .hinit false s) (hk : s.k.toNat = alphabetSize s)
    (one : 1 ≤ s.k.toNat) : AnswersSound (execPHinit s) := by
  obtain ⟨entries, _, frames⟩ := h.arena
  have start : Leaves 0 { s with nn := 0#10, heap := [] } :=
    { h with
      arena := ⟨entries, Nat.zero_le _, frames⟩
      count := rfl
      queued := rfl
      below := nofun
      leaf := nofun }
  have done := start.hinitSymbols (Nat.le_refl Config.alphaMax)
  refine ⟨_, rfl, ?_⟩
  obtain ⟨arena, nn, heap, e⟩ :=
    hinitSymbol_foldl_frame (List.range Config.alphaMax) { s with nn := 0#10, heap := [] }
  rw [e] at done ⊢
  have count : nn.toNat = s.k.toNat := done.count.trans hk.symm
  by_cases single : s.k = 1#9
  · rw [if_pos single]
    refine During.sound (p := .hwrap) (fine := false) { done with phase := rfl } nofun ?_
    exact ⟨nofun, nofun, fun _ => done.leaf 0 (count ▸ one), nofun, nofun⟩
  · rw [if_neg single]
    refine During.sound (p := .hmerge) (fine := false) { done with phase := rfl } nofun ?_
    exact ⟨nofun, nofun, nofun,
      fun _ => ⟨done.queued, count ▸ one, done.nn_le, done.below, done.leaf⟩, nofun⟩

/-- A running command with a tree at ROOT, in a phase of the builder that needs no more. -/
theorem WithTree.sound {p : Phase} {s : State} (h : WithTree p s)
    (hp : p ∉ [.idle, .fcount, .hinit, .hwrap, .hmerge] := by decide) : Sound s := by
  simp only [List.mem_cons, List.not_mem_nil, or_false, not_or] at hp
  obtain ⟨idle, fcount, hinit, hwrap, hmerge⟩ := hp
  refine h.toDuring.sound idle ?_
  rw [← h.phase] at fcount hinit hwrap hmerge
  exact ⟨(absurd · fcount), (absurd · hinit), (absurd · hwrap), (absurd · hmerge), fun _ => h.tree⟩

theorem execPHmerge_sound {s : State} (h : During .hmerge false s)
    (queued : s.heap.length = s.nn.toNat) (one : 1 ≤ s.nn.toNat) (le : s.nn.toNat ≤ Config.alphaMax)
    (below : ∀ x ∈ s.heap, x.toNat < s.nn.toNat)
    (leaf : ∀ i, i < s.nn.toNat → (nodeAt s.arena i).kind = .leaf) : AnswersSound (execPHmerge s) := by
  have room : s.nn.toNat + s.heap.length ≤ Config.nodeCap + 1 := by
    simp only [Config.alphaMax, Config.nodeCap] at *
    omega
  have fits := mergeLoop_arenaFits s.heap.length h.arena room
  have holds := (QueueHolds.of_leaves s below leaf).mergeLoop s.heap.length room
  obtain ⟨arena, nn, heap, e, _, length, _⟩ := mergeLoop_spec s.heap.length s (Nat.le_succ _)
  rw [e] at fits holds
  obtain ⟨m, rfl⟩ := List.length_eq_one_iff.mp (length.trans (by omega : min s.heap.length 1 = 1))
  obtain ⟨_, levels, trees, total⟩ := holds
  obtain ⟨t, ht⟩ := Option.isSome_iff_exists.mp (trees m List.mem_cons_self).2
  have enough : levels m ≤ Config.depthMax + 1 := by
    simp only [List.map_cons, List.map_nil, List.sum_cons, List.sum_nil, Config.alphaMax,
      Config.depthMax] at *
    omega
  refine ⟨_, rfl, ?_⟩
  rw [e, takeRoot_one _ m rfl]
  exact WithTree.sound (p := .cgen)
    { h with
      arena := fits
      phase := rfl
      tree := Option.isSome_iff_exists.mpr ⟨t, treeOf_mono enough ht⟩ }

theorem execPHwrap_sound {s : State} (h : During .hwrap false s)
    (leaf : (nodeAt s.arena 0).kind = .leaf) : AnswersSound (execPHwrap s) := by
  obtain ⟨entries, _, frames⟩ := h.arena
  refine ⟨_, rfl, WithTree.sound (p := .cgen) { h with phase := rfl, arena := ?_, tree := ?_ }⟩
  · have room : 3 ≤ Config.nodeCap := by decide
    refine ⟨fun e he => ?_, room, frames⟩
    rcases Table.mem_put he with rfl | he
    · exact Nat.lt_of_succ_le room
    rcases Table.mem_put he with rfl | he
    · exact Nat.lt_of_lt_of_le (by decide : 1 < 3) room
    · exact entries e he
  · simp [rootTree, treeOf, Config.depthMax, nodeAt_put, leaf]

theorem execPCgen_sound {s : State} (h : WithTree .cgen s) : AnswersSound (execPCgen s) := by
  obtain ⟨t, ht⟩ := Option.isSome_iff_exists.mp h.tree
  unfold execPCgen
  rw [ht]
  have start : WithTree .cgen { s with cbLen := [], inv := [] } := { h with }
  refine Flow.Meets.outcome ((Flow.Meets.each (fun e he _ => recordLeaf_meets ?_) start).bind
    fun s1 h => ?_)
  · exact Nat.le_of_lt_succ (treeOf_depth ht e he)
  · exact WithTree.sound (p := .size) { h with phase := rfl }

theorem execPSize_sound {s : State} (h : WithTree .size s) : AnswersSound (execPSize s) := by
  have kept (n : BitVec 64) : Kept { s with bitlen := n } := ⟨h.ibuf, h.arena, h.codes⟩
  unfold execPSize
  simp only
  split
  · exact ⟨_, rfl, (kept _).raise_sound nofun⟩
  · exact ⟨_, rfl, WithTree.sound (p := .tser) { h with phase := rfl }⟩

theorem execPTser_sound {s : State} (h : WithTree .tser s) : AnswersSound (execPTser s) := by
  obtain ⟨t, ht⟩ := Option.isSome_iff_exists.mp h.tree
  unfold execPTser
  rw [ht]
  exact Flow.Meets.outcome <| (emitAll_meets _ h.toDuring).bind fun s1 h =>
    show Sound _ from During.sound_plain (p := .hdr) (fine := false) { h with phase := rfl }

theorem execPHdr_sound {s : State} (h : During .hdr false s) : AnswersSound (execPHdr s) :=
  Flow.Meets.outcome <| (emitAll_meets _ h).bind fun s1 h =>
    show Sound _ from During.sound_plain (p := .encode) (fine := false) { h with phase := rfl }

theorem execPEncode_sound {s : State} (h : During .encode false s) : AnswersSound (execPEncode s) := by
  have start : During .encode false { s with acc := 0#8, accN := 0#3, ipos := 0#32 } := { h with }
  exact Flow.Meets.outcome <| (Flow.Meets.each (fun b _ _ => encodeByte_meets b) start).bind fun s1 h =>
    show Sound _ from During.sound_plain (p := .flush) (fine := false) { h with phase := rfl }

theorem execPFlush_sound {s : State} (h : During .flush false s) : AnswersSound (execPFlush s) := by
  unfold execPFlush
  split
  · exact ⟨_, rfl, During.sound_plain (p := .finish) (fine := false) { h with phase := rfl }⟩
  · exact Flow.Meets.outcome <| (emit_meets _ h).bind fun s1 h =>
      show Sound _ from During.sound_plain (p := .finish) (fine := false) { h with phase := rfl }

/-! ### The phases of DECOMPRESS -/

/-- DHEAD on the byte 0x45, as a phase and as an item. -/
theorem headEmpty_meets {s : State} (h : During .dhead false s) : (headEmpty s).Meets Sound := by
  unfold headEmpty
  split
  · exact ⟨nofun, h.toKept⟩
  · exact During.sound_plain (p := .finish) (fine := false) { h with phase := rfl }

theorem execPDhead_sound {s : State} (h : During .dhead false s) : AnswersSound (execPDhead s) := by
  unfold execPDhead
  split
  · exact ⟨_, rfl, h.toKept.raise_sound nofun⟩
  · split
    · exact (headEmpty_meets h).outcome
    · exact ⟨_, rfl, During.sound_plain (p := .tdes) (fine := false) { h with phase := rfl }⟩

/-- The parse starts with NN = 0 and an empty STACK. -/
theorem During.parseStart {p : Phase} {fine : Bool} {s : State} (h : During p fine s) :
    During p fine (parseStart s) := by
  obtain ⟨entries, _⟩ := h.arena
  exact { h with arena := ⟨entries, Nat.zero_le _, nofun⟩ }

theorem execPTdes_sound {fine : Bool} {s : State} (h : During .tdes fine s) :
    AnswersSound (execPTdes s) :=
  Flow.Meets.outcome <| (parseLoop_meets _ h.parseStart).bind fun s1 h =>
    show Sound _ from During.sound_plain (p := .delim) (fine := false) { h with phase := rfl, fine := rfl }

theorem passDelim_sound {s : State} (h : During .delim false s) : Sound (passDelim s) :=
  During.sound_plain (p := .rdlen) (fine := false) { h with phase := rfl }

theorem execPDelim_sound {s : State} (h : During .delim false s) : AnswersSound (execPDelim s) := by
  unfold execPDelim
  split
  · exact ⟨_, rfl, h.toKept.raise_sound nofun⟩
  · split
    · exact ⟨_, rfl, h.toKept.raise_sound nofun⟩
    · exact ⟨_, rfl, passDelim_sound h⟩

theorem takeLength_sound {s : State} (n : BitVec 64) (h : During .rdlen false s) :
    Sound (takeLength n s) :=
  During.sound_plain (p := .chklen) (fine := false) { h with phase := rfl }

theorem execPRdlen_sound {s : State} (h : During .rdlen false s) : AnswersSound (execPRdlen s) := by
  unfold execPRdlen
  split
  · exact ⟨_, rfl, h.toKept.raise_sound nofun⟩
  · exact ⟨_, rfl, takeLength_sound _ h⟩

theorem execPChklen_sound {s : State} (h : During .chklen false s) : AnswersSound (execPChklen s) := by
  unfold execPChklen
  split
  · exact ⟨_, rfl, h.toKept.raise_sound nofun⟩
  · exact ⟨_, rfl, During.sound_plain (p := .walk) (fine := false) { h with phase := rfl }⟩

theorem execPWalk_sound {fine : Bool} {s : State} (h : During .walk fine s) :
    AnswersSound (execPWalk s) := by
  have start : During .walk fine { s with cur := s.root } := { h with }
  exact Flow.Meets.outcome <| (walkLoop_meets _ start).bind fun s1 h =>
    show Sound _ from During.sound_plain (p := .wend) (fine := false) { h with phase := rfl, fine := rfl }

theorem execPWend_sound {s : State} (h : During .wend false s) : AnswersSound (execPWend s) := by
  unfold execPWend
  split
  · exact ⟨_, rfl, h.toKept.raise_sound nofun⟩
  · exact ⟨_, rfl, During.sound_plain (p := .finish) (fine := false) { h with phase := rfl }⟩

/-! ### The items of the artifact -/

/-- The state in which TDES reads its next item. -/
theorem During.parseEnter {fine : Bool} {s : State} (h : During .tdes fine s) :
    During .tdes true (parseEnter s) := by
  unfold Machine.parseEnter
  split
  next begun => exact { h with fine := begun }
  next => exact { h.parseStart with fine := rfl }

theorem execTokBranch_sound {fine : Bool} {s : State} (h : During .tdes fine s) :
    AnswersSound (execTokBranch s) :=
  ((parseBranch_meets h.parseEnter).mono fun _ h => h.sound_plain).outcome

theorem execTokLeaf_sound {fine : Bool} (sym : Byte) {s : State} (h : During .tdes fine s) :
    AnswersSound (execTokLeaf sym s) := by
  refine Flow.Meets.outcome ((parseLeaf_meets sym h.parseEnter).bind fun s1 h => ?_)
  show Sound _
  split
  · exact During.sound_plain (p := .delim) (fine := false) { h with phase := rfl, fine := rfl }
  · exact h.sound_plain

/-- The state in which WALK reads its next item. -/
theorem During.walkEnter {fine : Bool} {s : State} (h : During .walk fine s) :
    During .walk true (walkEnter s) := by
  unfold Machine.walkEnter
  split
  next begun => exact { h with fine := begun }
  next => exact { h with fine := rfl }

theorem execPayloadByte_sound {fine : Bool} (b : Byte) {s : State} (h : During .walk fine s) :
    AnswersSound (execPayloadByte b s) := by
  refine Flow.Meets.outcome ((walkByte_meets b _ h.walkEnter).bind fun s1 h => ?_)
  show Sound _
  split
  · exact During.sound_plain (p := .wend) (fine := false) { h with phase := rfl, fine := rfl }
  · exact h.sound_plain

end Sys2Proof.Machine
end

section
/-! SUPPORT. A step from a state that meets the invariant of the block, whoever takes the turn. -/

namespace Sys2Proof.Machine

variable {s : State}

/-! ### The core's turn -/

/-- A command runs in the phase PHASE names. -/
theorem Sound.during_of_phase {p : Phase} (h : Sound s) (hb : s.st = .busy) (hp : s.phase = p)
    (hc : p ≠ .check := by decide) : During p s.fine s := by
  subst hp
  exact h.during hb hc

/-- Outside TDES and WALK it runs in phase steps. -/
theorem Sound.during_whole {p : Phase} (h : Sound s) (hb : s.st = .busy) (hp : s.phase = p)
    (hw : p ∉ [.check, .tdes, .walk] := by decide) : During p false s := by
  subst hp
  simp only [List.mem_cons, List.not_mem_nil, or_false, not_or] at hw
  obtain ⟨check, tdes, walk⟩ := hw
  exact h.fine_eq_false tdes walk ▸ h.during hb check

/-- With a tree at ROOT in the phases that need one. -/
theorem Sound.withTree {p : Phase} (h : Sound s) (hb : s.st = .busy) (hp : s.phase = p)
    (ht : p = .cgen ∨ p = .size ∨ p = .tser := by decide) : WithTree p s := by
  obtain ⟨_, _, _, _, tree⟩ := h.builderReady
  exact { h.during_whole hb hp (by rcases ht with rfl | rfl | rfl <;> decide) with
    tree := tree (hp ▸ ht) }

/-- The meaning of P_SIZE, by name: matching it by unfolding would run the sum of R274. -/
theorem exec_phaseInstr_size : exec (phaseInstr .size) s = execPSize s := rfl

/-- While BUSY the phase PHASE names answers a state that meets the invariant. -/
theorem exec_phaseInstr_sound (h : Sound s) (hb : s.st = .busy) :
    AnswersSound (exec (phaseInstr s.phase) s) := by
  obtain ⟨fcount, hinit, hwrap, hmerge, _⟩ := h.builderReady
  cases hp : s.phase with
  | idle =>
    obtain ⟨⟨running, _⟩, _⟩ := h
    exact absurd hp (running.mp hb)
  | check =>
    exact execPCheck_sound (hp ▸ h.executing hb) (h.fine_eq_false (by simp [hp]) (by simp [hp]))
  | empty => exact execPEmpty_sound (h.during_whole hb hp)
  | fcount => exact execPFcount_sound (h.during_whole hb hp) (fcount hp)
  | hinit =>
    obtain ⟨size, one⟩ := hinit hp
    exact execPHinit_sound (h.during_whole hb hp) size one
  | hmerge =>
    obtain ⟨queued, one, le, below, leaf⟩ := hmerge hp
    exact execPHmerge_sound (h.during_whole hb hp) queued one le below leaf
  | hwrap => exact execPHwrap_sound (h.during_whole hb hp) (hwrap hp)
  | cgen => exact execPCgen_sound (h.withTree hb hp)
  | size =>
    rw [exec_phaseInstr_size]
    exact execPSize_sound (h.withTree hb hp)
  | tser => exact execPTser_sound (h.withTree hb hp)
  | hdr => exact execPHdr_sound (h.during_whole hb hp)
  | encode => exact execPEncode_sound (h.during_whole hb hp)
  | flush => exact execPFlush_sound (h.during_whole hb hp)
  | dhead => exact execPDhead_sound (h.during_whole hb hp)
  | tdes => exact execPTdes_sound (h.during_of_phase hb hp)
  | delim => exact execPDelim_sound (h.during_whole hb hp)
  | rdlen => exact execPRdlen_sound (h.during_whole hb hp)
  | chklen => exact execPChklen_sound (h.during_whole hb hp)
  | walk => exact execPWalk_sound (h.during_of_phase hb hp)
  | wend => exact execPWend_sound (h.during_whole hb hp)
  | finish => exact execPFinish_sound (h.during_whole hb hp)

/-- The phase that reads the items of a place (R92, R291 to R296). -/
def readingPhase : Pos → Phase
  | .head => .dhead
  | .marker => .tdes
  | .delim => .delim
  | .length => .rdlen
  | .payload => .walk

theorem itemRaw_eq_some {r : Raw} (h : itemRaw s = some r) :
    ∃ pos bytes, r = .artifact pos bytes ∧ s.phase = readingPhase pos := by
  unfold itemRaw at h
  cases hp : s.phase <;> simp only [hp] at h
  case dhead => cases h; exact ⟨.head, _, rfl, rfl⟩
  case tdes => cases h; exact ⟨.marker, _, rfl, rfl⟩
  case delim => cases h; exact ⟨.delim, _, rfl, rfl⟩
  case rdlen => cases h; exact ⟨.length, _, rfl, rfl⟩
  case walk => split at h <;> cases h; exact ⟨.payload, _, rfl, rfl⟩
  all_goals cases h

theorem decode_of_instrOf {r : Raw} {i : Instr} (h : instrOf r = some i) :
    ∃ rest, decode r = .ok (i, rest) := by
  unfold instrOf at h
  split at h <;> cases h
  next rest hd => exact ⟨rest, hd⟩

/-- The item fetched is one of the phase that runs. -/
theorem itemAt_of_itemInstr {i : Instr} (h : itemInstr s = some i) :
    ∃ pos own, ItemAt pos i own ∧ s.phase = readingPhase pos := by
  obtain ⟨r, hr, hi⟩ := Option.bind_eq_some_iff.mp h
  obtain ⟨pos, bytes, rfl, hp⟩ := itemRaw_eq_some hr
  obtain ⟨rest, hd⟩ := decode_of_instrOf hi
  obtain ⟨own, item, _⟩ := itemAt_of_decode hd
  exact ⟨pos, own, item, hp⟩

/-- An item of the phase that runs answers a state that meets the invariant. -/
theorem exec_item_sound {pos : Pos} {i : Instr} {own : List Byte} (h : Sound s) (hb : s.st = .busy)
    (item : ItemAt pos i own) (hp : s.phase = readingPhase pos) : AnswersSound (exec i s) := by
  cases item with
  | head => exact (headEmpty_meets (h.during_whole hb hp)).outcome
  | branch => exact execTokBranch_sound (h.during_of_phase hb hp)
  | leaf sym => exact execTokLeaf_sound sym (h.during_of_phase hb hp)
  | delim => exact ⟨_, rfl, passDelim_sound (h.during_whole hb hp)⟩
  | length n => exact ⟨_, rfl, takeLength_sound n (h.during_whole hb hp)⟩
  | payload b => exact execPayloadByte_sound b (h.during_of_phase hb hp)

/-- What was fetched ends in a state that meets the invariant. -/
def Fetched.EndsSound : Fetched → Prop
  | .run i s => AnswersSound (exec i s)
  | .done s => Sound s

/-- While the core has no step, P_IDLE changes nothing. -/
theorem pIdle_sound (h : Sound s) : AnswersSound (exec .pIdle s) := ⟨s, rfl, h⟩

theorem fetchItem_sound (h : Sound s) : (fetchItem s).EndsSound := by
  unfold fetchItem
  split
  next hb =>
    cases hi : itemInstr s with
    | none => exact exec_phaseInstr_sound h hb
    | some i =>
      obtain ⟨pos, own, item, hp⟩ := itemAt_of_itemInstr hi
      exact exec_item_sound h hb item hp
  next => exact pIdle_sound h

theorem fetchCore_sound (h : Sound s) : (fetchCore s).EndsSound := by
  unfold fetchCore
  split
  · exact fetchItem_sound h
  · split
    next hb => exact exec_phaseInstr_sound h hb
    next => exact pIdle_sound h

/-! ### The host's turn -/

theorem beginCommand_sound (h : Sound s) : Sound (beginCommand s) := by
  by_cases acts : s.st = .idle ∨ s.st = .done
  · rw [beginCommand_acts s acts]
    obtain ⟨_, canonical, _, _, _, arena, codes⟩ := h
    exact ⟨⟨by simp, fun _ => ⟨rfl, rfl⟩, nofun, fun _ => rfl⟩, canonical, fun _ n => absurd rfl n,
      nofun, builderReady_of_phase (p := .check) rfl (by decide), arena, codes⟩
  · unfold beginCommand
    rw [if_neg acts]
    exact h

theorem acknowledge_sound (h : Sound s) : Sound (acknowledge s) := by
  by_cases acts : s.st = .done ∨ s.st = .error
  · have idle := h.phase_idle (by rcases acts with e | e <;> simp [e])
    have whole := h.fine_eq_false (by simp [idle]) (by simp [idle])
    rw [acknowledge_acts s acts]
    obtain ⟨_, canonical, _, _, _, arena, codes⟩ := h
    exact ⟨⟨by simp [idle], fun _ => ⟨rfl, rfl⟩, nofun, fun _ => rfl⟩, canonical, nofun,
      fun f => absurd (whole.symm.trans f) (by decide), builderReady_of_phase idle (by decide), arena,
      codes⟩
  · unfold acknowledge
    rw [if_neg acts]
    exact h

/-- Outside BUSY the invariant says nothing of CMD and IN_LEN. -/
theorem Sound.selected (h : Sound s) (hb : s.st ≠ .busy) (cmd : BitVec 2) (inLen : Word) :
    Sound { s with cmd := cmd, inLen := inLen } := by
  have idle := h.phase_idle hb
  obtain ⟨status, canonical, _, fine, _, arena, codes⟩ := h
  exact ⟨status, canonical, fun busy => absurd busy hb, fine, builderReady_of_phase idle (by decide),
    arena, codes⟩

theorem selectCommand_sound (h : Sound s) (v : BitVec 2) : Sound (selectCommand v s) := by
  by_cases hb : s.st = .busy
  · rw [selectCommand_dropped v s hb]
    exact h
  · rw [selectCommand_stored v s hb]
    exact h.selected hb v s.inLen

theorem writeReg_sound (h : Sound s) (off : Nat) (v : Word) : Sound (writeReg off v s) := by
  unfold writeReg
  split
  · split
    · exact beginCommand_sound h
    · split
      · exact acknowledge_sound h
      · exact h
  · split
    · exact selectCommand_sound h _
    · split
      · split
        · exact h
        next hb => exact h.selected hb s.cmd v
      · exact h

theorem writeBuf_sound (h : Sound s) (sp : Space) (off : Nat) (b : Byte) :
    Sound (writeBuf sp off b s) := by
  obtain ⟨status, canonical, fits, fine, ready, arena, codes⟩ := h
  have written := writeBuf_canonical sp off b s canonical
  unfold writeBuf at written ⊢
  split
  next reach =>
    rw [if_pos reach] at written
    cases sp
    · exact ⟨status, written, fits, fine, ready, arena, codes⟩
    · exact ⟨status, written, fits, fine, ready, arena, codes⟩
  next => exact ⟨status, canonical, fits, fine, ready, arena, codes⟩

/-- The invariant says nothing of the host's log. -/
theorem give_sound (h : Sound s) (v : Word) : Sound (give v s) := h

/-- The invariant says nothing of the free values drawn. -/
theorem draw_sound (h : Sound s) : Sound (draw s) := h

theorem readBuf_sound (h : Sound s) (sp : Space) (off : Nat) : Sound (readBuf sp off s) := by
  unfold readBuf
  split
  · exact give_sound h _
  · exact give_sound (draw_sound h) _

theorem resetBlock_sound (h : Sound s) : Sound (resetBlock s) := by
  obtain ⟨_, _, _, _, _, arena, codes⟩ := h
  exact ⟨⟨by simp, fun _ => ⟨rfl, rfl⟩, nofun, fun _ => rfl⟩, resetBlock_canonical s, nofun, nofun,
    builderReady_of_phase (p := .idle) rfl (by decide), arena, codes⟩

theorem hostMove_sound (h : Sound s) (m : Move) : Sound (hostMove m s) := by
  cases m with
  | regRead width off =>
    simp only [hostMove]
    split
    · exact give_sound h _
    · exact give_sound (draw_sound h) _
  | regWrite width off v =>
    simp only [hostMove]
    split
    · exact writeReg_sound h off v
    · exact h
  | bufRead sp off => exact readBuf_sound h sp off
  | bufWrite sp off b => exact writeBuf_sound h sp off b
  | reset => exact resetBlock_sound h

/-- A write of CTRL that is a row of the table. -/
theorem exec_decodeCtrl_sound (h : Sound s) (v : Word) : AnswersSound (exec (decodeCtrl v) s) := by
  rcases decodeCtrl_cases v with ⟨_, e⟩ | ⟨_, e⟩ | ⟨_, e⟩ | ⟨_, e⟩ <;> rw [e]
  · exact ⟨_, rfl, h⟩
  · exact ⟨_, rfl, beginCommand_sound h⟩
  · exact ⟨_, rfl, acknowledge_sound h⟩
  · exact ⟨_, rfl, h⟩

/-- A register access that is a row of the table. -/
theorem exec_moveRaw_sound (h : Sound s) {m : Move} {r : Raw} {i : Instr} (hr : moveRaw m s = some r)
    (hi : instrOf r = some i) : AnswersSound (exec i s) := by
  obtain ⟨rest, hd⟩ := decode_of_instrOf hi
  cases m with
  | regRead width off =>
    simp only [moveRaw] at hr
    split at hr <;> cases hr
    obtain ⟨_, ⟨_, x, rfl, _⟩ | ⟨_, x, rfl, _⟩ | ⟨_, x, rfl, _⟩⟩ := decode_regRead_cases hd
    · exact ⟨_, exec_stInstr x s, h⟩
    · exact ⟨_, exec_errInstr x s, h⟩
    · exact ⟨_, exec_infoInstr x s, h⟩
  | regWrite width off v =>
    simp only [moveRaw] at hr
    split at hr <;> cases hr
    obtain ⟨_, ⟨_, rfl⟩ | ⟨_, rfl⟩⟩ := decode_regWrite_cases hd
    · exact exec_decodeCtrl_sound h v
    · exact ⟨_, exec_decodeCmd v s, selectCommand_sound h _⟩
  | bufRead | bufWrite | reset => cases hr

theorem fetchMove_sound (h : Sound s) (m : Move) : (fetchMove m s).EndsSound := by
  unfold fetchMove
  split
  next i hi =>
    obtain ⟨r, hr, hd⟩ := Option.bind_eq_some_iff.mp hi
    exact exec_moveRaw_sound h hr hd
  next => exact hostMove_sound h m

/-! ### Any turn -/

/-- The invariant says nothing of the turns still to come. -/
theorem Sound.script (h : Sound s) (ts : List Turn) : Sound { s with script := ts } := h

theorem fetchTurn_sound (h : Sound s) (t : Turn) : (fetchTurn t s).EndsSound := by
  cases t with
  | core => exact fetchCore_sound h
  | item => exact fetchItem_sound h
  | host m => exact fetchMove_sound h m
  | line | poll | fetchOut | loadBack => exact h.script _

theorem fetch_sound (h : Sound s) : (fetch s).EndsSound := by
  cases hs : s.script with
  | nil => rw [fetch_nil hs]; exact fetchCore_sound h
  | cons t rest => rw [fetch_cons hs]; exact fetchTurn_sound (h.script rest) t

theorem step_sound (h : Sound s) : AnswersSound (step s) := by
  have ends := fetch_sound h
  cases hf : fetch s with
  | run i t => rw [step_run hf]; rwa [hf] at ends
  | done t => exact ⟨t, step_done hf, by rwa [hf] at ends⟩

end Sys2Proof.Machine

/-- Settles O53: whoever has the turn, what is fetched ends in a state that meets the invariant. -/
theorem soundStatesStepToSoundStates : Obligations.SoundStatesStepToSoundStates := by
  unfold Obligations.SoundStatesStepToSoundStates
  exact fun _ h => Sys2Proof.Machine.step_sound h
end

section
/-! SUPPORT. A register access of the host as one step (R62, R63): what it decodes to does what the
register table says, whether the access is a row of the opcode table or not. -/

namespace Sys2Proof.Machine

/-! ### What the host's move fetches -/

/-- An encoding stands for the instruction it encodes. -/
theorem instrOf_encode (i : Instr) : instrOf (encode i) = some i := by
  unfold instrOf
  rw [(decodesBack i).1]

section
variable {s : State} {m : Move} {rest : List Turn} {r : Raw}
  (h : s.script = .host m :: rest) (raw : moveRaw m { s with script := rest } = some r)
include h raw

/-- A register access that is a row of the opcode table runs the row. -/
theorem step_hostRow {i : Instr} (row : instrOf r = some i) :
    step s = exec i { s with script := rest } := by
  refine step_run ((fetch_cons h).trans ?_)
  simp [fetchTurn, fetchMove, raw, row]

/-- A register access that is no row of the opcode table is the move itself. -/
theorem step_hostMove (noRow : instrOf r = none) :
    step s = .next (hostMove m { s with script := rest }) := by
  refine step_done ((fetch_cons h).trans ?_)
  simp [fetchTurn, fetchMove, raw, noRow]

end

section
variable {off : Nat} (aligned : off % 4 = 0) (v : Word) (s : State)
include aligned

/-- A 32-bit write at a multiple of 4 is inside the interface (R69). -/
theorem regWrite_wellFormed : (Move.regWrite 4 off v).wellFormed = true := by
  simp [Move.wellFormed, aligned]

/-- A 32-bit read at a multiple of 4 is inside the interface (R69). -/
theorem regRead_wellFormed : (Move.regRead 4 off).wellFormed = true := by
  simp [Move.wellFormed, aligned]

theorem moveRaw_regWrite : moveRaw (.regWrite 4 off v) s = some (.regWrite off v) :=
  if_pos (regWrite_wellFormed aligned v)

theorem moveRaw_regRead : moveRaw (.regRead 4 off) s = some (.regRead off (regValue s off)) :=
  if_pos (regRead_wellFormed aligned)

theorem hostMove_regWrite : hostMove (.regWrite 4 off v) s = writeReg off v s :=
  if_pos (regWrite_wellFormed aligned v)

theorem hostMove_regRead : hostMove (.regRead 4 off) s = give (regValue s off) s :=
  if_pos (regRead_wellFormed aligned)

end

/-! ### Writes -/

/-- A write of CTRL acts by v[1:0] (R22, R63). -/
theorem writeReg_ctrl (v : Word) (s : State) :
    writeReg offCtrl v s =
      if v.extractLsb' 0 2 = 1#2 then beginCommand s
      else if v.extractLsb' 0 2 = 2#2 then acknowledge s else s := rfl

/-- A write of CMD selects v[1:0] (R23, R63). -/
theorem writeReg_cmd (v : Word) (s : State) :
    writeReg offCmd v s = selectCommand (v.extractLsb' 0 2) s := rfl

/-- A write of IN_LEN is stored unless BUSY (R26, R63). -/
theorem writeReg_inLen (v : Word) (s : State) :
    writeReg offInLen v s = if s.st = .busy then s else { s with inLen := v } := rfl

/-- A write at any other offset changes nothing (R63). -/
theorem writeReg_other {off : Nat} (ctrl : off ≠ offCtrl) (cmd : off ≠ offCmd)
    (inLen : off ≠ offInLen) (v : Word) (s : State) : writeReg off v s = s := by
  unfold writeReg
  rw [if_neg ctrl, if_neg cmd, if_neg inLen]

/-- What a CTRL write decodes to does what the write does. -/
theorem exec_decodeCtrl (v : Word) (s : State) :
    exec (decodeCtrl v) s = .next (writeReg offCtrl v s) := by
  rw [writeReg_ctrl]
  rcases decodeCtrl_cases v with ⟨h, e⟩ | ⟨h, e⟩ | ⟨h, e⟩ | ⟨h, e⟩ <;>
    · rw [h, e]
      rfl

/-- A write of a register other than CTRL and CMD is no row of the opcode table. -/
theorem instrOf_regWrite_other {off : Nat} (ctrl : off ≠ offCtrl) (cmd : off ≠ offCmd) (v : Word) :
    instrOf (.regWrite off v) = none := by
  simp [instrOf, decode, ctrl, cmd]

/-- A register write ends with the table's effect of it (R63). -/
theorem step_regWrite {s : State} {off : Nat} {v : Word} {rest : List Turn} (aligned : off % 4 = 0)
    (h : s.script = .host (.regWrite 4 off v) :: rest) :
    step s = .next (writeReg off v { s with script := rest }) := by
  have raw := moveRaw_regWrite aligned v { s with script := rest }
  by_cases ctrl : off = offCtrl
  · subst ctrl
    exact (step_hostRow h raw rfl).trans (exec_decodeCtrl v _)
  by_cases cmd : off = offCmd
  · subst cmd
    exact (step_hostRow h raw rfl).trans (exec_decodeCmd v _)
  rw [step_hostMove h raw (instrOf_regWrite_other ctrl cmd v), hostMove_regWrite aligned]

/-! ### Reads -/

/-- A read of a register other than STATUS, ERR and ERR_INFO is no row of the opcode table. -/
theorem instrOf_regRead_other {off : Nat} (status : off ≠ offStatus) (err : off ≠ offErr)
    (errInfo : off ≠ offErrInfo) (v : Word) : instrOf (.regRead off v) = none := by
  simp [instrOf, decode, status, err, errInfo]

/-- A status register holds the code of a row of the opcode table, which reads it; only the model's own
hostMatch is written beside the host's log (log 15). -/
theorem instrOf_regRead_status {off : Nat} (s : State)
    (h : off = offStatus ∨ off = offErr ∨ off = offErrInfo) :
    ∃ i m, instrOf (.regRead off (regValue s off)) = some i ∧
      exec i s = .next { give (regValue s off) s with hostMatch := m } := by
  rcases h with rfl | rfl | rfl
  · exact ⟨_, _, encode_stInstr s.st ▸ instrOf_encode _, exec_stInstr s.st s⟩
  · exact ⟨_, _, encode_errInstr s.err ▸ instrOf_encode _, exec_errInstr s.err s⟩
  · exact ⟨_, _, encode_infoInstr s.errInfo ▸ instrOf_encode _, exec_infoInstr s.errInfo s⟩

/-- A register read gives the host the register's value (R62). -/
theorem step_regRead {s : State} {off : Nat} {rest : List Turn} (aligned : off % 4 = 0)
    (h : s.script = .host (.regRead 4 off) :: rest) :
    ∃ m, step s = .next
      { give (regValue s off) { s with script := rest } with hostMatch := m } := by
  have raw := moveRaw_regRead aligned { s with script := rest }
  by_cases code : off = offStatus ∨ off = offErr ∨ off = offErrInfo
  · obtain ⟨i, m, row, run⟩ := instrOf_regRead_status { s with script := rest } code
    exact ⟨m, (step_hostRow h raw row).trans run⟩
  · simp only [not_or] at code
    obtain ⟨status, err, errInfo⟩ := code
    refine ⟨s.hostMatch, ?_⟩
    rw [step_hostMove h raw (instrOf_regRead_other status err errInfo _), hostMove_regRead aligned]
    rfl

end Sys2Proof.Machine

open Sys2Proof Sys2Proof.Machine

/-- Settles O7: a code of STATUS, ERR or ERR_INFO is read by its row of the table, any other register by
the move itself. -/
theorem registerReadsHaveNoSideEffect : Obligations.RegisterReadsHaveNoSideEffect := by
  unfold Obligations.RegisterReadsHaveNoSideEffect
  intro s off rest aligned h
  obtain ⟨m, read⟩ := step_regRead aligned h
  exact ⟨_, read, rfl, rfl⟩

/-- Settles O13: one step is the table's write, taken offset by offset. -/
theorem registerWritesFollowTheTable : Obligations.RegisterWritesFollowTheTable := by
  unfold Obligations.RegisterWritesFollowTheTable
  intro s off v rest aligned h s1
  have write : step s = .next (writeReg off v s1) := step_regWrite aligned h
  rw [write]
  refine ⟨?_, ?_, ?_, ?_, ?_, ?_, ?_⟩
  · rintro rfl start
    exact congrArg _ ((writeReg_ctrl v s1).trans (if_pos start))
  · rintro rfl clear
    exact congrArg _ ((writeReg_ctrl v s1).trans (by simp [clear]))
  · rintro rfl noStart noClear
    exact congrArg _ ((writeReg_ctrl v s1).trans (by simp [noStart, noClear]))
  · rintro rfl free
    exact congrArg _ (selectCommand_stored _ s1 free)
  · rintro rfl free
    exact congrArg _ ((writeReg_inLen v s1).trans (if_neg free))
  · rintro (rfl | rfl) busy
    · exact congrArg _ (selectCommand_dropped _ s1 busy)
    · exact congrArg _ ((writeReg_inLen v s1).trans (if_pos busy))
  · intro ctrl cmd inLen
    exact congrArg _ (writeReg_other ctrl cmd inLen v s1)
end

section
/-! SUPPORT. The buffers as the host sees them (R66): what a write inside changes, and that outside
nothing is written and a read is a draw. -/

namespace Sys2Proof.Machine

section
variable {s : State} {sp : Space} {off : Nat}

/-- While not BUSY the host reaches exactly the bytes below the capacity. -/
theorem reachable_iff (free : s.st ≠ .busy) : reachable s sp off = true ↔ off < capOf s sp := by
  simp [reachable, free]

/-- A write the host can make changes only the contents of the two buffers. -/
theorem writeBuf_frame (sp : Space) (off : Nat) (b : Byte) (s : State) :
    writeBuf sp off b s =
      { s with ibuf := (writeBuf sp off b s).ibuf, obuf := (writeBuf sp off b s).obuf } := by
  unfold writeBuf
  split
  · cases sp <;> rfl
  · rfl

/-- What the buffers hold after a write the host can make. -/
theorem bufByte_writeBuf (reach : reachable s sp off = true) (b : Byte) (sp' : Space) (a : Nat) :
    bufByte (writeBuf sp off b s) sp' a = if (sp', a) = (sp, off) then b else bufByte s sp' a := by
  unfold writeBuf
  rw [if_pos reach]
  cases sp <;> cases sp'
  case ibuf.ibuf => simpa [bufByte] using readIn_put s off a b
  case obuf.obuf => simpa [bufByte] using readOut_put s off a b
  case ibuf.obuf | obuf.ibuf => simp [bufByte, readIn, readOut]

/-- A write the host cannot make changes nothing. -/
theorem writeBuf_ignored (out : ¬ reachable s sp off = true) (b : Byte) : writeBuf sp off b s = s :=
  if_neg out

/-- A read the host can make gives the byte held. -/
theorem readBuf_held (reach : reachable s sp off = true) :
    readBuf sp off s = give ((bufByte s sp off).setWidth 32) s :=
  if_pos reach

/-- A read the host cannot make gives a drawn value. -/
theorem readBuf_drawn (out : ¬ reachable s sp off = true) :
    readBuf sp off s = give ((Config.freeByte s.draws).setWidth 32) (draw s) :=
  if_neg out

end

end Sys2Proof.Machine

open Sys2Proof Sys2Proof.Machine

/-- Settles O14: inside the buffer by what a write leaves of each byte, outside by the draw. -/
theorem bufferAccessesArePlainStorage : Obligations.BufferAccessesArePlainStorage := by
  unfold Obligations.BufferAccessesArePlainStorage
  intro s sp off b rest free
  have reach : reachable { s with script := rest } sp off = true ↔ off < capOf s sp :=
    reachable_iff free
  refine ⟨fun h inside => ?_, fun h outside => ?_, fun h inside => ?_, fun h outside => ?_⟩
  · have held := bufByte_writeBuf (reach.mpr inside) b
    exact ⟨_, step_bufWrite h, (held sp off).trans (if_pos rfl),
      fun sp' a other => (held sp' a).trans (if_neg other), writeBuf_frame sp off b _⟩
  · rw [step_bufWrite h, writeBuf_ignored (mt reach.mp (Nat.not_lt.mpr outside))]
  · rw [step_bufRead h, readBuf_held (reach.mpr inside)]
    rfl
  · refine ⟨Config.freeByte s.draws, ?_⟩
    rw [step_bufRead h, readBuf_drawn (mt reach.mp (Nat.not_lt.mpr outside))]
    rfl
end

section
/-! SUPPORT. What the core leaves to the host (R10, R21, R39, R60): IBUF, CMD, IN_LEN, the capacities and
the host's own record, through every phase and every item. The part is one value, so that "unchanged" is
one equation for each piece of the pseudocode. -/

namespace Sys2Proof.Machine

/-- The host's side of the block: what no phase and no item writes. -/
structure HostSide where
  ibuf : Memory
  ibufEra : Nat
  cmd : BitVec 2
  inLen : Word
  ibufCap : Word
  obufCap : Word
  script : List Turn
  hostLog : List Word
  hostMatch : Bool

/-- The host's side of a state. -/
def State.hostSide (s : State) : HostSide where
  ibuf := s.ibuf
  ibufEra := s.ibufEra
  cmd := s.cmd
  inLen := s.inLen
  ibufCap := s.ibufCap
  obufCap := s.obufCap
  script := s.script
  hostLog := s.hostLog
  hostMatch := s.hostMatch

theorem hostSide_eq_iff {s t : State} :
    t.hostSide = s.hostSide ↔
      t.ibuf = s.ibuf ∧ t.ibufEra = s.ibufEra ∧ t.cmd = s.cmd ∧ t.inLen = s.inLen ∧
      t.ibufCap = s.ibufCap ∧ t.obufCap = s.obufCap ∧
      t.script = s.script ∧ t.hostLog = s.hostLog ∧ t.hostMatch = s.hostMatch := by
  simp [State.hostSide]

/-- An error taken leaves the host's side (R325). -/
@[simp] theorem raise_hostSide (e : ErrInfo) (s : State) : (raise e s).hostSide = s.hostSide := rfl

/-! ### Flows -/

/-- The state in which a piece of pseudocode ends or raises. -/
def Flow.last : Flow → State
  | .go s => s
  | .abort _ s => s

@[simp] theorem Flow.last_go (s : State) : (Flow.go s).last = s := rfl

@[simp] theorem Flow.last_abort (e : ErrInfo) (s : State) : (Flow.abort e s).last = s := rfl

/-- The flow ends in its last state or raises there. -/
theorem Flow.ends_at_last (f : Flow) : f = .go f.last ∨ ∃ e, f = .abort e f.last := by
  cases f with
  | go s => exact .inl rfl
  | abort e s => exact .inr ⟨e, rfl⟩

theorem Flow.last_bind {f : Flow} {k : State → Flow} (hk : ∀ s, (k s).last.hostSide = s.hostSide) :
    (f.bind k).last.hostSide = f.last.hostSide := by
  cases f with
  | go s => exact hk s
  | abort e s => rfl

theorem Flow.last_each {α : Type} {body : α → State → Flow}
    (round : ∀ x s, (body x s).last.hostSide = s.hostSide) (xs : List α) (s : State) :
    (Flow.each body xs s).last.hostSide = s.hostSide := by
  induction xs generalizing s with
  | nil => rfl
  | cons x xs ih => exact (Flow.last_bind ih).trans (round x s)

/-- What holds of the state a flow ends or raises in holds of its last state. -/
theorem Flow.of_last {P : State → Prop} {f : Flow} (go : ∀ u, f = .go u → P u)
    (abort : ∀ e u, f = .abort e u → P u) : P f.last := by
  cases f with
  | go u => exact go u rfl
  | abort e u => exact abort e u rfl

/-! ### The rounds of the phases -/

theorem emit_hostSide (v : Byte) (s : State) : (emit v s).last.hostSide = s.hostSide := by
  unfold emit
  split <;> rfl

theorem emitAll_hostSide (bytes : List Byte) (s : State) :
    (emitAll bytes s).last.hostSide = s.hostSide :=
  Flow.last_each emit_hostSide bytes s

theorem encodeBytes_hostSide (bytes : List Byte) (s : State) :
    (Flow.each encodeByte bytes s).last.hostSide = s.hostSide := by
  obtain ⟨frame, _⟩ := encodeBytes_frame bytes s _ (Flow.ends_at_last _)
  exact (congrArg State.hostSide frame).trans rfl

theorem recordLeaf_hostSide (e : List Bool × Byte) (s : State) :
    (recordLeaf e s).last.hostSide = s.hostSide := by
  obtain ⟨go, abort⟩ := recordLeaf_frame e s
  refine Flow.of_last (P := fun u => u.hostSide = s.hostSide) (fun u hu => ?_) (fun x u hu => ?_)
  · obtain ⟨frame, _⟩ := go u hu
    exact (congrArg State.hostSide frame).trans rfl
  · obtain ⟨_, same, _⟩ := abort x u hu
    exact congrArg State.hostSide same

theorem ParseFrame.hostSide {s u : State} (h : ParseFrame s u) : u.hostSide = s.hostSide :=
  (congrArg State.hostSide h).trans rfl

theorem parseBranch_hostSide (s : State) : (parseBranch s).last.hostSide = s.hostSide :=
  (parseBranch_frame s _ (Flow.ends_at_last _)).hostSide

theorem parseLeaf_hostSide (sym : Byte) (s : State) : (parseLeaf sym s).last.hostSide = s.hostSide :=
  (parseLeaf_frame sym s _ (Flow.ends_at_last _)).hostSide

theorem parseLoop_hostSide (bytes : List Byte) (s : State) :
    (parseLoop bytes s).last.hostSide = s.hostSide :=
  let ⟨go, abort⟩ := parseLoop_frame bytes s
  (Flow.of_last go fun e u hu => (abort e u hu).1).hostSide

theorem parseEnter_hostSide (s : State) : (parseEnter s).hostSide = s.hostSide := by
  unfold parseEnter
  split <;> rfl

theorem WalkFrame.hostSide {s u : State} (h : WalkFrame s u) : u.hostSide = s.hostSide :=
  (congrArg State.hostSide h.1).trans rfl

theorem walkLoop_hostSide (n : Nat) (s : State) : (walkLoop n s).last.hostSide = s.hostSide :=
  let ⟨go, abort⟩ := walkLoop_frame n s
  (Flow.of_last (fun u hu => (go u hu).1) fun e u hu => (abort e u hu).1).hostSide

theorem walkByte_hostSide (b : Byte) (n : Nat) (s : State) :
    (walkByte b n s).last.hostSide = s.hostSide :=
  let ⟨go, abort⟩ := walkByte_frame b n s
  (Flow.of_last (fun u hu => (go u hu).1) fun e u hu => (abort e u hu).1).hostSide

theorem walkEnter_hostSide (s : State) : (walkEnter s).hostSide = s.hostSide := by
  unfold walkEnter
  split <;> rfl

theorem headEmpty_hostSide (s : State) : (headEmpty s).last.hostSide = s.hostSide := by
  unfold headEmpty
  split <;> rfl

theorem takeRoot_hostSide (s : State) : (takeRoot s).hostSide = s.hostSide := by
  unfold takeRoot
  split <;> rfl

/-! ### The phases and the items -/

/-- The outcome, where it is a next state, has the host's side of `s`. -/
def KeepsHostSide (s : State) (o : Host.Outcome State Fault Refusal) : Prop :=
  ∀ t, o = .next t → t.hostSide = s.hostSide

section
variable {s : State}

theorem KeepsHostSide.next {u : State} (h : u.hostSide = s.hostSide) : KeepsHostSide s (.next u) := by
  intro t ht
  cases ht
  exact h

theorem KeepsHostSide.fault (r : Fault) : KeepsHostSide s (.fault r) := by
  intro t ht
  cases ht

/-- Two branches on a condition. -/
theorem KeepsHostSide.ite {p : Prop} [Decidable p] {a b : Host.Outcome State Fault Refusal}
    (ha : KeepsHostSide s a) (hb : KeepsHostSide s b) : KeepsHostSide s (if p then a else b) := by
  split
  · exact ha
  · exact hb

/-- An error raised at once. -/
theorem KeepsHostSide.raise (e : ErrInfo) {u : State} (h : u.hostSide = s.hostSide) :
    KeepsHostSide s (.next (raise e u)) :=
  .next ((raise_hostSide e u).trans h)

theorem KeepsHostSide.outcome {f : Flow} (h : f.last.hostSide = s.hostSide) :
    KeepsHostSide s f.outcome := by
  cases f with
  | go u => exact .next h
  | abort e u => exact .raise e h

/-- A piece of pseudocode and, where it goes on, more that leaves the host's side. -/
theorem KeepsHostSide.bind {f : Flow} {k : State → Flow} (h : f.last.hostSide = s.hostSide)
    (hk : ∀ u, (k u).last.hostSide = u.hostSide) : KeepsHostSide s (f.bind k).outcome :=
  .outcome ((Flow.last_bind hk).trans h)

end

variable (s : State)

theorem execPCheck_hostSide : KeepsHostSide s (execPCheck s) :=
  .ite (.raise _ rfl) (.ite (.raise _ rfl) (.next rfl))

theorem execPEmpty_hostSide : KeepsHostSide s (execPEmpty s) :=
  .bind (emit_hostSide _ s) fun _ => rfl

theorem execPFcount_hostSide : KeepsHostSide s (execPFcount s) := by
  refine .next ?_
  obtain ⟨freq, counted⟩ := countByte_foldl_frame (input s) { s with freq := [], ipos := 0#32 }
  rw [counted]
  rfl

theorem execPHinit_hostSide : KeepsHostSide s (execPHinit s) := by
  refine .next ?_
  obtain ⟨arena, nn, heap, leaves⟩ :=
    hinitSymbol_foldl_frame (List.range Config.alphaMax) { s with nn := 0#10, heap := [] }
  rw [leaves]
  rfl

theorem execPHmerge_hostSide : KeepsHostSide s (execPHmerge s) := by
  obtain ⟨arena, nn, heap, merged, _⟩ := mergeLoop_spec s.heap.length s (Nat.le_succ _)
  have loop : (mergeLoop s.heap.length s).hostSide = s.hostSide := by
    rw [merged]
    rfl
  exact .next ((takeRoot_hostSide _).trans loop)

theorem execPHwrap_hostSide : KeepsHostSide s (execPHwrap s) := .next rfl

theorem execPCgen_hostSide : KeepsHostSide s (execPCgen s) := by
  unfold execPCgen
  split
  · exact .fault _
  · exact .bind (Flow.last_each recordLeaf_hostSide _ _) fun _ => rfl

/-- The length is left general here, or the sum of R274 would be run. -/
theorem execPSize_hostSide : KeepsHostSide s (execPSize s) := by
  have sized (n : BitVec 64) (p : Phase) :
      State.hostSide { s with bitlen := n, phase := p } = s.hostSide := rfl
  unfold execPSize
  simp only
  split
  · exact .raise _ (sized _ s.phase)
  · exact .next (sized _ .tser)

theorem execPTser_hostSide : KeepsHostSide s (execPTser s) := by
  unfold execPTser
  split
  · exact .fault _
  · exact .bind (emitAll_hostSide _ s) fun _ => rfl

theorem execPHdr_hostSide : KeepsHostSide s (execPHdr s) :=
  .bind (emitAll_hostSide _ s) fun _ => rfl

theorem execPEncode_hostSide : KeepsHostSide s (execPEncode s) :=
  .bind (encodeBytes_hostSide _ _) fun _ => rfl

theorem execPFlush_hostSide : KeepsHostSide s (execPFlush s) :=
  .ite (.next rfl) (.bind (emit_hostSide _ s) fun _ => rfl)

theorem execPDhead_hostSide : KeepsHostSide s (execPDhead s) :=
  .ite (.raise _ rfl) (.ite (.outcome (headEmpty_hostSide s)) (.next rfl))

theorem execPTdes_hostSide : KeepsHostSide s (execPTdes s) :=
  .bind (parseLoop_hostSide _ _) fun _ => rfl

theorem execPDelim_hostSide : KeepsHostSide s (execPDelim s) :=
  .ite (.raise _ rfl) (.ite (.raise _ rfl) (.next rfl))

theorem execPRdlen_hostSide : KeepsHostSide s (execPRdlen s) := .ite (.raise _ rfl) (.next rfl)

theorem execPChklen_hostSide : KeepsHostSide s (execPChklen s) := .ite (.raise _ rfl) (.next rfl)

theorem execPWalk_hostSide : KeepsHostSide s (execPWalk s) :=
  .bind (walkLoop_hostSide _ _) fun _ => rfl

theorem execPWend_hostSide : KeepsHostSide s (execPWend s) := .ite (.raise _ rfl) (.next rfl)

theorem execTokBranch_hostSide : KeepsHostSide s (execTokBranch s) :=
  .outcome ((parseBranch_hostSide _).trans (parseEnter_hostSide s))

theorem execTokLeaf_hostSide (sym : Byte) : KeepsHostSide s (execTokLeaf sym s) := by
  refine .bind ((parseLeaf_hostSide sym _).trans (parseEnter_hostSide s)) fun u => ?_
  by_cases done : u.stack = [] <;> simp [done, State.hostSide]

theorem execPayloadByte_hostSide (b : Byte) : KeepsHostSide s (execPayloadByte b s) := by
  refine .bind ((walkByte_hostSide b _ _).trans (walkEnter_hostSide s)) fun u => ?_
  by_cases done : u.bitlen ≤ u.bitpos <;> simp [done, State.hostSide]

/-- No phase and no item writes the host's side (R60). -/
theorem exec_core_hostSide {i : Instr} (core : isCoreInstr i = true) : KeepsHostSide s (exec i s) := by
  cases i with
  | pIdle => exact .next rfl
  | pCheck => exact execPCheck_hostSide s
  | pEmpty => exact execPEmpty_hostSide s
  | pFcount => exact execPFcount_hostSide s
  | pHinit => exact execPHinit_hostSide s
  | pHmerge => exact execPHmerge_hostSide s
  | pHwrap => exact execPHwrap_hostSide s
  | pCgen => exact execPCgen_hostSide s
  | pSize => exact execPSize_hostSide s
  | pTser => exact execPTser_hostSide s
  | pHdr => exact execPHdr_hostSide s
  | pEncode => exact execPEncode_hostSide s
  | pFlush => exact execPFlush_hostSide s
  | pDhead => exact execPDhead_hostSide s
  | pTdes => exact execPTdes_hostSide s
  | pDelim => exact execPDelim_hostSide s
  | pRdlen => exact execPRdlen_hostSide s
  | pChklen => exact execPChklen_hostSide s
  | pWalk => exact execPWalk_hostSide s
  | pWend => exact execPWend_hostSide s
  | pFinish => exact .next rfl
  | tokBranch => exact execTokBranch_hostSide s
  | tokLeaf sym => exact execTokLeaf_hostSide s sym
  | delim => exact .next rfl
  | tokEmpty => exact .outcome (headEmpty_hostSide s)
  | bitlen n => exact .next rfl
  | payloadByte b => exact execPayloadByte_hostSide s b
  | _ => cases core

/-! ### The capacities, whoever acts (R10, log 2) -/

/-- The two capacities of a state. -/
def State.capacities (s : State) : Word × Word := (s.ibufCap, s.obufCap)

theorem capacities_eq_iff {s t : State} :
    t.capacities = s.capacities ↔ t.ibufCap = s.ibufCap ∧ t.obufCap = s.obufCap :=
  Prod.mk_inj

theorem capacities_of_hostSide {s t : State} (h : t.hostSide = s.hostSide) :
    t.capacities = s.capacities :=
  congrArg (fun side : HostSide => (side.ibufCap, side.obufCap)) h

theorem writeReg_capacities (off : Nat) (v : Word) :
    (writeReg off v s).capacities = s.capacities := by
  by_cases ctrl : off = offCtrl
  · subst ctrl
    rw [writeReg_ctrl]
    split
    · simp [State.capacities]
    · split
      · simp [State.capacities]
      · rfl
  by_cases cmd : off = offCmd
  · subst cmd
    simp [writeReg_cmd, State.capacities]
  by_cases inLen : off = offInLen
  · subst inLen
    rw [writeReg_inLen]
    split <;> rfl
  · rw [writeReg_other ctrl cmd inLen]

theorem readBuf_capacities (sp : Space) (off : Nat) :
    (readBuf sp off s).capacities = s.capacities := by
  unfold readBuf
  split <;> rfl

theorem hostMove_capacities (m : Move) : (hostMove m s).capacities = s.capacities := by
  cases m with
  | regRead width off =>
    simp only [hostMove]
    split <;> rfl
  | regWrite width off v =>
    simp only [hostMove]
    split
    · exact writeReg_capacities s off v
    · rfl
  | bufRead sp off => exact readBuf_capacities s sp off
  | bufWrite sp off b =>
    exact (congrArg State.capacities (writeBuf_frame sp off b s)).trans rfl
  | reset => rfl

/-- No instruction writes the capacities: the core's leave the host's side, the others are a register
access. -/
theorem exec_capacities {i : Instr} {t : State} (h : exec i s = .next t) :
    t.capacities = s.capacities := by
  have back := (decodesBack i).1
  cases code : encode i with
  | phase | artifact =>
    exact capacities_of_hostSide (exec_core_hostSide s (by simp [isCoreInstr, code]) t h)
  | regWrite off v =>
    rw [code] at back
    obtain ⟨_, ⟨_, rfl⟩ | ⟨_, rfl⟩⟩ := decode_regWrite_cases back
    · cases (exec_decodeCtrl v s).symm.trans h
      exact writeReg_capacities s offCtrl v
    · cases (exec_decodeCmd v s).symm.trans h
      exact writeReg_capacities s offCmd v
  | regRead off v =>
    rw [code] at back
    obtain ⟨_, ⟨_, x, rfl, _⟩ | ⟨_, x, rfl, _⟩ | ⟨_, x, rfl, _⟩⟩ := decode_regRead_cases back
    · cases (exec_stInstr x s).symm.trans h
      rfl
    · cases (exec_errInstr x s).symm.trans h
      rfl
    · cases (exec_infoInstr x s).symm.trans h
      rfl

/-- The state a step has fetched in, or the one the move it fetched ends in. -/
def Fetched.state : Fetched → State
  | .run _ s => s
  | .done s => s

theorem fetchItem_capacities : (fetchItem s).state.capacities = s.capacities := by
  unfold fetchItem
  split <;> rfl

theorem fetchCore_capacities : (fetchCore s).state.capacities = s.capacities := by
  unfold fetchCore
  split
  · exact fetchItem_capacities s
  · split <;> rfl

theorem fetchMove_capacities (m : Move) : (fetchMove m s).state.capacities = s.capacities := by
  unfold fetchMove
  split
  · rfl
  · exact hostMove_capacities s m

theorem fetchTurn_capacities (t : Turn) : (fetchTurn t s).state.capacities = s.capacities := by
  cases t with
  | core => exact fetchCore_capacities s
  | item => exact fetchItem_capacities s
  | host m => exact fetchMove_capacities s m
  | line | poll | fetchOut | loadBack => rfl

theorem fetch_capacities : (fetch s).state.capacities = s.capacities := by
  cases hs : s.script with
  | nil => rw [fetch_nil hs]; exact fetchCore_capacities s
  | cons t rest => rw [fetch_cons hs]; exact fetchTurn_capacities { s with script := rest } t

theorem step_capacities {s t : State} (h : step s = .next t) : t.capacities = s.capacities := by
  have fetched := fetch_capacities s
  cases hf : fetch s with
  | run i u =>
    rw [hf] at fetched
    exact (exec_capacities u ((step_run hf).symm.trans h)).trans fetched
  | done u =>
    cases (step_done hf).symm.trans h
    rwa [hf] at fetched

end Sys2Proof.Machine

open Sys2Proof Sys2Proof.Machine

/-- Settles O52: phase by phase and item by item for the host's side, turn by turn for the capacities. -/
theorem coreLeavesTheHostSide : Obligations.CoreLeavesTheHostSide := by
  unfold Obligations.CoreLeavesTheHostSide
  exact ⟨fun i s t core h => hostSide_eq_iff.mp (exec_core_hostSide s core t h),
    fun s t h => capacities_eq_iff.mp (step_capacities h)⟩
end

section
/-! SUPPORT. What the decoder refuses: the PHASE codes that no phase has (R135), a marker byte other than
the two of R110. -/

namespace Sys2Proof

/-- The PHASE codes no phase has are the two gaps in the table (R135, R112). -/
theorem phase_ofCode_eq_none_iff (c : BitVec 5) :
    Phase.ofCode c = none ↔ (13#5 ≤ c ∧ c ≤ 15#5) ∨ (23#5 ≤ c ∧ c ≤ 30#5) := by
  revert c; decide

/-- A PHASE code is refused exactly when no phase has it. -/
theorem decode_phase_error_iff (c : BitVec 5) :
    (∃ e, decode (.phase c) = .error e) ↔ Phase.ofCode c = none := by
  cases h : Phase.ofCode c <;> simp [decode, h]

/-- At a marker position every byte but the two markers is refused, whatever follows it (R110). -/
theorem decode_marker_error {b : Byte} (rest : List Byte) (branch : b ≠ Config.tokBranch)
    (leaf : b ≠ Config.tokLeaf) : decode (.artifact .marker (b :: rest)) = .error (.badMarker b) :=
  (if_neg branch).trans (if_neg leaf)

end Sys2Proof

/-- Settles O4: the PHASE codes by the gaps in their table, the markers by the decoder's two tests, the
special bytes and the single codes of ERR and ERR_INFO by their values. -/
theorem unusedCodesAreRejected : Obligations.UnusedCodesAreRejected := by
  unfold Obligations.UnusedCodesAreRejected
  refine ⟨?specialBytes, fun c => ?phases, rfl, rfl, rfl, fun b rest => ?markers⟩
  case specialBytes => decide
  case phases =>
    exact (Sys2Proof.decode_phase_error_iff c).trans (Sys2Proof.phase_ofCode_eq_none_iff c)
  case markers => exact Sys2Proof.decode_marker_error rest
end

section
/-! SUPPORT. The phase graph (R136): where each phase goes on to, and how far each phase is from the end of
its command (R139). -/

namespace Sys2Proof.Machine

/-! ### Where a phase goes on to -/

/-- The phase that follows `p` where it raises nothing (R136). P_IDLE has none, and FINISH ends the
command. -/
def nextPhase (s : State) : Phase → Phase
  | .check => checkedPhase s
  | .fcount => .hinit
  | .hinit => if s.k = 1#9 then .hwrap else .hmerge
  | .hmerge => .cgen
  | .hwrap => .cgen
  | .cgen => .size
  | .size => .tser
  | .tser => .hdr
  | .hdr => .encode
  | .encode => .flush
  | .dhead => if s.inLen = 1#32 ∧ readIn s 0 = Config.tokEmpty then .finish else .tdes
  | .tdes => .delim
  | .delim => .rdlen
  | .rdlen => .chklen
  | .chklen => .walk
  | .walk => .wend
  | .empty | .flush | .wend => .finish
  | .finish | .idle => .idle

theorem nextPhase_mem_successors (s : State) (p : Phase) : nextPhase s p ∈ successors p := by
  cases p
  case check =>
    simp only [nextPhase, checkedPhase, successors]
    split
    · split <;> simp
    · simp
  case hinit => simp only [nextPhase, successors]; split <;> simp
  case dhead => simp only [nextPhase, successors]; split <;> simp
  all_goals simp [nextPhase, successors]

/-- The outcome, where it is a next state, is an error taken, or goes on with phase `q` while the rest of
the sequencer stays as it was. -/
def GoesTo (s : State) (q : Phase) (o : Host.Outcome State Fault Refusal) : Prop :=
  ∀ t, o = .next t → (t.st = .error ∧ t.phase = .idle) ∨
    (t.phase = q ∧ t.st = s.st ∧ (s.fine = false → t.fine = false))

section
variable {s : State} {q : Phase}

theorem GoesTo.next {u : State} (phase : u.phase = q) (st : u.st = s.st)
    (fine : s.fine = false → u.fine = false) : GoesTo s q (.next u) := by
  intro t ht
  cases ht
  exact .inr ⟨phase, st, fine⟩

theorem GoesTo.raise (e : ErrInfo) (u : State) : GoesTo s q (.next (raise e u)) := by
  intro t ht
  cases ht
  exact .inl ⟨rfl, rfl⟩

theorem GoesTo.fault (r : Fault) : GoesTo s q (.fault r) := by
  intro t ht
  cases ht

theorem GoesTo.ite {p : Prop} [Decidable p] {a b : Host.Outcome State Fault Refusal}
    (ha : GoesTo s q a) (hb : GoesTo s q b) : GoesTo s q (if p then a else b) := by
  split
  · exact ha
  · exact hb

/-- Pseudocode that leaves ST and goes on in the steps it was begun in, followed by the change of PHASE. -/
theorem GoesTo.bind {f : Flow} {k : State → State}
    (body : ∀ u, f = .go u → u.st = s.st ∧ u.fine = s.fine)
    (phase : ∀ u, (k u).phase = q ∧ (k u).st = u.st ∧ (u.fine = false → (k u).fine = false)) :
    GoesTo s q (f.bind fun u => .go (k u)).outcome := by
  cases f with
  | abort e u => exact .raise e u
  | go u =>
    obtain ⟨st, fine⟩ := body u rfl
    obtain ⟨next, st', fine'⟩ := phase u
    exact .next next (st'.trans st) fun h => fine' (fine.trans h)

end

/-- A loop leaves ST and `fine` if each round does. -/
theorem Flow.each_keeps_running {α : Type} {body : α → State → Flow}
    (round : ∀ x s u, body x s = .go u → u.st = s.st ∧ u.fine = s.fine) (xs : List α) {s u : State}
    (h : Flow.each body xs s = .go u) : u.st = s.st ∧ u.fine = s.fine := by
  induction xs generalizing s with
  | nil => cases h; exact ⟨rfl, rfl⟩
  | cons x xs ih =>
    obtain ⟨m, hm, hu⟩ := Flow.bind_eq_go.mp h
    obtain ⟨st, fine⟩ := round x s m hm
    obtain ⟨st', fine'⟩ := ih hu
    exact ⟨st'.trans st, fine'.trans fine⟩

theorem emit_keeps_running {v : Byte} {s u : State} (h : emit v s = .go u) :
    u.st = s.st ∧ u.fine = s.fine := by
  rcases emit_cases v s with ⟨_, m, hm, _, frame, _⟩ | ⟨_, full⟩
  · rw [hm] at h
    cases h
    rw [frame]
    exact ⟨rfl, rfl⟩
  · rw [full] at h
    cases h

theorem emitAll_keeps_running {bytes : List Byte} {s u : State} (h : emitAll bytes s = .go u) :
    u.st = s.st ∧ u.fine = s.fine :=
  Flow.each_keeps_running (fun _ _ _ => emit_keeps_running) bytes h

theorem recordLeaf_keeps_running {e : List Bool × Byte} {s u : State} (h : recordLeaf e s = .go u) :
    u.st = s.st ∧ u.fine = s.fine := by
  obtain ⟨frame, _⟩ := (recordLeaf_frame e s).1 u h
  rw [frame]
  exact ⟨rfl, rfl⟩

variable (s : State)

theorem execPCheck_goesTo : GoesTo s (checkedPhase s) (execPCheck s) :=
  .ite (.raise _ s) (.ite (.raise _ s) (.next rfl rfl id))

theorem execPEmpty_goesTo : GoesTo s .finish (execPEmpty s) :=
  .bind (fun _ => emit_keeps_running) fun _ => ⟨rfl, rfl, id⟩

theorem execPFcount_goesTo : GoesTo s .hinit (execPFcount s) := by
  obtain ⟨freq, counted⟩ := countByte_foldl_frame (input s) { s with freq := [], ipos := 0#32 }
  unfold execPFcount
  rw [counted]
  exact .next rfl rfl id

theorem execPHinit_goesTo : GoesTo s (if s.k = 1#9 then .hwrap else .hmerge) (execPHinit s) := by
  obtain ⟨arena, nn, heap, leaves⟩ :=
    hinitSymbol_foldl_frame (List.range Config.alphaMax) { s with nn := 0#10, heap := [] }
  unfold execPHinit
  rw [leaves]
  exact .next rfl rfl id

theorem execPHmerge_goesTo : GoesTo s .cgen (execPHmerge s) := by
  obtain ⟨arena, nn, heap, merged, _⟩ := mergeLoop_spec s.heap.length s (Nat.le_succ _)
  unfold execPHmerge
  rw [merged]
  unfold takeRoot
  split <;> exact .next rfl rfl id

theorem execPCgen_goesTo : GoesTo s .size (execPCgen s) := by
  unfold execPCgen
  split
  · exact .fault _
  · exact .bind (fun _ => Flow.each_keeps_running (fun _ _ _ => recordLeaf_keeps_running) _)
      fun _ => ⟨rfl, rfl, id⟩

/-- The length is left general here, or the sum of R274 would be run. -/
theorem execPSize_goesTo : GoesTo s .tser (execPSize s) := by
  have sized (n : BitVec 64) : GoesTo s .tser (.next { s with bitlen := n, phase := .tser }) :=
    .next rfl rfl id
  unfold execPSize
  simp only
  split
  · exact .raise _ _
  · exact sized _

theorem execPTser_goesTo : GoesTo s .hdr (execPTser s) := by
  unfold execPTser
  split
  · exact .fault _
  · exact .bind (fun _ => emitAll_keeps_running) fun _ => ⟨rfl, rfl, id⟩

theorem execPHdr_goesTo : GoesTo s .encode (execPHdr s) :=
  .bind (fun _ => emitAll_keeps_running) fun _ => ⟨rfl, rfl, id⟩

theorem execPEncode_goesTo : GoesTo s .flush (execPEncode s) := by
  refine .bind (fun u h => ?_) fun _ => ⟨rfl, rfl, id⟩
  obtain ⟨frame, _⟩ := encodeBytes_frame _ _ u (.inl h)
  rw [frame]
  exact ⟨rfl, rfl⟩

theorem execPFlush_goesTo : GoesTo s .finish (execPFlush s) :=
  .ite (.next rfl rfl id) (.bind (fun _ => emit_keeps_running) fun _ => ⟨rfl, rfl, id⟩)

theorem execPDhead_goesTo :
    GoesTo s (if s.inLen = 1#32 ∧ readIn s 0 = Config.tokEmpty then .finish else .tdes)
      (execPDhead s) := by
  unfold execPDhead headEmpty
  by_cases one : s.inLen = 1#32
  · by_cases empty : readIn s 0 = Config.tokEmpty
    · simp only [one, empty, and_self, if_true]
      exact GoesTo.next rfl rfl id
    · simp only [empty, and_false, if_false]
      exact .ite (.raise _ s) (.next rfl rfl id)
  · rw [if_neg fun h => one h.1, if_pos one]
    exact .ite (.raise _ s) (.ite (.raise _ s) (.next rfl rfl id))

theorem execPTdes_goesTo : GoesTo s .delim (execPTdes s) := by
  refine .bind (fun u h => ?_) fun _ => ⟨rfl, rfl, fun _ => rfl⟩
  have frame := (parseLoop_frame _ _).1 u h
  unfold ParseFrame at frame
  rw [frame]
  exact ⟨rfl, rfl⟩

theorem execPDelim_goesTo : GoesTo s .rdlen (execPDelim s) :=
  .ite (.raise _ s) (.ite (.raise _ s) (.next rfl rfl id))

theorem execPRdlen_goesTo : GoesTo s .chklen (execPRdlen s) := .ite (.raise _ s) (.next rfl rfl id)

theorem execPChklen_goesTo : GoesTo s .walk (execPChklen s) := .ite (.raise _ s) (.next rfl rfl id)

theorem execPWalk_goesTo : GoesTo s .wend (execPWalk s) := by
  refine .bind (fun u h => ?_) fun _ => ⟨rfl, rfl, fun _ => rfl⟩
  obtain ⟨⟨frame, _⟩, _⟩ := (walkLoop_frame _ _).1 u h
  rw [frame]
  exact ⟨rfl, rfl⟩

theorem execPWend_goesTo : GoesTo s .finish (execPWend s) := .ite (.raise _ s) (.next rfl rfl id)

/-- Every phase but FINISH goes on as the graph says or raises an error (R136). -/
theorem phase_goesTo {p : Phase} (idle : p ≠ .idle) (finish : p ≠ .finish) :
    GoesTo s (nextPhase s p) (exec (phaseInstr p) s) := by
  cases p with
  | idle => exact absurd rfl idle
  | check => exact execPCheck_goesTo s
  | empty => exact execPEmpty_goesTo s
  | fcount => exact execPFcount_goesTo s
  | hinit => exact execPHinit_goesTo s
  | hmerge => exact execPHmerge_goesTo s
  | hwrap => exact GoesTo.next rfl rfl id
  | cgen => exact execPCgen_goesTo s
  | size =>
    rw [exec_phaseInstr_size]
    exact execPSize_goesTo s
  | tser => exact execPTser_goesTo s
  | hdr => exact execPHdr_goesTo s
  | encode => exact execPEncode_goesTo s
  | flush => exact execPFlush_goesTo s
  | dhead => exact execPDhead_goesTo s
  | tdes => exact execPTdes_goesTo s
  | delim => exact execPDelim_goesTo s
  | rdlen => exact execPRdlen_goesTo s
  | chklen => exact execPChklen_goesTo s
  | walk => exact execPWalk_goesTo s
  | wend => exact execPWend_goesTo s
  | finish => exact absurd rfl finish

/-! ### How far a phase is from the end -/

/-- How many phases a command in phase `p` has left at most, `p` included (R139). -/
def phasesLeft : Phase → Nat
  | .idle => 0
  | .finish => 1
  | .empty | .flush | .wend => 2
  | .encode | .walk => 3
  | .hdr | .chklen => 4
  | .tser | .rdlen => 5
  | .size | .delim => 6
  | .cgen | .tdes => 7
  | .hmerge | .hwrap | .dhead => 8
  | .hinit => 9
  | .fcount => 10
  | .check => 11

theorem phasesLeft_le (p : Phase) : phasesLeft p ≤ 11 := by cases p <;> decide

theorem phasesLeft_successor {p q : Phase} (h : q ∈ successors p) (idle : p ≠ .idle) :
    phasesLeft q < phasesLeft p := by
  revert q
  cases p
  case idle => exact absurd rfl idle
  all_goals decide

variable {s}

/-- The script stays empty through a step of the core (R60). -/
theorem script_of_exec_phase {p : Phase} {t : State} (h : exec (phaseInstr p) s = .next t) :
    t.script = s.script :=
  congrArg HostSide.script
    (exec_core_hostSide s (i := phaseInstr p) (by rw [isCoreInstr, encode_phaseInstr]) t h)

/-- A running command ends within the phases it has left. -/
theorem reaches_end (n : Nat) (sound : Sound s) (busy : s.st = .busy) (script : s.script = [])
    (fine : s.fine = false) (left : phasesLeft s.phase ≤ n) :
    Reaches n s (fun t => t.st = .done ∨ t.st = .error) := by
  induction n generalizing s with
  | zero =>
    have idle : s.phase ≠ .idle := by
      obtain ⟨⟨running, _⟩, _⟩ := sound
      exact running.mp busy
    cases hp : s.phase <;> simp [hp, phasesLeft] at left idle
  | succ n ih =>
    have idle : s.phase ≠ .idle := by
      obtain ⟨⟨running, _⟩, _⟩ := sound
      exact running.mp busy
    have run := step_busy busy script fine
    obtain ⟨t, ht, soundT⟩ := step_sound sound
    refine Reaches.step ht ?_
    rw [run] at ht
    by_cases finish : s.phase = .finish
    · rw [finish] at ht
      cases ht
      exact Reaches.here (.inl rfl)
    · rcases phase_goesTo s idle finish t ht with ⟨error, _⟩ | ⟨next, st, whole⟩
      · exact Reaches.here (.inr error)
      · refine ih soundT (st.trans busy) ((script_of_exec_phase ht).trans script) (whole fine) ?_
        have closer := phasesLeft_successor (nextPhase_mem_successors s s.phase) idle
        rw [next]
        omega

end Sys2Proof.Machine

open Sys2Proof Sys2Proof.Machine

/-- Settles O54: each phase goes on to one with fewer phases left, or the command has ended. -/
theorem commandsEnd : Obligations.CommandsEnd := by
  unfold Obligations.CommandsEnd
  exact fun s sound busy script fine => reaches_end 11 sound busy script fine (phasesLeft_le s.phase)

/-- Settles O51, phase by phase; a refused CMD value raises an error in CHECK. -/
theorem phasesFollowTheGraph : Obligations.PhasesFollowTheGraph := by
  unfold Obligations.PhasesFollowTheGraph
  refine ⟨fun p s t idle _ busy ht => ?graph, fun s v free => ?start⟩
  case start => exact ⟨_, congrArg Host.Outcome.next (beginCommand_acts s free), rfl⟩
  case graph =>
    by_cases finish : p = .finish
    · subst finish
      cases ht
      exact .inr ⟨List.mem_singleton.mpr rfl, nofun, fun _ => rfl, nofun, nofun, nofun, nofun⟩
    · refine (phase_goesTo s idle finish t ht).imp id fun ⟨next, st, _⟩ => ?_
      refine ⟨next ▸ nextPhase_mem_successors s p, fun _ => st.trans busy, (absurd · finish), ?_, ?_, ?_, ?_⟩
      · rintro rfl; exact next
      · rintro rfl
        by_contra illegal
        have refused := execPCheck_illegal (not_or.mp illegal)
        cases refused.symm.trans ht
        exact absurd st (by simp [busy])
      · rintro rfl; exact next
      · rintro rfl; exact next
end

section
/-! SUPPORT. What each kind of turn runs (R138), and the phases common to both commands: CHECK (R134) and
FINISH (R137). -/

namespace Sys2Proof.Machine

theorem instrOf_of_decode {r : Raw} {i : Instr} {more : List Byte} (h : decode r = .ok (i, more)) :
    instrOf r = some i := by
  unfold instrOf
  rw [h]

/-- PHASE holds the code of the phase that runs. -/
theorem decode_phase_code {p : Phase} {i : Instr} {more : List Byte}
    (h : decode (.phase p.code) = .ok (i, more)) : i = phaseInstr p :=
  Option.some.inj ((instrOf_of_decode h).symm.trans (instrOf_phase p))

section
variable {s : State} {rest : List Turn}

/-- The core's turn runs the phase PHASE names. -/
theorem step_core (script : s.script = .core :: rest) (busy : s.st = .busy) (fine : s.fine = false) :
    step s = exec (phaseInstr s.phase) { s with script := rest } :=
  step_run ((fetch_cons script).trans (fetchCore_busy (s := { s with script := rest }) busy fine))

/-- An item turn runs the next item, or the phase where there is none to decode. -/
theorem step_item (script : s.script = .item :: rest) (busy : s.st = .busy) :
    step s = exec ((itemInstr { s with script := rest }).getD (phaseInstr s.phase))
      { s with script := rest } :=
  step_run ((fetch_cons script).trans (if_pos busy))

theorem itemInstr_of_decode {r : Raw} {i : Instr} {more : List Byte} (raw : itemRaw s = some r)
    (h : decode r = .ok (i, more)) : itemInstr s = some i :=
  Option.bind_eq_some_iff.mpr ⟨r, raw, instrOf_of_decode h⟩

end

/-- IN_LEN is 0 exactly as a number. -/
theorem inLen_eq_zero_iff (s : State) : s.inLen = 0#32 ↔ s.inLen.toNat = 0 := by
  simp [← BitVec.toNat_inj]

/-- `below n` keeps every written byte of the result (R371). -/
theorem readOut_finish {s t : State} (obuf : t.obuf = Memory.below s.obuf s.opos.toNat) {a : Nat}
    (inside : a < s.opos.toNat) (written : (Table.find? s.obuf a).isSome = true) :
    readOut t a = readOut s a := by
  obtain ⟨b, hb⟩ := Option.isSome_iff_exists.mp written
  simp only [readOut, obuf, Memory.find?_below, if_pos inside, hb, Option.getD_some]

end Sys2Proof.Machine

open Sys2Proof Sys2Proof.Machine

/-- Settles O5, turn by turn: each encoding stands for the one instruction it decodes to. -/
theorem stepRunsTheDecodedInstruction : Obligations.StepRunsTheDecodedInstruction := by
  unfold Obligations.StepRunsTheDecodedInstruction
  intro s i rest more
  refine ⟨fun busy fine script h => ?none, fun busy fine script h => ?core,
    fun r busy script raw h => ?item, fun off v aligned script h => ?write,
    fun off aligned script h => ?read⟩
  case none => rw [decode_phase_code h, step_busy busy script fine]
  case core => rw [decode_phase_code h, step_core script busy fine]
  case item => rw [step_item script busy, itemInstr_of_decode raw h, Option.getD_some]
  case write => exact step_hostRow script (moveRaw_regWrite aligned v _) (instrOf_of_decode h)
  case read => exact step_hostRow script (moveRaw_regRead aligned _) (instrOf_of_decode h)

/-- Settles O6: the core's turn while not BUSY is P_IDLE. -/
theorem idleCoreTakesNoStep : Obligations.IdleCoreTakesNoStep := by
  unfold Obligations.IdleCoreTakesNoStep
  exact fun s => ⟨rfl, step_ended⟩

/-- Settles O9: START by ST. -/
theorem startBeginsACommand : Obligations.StartBeginsACommand := by
  unfold Obligations.StartBeginsACommand
  exact fun _ s => ⟨fun h => congrArg Host.Outcome.next (beginCommand_acts s h),
    fun h => congrArg Host.Outcome.next (beginCommand_ignored s h)⟩

/-- Settles O10: CLEAR by ST. -/
theorem clearAcknowledges : Obligations.ClearAcknowledges := by
  unfold Obligations.ClearAcknowledges
  exact fun _ s => ⟨fun h => congrArg Host.Outcome.next (acknowledge_acts s h),
    fun h => congrArg Host.Outcome.next (acknowledge_ignored s h)⟩

/-- Settles O20: CHECK by its two tests. -/
theorem checkPhaseDecidesInOrder : Obligations.CheckPhaseDecidesInOrder := by
  unfold Obligations.CheckPhaseDecidesInOrder
  refine fun s => ⟨fun h1 h2 => execPCheck_illegal ⟨h1, h2⟩,
    fun legal long => execPCheck_tooLong legal (BitVec.lt_def.mpr long), fun legal fits => ?_⟩
  refine (execPCheck_passes legal (BitVec.le_def.mpr fits)).trans ?_
  simp only [checkedPhase, inLen_eq_zero_iff]

/-- Settles O21: FINISH forgets only bytes at and above OPOS. -/
theorem finishPublishesTheResult : Obligations.FinishPublishesTheResult := by
  unfold Obligations.FinishPublishesTheResult
  exact fun s => ⟨_, rfl, rfl, fun a inside written => readOut_finish rfl inside written⟩
end

section
/-! SUPPORT. The abstract parser: what it accepts, and what it answers on serialized trees and on their
proper beginnings (R228, R232). -/

namespace Sys2Proof.Machine

/-! ### The size of a tree -/

theorem nodeCount_eq (t : Tree) : nodeCount t + 1 = 2 * leafCount t := by
  induction t with
  | leaf => rfl
  | node l r ihl ihr => simp only [nodeCount, leafCount]; omega

/-- A tree with L leaves serializes to 3L - 1 bytes (R98, R222). -/
theorem serialize_length_eq (t : Tree) : (serialize t).length + 1 = 3 * leafCount t := by
  induction t with
  | leaf => rfl
  | node l r ihl ihr =>
    simp only [serialize, leafCount, List.length_cons, List.length_append]
    omega

theorem nodeCount_pos (t : Tree) : 1 ≤ nodeCount t := by
  have := nodeCount_eq t
  have := leafCount_pos t
  omega

theorem tokBranch_ne_tokLeaf : Config.tokBranch ≠ Config.tokLeaf := by decide

/-! ### What the parser accepts -/

/-- The parser accepts only the serialization of the tree it answers, within the arena (R229, R232). -/
theorem parseTree_ok {fuel nn n : Nat} {bytes rest : List Byte} {t : Tree}
    (h : parseTree fuel nn bytes = .ok (t, n, rest)) :
    bytes = serialize t ++ rest ∧ n = nn + nodeCount t ∧ n ≤ Config.nodeCap := by
  induction fuel generalizing nn n bytes rest t with
  | zero => cases h
  | succ fuel ih =>
    cases bytes with
    | nil => cases h
    | cons m more =>
      simp only [parseTree] at h
      split at h
      next leaf =>
        subst leaf
        split at h
        next => cases h
        next room =>
          cases more with
          | nil => cases h
          | cons sym more => cases h; exact ⟨rfl, rfl, Nat.lt_of_not_le room⟩
      next =>
        split at h
        next branch =>
          subst branch
          split at h
          next => cases h
          next =>
            split at h
            next => cases h
            next l n1 r1 hl =>
              split at h
              next => cases h
              next r n2 r2 hr =>
                cases h
                obtain ⟨el, cl, _⟩ := ih hl
                obtain ⟨er, cr, fits⟩ := ih hr
                refine ⟨?_, ?_, fits⟩
                · rw [el, er]
                  simp [serialize]
                · simp only [nodeCount]
                  omega
        next => cases h

/-- The parser reads back a serialized tree that fits the arena, whatever follows it (R232). -/
theorem parseTree_serialize {fuel nn : Nat} (t : Tree) (rest : List Byte)
    (enough : (serialize t).length ≤ fuel) (fits : nn + nodeCount t ≤ Config.nodeCap) :
    parseTree fuel nn (serialize t ++ rest) = .ok (t, nn + nodeCount t, rest) := by
  induction t generalizing fuel nn rest with
  | leaf sym =>
    obtain ⟨fuel, rfl⟩ := Nat.exists_eq_add_of_lt (Nat.lt_of_lt_of_le Nat.zero_lt_two enough)
    simp only [nodeCount] at fits
    simp [serialize, parseTree, nodeCount, Nat.not_le.mpr fits]
  | node l r ihl ihr =>
    simp only [serialize, List.length_cons, List.length_append, nodeCount] at enough fits
    obtain ⟨fuel, rfl⟩ : ∃ f, fuel = f + 1 := ⟨fuel - 1, by omega⟩
    have room : ¬ Config.nodeCap ≤ nn := by omega
    simp only [serialize, List.cons_append, List.append_assoc, parseTree, if_neg tokBranch_ne_tokLeaf,
      if_true, if_neg room, ihl (fuel := fuel) (nn := nn + 1) (serialize r ++ rest) (by omega) (by omega),
      ihr (fuel := fuel) (nn := nn + 1 + nodeCount l) rest (by omega) (by omega), nodeCount]
    congr 3
    omega

/-- A proper beginning of two strings in a row ends in the first one or in the second one. -/
theorem prefix_append_cases {α : Type} {p a b : List α} (h : p <+: a ++ b) (proper : p ≠ a ++ b) :
    (p <+: a ∧ p ≠ a) ∨ ∃ q, p = a ++ q ∧ q <+: b ∧ q ≠ b := by
  by_cases pre : a <+: p
  · obtain ⟨q, rfl⟩ := pre
    exact .inr ⟨q, rfl, (List.prefix_append_right_inj a).mp h, fun hb => proper (by rw [hb])⟩
  · exact .inl ⟨(List.prefix_or_prefix_of_prefix h (List.prefix_append a b)).resolve_right pre,
      fun e => pre (e ▸ List.prefix_rfl)⟩

/-- On a proper beginning of a serialized tree that fits the arena the input is exhausted (R143, R228). -/
theorem parseTree_prefix {fuel nn : Nat} {t : Tree} {bytes : List Byte} (h : bytes <+: serialize t)
    (proper : bytes ≠ serialize t) (enough : bytes.length ≤ fuel)
    (fits : nn + nodeCount t ≤ Config.nodeCap) : parseTree fuel nn bytes = .error .truncated := by
  induction t generalizing fuel nn bytes with
  | leaf sym =>
    cases fuel with
    | zero => rfl
    | succ fuel =>
      have room : ¬ Config.nodeCap ≤ nn := by simp only [nodeCount] at fits; omega
      simp only [serialize, List.prefix_cons_iff, List.prefix_nil] at h proper
      obtain rfl | ⟨m, rfl, rfl | ⟨m', rfl, rfl⟩⟩ := h
      · rfl
      · simp [parseTree, room]
      · exact absurd rfl proper
  | node l r ihl ihr =>
    cases fuel with
    | zero => rfl
    | succ fuel =>
      simp only [nodeCount] at fits
      have room : ¬ Config.nodeCap ≤ nn := by omega
      simp only [serialize, List.prefix_cons_iff] at h proper
      obtain rfl | ⟨more, rfl, h⟩ := h
      · rfl
      · replace enough : more.length ≤ fuel := Nat.le_of_succ_le_succ enough
        simp only [parseTree, if_neg tokBranch_ne_tokLeaf, if_true, if_neg room]
        rcases prefix_append_cases h fun e => proper (by rw [e]) with ⟨pre, ne⟩ | ⟨q, rfl, pre, ne⟩
        · rw [ihl pre ne enough (by omega)]
        · rw [List.length_append] at enough
          rw [parseTree_serialize l q (by omega) (by omega)]
          simp only [ihr (nn := nn + 1 + nodeCount l) pre ne (by omega : q.length ≤ fuel) (by omega)]

end Sys2Proof.Machine
end

section
/-! SUPPORT. TDES against the abstract parser (R228): the arena holds the tree that `parseTree` answers, in
the order of its tokens, and the same check fails first. -/

namespace Sys2Proof.Machine

/-! ### A tree in the arena -/

/-- The entries from `i` on hold `t` in the order TDES creates them (R228): a node, its left subtree, its
right subtree. -/
def Laid (arena : Table Node) : Nat → Tree → Prop
  | i, .leaf sym => (nodeAt arena i).kind = .leaf ∧ (nodeAt arena i).sym = sym
  | i, .node l r =>
    (nodeAt arena i).kind = .internal ∧ (nodeAt arena i).left.toNat = i + 1 ∧
    (nodeAt arena i).right.toNat = i + 1 + nodeCount l ∧
    Laid arena (i + 1) l ∧ Laid arena (i + 1 + nodeCount l) r

/-- A tree in the arena depends on its own entries alone. -/
theorem Laid.congr {a b : Table Node} {t : Tree} {i : Nat} (h : Laid a i t)
    (same : ∀ j, i ≤ j → j < i + nodeCount t → nodeAt b j = nodeAt a j) : Laid b i t := by
  induction t generalizing i with
  | leaf sym =>
    simp only [Laid, nodeCount] at h same ⊢
    rwa [same i (Nat.le_refl i) (by omega)]
  | node l r ihl ihr =>
    simp only [Laid, nodeCount] at h same ⊢
    obtain ⟨kind, left, right, hl, hr⟩ := h
    rw [same i (Nat.le_refl i) (by omega)]
    exact ⟨kind, left, right, ihl hl fun j lo hi => same j (by omega) (by omega),
      ihr hr fun j lo hi => same j (by omega) (by omega)⟩

/-- A tree of fewer than `2 * fuel` nodes has at most `fuel` levels. -/
theorem Laid.treeOf {arena : Table Node} {t : Tree} {i fuel : Nat} (h : Laid arena i t)
    (levels : nodeCount t < 2 * fuel) : treeOf arena fuel i = some t := by
  induction t generalizing i fuel with
  | leaf sym =>
    obtain ⟨kind, rfl⟩ := h
    exact treeOf_leaf kind (by omega)
  | node l r ihl ihr =>
    obtain ⟨kind, left, right, hl, hr⟩ := h
    simp only [nodeCount] at levels
    have := nodeCount_pos l
    have := nodeCount_pos r
    obtain ⟨fuel, rfl⟩ : ∃ f, fuel = f + 1 := ⟨fuel - 1, by omega⟩
    exact treeOf_internal kind (left ▸ ihl hl (by omega)) (right ▸ ihr hr (by omega))

/-! ### One subtree -/

/-- From `s` on the tokens of `t` were read, its entries created from NN on; `u` is the state before the
complete subtree is attached. -/
structure ReadTree (s : State) (t : Tree) (u : State) : Prop where
  frame : ParseFrame s u
  nn : u.nn.toNat = s.nn.toNat + nodeCount t
  fits : u.nn.toNat ≤ Config.nodeCap
  ipos : u.ipos = s.ipos + BitVec.ofNat 32 (serialize t).length
  laid : Laid u.arena s.nn.toNat t
  below : ∀ i, i < s.nn.toNat → nodeAt u.arena i = nodeAt s.arena i

/-- After a complete subtree TDES ends if nothing is pending, or reads on (R228). -/
def resume (rest : List Byte) (u : State) : Flow :=
  if u.stack = [] then .go u else parseLoop rest u

theorem resume_pending {rest : List Byte} {u : State} (h : u.stack ≠ []) :
    resume rest u = parseLoop rest u := if_neg h

theorem parseLoop_leaf (sym : Byte) (rest : List Byte) (s : State) :
    parseLoop (Config.tokLeaf :: sym :: rest) s = (parseLeaf sym s).bind (resume rest) := by
  rw [parseLoop, if_pos rfl]
  rfl

theorem parseLoop_leaf_end (s : State) :
    parseLoop [Config.tokLeaf] s =
      .abort (if Config.nodeCap ≤ s.nn.toNat then .tooLarge else .truncated) s := by
  rw [parseLoop, if_pos rfl]

theorem parseLoop_branch (rest : List Byte) (s : State) :
    parseLoop (Config.tokBranch :: rest) s = (parseBranch s).bind (parseLoop rest) := by
  unfold parseLoop
  rw [if_neg tokBranch_ne_tokLeaf, if_pos rfl]

theorem parseLoop_other {m : Byte} (leaf : m ≠ Config.tokLeaf) (branch : m ≠ Config.tokBranch)
    (rest : List Byte) (s : State) : parseLoop (m :: rest) s = .abort .badMarker s := by
  unfold parseLoop
  rw [if_neg leaf, if_neg branch]

/-- A LEAF token reads the tree of one Leaf. -/
theorem parseLeaf_reads (sym : Byte) {s : State} (room : s.nn.toNat < Config.nodeCap) :
    ∃ u, ReadTree s (.leaf sym) u ∧ parseLeaf sym s = .go (completeSubtree (nextIndex s) s.stack u) := by
  have index := nextIndex_toNat s (Nat.le_of_lt room)
  have next := nn_succ s (Nat.le_of_lt room)
  refine ⟨_, ?_, parseLeaf_room sym s room⟩
  exact
    { frame := rfl
      nn := next
      fits := by simp only [next]; omega
      ipos := rfl
      laid := by simp [Laid, index]
      below := fun i hi => nodeAt_put_other _ _ _ _ (by omega) }

/-- The state in which TDES goes on after a BRANCH token. -/
def branchRead (s : State) : State :=
  { s with
    arena := Table.put s.arena (nextIndex s).toNat
      { nodeAt s.arena (nextIndex s).toNat with kind := .internal }
    nn := s.nn + 1#10
    stack := .left (nextIndex s) :: s.stack
    ipos := s.ipos + 1#32 }

/-- A parent gets its two children. -/
def linkChildren (i l r : Index) (s : State) : State :=
  { s with arena := Table.put s.arena i.toNat { nodeAt s.arena i.toNat with left := l, right := r } }

/-- A BRANCH token, a tree and another tree are the tree of an Internal node. -/
theorem ReadTree.node {s u v : State} {l r : Tree} (room : s.nn.toNat < Config.nodeCap)
    (hl : ReadTree (branchRead s) l u)
    (hr : ReadTree { u with stack := .right (nextIndex s) (nextIndex (branchRead s)) :: s.stack } r v) :
    ReadTree s (.node l r) (linkChildren (nextIndex s) (nextIndex (branchRead s)) (nextIndex u) v) := by
  have index := nextIndex_toNat s (Nat.le_of_lt room)
  have next : (branchRead s).nn.toNat = s.nn.toNat + 1 := nn_succ s (Nat.le_of_lt room)
  have indexL : (nextIndex (branchRead s)).toNat = s.nn.toNat + 1 :=
    (nextIndex_toNat _ (by omega)).trans next
  have nnL := hl.nn
  have nnR : v.nn.toNat = u.nn.toNat + nodeCount r := hr.nn
  have indexR : (nextIndex u).toNat = s.nn.toNat + 1 + nodeCount l := by
    rw [nextIndex_toNat u hl.fits, nnL, next]
  have belowR : ∀ i, i < u.nn.toNat → nodeAt v.arena i = nodeAt u.arena i := hr.below
  have entry : nodeAt v.arena s.nn.toNat = { nodeAt s.arena s.nn.toNat with kind := .internal } := by
    rw [belowR _ (by omega), hl.below _ (by omega)]
    simp [branchRead, index]
  have other : ∀ i, i ≠ s.nn.toNat →
      nodeAt (linkChildren (nextIndex s) (nextIndex (branchRead s)) (nextIndex u) v).arena i =
        nodeAt v.arena i :=
    fun i hi => nodeAt_put_other _ _ _ _ (by omega)
  exact
    { frame := ParseFrame.trans (t := u) (ParseFrame.trans (t := branchRead s) rfl hl.frame)
        (ParseFrame.trans (t := v) hr.frame rfl)
      nn := by simp only [linkChildren, nodeCount]; omega
      fits := hr.fits
      ipos := by
        simp only [linkChildren, hr.ipos, hl.ipos, serialize, List.length_cons, List.length_append,
          branchRead, BitVec.add_assoc, ← BitVec.ofNat_add]
        congr 2
        omega
      laid := by
        refine ⟨?_, ?_, ?_, ?_, ?_⟩
        · simp [linkChildren, index, entry]
        · simp [linkChildren, index, indexL]
        · simp [linkChildren, index, indexR]
        · refine (next ▸ hl.laid).congr fun j lo hi => ?_
          rw [other j (by omega), belowR j (by omega)]
        · have laid := hr.laid
          simp only [nnL, next] at laid
          exact laid.congr fun j lo hi => other j (by omega)
      below := fun i hi => by
        rw [other i (by omega), belowR i (by omega), hl.below i (by omega)]
        simp only [branchRead]
        exact nodeAt_put_other _ _ _ _ (by omega) }

/-- The flow reads the tree the parser answers and goes on behind it, or raises the parser's error. -/
def ReadsAs (s : State) (f : Flow) : Except ErrInfo (Tree × Nat × List Byte) → Prop
  | .error e => ∃ u, f = .abort e u
  | .ok (t, _, rest) =>
    ∃ u, ReadTree s t u ∧ f = resume rest (completeSubtree (nextIndex s) s.stack u)

/-- TDES reads one subtree as the parser does, whatever is pending above it. -/
theorem parseLoop_reads (fuel : Nat) (bytes : List Byte) (s : State) (enough : bytes.length ≤ fuel) :
    ReadsAs s (parseLoop bytes s) (parseTree fuel s.nn.toNat bytes) := by
  induction fuel generalizing bytes s with
  | zero =>
    obtain rfl := List.eq_nil_of_length_eq_zero (Nat.le_zero.mp enough)
    exact ⟨s, rfl⟩
  | succ fuel ih =>
    cases bytes with
    | nil => exact ⟨s, rfl⟩
    | cons m rest =>
      replace enough : rest.length ≤ fuel := Nat.le_of_succ_le_succ enough
      by_cases leaf : m = Config.tokLeaf
      · subst leaf
        by_cases full : Config.nodeCap ≤ s.nn.toNat
        · simp only [parseTree, if_true, if_pos full]
          cases rest with
          | nil => exact ⟨s, by rw [parseLoop_leaf_end, if_pos full]⟩
          | cons sym rest => exact ⟨s, by rw [parseLoop_leaf, parseLeaf_full sym s full]; rfl⟩
        · simp only [parseTree, if_true, if_neg full]
          cases rest with
          | nil => exact ⟨s, by rw [parseLoop_leaf_end, if_neg full]⟩
          | cons sym rest =>
            obtain ⟨u, read, e⟩ := parseLeaf_reads sym (Nat.lt_of_not_le full)
            exact ⟨u, read, by rw [parseLoop_leaf, e]; rfl⟩
      by_cases branch : m = Config.tokBranch
      · subst branch
        by_cases full : Config.nodeCap ≤ s.nn.toNat
        · simp only [parseTree, if_neg tokBranch_ne_tokLeaf, if_true, if_pos full]
          exact ⟨s, by rw [parseLoop_branch, parseBranch_full s full]; rfl⟩
        · have room : s.nn.toNat < Config.nodeCap := Nat.lt_of_not_le full
          have into : parseLoop (Config.tokBranch :: rest) s = parseLoop rest (branchRead s) := by
            rw [parseLoop_branch, parseBranch_room s room]; rfl
          have left := ih rest (branchRead s) enough
          rw [show (branchRead s).nn.toNat = s.nn.toNat + 1 from nn_succ s (Nat.le_of_lt room)] at left
          simp only [parseTree, if_neg tokBranch_ne_tokLeaf, if_true, if_neg full, into]
          cases hl : parseTree fuel (s.nn.toNat + 1) rest with
          | error e => rw [hl] at left; exact left
          | ok res =>
            obtain ⟨l, n1, r1⟩ := res
            rw [hl] at left
            obtain ⟨u, readL, e⟩ := left
            obtain ⟨own, count, _⟩ := parseTree_ok hl
            have shorter : r1.length ≤ fuel := by
              rw [own, List.length_append] at enough
              omega
            have right := ih r1
              { u with stack := .right (nextIndex s) (nextIndex (branchRead s)) :: s.stack } shorter
            have nn : u.nn.toNat = n1 := by
              rw [readL.nn, count]
              exact congrArg (· + _) (nn_succ s (Nat.le_of_lt room))
            simp only [nn] at right
            have behind : parseLoop rest (branchRead s) = parseLoop r1
                { u with stack := .right (nextIndex s) (nextIndex (branchRead s)) :: s.stack } :=
              e.trans (resume_pending (by simp [completeSubtree, branchRead]))
            simp only [behind]
            cases hr : parseTree fuel n1 r1 with
            | error e => rw [hr] at right; exact right
            | ok res =>
              obtain ⟨r, n2, r2⟩ := res
              rw [hr] at right
              obtain ⟨v, readR, e⟩ := right
              exact ⟨_, readL.node room readR, e⟩
      · simp only [parseTree, if_neg leaf, if_neg branch]
        exact ⟨s, parseLoop_other leaf branch rest s⟩

/-! ### The whole tree -/

/-- After TDES: the tree at ROOT, NN its number of nodes, IPOS behind it (R228). -/
structure TreeRead (s : State) (t : Tree) (u : State) : Prop where
  frame : ParseFrame s u
  tree : rootTree u = some t
  root : u.root = 0#9
  nn : u.nn.toNat = nodeCount t
  ipos : u.ipos = BitVec.ofNat 32 (serialize t).length
  stack : u.stack = []

/-- The parse from its start ends with the tree the parser answers, or raises the parser's error. -/
theorem parseLoop_start (s : State) (bytes : List Byte) :
    match parseTree bytes.length 0 bytes with
    | .error e => ∃ u, parseLoop bytes (parseStart s) = .abort e u
    | .ok (t, _, _) => ∃ u, parseLoop bytes (parseStart s) = .go u ∧ TreeRead s t u := by
  have reads := parseLoop_reads bytes.length bytes (parseStart s) (Nat.le_refl _)
  rw [show (parseStart s).nn.toNat = 0 from rfl] at reads
  cases h : parseTree bytes.length 0 bytes with
  | error e => rw [h] at reads; exact reads
  | ok res =>
    obtain ⟨t, n, rest⟩ := res
    rw [h] at reads
    obtain ⟨u, read, e⟩ := reads
    obtain ⟨_, count, fits⟩ := parseTree_ok h
    have nn : u.nn.toNat = nodeCount t := by simpa [parseStart] using read.nn
    refine ⟨_, e, ?_⟩
    exact
      { frame := ParseFrame.trans (t := u) read.frame rfl
        tree := by
          refine (Laid.treeOf read.laid ?_ : treeOf u.arena (Config.depthMax + 1) 0 = some t)
          simp only [Config.nodeCap, Config.depthMax] at *
          omega
        root := rfl
        nn := nn
        ipos := read.ipos.trans (BitVec.zero_add _)
        stack := rfl }

end Sys2Proof.Machine
end

section
/-! SUPPORT. What a run of emits leaves in OBUF, as one update of the state (R65), and the output of a command
as it grows from address 0 (R134, R371). -/

namespace Sys2Proof.Machine

/-- `m` with the bytes written from address `a` on. -/
def storeBytes : Nat → List Byte → Memory → Memory
  | _, [], m => m
  | a, b :: bytes, m => storeBytes (a + 1) bytes (Table.put m a b)

/-- The state after the bytes were emitted. -/
def written (bytes : List Byte) (s : State) : State :=
  { s with
    obuf := storeBytes s.opos.toNat bytes s.obuf
    opos := s.opos + BitVec.ofNat 32 bytes.length }

/-- There is room in OBUF for `n` bytes at OPOS. -/
def HasRoom (n : Nat) (s : State) : Prop := n = 0 ∨ s.opos.toNat + n ≤ s.obufCap.toNat

theorem find?_storeBytes (a : Nat) (bytes : List Byte) (m : Memory) (i : Nat) :
    Table.find? (storeBytes a bytes m) i =
      if a ≤ i ∧ i < a + bytes.length then bytes[i - a]? else Table.find? m i := by
  induction bytes generalizing a m with
  | nil => simp [storeBytes]
  | cons b bytes ih =>
    rw [storeBytes, ih, Table.find?_put, List.length_cons]
    by_cases here : i = a
    · subst here
      simp
    · by_cases inside : a ≤ i ∧ i < a + (bytes.length + 1)
      · obtain ⟨k, hk⟩ : ∃ k, i - a = k + 1 := ⟨i - a - 1, by omega⟩
        rw [if_pos (by omega), if_pos inside, hk, List.getElem?_cons_succ]
        congr 1
        omega
      · rw [if_neg (by omega), if_neg here, if_neg inside]

@[simp] theorem written_nil (s : State) : written [] s = s := by simp [written, storeBytes]

/-- The output cursor after an emit that had room. -/
theorem written_opos {bytes : List Byte} {s : State} (room : HasRoom bytes.length s) :
    (written bytes s).opos.toNat = s.opos.toNat + bytes.length := by
  have := s.obufCap.isLt
  have := s.opos.isLt
  simp only [written, BitVec.toNat_add, BitVec.toNat_ofNat]
  unfold HasRoom at room
  omega

/-- One byte and then more. -/
theorem written_cons {b : Byte} {bytes : List Byte} {s : State}
    (room : s.opos.toNat < s.obufCap.toNat) :
    written (b :: bytes) s =
      written bytes { s with obuf := Table.put s.obuf s.opos.toNat b, opos := s.opos + 1#32 } := by
  simp only [written, storeBytes, opos_succ s room, cursor_succ, List.length_cons]

/-- Emitting bytes that fit stores them. -/
theorem emitAll_written {bytes : List Byte} {s : State} (room : HasRoom bytes.length s) :
    emitAll bytes s = .go (written bytes s) := by
  induction bytes generalizing s with
  | nil => simp
  | cons b bytes ih =>
    simp only [HasRoom, List.length_cons] at room
    have first : s.opos.toNat < s.obufCap.toNat := by omega
    rw [emitAll_cons, emit_room b s first, Flow.bind_go, written_cons first]
    refine ih (.inr ?_)
    rw [opos_succ s first]
    simp only
    omega

/-- The output of the running command is `out`, written from 0 on. -/
structure Output (out : List Byte) (s : State) : Prop where
  opos : s.opos.toNat = out.length
  bytes : ∀ i, i < out.length → Table.find? s.obuf i = out[i]?

theorem Output.empty {s : State} (h : s.opos = 0#32) : Output [] s := ⟨by rw [h]; rfl, nofun⟩

/-- Emitting bytes appends them to the output. -/
theorem Output.written {out bytes : List Byte} {s : State} (h : Output out s)
    (room : HasRoom bytes.length s) : Output (out ++ bytes) (written bytes s) := by
  have opos := h.opos
  constructor
  · rw [written_opos room, List.length_append, opos]
  · intro i hi
    rw [List.length_append] at hi
    refine (find?_storeBytes _ _ _ i).trans ?_
    by_cases old : i < out.length
    · rw [if_neg (by omega), h.bytes i old, List.getElem?_append_left old]
    · rw [if_pos (by omega), List.getElem?_append_right (by omega), opos]

/-- FINISH publishes the output as the result (R137, R371). -/
theorem Output.finish {out : List Byte} {s : State} (h : Output out s) (err : s.err = .none)
    (errInfo : s.errInfo = .none) : ∃ t, execPFinish s = .next t ∧ EndsDone out t := by
  refine ⟨_, rfl, rfl, err, errInfo, h.opos, result_of_written h.opos fun i hi => ?_⟩
  have kept : i < s.opos.toNat := h.opos ▸ hi
  simp only [readOut, Memory.find?_below, if_pos kept, h.bytes i hi, List.getElem?_eq_getElem hi,
    Option.getD_some, List.getD_eq_getElem?_getD]

end Sys2Proof.Machine
end

section
/-! SUPPORT. WALK against the abstract walk (R296): both ways the core draws the payload bits give one loop
over a list of bits, and that loop walks the abstract tree. -/

namespace Sys2Proof.Machine

/-! ### The bits drawn -/

theorem Flow.bind_congr {f : Flow} {k l : State → Flow} (h : ∀ u, f = .go u → k u = l u) :
    f.bind k = f.bind l := by
  cases f with
  | go u => exact h u rfl
  | abort e u => rfl

/-- The payload bits one by one (R255). -/
theorem payloadBitsFrom_succ {s u : State} (n : Nat) (ibuf : u.ibuf = s.ibuf)
    (era : u.ibufEra = s.ibufEra) (ipos : u.ipos = s.ipos)
    (bitpos : u.bitpos.toNat = s.bitpos.toNat + 1) :
    payloadBitsFrom s (n + 1) =
      bitOf (payloadByteAt s) s.bitpos.toNat :: payloadBitsFrom u n := by
  simp only [payloadBitsFrom, List.range_succ_eq_map, List.map_cons, List.map_map]
  refine congrArg₂ _ rfl (List.map_congr_left fun i _ => ?_)
  simp only [Function.comp_apply, readIn, ibuf, era, ipos, bitpos, Nat.succ_eq_add_one]
  rw [Nat.add_right_comm, Nat.add_assoc]

/-- A bit of the walk moves BITPOS by one and leaves what the bits are drawn from. -/
theorem walkBit_draws {b : Bool} {s u : State} (h : walkBit b s = .go u)
    (inside : s.bitpos.toNat < s.bitlen.toNat) :
    u.ibuf = s.ibuf ∧ u.ibufEra = s.ibufEra ∧ u.ipos = s.ipos ∧ u.bitlen = s.bitlen ∧
    u.bitpos.toNat = s.bitpos.toNat + 1 := by
  obtain ⟨⟨frame, _⟩, bitpos⟩ := (walkBit_frame b s).1 u h
  have := s.bitlen.isLt
  have moved : u.bitpos.toNat = s.bitpos.toNat + 1 := by
    simp only [bitpos, BitVec.toNat_add, BitVec.toNat_ofNat]
    omega
  rw [frame] at moved ⊢
  exact ⟨rfl, rfl, rfl, rfl, moved⟩

/-- WALK's loop is the loop over the payload bits. -/
theorem walkLoop_eq_each {n : Nat} {s : State} (inside : s.bitpos.toNat + n ≤ s.bitlen.toNat) :
    walkLoop n s = Flow.each walkBit (payloadBitsFrom s n) s := by
  induction n generalizing s with
  | zero => rfl
  | succ n ih =>
    have moved : ({ s with bitpos := s.bitpos + 1#64 } : State).bitpos.toNat = s.bitpos.toNat + 1 := by
      have := s.bitlen.isLt
      simp only [BitVec.toNat_add, BitVec.toNat_ofNat]
      omega
    rw [walkLoop,
      payloadBitsFrom_succ (s := s) (u := { s with bitpos := s.bitpos + 1#64 }) n rfl rfl rfl moved,
      Flow.each_cons]
    refine Flow.bind_congr fun u hu => ?_
    obtain ⟨ibuf, era, ipos, bitlen, bitpos⟩ := walkBit_draws hu (by omega)
    rw [ih (by rw [bitlen, bitpos]; omega)]
    congr 1
    simp only [payloadBitsFrom, readIn, ibuf, era, ipos, bitpos, moved]

/-- The bits of a payload byte that are consumed from bit position `start` on. -/
def byteBits (b : Byte) (start n : Nat) : List Bool := (List.range n).map fun i => bitOf b (start + i)

/-- PAYLOAD_BYTE's rounds are the loop over the bits of its byte. -/
theorem walkByte_eq_each {b : Byte} {n : Nat} {s : State}
    (inside : s.bitpos.toNat + n ≤ s.bitlen.toNat) :
    walkByte b n s = Flow.each walkBit (byteBits b s.bitpos.toNat n) s := by
  induction n generalizing s with
  | zero => rfl
  | succ n ih =>
    rw [walkByte, byteBits, List.range_succ_eq_map, List.map_cons, List.map_map, Flow.each_cons]
    refine Flow.bind_congr fun u hu => ?_
    obtain ⟨_, _, _, bitlen, bitpos⟩ := walkBit_draws hu (by omega)
    rw [ih (by rw [bitlen, bitpos]; omega), byteBits]
    congr 1
    refine List.map_congr_left fun i _ => ?_
    rw [bitpos, Function.comp_apply, Nat.succ_eq_add_one, Nat.add_right_comm, Nat.add_assoc]

/-! ### Where the walker stands -/

/-- CUR stands where the abstract walk of `root` does: at ROOT, or at a smaller tree below it. -/
def Stands (root : Tree) (s : State) : Option Tree → Prop
  | none => (∃ f, treeOf s.arena f s.root.toNat = some root) ∧ s.cur = s.root
  | some c =>
    (∃ f, treeOf s.arena f s.root.toNat = some root) ∧
    (∃ f, treeOf s.arena f s.cur.toNat = some c) ∧ nodeCount c < nodeCount root

/-- The tree the walker stands at. -/
theorem Stands.current {root : Tree} {s : State} {cur : Option Tree} (h : Stands root s cur) :
    (∃ f, treeOf s.arena f s.cur.toNat = some (cur.getD root)) ∧
    nodeCount (cur.getD root) ≤ nodeCount root := by
  cases cur with
  | none =>
    obtain ⟨tree, cur⟩ := h
    exact ⟨cur ▸ tree, Nat.le_refl _⟩
  | some c =>
    obtain ⟨_, tree, smaller⟩ := h
    exact ⟨tree, Nat.le_of_lt smaller⟩

theorem Stands.root {root : Tree} {s : State} {cur : Option Tree} (h : Stands root s cur) :
    ∃ f, treeOf s.arena f s.root.toNat = some root := by
  cases cur with
  | none => exact h.1
  | some c => exact h.1

/-- The tree at an entry is one, however many levels are looked at. -/
theorem treeOf_unique {arena : Table Node} {f g i : Nat} {t u : Tree}
    (ht : treeOf arena f i = some t) (hu : treeOf arena g i = some u) : t = u := by
  have ht := treeOf_mono (Nat.le_max_left f g) ht
  have hu := treeOf_mono (Nat.le_max_right f g) hu
  exact Option.some.inj (ht.symm.trans hu)

/-- CUR is ROOT exactly when the abstract walk stands at the root. -/
theorem Stands.cur_eq_root_iff {root : Tree} {s : State} {cur : Option Tree} (h : Stands root s cur) :
    s.cur = s.root ↔ cur = none := by
  cases cur with
  | none => exact iff_of_true h.2 rfl
  | some c =>
    obtain ⟨⟨f, hr⟩, ⟨g, hc⟩, smaller⟩ := h
    refine iff_of_false (fun e => ?_) nofun
    rw [e] at hc
    rw [treeOf_unique hr hc] at smaller
    exact Nat.lt_irrefl _ smaller

/-- The children of an entry that holds an Internal node. -/
theorem treeOf_node {arena : Table Node} {f i : Nat} {l r : Tree}
    (h : treeOf arena f i = some (.node l r)) :
    (nodeAt arena i).kind = .internal ∧
    ∀ b : Bool, ∃ f, treeOf arena f
      (if b then (nodeAt arena i).right else (nodeAt arena i).left).toNat = some (if b then r else l) := by
  obtain ⟨x, e, _⟩ | ⟨l', r', g, e, kind, _, hl, hr⟩ := treeOf_kind h
  · cases e
  · cases e
    refine ⟨kind, fun b => ⟨g, ?_⟩⟩
    cases b
    · exact hl
    · exact hr

/-- The entry that holds a tree, by the kind of its root. -/
theorem treeOf_entry {arena : Table Node} {f i : Nat} {t : Tree} (h : treeOf arena f i = some t) :
    match t with
    | .leaf sym => (nodeAt arena i).kind = .leaf ∧ (nodeAt arena i).sym = sym
    | .node _ _ => (nodeAt arena i).kind = .internal := by
  obtain ⟨x, rfl, kind, sym⟩ | ⟨l, r, g, rfl, kind, _⟩ := treeOf_kind h
  · exact ⟨kind, sym⟩
  · exact kind

/-- At a Leaf the walker stops with NULL_CHILD, having consumed the bit (R296, R297). -/
theorem walkBit_at_leaf {b : Bool} {s : State} (h : (nodeAt s.arena s.cur.toNat).kind = .leaf) :
    walkBit b s = .abort .nullChild { s with bitpos := s.bitpos + 1#64 } := by
  simp only [walkBit, h]

/-- The child of CUR that the bit `b` names. -/
def childIndex (s : State) (b : Bool) : Index :=
  if b then (nodeAt s.arena s.cur.toNat).right else (nodeAt s.arena s.cur.toNat).left

/-- The state after a bit that moved CUR to an Internal node. -/
def movedTo (cur : Index) (s : State) : State := { s with bitpos := s.bitpos + 1#64, cur := cur }

/-- The state after a bit that emitted a symbol. -/
def symbolEmitted (sym : Byte) (s : State) : State :=
  { s with
    obuf := Table.put s.obuf s.opos.toNat sym
    opos := s.opos + 1#32
    bitpos := s.bitpos + 1#64
    cur := s.root }

/-- A step to a Leaf emits its symbol and returns to ROOT. -/
theorem walkBit_to_leaf {b : Bool} {s : State} (h : (nodeAt s.arena s.cur.toNat).kind = .internal)
    (leaf : (nodeAt s.arena (childIndex s b).toNat).kind = .leaf) :
    walkBit b s =
      if s.obufCap.toNat - s.opos.toNat = 0 then .abort .outRange (movedTo (childIndex s b) s)
      else .go (symbolEmitted (nodeAt s.arena (childIndex s b).toNat).sym s) := by
  have emits : walkBit b s = (emit (nodeAt s.arena (childIndex s b).toNat).sym
      (movedTo (childIndex s b) s)).bind fun u => .go { u with cur := u.root } := by
    simp only [childIndex] at leaf
    simp only [walkBit, h, leaf, childIndex, movedTo]
  rw [emits]
  split
  next full => rw [emit_full _ (movedTo (childIndex s b) s) (Nat.le_of_sub_eq_zero full), Flow.bind_abort]
  next room =>
    rw [emit_room _ (movedTo (childIndex s b) s) (Nat.lt_of_sub_ne_zero room), Flow.bind_go]
    rfl

/-- A step to an Internal node only moves. -/
theorem walkBit_to_internal {b : Bool} {s : State} (h : (nodeAt s.arena s.cur.toNat).kind = .internal)
    (internal : (nodeAt s.arena (childIndex s b).toNat).kind = .internal) :
    walkBit b s = .go (movedTo (childIndex s b) s) := by
  simp only [childIndex] at internal
  simp only [walkBit, h, internal, childIndex, movedTo]

/-- The state after a walk of `n` bits that emitted `out` and ends at `cur`. -/
def walked (n : Nat) (out : List Byte) (cur : Index) (s : State) : State :=
  { written out s with cur := cur, bitpos := s.bitpos + BitVec.ofNat 64 n }

/-- The flow walks `n` bits as the abstract walk does. -/
def WalksAs (root : Tree) (s : State) (n : Nat) (f : Flow) :
    Except ErrInfo (List Byte × Option Tree) → Prop
  | .error e => ∃ u, f = .abort e u
  | .ok (out, stand) =>
    HasRoom out.length s ∧ ∃ c, f = .go (walked n out c s) ∧ Stands root (walked n out c s) stand

theorem walked_movedTo (n : Nat) (out : List Byte) (c cur : Index) (s : State) :
    walked n out c (movedTo cur s) = walked (n + 1) out c s := by
  simp only [walked, written, movedTo, cursor_succ]

theorem walked_symbolEmitted (n : Nat) (sym : Byte) (out : List Byte) (c : Index) {s : State}
    (room : s.opos.toNat < s.obufCap.toNat) :
    walked n out c (symbolEmitted sym s) = walked (n + 1) (sym :: out) c s := by
  unfold walked
  rw [written_cons room]
  simp only [written, symbolEmitted, cursor_succ]

theorem WalksAs.moved {root : Tree} {s : State} {n : Nat} {f : Flow} {cur : Index}
    {r : Except ErrInfo (List Byte × Option Tree)} (h : WalksAs root (movedTo cur s) n f r) :
    WalksAs root s (n + 1) f r := by
  cases r with
  | error e => exact h
  | ok r =>
    obtain ⟨room, c, e, stands⟩ := h
    rw [walked_movedTo] at e stands
    exact ⟨room, c, e, stands⟩

theorem WalksAs.symbol {root : Tree} {s : State} {n : Nat} {f : Flow} {sym : Byte}
    {r : Except ErrInfo (List Byte × Option Tree)} (room : s.opos.toNat < s.obufCap.toNat)
    (h : WalksAs root (symbolEmitted sym s) n f r) :
    WalksAs root s (n + 1) f (r.map fun e => (sym :: e.1, e.2)) := by
  cases r with
  | error e => exact h
  | ok r =>
    obtain ⟨more, c, e, stands⟩ := h
    rw [walked_symbolEmitted n sym _ c room] at e stands
    refine ⟨.inr ?_, c, e, stands⟩
    have opos : (symbolEmitted sym s).opos.toNat = s.opos.toNat + 1 := opos_succ s room
    unfold HasRoom at more
    rw [opos] at more
    simp only [symbolEmitted, List.length_cons] at more ⊢
    omega

/-- WALK walks the abstract tree (R296). -/
theorem walkBits_eq {root : Tree} (bits : List Bool) {s : State} {cur : Option Tree}
    (h : Stands root s cur) :
    WalksAs root s bits.length (Flow.each walkBit bits s)
      (walkTree root (s.obufCap.toNat - s.opos.toNat) cur bits) := by
  induction bits generalizing s cur with
  | nil => exact ⟨.inl rfl, s.cur, by simp [walked], by simpa [walked] using h⟩
  | cons b bits ih =>
    obtain ⟨⟨f, tree⟩, size⟩ := h.current
    rw [Flow.each_cons]
    simp only [walkTree]
    cases hc : cur.getD root with
    | leaf sym =>
      rw [hc] at tree
      obtain ⟨kind, _⟩ := treeOf_entry tree
      exact ⟨_, by rw [walkBit_at_leaf kind]; rfl⟩
    | node l r =>
      rw [hc] at tree size
      obtain ⟨kind, children⟩ := treeOf_node tree
      obtain ⟨g, child⟩ := children b
      have smaller : nodeCount (if b then r else l) < nodeCount root := by
        simp only [nodeCount] at size
        split <;> omega
      simp only
      generalize (if b then r else l) = next at child smaller
      change treeOf s.arena g (childIndex s b).toNat = some next at child
      cases next with
      | leaf sym =>
        obtain ⟨leaf, rfl⟩ := treeOf_entry child
        rw [walkBit_to_leaf kind leaf]
        dsimp only
        split
        next => exact ⟨_, rfl⟩
        next room =>
          have room := Nat.lt_of_sub_ne_zero room
          have next := ih (s := symbolEmitted (nodeAt s.arena (childIndex s b).toNat).sym s)
            (cur := none) ⟨h.root, rfl⟩
          have left : s.obufCap.toNat - s.opos.toNat - 1 = s.obufCap.toNat - (s.opos + 1#32).toNat := by
            rw [opos_succ s room]
            omega
          rw [left]
          exact next.symbol room
      | node l' r' =>
        rw [walkBit_to_internal kind (treeOf_entry child), Flow.bind_go]
        exact (ih (s := movedTo (childIndex s b) s) (cur := some (.node l' r'))
          ⟨h.root, ⟨g, child⟩, smaller⟩).moved

end Sys2Proof.Machine
end

section
/-! SUPPORT. How a command of DECOMPRESS is run: phase by phase, or item by item where the script says so
(log 9). What one turn does in either way, and the bytes of the artifact still ahead of IPOS. -/

namespace Sys2Proof.Machine

/-! ### The turns of a run -/

/-- Within `n` steps the command ends as the function of its input does. -/
def Ends (n : Nat) (s : State) : Except ErrInfo (List Byte) → Prop
  | .ok out => Reaches n s (EndsDone out)
  | .error e => Reaches n s (EndsError e)

theorem Ends.step {n : Nat} {s t : State} {r : Except ErrInfo (List Byte)} (hs : Machine.step s = .next t)
    (h : Ends n t r) : Ends (n + 1) s r := by
  cases r with
  | ok out => exact Reaches.step hs h
  | error e => exact Reaches.step hs h

theorem Ends.raise (n : Nat) (e : ErrInfo) (s : State) : Ends n (raise e s) (.error e) :=
  Reaches.here ⟨rfl, rfl, rfl, rfl⟩

/-- The `n` steps to come: in phase steps at least `phases` of them; or all of them item turns, at least
`turns`. -/
def Turns (items : Bool) (phases turns n : Nat) (s : State) : Prop :=
  if items then s.script = List.replicate n .item ∧ turns ≤ n else s.script = [] ∧ phases ≤ n

section
variable {items : Bool} {phases turns n : Nat} {s : State}

theorem Turns.congr {t : State} (h : Turns items phases turns n s) (script : t.script = s.script) :
    Turns items phases turns n t := by
  unfold Turns
  rwa [script]

theorem Turns.fewer {phases' turns' : Nat} (h : Turns items phases turns n s)
    (fewerPhases : phases' ≤ phases) (fewerTurns : turns' ≤ turns) :
    Turns items phases' turns' n s := by
  cases items with
  | false => exact ⟨h.1, Nat.le_trans fewerPhases h.2⟩
  | true => exact ⟨h.1, Nat.le_trans fewerTurns h.2⟩

theorem Turns.ofItems {phases' turns' : Nat} (h : Turns true phases turns n s) (fewer : turns' ≤ turns) :
    Turns true phases' turns' n s := by
  obtain ⟨script, enough⟩ := h
  exact ⟨script, Nat.le_trans fewer enough⟩

theorem Turns.ofPhases {phases' turns' : Nat} (h : Turns false phases turns n s)
    (fewer : phases' ≤ phases) : Turns false phases' turns' n s := by
  obtain ⟨script, enough⟩ := h
  exact ⟨script, Nat.le_trans fewer enough⟩

/-- What a turn runs in a state whose script has moved on. -/
def turnInstr (items : Bool) (s : State) : Instr :=
  if items then (itemInstr s).getD (phaseInstr s.phase) else phaseInstr s.phase

/-- One of the turns to come. -/
theorem Turns.step (h : Turns items (phases + 1) (turns + 1) n s) (busy : s.st = .busy)
    (fine : items = false → s.fine = false) :
    ∃ m ts, n = m + 1 ∧ Turns items phases turns m { s with script := ts } ∧
      Machine.step s = exec (turnInstr items { s with script := ts }) { s with script := ts } := by
  cases items with
  | false =>
    obtain ⟨script, enough⟩ := h
    obtain ⟨m, rfl⟩ : ∃ m, n = m + 1 := ⟨n - 1, by omega⟩
    refine ⟨m, s.script, rfl, ⟨script, Nat.le_of_succ_le_succ enough⟩, ?_⟩
    exact step_busy busy script (fine rfl)
  | true =>
    obtain ⟨script, enough⟩ := h
    obtain ⟨m, rfl⟩ : ∃ m, n = m + 1 := ⟨n - 1, by omega⟩
    refine ⟨m, List.replicate m .item, rfl, ⟨rfl, Nat.le_of_succ_le_succ enough⟩, ?_⟩
    exact step_item script busy

end

/-! ### The bytes ahead -/

theorem inputFrom_length (s : State) (k : Nat) : (inputFrom s k).length = s.inLen.toNat - k :=
  readRange_length s k _

/-- The first byte ahead. -/
theorem inputFrom_cons {s : State} {k : Nat} {b : Byte} {more : List Byte}
    (h : inputFrom s k = b :: more) :
    k < s.inLen.toNat ∧ readIn s k = b ∧ inputFrom s (k + 1) = more := by
  have length := inputFrom_length s k
  rw [h, List.length_cons] at length
  have left : s.inLen.toNat - k = (s.inLen.toNat - (k + 1)) + 1 := by omega
  rw [inputFrom, left, readRange] at h
  obtain ⟨first, rest⟩ := List.cons.inj h
  exact ⟨by omega, first, rest⟩

/-- The next bytes ahead. -/
theorem inputFrom_take {s : State} {k n : Nat} (h : n ≤ (inputFrom s k).length) :
    (inputFrom s k).take n = readRange s k n := by
  rw [inputFrom_length] at h
  rw [inputFrom, ← Nat.add_sub_cancel' h, readRange_add, List.take_left' (readRange_length s k n)]

theorem inputFrom_drop (s : State) (k n : Nat) : inputFrom s (k + n) = (inputFrom s k).drop n := by
  simp only [inputFrom_eq_drop, List.drop_drop]

theorem inputFrom_congr {s t : State} (ibuf : t.ibuf = s.ibuf) (era : t.ibufEra = s.ibufEra)
    (inLen : t.inLen = s.inLen) (k : Nat) : inputFrom t k = inputFrom s k := by
  unfold inputFrom
  rw [inLen, readRange_congr ibuf era]

/-- The bytes left in the input, as the phases compute them. -/
theorem bytesLeft {s : State} (inside : s.ipos ≤ s.inLen) :
    (s.inLen - s.ipos).toNat = (inputFrom s s.ipos.toNat).length := by
  rw [inputFrom_length, BitVec.toNat_sub_of_le inside]

/-- Moving IPOS over bytes that are ahead. -/
theorem ipos_add {s : State} {n : Nat} (h : s.ipos.toNat + n ≤ s.inLen.toNat) :
    (s.ipos + BitVec.ofNat 32 n).toNat = s.ipos.toNat + n := by
  have := s.inLen.isLt
  rw [BitVec.toNat_add, BitVec.toNat_ofNat]
  omega

/-! ### Items and phases -/

/-- The item fetched was decoded from the bytes at its place. -/
theorem decoded_of_itemInstr {s : State} {i : Instr} {pos : Pos} {bytes : List Byte}
    (place : itemRaw s = some (.artifact pos bytes)) (h : itemInstr s = some i) :
    ∃ own rest, ItemAt pos i own ∧ bytes = own ++ rest := by
  rw [itemInstr, place, Option.bind_some] at h
  obtain ⟨rest, hd⟩ := decode_of_instrOf h
  obtain ⟨own, item, e⟩ := itemAt_of_decode hd
  exact ⟨own, rest, item, e⟩

/-- Outside the tree and the payload the item is the rest of its phase. -/
theorem exec_item_eq_phase {s : State} {i : Instr} (h : itemInstr s = some i)
    (tdes : s.phase ≠ .tdes) (walk : s.phase ≠ .walk) (inside : s.ipos ≤ s.inLen) :
    exec i s = exec (phaseInstr s.phase) s := by
  cases hp : s.phase
  case dhead =>
    obtain ⟨own, rest, item, e⟩ := decoded_of_itemInstr (by rw [itemRaw, hp]) h
    cases item
    obtain ⟨some, first, _⟩ := inputFrom_cons e
    have nonempty : s.inLen ≠ 0#32 := mt (inLen_eq_zero_iff s).mp (Nat.ne_of_gt some)
    exact ((if_neg nonempty).trans (if_pos first)).symm
  case delim =>
    obtain ⟨own, rest, item, e⟩ := decoded_of_itemInstr (by rw [itemRaw, hp]) h
    cases item
    obtain ⟨some, first, _⟩ := inputFrom_cons e
    exact ((if_neg (BitVec.not_le.mpr some)).trans (if_neg (not_not_intro first))).symm
  case rdlen =>
    obtain ⟨own, rest, item, e⟩ := decoded_of_itemInstr (by rw [itemRaw, hp]) h
    cases item with
    | length n =>
      have enough : Config.bitlenBytes ≤ (inputFrom s s.ipos.toNat).length := by
        rw [e, List.length_append]
        exact Nat.le_add_right _ _
      have own : readRange s s.ipos.toNat Config.bitlenBytes = be64 n := by
        rw [← inputFrom_take enough, e]
        rfl
      refine ((if_neg ?_).trans ?_).symm
      · rw [bytesLeft inside]
        exact Nat.not_lt.mpr enough
      · rw [own, beValue_be64]
        rfl
  case tdes => exact absurd hp tdes
  case walk => exact absurd hp walk
  all_goals
    simp only [itemInstr, itemRaw, hp, Option.bind_none] at h
    cases h

end Sys2Proof.Machine
end

section
/-! SUPPORT. DECOMPRESS behind its tree (R293 to R298): from each phase on the command ends as the function of
the bytes ahead does, in phase steps and in item turns. -/

namespace Sys2Proof.Machine

/-- A DECOMPRESS that has written `out` runs phase `p`, with `rest` ahead of IPOS. -/
structure Decoding (out rest : List Byte) (p : Phase) (s : State) : Prop where
  busy : s.st = .busy
  phase : s.phase = p
  err : s.err = .none
  errInfo : s.errInfo = .none
  output : Output out s
  inside : s.ipos ≤ s.inLen
  ahead : inputFrom s s.ipos.toNat = rest

section
variable {items : Bool} {phases turns n : Nat} {s t : State} {out rest bytes : List Byte} {p : Phase}
  {root : Tree}

/-- The state depends on these fields alone. -/
theorem Decoding.congr {q : Phase} (h : Decoding out rest p s) (phase : t.phase = q)
    (same : (t.st, t.err, t.errInfo, t.obuf, t.opos, t.ipos, t.inLen, t.ibuf, t.ibufEra) =
      (s.st, s.err, s.errInfo, s.obuf, s.opos, s.ipos, s.inLen, s.ibuf, s.ibufEra)) :
    Decoding out rest q t := by
  simp only [Prod.mk.injEq] at same
  obtain ⟨st, err, errInfo, obuf, opos, ipos, inLen, ibuf, era⟩ := same
  exact
    { busy := st.trans h.busy
      phase := phase
      err := err.trans h.err
      errInfo := errInfo.trans h.errInfo
      output := ⟨opos ▸ h.output.opos, obuf ▸ h.output.bytes⟩
      inside := ipos ▸ inLen ▸ h.inside
      ahead := (inputFrom_congr ibuf era inLen _).trans (ipos ▸ h.ahead) }

/-- The turns to come are no part of it. -/
theorem Decoding.script (h : Decoding out rest p s) (ts : List Turn) :
    Decoding out rest p { s with script := ts } := h.congr h.phase rfl

/-- Some bytes ahead were read, and another phase comes. -/
theorem Decoding.advance (h : Decoding out (bytes ++ rest) p s) (q : Phase) :
    Decoding out rest q { s with ipos := s.ipos + BitVec.ofNat 32 bytes.length, phase := q } := by
  have left := inputFrom_length s s.ipos.toNat
  rw [h.ahead, List.length_append] at left
  have inside : s.ipos.toNat ≤ s.inLen.toNat := h.inside
  have moved := ipos_add (s := s) (n := bytes.length) (by omega)
  exact
    { h with
      phase := rfl
      output := ⟨h.output.opos, h.output.bytes⟩
      inside := by
        rw [BitVec.le_def]
        simp only [moved]
        omega
      ahead := by
        simp only [moved]
        refine (inputFrom_congr (s := s) (by rfl) (by rfl) (by rfl) _).trans ?_
        rw [inputFrom_drop, h.ahead, List.drop_left] }

/-- One phase that is run as a whole, in either way. -/
theorem Decoding.run {r : Except ErrInfo (List Byte)} (h : Decoding out rest p s) (fine : s.fine = false)
    (more : Turns items (phases + 1) (turns + 1) n s)
    (after : ∀ m ts, Turns items phases turns m { s with script := ts } →
      ∃ t, exec (phaseInstr p) { s with script := ts } = .next t ∧ Ends m t r)
    (tdes : p ≠ .tdes := by decide) (walk : p ≠ .walk := by decide) : Ends n s r := by
  obtain ⟨m, ts, rfl, more, step⟩ := more.step h.busy fun _ => fine
  obtain ⟨t, run, ends⟩ := after m ts more
  refine Ends.step ?_ ends
  have phase : ({ s with script := ts } : State).phase = p := h.phase
  rw [step, turnInstr]
  rw [← phase] at tdes walk run
  split
  · cases hi : itemInstr { s with script := ts } with
    | none => exact run
    | some i => exact (exec_item_eq_phase hi tdes walk h.inside).trans run
  · exact run

/-- FINISH (R137). -/
theorem Decoding.finish_ends (h : Decoding out rest .finish s) (fine : s.fine = false)
    (more : Turns items 1 1 n s) : Ends n s (.ok out) := by
  refine h.run fine more fun m ts _ => ?_
  obtain ⟨t, run, done⟩ := (h.script ts).output.finish h.err h.errInfo
  exact ⟨t, run, Reaches.here done⟩

/-- How a command ends whose walk, after `out`, went on as given (R298). -/
def walkEnd (out : List Byte) :
    Except ErrInfo (List Byte × Option Tree) → Except ErrInfo (List Byte)
  | .error e => .error e
  | .ok (more, none) => .ok (out ++ more)
  | .ok (_, some _) => .error .incomplete

theorem walkOut_eq_walkEnd (root : Tree) (room : Nat) (bits : List Bool) :
    walkOut root room bits = walkEnd [] (walkTree root room none bits) := by
  unfold walkOut
  cases walkTree root room none bits with
  | error e => rfl
  | ok r =>
    obtain ⟨out, stand⟩ := r
    cases stand <;> rfl

/-- WEND (R298). -/
theorem Decoding.wend_ends {stand : Option Tree} (h : Decoding out rest .wend s) (fine : s.fine = false)
    (stands : Stands root s stand) (more : Turns items 2 2 n s) :
    Ends n s (walkEnd out (.ok ([], stand))) := by
  refine h.run fine more fun m ts more => ?_
  cases stand with
  | none =>
    refine ⟨_, if_neg (not_not_intro (stands.cur_eq_root_iff.mpr rfl)), ?_⟩
    rw [walkEnd, List.append_nil]
    exact Decoding.finish_ends (h.congr rfl rfl) fine more
  | some c =>
    exact ⟨_, if_pos (mt stands.cur_eq_root_iff.mp nofun), Ends.raise _ _ _⟩

/-! ### The walk -/

/-- A walk in two pieces. -/
theorem walkTree_append (root : Tree) (xs ys : List Bool) (room : Nat) (cur : Option Tree) :
    walkTree root room cur (xs ++ ys) =
      (walkTree root room cur xs).bind fun r =>
        (walkTree root (room - r.1.length) r.2 ys).map fun e => (r.1 ++ e.1, e.2) := by
  induction xs generalizing room cur with
  | nil =>
    simp only [List.nil_append, walkTree, Except.bind, List.length_nil, Nat.sub_zero]
    cases walkTree root room cur ys <;> rfl
  | cons b xs ih =>
    simp only [List.cons_append, walkTree]
    split
    next => rfl
    next =>
      split
      next =>
        split
        next => rfl
        next room =>
          rw [ih]
          cases walkTree root _ none xs with
          | error e => rfl
          | ok r =>
            simp only [Except.bind, Except.map, List.length_cons, Nat.sub_sub, Nat.add_comm 1]
            cases walkTree root _ r.2 ys <;> rfl
      next => exact ih _ _

/-- The end of a walk whose first piece emitted `more`. -/
theorem walkEnd_append {root : Tree} {xs ys : List Bool} {room : Nat} {cur stand : Option Tree}
    {out more : List Byte} (h : walkTree root room cur xs = .ok (more, stand)) :
    walkEnd out (walkTree root room cur (xs ++ ys)) =
      walkEnd (out ++ more) (walkTree root (room - more.length) stand ys) := by
  rw [walkTree_append, h]
  simp only [Except.bind]
  cases walkTree root _ stand ys with
  | error e => rfl
  | ok r =>
    obtain ⟨last, _ | c⟩ := r
    · simp only [Except.map, walkEnd, List.append_assoc]
    · rfl

theorem Decoding.walked {more : List Byte} (h : Decoding out rest p s) (room : HasRoom more.length s)
    (k : Nat) (c : Index) : Decoding (out ++ more) rest p (walked k more c s) :=
  { h with
    output := ⟨(h.output.written room).opos, (h.output.written room).bytes⟩
    ahead := (inputFrom_congr (by rfl) (by rfl) (by rfl) _).trans h.ahead }

/-- The walk of some of the bits still to come. -/
theorem Decoding.walk_bits {stand : Option Tree} (h : Decoding out rest p s)
    (stands : Stands root s stand) (bits more : List Bool) :
    (∃ e u, Flow.each walkBit bits s = .abort e u ∧
      walkEnd out (walkTree root (s.obufCap.toNat - s.opos.toNat) stand (bits ++ more)) = .error e) ∨
    ∃ o c stand' t, Flow.each walkBit bits s = .go t ∧ t = Machine.walked bits.length o c s ∧
      Decoding (out ++ o) rest p t ∧ Stands root t stand' ∧
      walkEnd out (walkTree root (s.obufCap.toNat - s.opos.toNat) stand (bits ++ more)) =
        walkEnd (out ++ o) (walkTree root (t.obufCap.toNat - t.opos.toNat) stand' more) := by
  have walks := walkBits_eq bits stands
  cases hw : walkTree root (s.obufCap.toNat - s.opos.toNat) stand bits with
  | error e =>
    rw [hw] at walks
    obtain ⟨u, aborts⟩ := walks
    refine .inl ⟨e, u, aborts, ?_⟩
    rw [walkTree_append, hw]
    rfl
  | ok r =>
    obtain ⟨o, stand'⟩ := r
    rw [hw] at walks
    obtain ⟨room, c, goes, stands'⟩ := walks
    refine .inr ⟨o, c, stand', _, goes, rfl, h.walked room _ c, stands', ?_⟩
    have opos : (Machine.walked bits.length o c s).opos.toNat = s.opos.toNat + o.length := written_opos room
    rw [walkEnd_append hw, opos, ← Nat.sub_sub]
    rfl

/-- WALK run as a whole (R296). -/
theorem Decoding.walk_phase (h : Decoding out rest .walk s) (tree : rootTree s = some root)
    (bitpos : s.bitpos = 0#64) (more : Turns items 2 2 n s) :
    ∃ t, exec (phaseInstr .walk) s = .next t ∧
      Ends n t (walkEnd out (walkTree root (s.obufCap.toNat - s.opos.toNat) none
        (payloadBitsFrom s s.bitlen.toNat))) := by
  have loop : walkLoop (s.bitlen.toNat - s.bitpos.toNat) { s with cur := s.root } =
      Flow.each walkBit (payloadBitsFrom s s.bitlen.toNat) { s with cur := s.root } := by
    have start : s.bitpos.toNat = 0 := congrArg BitVec.toNat bitpos
    rw [start]
    refine walkLoop_eq_each (s := { s with cur := s.root }) (n := s.bitlen.toNat) ?_
    simp only [start, Nat.zero_add, Nat.le_refl]
  have whole : exec (phaseInstr .walk) s =
      ((Flow.each walkBit (payloadBitsFrom s s.bitlen.toNat) { s with cur := s.root }).bind
        fun u => .go { u with phase := .wend, fine := false }).outcome := by
    rw [← loop]
    rfl
  rw [whole]
  have start : Decoding out rest .walk { s with cur := s.root } :=
    h.congr h.phase rfl
  have stands : Stands root { s with cur := s.root } none := ⟨⟨_, tree⟩, rfl⟩
  rcases start.walk_bits stands (payloadBitsFrom s s.bitlen.toNat) [] with
    ⟨e, u, aborts, ends⟩ | ⟨o, c, stand, t, goes, rfl, h', stands', ends⟩
  · rw [List.append_nil] at ends
    rw [aborts]
    exact ⟨_, rfl, ends ▸ Ends.raise n e u⟩
  · rw [List.append_nil] at ends
    rw [goes]
    refine ⟨_, rfl, ?_⟩
    rw [show walkEnd out _ = _ from ends]
    exact Decoding.wend_ends (h'.congr rfl rfl) rfl stands' more

/-- The payload bits ahead begin with those of the byte at BITPOS. -/
theorem payloadBitsFrom_byte {k m : Nat} (bitpos : t.bitpos.toNat = s.bitpos.toNat + k)
    (ibuf : t.ibuf = s.ibuf) (era : t.ibufEra = s.ibufEra) (ipos : t.ipos = s.ipos)
    (own : s.bitpos.toNat % 8 + k ≤ 8) :
    payloadBitsFrom s (k + m) =
      byteBits (payloadByteAt s) s.bitpos.toNat k ++ payloadBitsFrom t m := by
  simp only [payloadBitsFrom, byteBits, List.range_add, List.map_append, List.map_map]
  refine congrArg₂ _ (List.map_congr_left fun i hi => ?_) (List.map_congr_left fun i _ => ?_)
  · have hi := List.mem_range.mp hi
    rw [payloadByteAt, show (s.bitpos.toNat + i) / 8 = s.bitpos.toNat / 8 by omega]
  · simp only [Function.comp_apply, readIn, ibuf, era, ipos, bitpos, Nat.add_assoc]

/-- The payload bits are those of the bytes ahead (R254, R255). -/
theorem payloadBitsFrom_eq_unpack {k : Nat} (bitpos : s.bitpos = 0#64)
    (ahead : inputFrom s s.ipos.toNat = rest) (within : ceil8 k ≤ rest.length) :
    payloadBitsFrom s k = unpack rest k := by
  have bounds := ceil8_bounds k
  have left := inputFrom_length s s.ipos.toNat
  rw [ahead] at left
  refine List.map_congr_left fun i hi => ?_
  have hi := List.mem_range.mp hi
  have start : s.bitpos.toNat = 0 := congrArg BitVec.toNat bitpos
  have byte : rest[i / 8]? = some (readIn s (s.ipos.toNat + i / 8)) := by
    rw [← ahead]
    exact readRange_getElem? s _ _ _ (by omega)
  rw [start, Nat.zero_add, List.getD_eq_getElem?_getD, byte, Option.getD_some]

/-- An item turn of WALK reads a byte while there are payload bits. -/
theorem turnInstr_walk (phase : s.phase = .walk) :
    turnInstr true s =
      if s.bitpos < s.bitlen then .payloadByte (payloadByteAt s) else phaseInstr .walk := by
  simp only [turnInstr, itemInstr, itemRaw, phase, if_true]
  split <;> rfl

/-- Entering the walk sets CUR at most (log 9). -/
theorem walkEnter_eq (s : State) : ∃ c, walkEnter s = { s with cur := c, fine := true } := by
  unfold walkEnter
  split
  next fine =>
    refine ⟨s.cur, ?_⟩
    cases s
    cases fine
    rfl
  next => exact ⟨s.root, rfl⟩

theorem walkEnter_script (s : State) (ts : List Turn) :
    walkEnter { s with script := ts } = { walkEnter s with script := ts } := by
  unfold walkEnter
  split <;> rfl

/-- Where the walker stands depends on the arena, ROOT and CUR. -/
theorem Stands.script {stand : Option Tree} (h : Stands root s stand) (ts : List Turn) :
    Stands root { s with script := ts } stand := by
  cases stand <;> exact h

theorem walkEnter_of_fine (fine : s.fine = true) : walkEnter s = s := if_pos fine

/-- A payload byte enters the walk, and then walks its bits that are payload (R296, R114 item 1). -/
theorem exec_payloadByte (b : Byte) {k : Nat} (inside : s.bitpos < s.bitlen)
    (bits : k = min (8 - s.bitpos.toNat % 8) (s.bitlen.toNat - s.bitpos.toNat)) :
    exec (.payloadByte b) s =
      ((Flow.each walkBit (byteBits b s.bitpos.toNat k) (walkEnter s)).bind fun u =>
        .go (if u.bitlen ≤ u.bitpos then { u with phase := .wend, fine := false } else u)).outcome := by
  obtain ⟨c, enter⟩ := walkEnter_eq s
  have inside : s.bitpos.toNat < s.bitlen.toNat := inside
  have loop := walkByte_eq_each (b := b) (n := k) (s := walkEnter s) (by simp only [enter]; omega)
  simp only [enter, bits] at loop
  rw [bits, enter, ← loop, ← enter]
  rfl

/-- PAYLOAD_BYTE: the walk goes on with the next byte, or with WEND. -/
theorem Decoding.walk_byte {stand : Option Tree} (h : Decoding out rest .walk s)
    (stands : Stands root (walkEnter s) stand) (inside : s.bitpos < s.bitlen)
    (aligned : s.bitpos.toNat % 8 = 0) (more : Turns true 2 2 n s)
    (next : ∀ {t out stand}, Decoding out rest .walk t → Stands root (walkEnter t) stand →
      t.bitpos.toNat = s.bitpos.toNat + 8 → t.bitlen = s.bitlen → t.bitpos < t.bitlen →
      t.script = s.script →
      Ends n t (walkEnd out (walkTree root (t.obufCap.toNat - t.opos.toNat) stand
        (payloadBitsFrom t (t.bitlen.toNat - t.bitpos.toNat))))) :
    ∃ t, exec (.payloadByte (payloadByteAt s)) s = .next t ∧
      Ends n t (walkEnd out (walkTree root (s.obufCap.toNat - s.opos.toNat) stand
        (payloadBitsFrom s (s.bitlen.toNat - s.bitpos.toNat)))) := by
  obtain ⟨c, enter⟩ := walkEnter_eq s
  obtain ⟨k, bits⟩ : ∃ k, k = min (8 - s.bitpos.toNat % 8) (s.bitlen.toNat - s.bitpos.toNat) := ⟨_, rfl⟩
  have insideNat : s.bitpos.toNat < s.bitlen.toNat := inside
  have := s.bitlen.isLt
  have moved : (s.bitpos + BitVec.ofNat 64 k).toNat = s.bitpos.toNat + k := by
    rw [BitVec.toNat_add, BitVec.toNat_ofNat]
    omega
  obtain ⟨m, total⟩ : ∃ m, s.bitlen.toNat - s.bitpos.toNat = k + m :=
    ⟨s.bitlen.toNat - s.bitpos.toNat - k, by omega⟩
  rw [exec_payloadByte _ inside bits, total, payloadBitsFrom_byte
    (t := { s with bitpos := s.bitpos + BitVec.ofNat 64 k }) moved rfl rfl rfl (by omega), enter]
  rw [enter] at stands
  have entered : Decoding out rest .walk { s with cur := c, fine := true } := h.congr h.phase rfl
  rcases entered.walk_bits stands (byteBits (payloadByteAt s) s.bitpos.toNat k)
      (payloadBitsFrom { s with bitpos := s.bitpos + BitVec.ofNat 64 k } m) with
    ⟨e, u, aborts, ends⟩ | ⟨o, c, stand, t, goes, e, h', stands', ends⟩
  · rw [aborts]
    exact ⟨_, rfl, ends ▸ Ends.raise n e u⟩
  · rw [goes]
    refine ⟨_, rfl, ?_⟩
    rw [show walkEnd out _ = _ from ends]
    have count : (byteBits (payloadByteAt s) s.bitpos.toNat k).length = k := by simp [byteBits]
    rw [count] at e
    have bitpos : t.bitpos.toNat = s.bitpos.toNat + k := by rw [e]; exact moved
    have bitlen : t.bitlen = s.bitlen := by rw [e]; rfl
    have script : t.script = s.script := by rw [e]; rfl
    have same : payloadBitsFrom { s with bitpos := s.bitpos + BitVec.ofNat 64 k } m =
        payloadBitsFrom t m := by rw [e]; rfl
    rw [same]
    by_cases last : t.bitlen ≤ t.bitpos
    · have none : m = 0 := by
        rw [BitVec.le_def, bitlen, bitpos] at last
        omega
      rw [if_pos last, none]
      exact Decoding.wend_ends (h'.congr rfl rfl) rfl stands' (more.congr script)
    · rw [if_neg last]
      have further := BitVec.not_le.mp last
      have left : m = t.bitlen.toNat - t.bitpos.toNat := by rw [bitlen, bitpos]; omega
      rw [left]
      have fine : t.fine = true := by rw [e]; rfl
      have eight : t.bitpos.toNat = s.bitpos.toNat + 8 := by
        rw [BitVec.lt_def, bitlen, bitpos] at further
        omega
      exact next h' ((walkEnter_of_fine fine).symm ▸ stands') eight bitlen further script

/-- WALK in item turns: one for each byte that holds payload bits. -/
theorem Decoding.walk_items {stand : Option Tree} (left : Nat) (h : Decoding out rest .walk s)
    (stands : Stands root (walkEnter s) stand) (inside : s.bitpos < s.bitlen)
    (aligned : s.bitpos.toNat % 8 = 0) (bytes : ceil8 (s.bitlen.toNat - s.bitpos.toNat) ≤ left)
    (more : Turns true 2 (left + 2) n s) :
    Ends n s (walkEnd out (walkTree root (s.obufCap.toNat - s.opos.toNat) stand
      (payloadBitsFrom s (s.bitlen.toNat - s.bitpos.toNat)))) := by
  have insideNat : s.bitpos.toNat < s.bitlen.toNat := inside
  rw [ceil8_eq] at bytes
  induction left generalizing s out stand n with
  | zero => omega
  | succ left ih =>
    obtain ⟨m, ts, rfl, more, step⟩ := Turns.step (phases := 1) more h.busy nofun
    rw [(turnInstr_walk (s := { s with script := ts }) h.phase).trans (if_pos inside)] at step
    obtain ⟨t, run, ends⟩ := (h.script ts).walk_byte (n := m) (root := root) (stand := stand)
      (walkEnter_script s ts ▸ stands.script ts) inside aligned
      (more.ofItems (Nat.le_add_left 2 left)) fun {t _ _} h' stands'
          (bitpos : t.bitpos.toNat = s.bitpos.toNat + 8) (bitlen : t.bitlen = s.bitlen) inside' script' =>
        ih h' stands' inside' (by omega) (by rw [bitlen, bitpos]; omega)
          ((more.ofItems (Nat.le_refl _)).congr script') inside'
    exact Ends.step (step.trans run) ends

/-- WALK from its start, in either way. -/
theorem Decoding.walk_ends (h : Decoding out rest .walk s) (fine : s.fine = false)
    (tree : rootTree s = some root) (bitpos : s.bitpos = 0#64)
    (size : rest.length = ceil8 s.bitlen.toNat) (more : Turns items 3 (2 + max 1 rest.length) n s) :
    Ends n s (walkEnd out (walkTree root (s.obufCap.toNat - s.opos.toNat) none
      (unpack rest s.bitlen.toNat))) := by
  rw [← payloadBitsFrom_eq_unpack bitpos h.ahead (Nat.le_of_eq size.symm)]
  by_cases byItems : items = true ∧ s.bitpos < s.bitlen
  · obtain ⟨rfl, inside⟩ := byItems
    have start : s.bitpos.toNat = 0 := congrArg BitVec.toNat bitpos
    have stands : Stands root (walkEnter s) none := by
      rw [walkEnter, if_neg (by simp [fine])]
      exact ⟨⟨_, tree⟩, rfl⟩
    have bytes : ceil8 (s.bitlen.toNat - s.bitpos.toNat) ≤ rest.length := by
      rw [start, size]
      exact Nat.le_refl _
    have ends := h.walk_items rest.length stands inside (by rw [start]) bytes (more.ofItems (by omega))
    rwa [start] at ends
  · obtain ⟨m, ts, rfl, more, step⟩ :=
      Turns.step (phases := 2) (turns := 2) (more.fewer (Nat.le_refl _) (by omega)) h.busy fun _ => fine
    have whole : turnInstr items { s with script := ts } = phaseInstr .walk := by
      cases items with
      | false => exact congrArg phaseInstr h.phase
      | true =>
        have past : ¬ s.bitpos < s.bitlen := fun inside => byItems ⟨rfl, inside⟩
        exact (turnInstr_walk (s := { s with script := ts }) h.phase).trans (if_neg past)
    rw [whole] at step
    obtain ⟨t, run, ends⟩ := (h.script ts).walk_phase tree bitpos more
    exact Ends.step (step.trans run) ends

/-! ### The length and the delimiter -/

/-- CHKLEN (R295). -/
theorem Decoding.chklen_ends (h : Decoding [] rest .chklen s) (fine : s.fine = false)
    (tree : rootTree s = some root) (more : Turns items 4 (3 + max 1 rest.length) n s) :
    Ends n s (if rest.length ≠ ceil8 s.bitlen.toNat then .error .lenMismatch
      else walkOut root s.obufCap.toNat (unpack rest s.bitlen.toNat)) := by
  refine h.run (phases := 3) (turns := 2 + max 1 rest.length) fine (more.fewer (Nat.le_refl _) (by omega))
    fun m ts more => ?_
  have left : (s.inLen - s.ipos).toNat = rest.length := (bytesLeft h.inside).trans (congrArg _ h.ahead)
  by_cases size : rest.length = ceil8 s.bitlen.toNat
  · rw [if_neg (not_not_intro size), walkOut_eq_walkEnd]
    refine ⟨_, if_neg (not_not_intro (left.trans size)), ?_⟩
    have room : s.obufCap.toNat - s.opos.toNat = s.obufCap.toNat := by
      rw [h.output.opos]
      rfl
    rw [← room]
    exact Decoding.walk_ends (h.congr rfl rfl) fine tree rfl size more
  · rw [if_pos size]
    exact ⟨_, if_pos (left.symm ▸ size), Ends.raise _ _ _⟩

/-- RDLEN (R294). -/
theorem Decoding.rdlen_ends (h : Decoding [] rest .rdlen s) (fine : s.fine = false)
    (tree : rootTree s = some root) (more : Turns items 5 (4 + rest.length) n s) :
    Ends n s (decodeTail s.obufCap.toNat root (Config.delim :: rest)) := by
  simp only [decodeTail, ne_eq, not_true_eq_false, if_false]
  have left : (s.inLen - s.ipos).toNat = rest.length := (bytesLeft h.inside).trans (congrArg _ h.ahead)
  by_cases short : rest.length < Config.bitlenBytes
  · rw [if_pos short]
    refine h.run (phases := 4) (turns := 0) fine (more.fewer (Nat.le_refl _) (by omega)) fun m ts _ => ?_
    exact ⟨_, if_pos (left.symm ▸ short), Ends.raise _ _ _⟩
  · have long : Config.bitlenBytes ≤ rest.length := Nat.le_of_not_lt short
    rw [if_neg short]
    refine h.run (phases := 4) (turns := 3 + max 1 (rest.drop Config.bitlenBytes).length) fine
      (more.fewer (Nat.le_refl _) ?_) fun m ts more => ?_
    · simp only [List.length_drop, Config.bitlenBytes] at long ⊢
      omega
    · refine ⟨_, if_neg (left.symm ▸ short), ?_⟩
      have field : readRange s s.ipos.toNat Config.bitlenBytes = rest.take Config.bitlenBytes := by
        rw [← h.ahead] at long ⊢
        exact (inputFrom_take long).symm
      have parts : Decoding [] (rest.take Config.bitlenBytes ++ rest.drop Config.bitlenBytes) .rdlen s := by
        rwa [List.take_append_drop]
      have moved := parts.advance .chklen
      rw [List.length_take_of_le long] at moved
      rw [← field]
      exact Decoding.chklen_ends (moved.congr rfl rfl) fine tree more

/-- DELIM (R293). -/
theorem Decoding.delim_ends (h : Decoding [] rest .delim s) (fine : s.fine = false)
    (tree : rootTree s = some root) (more : Turns items 6 (5 + rest.length) n s) :
    Ends n s (decodeTail s.obufCap.toNat root rest) := by
  have left := inputFrom_length s s.ipos.toNat
  rw [h.ahead] at left
  cases hr : rest with
  | nil =>
    refine h.run (phases := 5) (turns := 4) fine (more.fewer (Nat.le_refl _) (by omega)) fun m ts _ => ?_
    rw [hr] at left
    exact ⟨_, if_pos (BitVec.le_def.mpr (Nat.le_of_sub_eq_zero left.symm)), Ends.raise _ _ _⟩
  | cons d rest' =>
    subst hr
    obtain ⟨inside, first, _⟩ := inputFrom_cons h.ahead
    have some : ¬ s.inLen ≤ s.ipos := BitVec.not_le.mpr inside
    refine h.run (phases := 5) (turns := 4 + rest'.length) fine
      (more.fewer (Nat.le_refl _) (by rw [List.length_cons]; omega)) fun m ts turnsLeft => ?_
    by_cases delim : d = Config.delim
    · subst delim
      refine ⟨_, (if_neg some).trans (if_neg (not_not_intro first)), ?_⟩
      have moved := Decoding.advance (bytes := [Config.delim]) h .rdlen
      exact Decoding.rdlen_ends (moved.congr rfl rfl) fine tree turnsLeft
    · simp only [decodeTail, if_pos delim]
      exact ⟨_, (if_neg some).trans (if_pos (first.symm ▸ delim)), Ends.raise _ _ _⟩

end

end Sys2Proof.Machine
end

section
/-! SUPPORT. DECOMPRESS up to its tree (R291, R228): TDES as a whole and token by token, DHEAD and CHECK. -/

namespace Sys2Proof.Machine

section
variable {items : Bool} {phases turns n : Nat} {s t : State} {rest bytes : List Byte}

/-- How a command ends whose artifact begins with a tree (R141). -/
def decodeTree (room : Nat) (bytes : List Byte) : Except ErrInfo (List Byte) :=
  match parseTree bytes.length 0 bytes with
  | .error e => .error e
  | .ok (t, _, tail) => decodeTail room t tail

/-- The parse of the tree ends as the abstract one of `bytes` does, the bytes behind the tree ahead. -/
def ParsesTo (bytes : List Byte) (f : Flow) : Prop :=
  match parseTree bytes.length 0 bytes with
  | .error e => ∃ u, f = .abort e u
  | .ok (t, _, tail) =>
    ∃ u, f = .go u ∧ rootTree u = some t ∧ u.stack = [] ∧ Decoding [] tail .tdes u

theorem decodeTree_of_error {e : ErrInfo} (h : parseTree bytes.length 0 bytes = .error e) (room : Nat) :
    decodeTree room bytes = .error e := by
  rw [decodeTree, h]

/-- A parse that raises an error raises that of the abstract one. -/
theorem ParsesTo.error {f : Flow} {e : ErrInfo} {u : State} (h : ParsesTo bytes f)
    (aborts : f = .abort e u) : parseTree bytes.length 0 bytes = .error e := by
  unfold ParsesTo at h
  subst aborts
  split at h
  next e' he =>
    obtain ⟨v, hv⟩ := h
    cases hv
    exact he
  next =>
    obtain ⟨v, hv, _⟩ := h
    cases hv

/-- A parse that ends goes on with DELIM. -/
theorem ParsesTo.delim_ends {f : Flow} {u : State} (h : ParsesTo bytes f) (goes : f = .go u)
    (more : Turns items 6 (5 + (inputFrom u u.ipos.toNat).length) n u) :
    Ends n { u with phase := .delim, fine := false } (decodeTree u.obufCap.toNat bytes) := by
  unfold ParsesTo at h
  unfold decodeTree
  subst goes
  split at h
  next =>
    obtain ⟨v, hv⟩ := h
    cases hv
  next =>
    obtain ⟨v, hv, tree, _, dec⟩ := h
    cases hv
    rw [dec.ahead] at more
    exact Decoding.delim_ends (s := { u with phase := .delim, fine := false }) (dec.congr rfl rfl) rfl
      tree more

/-- The parse from its start. -/
theorem Decoding.parsesTo (h : Decoding [] bytes .tdes s) (start : s.ipos = 0#32) :
    ParsesTo bytes (parseLoop bytes (parseStart s)) := by
  have parse := parseLoop_start s bytes
  unfold ParsesTo
  cases hp : parseTree bytes.length 0 bytes with
  | error e => rw [hp] at parse; exact parse
  | ok r =>
    obtain ⟨t, k, tail⟩ := r
    rw [hp] at parse
    obtain ⟨u, goes, read⟩ := parse
    refine ⟨u, goes, read.tree, read.stack, ?_⟩
    obtain ⟨own, _⟩ := parseTree_ok hp
    rw [own] at h
    have moved := h.advance .tdes
    rw [start, BitVec.zero_add] at moved
    have frame := read.frame
    unfold ParseFrame at frame
    rw [read.ipos] at frame
    rw [frame]
    exact moved.congr h.phase rfl

theorem input_eq_inputFrom (s : State) : input s = inputFrom s 0 := rfl

/-- TDES run as a whole (R228). -/
theorem Decoding.tdes_phase (h : Decoding [] bytes .tdes s) (start : s.ipos = 0#32)
    (more : Turns false 6 turns n s) :
    ∃ t, exec (phaseInstr .tdes) s = .next t ∧ Ends n t (decodeTree s.obufCap.toNat bytes) := by
  have all : input s = bytes := by
    rw [input_eq_inputFrom, ← h.ahead, start]
    rfl
  have whole : exec (phaseInstr .tdes) s =
      ((parseLoop bytes (parseStart s)).bind fun u =>
        .go { u with phase := .delim, fine := false }).outcome := by
    rw [← all]
    rfl
  have parses := h.parsesTo start
  rw [whole]
  cases hf : parseLoop bytes (parseStart s) with
  | abort e u =>
    rw [decodeTree_of_error (parses.error hf)]
    exact ⟨_, rfl, Ends.raise _ _ _⟩
  | go u =>
    refine ⟨_, rfl, ?_⟩
    have frame := (parseLoop_frame _ _).1 u hf
    unfold ParseFrame at frame
    have cap : u.obufCap = s.obufCap := by rw [frame]; rfl
    have script : u.script = s.script := by rw [frame]; rfl
    rw [← cap]
    exact parses.delim_ends hf ((more.ofPhases (Nat.le_refl 6)).congr script)

/-! ### Token by token -/

theorem parseEnter_script (s : State) (ts : List Turn) :
    parseEnter { s with script := ts } = { parseEnter s with script := ts } := by
  unfold parseEnter
  split <;> rfl

theorem parseEnter_of_fine (fine : s.fine = true) : parseEnter s = s := if_pos fine

/-- Before its first token TDES starts the parse, and later it is where it was (log 9). -/
theorem parseEnter_eq (start : s.fine = false → s.ipos = 0#32) :
    ∃ nn stack, parseEnter s = { s with nn := nn, stack := stack, fine := true } := by
  unfold parseEnter
  split
  next fine =>
    refine ⟨s.nn, s.stack, ?_⟩
    cases s
    cases fine
    rfl
  next fine =>
    have ipos := start (Bool.eq_false_iff.mpr fine)
    refine ⟨0#10, [], ?_⟩
    simp only [parseStart, ipos]

/-- The item TDES reads next. -/
theorem itemInstr_tdes (phase : s.phase = .tdes) (start : s.fine = false → s.ipos = 0#32) :
    itemInstr s = instrOf (.artifact .marker (inputFrom s s.ipos.toNat)) := by
  have place : (if s.fine = true then s.ipos.toNat else 0) = s.ipos.toNat := by
    split
    next => rfl
    next fine => rw [start (Bool.eq_false_iff.mpr fine)]; rfl
  simp only [itemInstr, itemRaw, phase, place, Option.bind_some]

/-- A parse in item turns: `rest` is ahead, and the parse of it ends as that of all the bytes does, whatever
turns follow. -/
structure Parsing (bytes rest : List Byte) (s : State) : Prop where
  dec : Decoding [] rest .tdes s
  all : input s = bytes
  start : s.fine = false → s.ipos = 0#32
  parses : ∀ ts, ParsesTo bytes (parseLoop rest { parseEnter s with script := ts })

theorem Parsing.script (h : Parsing bytes rest s) (ts : List Turn) :
    Parsing bytes rest { s with script := ts } :=
  { dec := h.dec.script ts
    all := (input_congr (by rfl) (by rfl) (by rfl)).trans h.all
    start := h.start
    parses := by rw [parseEnter_script]; exact h.parses }

theorem Parsing.parses_here (h : Parsing bytes rest s) : ParsesTo bytes (parseLoop rest (parseEnter s)) := by
  have here : parseEnter s = { parseEnter s with script := s.script } := parseEnter_script s s.script
  rw [here]
  exact h.parses s.script

/-- Where no token can be read, TDES raises the error of the whole parse. -/
theorem Parsing.phase_raises {e : ErrInfo} {u : State} (h : Parsing bytes rest s)
    (aborts : parseLoop rest (parseEnter s) = .abort e u) :
    ∃ t, exec (phaseInstr .tdes) s = .next t ∧ Ends n t (decodeTree s.obufCap.toNat bytes) := by
  have error := h.parses_here.error aborts
  have parse := parseLoop_start s bytes
  rw [error] at parse
  obtain ⟨v, again⟩ := parse
  rw [decodeTree_of_error error]
  refine ⟨_, ?_, Ends.raise n e v⟩
  change ((parseLoop (input s) (parseStart s)).bind _).outcome = _
  rw [h.all, again]
  rfl

/-- A token read, with `more` ahead and subtrees pending. -/
theorem Parsing.token {own more : List Byte} (h : Parsing bytes (own ++ more) s)
    (moved : Decoding [] more .tdes t) (input : input t = bytes) (fine : t.fine = true)
    (loop : ∀ ts, parseLoop (own ++ more) { parseEnter s with script := ts } =
      parseLoop more { t with script := ts }) : Parsing bytes more t :=
  { dec := moved
    all := input
    start := fun f => by rw [fine] at f; cases f
    parses := fun ts => by
      rw [parseEnter_of_fine fine, ← loop ts]
      exact h.parses ts }

theorem parseBranch_go (room : s.nn.toNat < Config.nodeCap) : parseBranch s = .go (branchRead s) :=
  parseBranch_room s room

/-- A BRANCH token (R93, R228). -/
theorem Parsing.branch (h : Parsing bytes (Config.tokBranch :: rest) s)
    (next : ∀ {t}, Parsing bytes rest t → t.fine = true → t.script = s.script → t.obufCap = s.obufCap →
      Ends n t (decodeTree t.obufCap.toNat bytes)) :
    ∃ t, exec .tokBranch s = .next t ∧ Ends n t (decodeTree s.obufCap.toNat bytes) := by
  have whole : exec .tokBranch s = (parseBranch (parseEnter s)).outcome := rfl
  rw [whole]
  by_cases room : (parseEnter s).nn.toNat < Config.nodeCap
  · rw [parseBranch_go room]
    refine ⟨branchRead (parseEnter s), rfl, ?_⟩
    obtain ⟨nn, stack, enter⟩ := parseEnter_eq h.start
    have cap : (branchRead (parseEnter s)).obufCap = s.obufCap := by rw [enter]; rfl
    rw [← cap]
    refine next (h.token (own := [Config.tokBranch]) ?_ ?_ ?_ fun ts => ?_) ?_ ?_ cap
    · have moved := Decoding.advance (bytes := [Config.tokBranch]) h.dec .tdes
      rw [enter]
      exact moved.congr h.dec.phase rfl
    · rw [enter]
      exact (input_congr (by rfl) (by rfl) (by rfl)).trans h.all
    · rw [enter]; rfl
    · refine (parseLoop_branch rest _).trans ?_
      rw [parseBranch_go (s := { parseEnter s with script := ts }) room]
      rfl
    · rw [enter]; rfl
    · rw [enter]; rfl
  · have full : Config.nodeCap ≤ (parseEnter s).nn.toNat := Nat.le_of_not_lt room
    have aborts : parseLoop (Config.tokBranch :: rest) (parseEnter s) = .abort .tooLarge (parseEnter s) := by
      rw [parseLoop_branch, parseBranch_full _ full, Flow.bind_abort]
    rw [parseBranch_full _ full, decodeTree_of_error (h.parses_here.error aborts)]
    exact ⟨_, rfl, Ends.raise _ _ _⟩

theorem completeSubtree_script (j : Index) (stack : List Frame) (s : State) (ts : List Turn) :
    completeSubtree j stack { s with script := ts } = { completeSubtree j stack s with script := ts } := by
  induction stack generalizing j s with
  | nil => rfl
  | cons f stack ih =>
    cases f with
    | left i => rfl
    | right i l =>
      exact ih i
        { s with
          arena := Table.put s.arena i.toNat { nodeAt s.arena i.toNat with left := l, right := j } }

/-- A new Leaf in the arena, its token read. -/
def leafEntered (sym : Byte) (s : State) : State :=
  { s with
    arena := Table.put s.arena (nextIndex s).toNat
      { nodeAt s.arena (nextIndex s).toNat with kind := .leaf, sym := sym }
    nn := s.nn + 1#10
    ipos := s.ipos + 2#32 }

/-- The state in which TDES goes on, or ends, after a LEAF token. -/
def leafRead (sym : Byte) (s : State) : State :=
  completeSubtree (nextIndex s) s.stack (leafEntered sym s)

theorem parseLeaf_go (sym : Byte) (room : s.nn.toNat < Config.nodeCap) :
    parseLeaf sym s = .go (leafRead sym s) :=
  parseLeaf_room sym s room

theorem leafRead_script (sym : Byte) (s : State) (ts : List Turn) :
    leafRead sym { s with script := ts } = { leafRead sym s with script := ts } :=
  completeSubtree_script (nextIndex s) s.stack (leafEntered sym s) ts

/-- A LEAF token completes subtrees and moves IPOS. -/
theorem leafRead_eq (sym : Byte) (s : State) :
    ∃ arena root stack, leafRead sym s =
      { s with arena := arena, nn := s.nn + 1#10, root := root, stack := stack, ipos := s.ipos + 2#32 } := by
  obtain ⟨arena, root, stack, e, _⟩ :=
    completeSubtree_frame (nextIndex s) s.stack (leafEntered sym s)
  exact ⟨arena, root, stack, e⟩

/-- A LEAF token (R93, R228). -/
theorem Parsing.leaf {sym : Byte} (h : Parsing bytes (Config.tokLeaf :: sym :: rest) s)
    (more : Turns true 6 (5 + rest.length) n s)
    (next : ∀ {t}, Parsing bytes rest t → t.fine = true → t.script = s.script → t.obufCap = s.obufCap →
      Ends n t (decodeTree t.obufCap.toNat bytes)) :
    ∃ t, exec (.tokLeaf sym) s = .next t ∧ Ends n t (decodeTree s.obufCap.toNat bytes) := by
  have whole : exec (.tokLeaf sym) s = ((parseLeaf sym (parseEnter s)).bind fun u =>
      .go (if u.stack = [] then { u with phase := .delim, fine := false } else u)).outcome := rfl
  rw [whole]
  by_cases room : (parseEnter s).nn.toNat < Config.nodeCap
  · rw [parseLeaf_go sym room]
    refine ⟨_, rfl, ?_⟩
    obtain ⟨nn, stack, enter⟩ := parseEnter_eq h.start
    obtain ⟨arena, root, stack', read⟩ := leafRead_eq sym (parseEnter s)
    generalize ht : leafRead sym (parseEnter s) = t at read
    rw [enter] at read
    have moved : Decoding [] rest .tdes t := by
      rw [read]
      exact (Decoding.advance (bytes := [Config.tokLeaf, sym]) h.dec .tdes).congr h.dec.phase rfl
    have loop (ts : List Turn) :
        parseLoop (Config.tokLeaf :: sym :: rest) { parseEnter s with script := ts } =
          resume rest { t with script := ts } := by
      refine (parseLoop_leaf sym rest _).trans ?_
      rw [parseLeaf_go (s := { parseEnter s with script := ts }) sym room, Flow.bind_go, leafRead_script, ht]
    have cap : t.obufCap = s.obufCap := by rw [read]
    have script : t.script = s.script := by rw [read]
    rw [← cap]
    by_cases done : t.stack = []
    · rw [if_pos done]
      have goes :
          parseLoop (Config.tokLeaf :: sym :: rest) { parseEnter s with script := s.script } = .go t := by
        rw [loop, ← script]
        exact if_pos done
      refine (h.parses s.script).delim_ends (items := true) goes (Turns.congr ?_ script)
      rwa [moved.ahead]
    · rw [if_neg done]
      have all : input t = bytes := by
        rw [read]
        exact (input_congr (by rfl) (by rfl) (by rfl)).trans h.all
      have fine : t.fine = true := by rw [read]
      exact next (h.token (own := [Config.tokLeaf, sym]) moved all fine fun ts =>
        (loop ts).trans (resume_pending done)) fine script cap
  · have full : Config.nodeCap ≤ (parseEnter s).nn.toNat := Nat.le_of_not_lt room
    have aborts : parseLoop (Config.tokLeaf :: sym :: rest) (parseEnter s) =
        .abort .tooLarge (parseEnter s) := by
      rw [parseLoop_leaf, parseLeaf_full _ _ full, Flow.bind_abort]
    rw [parseLeaf_full _ _ full, decodeTree_of_error (h.parses_here.error aborts)]
    exact ⟨_, rfl, Ends.raise _ _ _⟩

/-- An item turn of TDES reads the token ahead, if there is one. -/
theorem Parsing.turnInstr_eq (h : Parsing bytes rest s) :
    turnInstr true s = (instrOf (.artifact .marker rest)).getD (phaseInstr .tdes) := by
  rw [turnInstr, if_pos rfl, itemInstr_tdes h.dec.phase h.start, h.dec.ahead, h.dec.phase]

theorem instrOf_item {pos : Pos} {i : Instr} {own : List Byte} (item : ItemAt pos i own) (rest : List Byte) :
    instrOf (.artifact pos (own ++ rest)) = some i :=
  instrOf_of_decode (item.decode_append rest)

/-- One item turn of TDES. -/
theorem Parsing.turn (h : Parsing bytes rest s) (more : Turns true 6 (4 + rest.length) n s)
    (next : ∀ {t rest}, Parsing bytes rest t → Turns true 7 (5 + rest.length) n t →
      Ends n t (decodeTree t.obufCap.toNat bytes)) :
    ∃ t, exec (turnInstr true s) s = .next t ∧ Ends n t (decodeTree s.obufCap.toNat bytes) := by
  rw [h.turnInstr_eq]
  cases rest with
  | nil => exact h.phase_raises rfl
  | cons b rest' =>
    by_cases branch : b = Config.tokBranch
    · subst branch
      rw [List.length_cons] at more
      have item : instrOf (.artifact .marker (Config.tokBranch :: rest')) = some .tokBranch :=
        instrOf_item .branch rest'
      rw [item]
      exact h.branch fun h' _ script _ => next h' ((more.ofItems (by omega)).congr script)
    by_cases leaf : b = Config.tokLeaf
    · subst leaf
      cases rest' with
      | nil => exact h.phase_raises (parseLoop_leaf_end _)
      | cons sym rest' =>
        simp only [List.length_cons] at more
        have item : instrOf (.artifact .marker (Config.tokLeaf :: sym :: rest')) = some (.tokLeaf sym) :=
          instrOf_item (.leaf sym) rest'
        rw [item]
        exact h.leaf (more.ofItems (by omega)) fun h' _ script _ =>
          next h' ((more.ofItems (by omega)).congr script)
    · have none : instrOf (.artifact .marker (b :: rest')) = none := by
        rw [instrOf, decode_marker_error rest' branch leaf]
      rw [none]
      exact h.phase_raises (parseLoop_other leaf branch _ _)

/-- The parse in item turns, token by token. -/
theorem Parsing.ends (h : Parsing bytes rest s) (more : Turns true 7 (5 + rest.length) n s) :
    Ends n s (decodeTree s.obufCap.toNat bytes) := by
  induction n generalizing s rest with
  | zero =>
    obtain ⟨_, enough⟩ := more
    omega
  | succ n ih =>
    obtain ⟨m, ts, e, more, step⟩ := Turns.step (phases := 6) (turns := 4 + rest.length)
      (more.ofItems (by omega)) h.dec.busy nofun
    cases e
    obtain ⟨t, run, ends⟩ := (h.script ts).turn more ih
    exact Ends.step (step.trans run) ends

/-- TDES from its start, in either way. -/
theorem Decoding.tdes_ends (h : Decoding [] bytes .tdes s) (fine : s.fine = false) (start : s.ipos = 0#32)
    (more : Turns items 7 (5 + bytes.length) n s) : Ends n s (decodeTree s.obufCap.toNat bytes) := by
  cases items with
  | false =>
    obtain ⟨m, ts, rfl, more, step⟩ :=
      Turns.step (turns := 0) (more.ofPhases (Nat.le_refl _)) h.busy fun _ => fine
    have whole : turnInstr false { s with script := ts } = phaseInstr .tdes := congrArg phaseInstr h.phase
    rw [whole] at step
    obtain ⟨t, run, ends⟩ := (h.script ts).tdes_phase start more
    exact Ends.step (step.trans run) ends
  | true =>
    refine Parsing.ends ⟨h, ?_, fun _ => start, fun ts => ?_⟩ more
    · rw [input_eq_inputFrom, ← h.ahead, start]
      rfl
    · have enter : parseEnter s = { parseStart s with fine := true } := if_neg (by simp [fine])
      rw [enter]
      exact Decoding.parsesTo (s := { s with fine := true, script := ts }) (h.congr h.phase rfl) start

/-! ### The head of the artifact, and CHECK -/

/-- DHEAD (R291). -/
theorem Decoding.dhead_ends (h : Decoding [] bytes .dhead s) (fine : s.fine = false) (start : s.ipos = 0#32)
    (more : Turns items 8 (6 + bytes.length) n s) : Ends n s (decompressed s.obufCap.toNat bytes) := by
  have left := inputFrom_length s s.ipos.toNat
  rw [h.ahead] at left
  have ipos : s.ipos.toNat = 0 := congrArg BitVec.toNat start
  rw [ipos, Nat.sub_zero] at left
  refine h.run (phases := 7) (turns := 5 + bytes.length) fine (more.fewer (Nat.le_refl _) (by omega))
    fun m ts more => ?_
  cases bytes with
  | nil =>
    exact ⟨_, if_pos ((inLen_eq_zero_iff s).mpr left.symm), Ends.raise _ _ _⟩
  | cons b rest =>
    have some : s.inLen ≠ 0#32 := mt (inLen_eq_zero_iff s).mp (by simp [← left])
    obtain ⟨_, first, _⟩ := inputFrom_cons h.ahead
    rw [ipos] at first
    by_cases empty : b = Config.tokEmpty
    · have head : exec (phaseInstr .dhead) { s with script := ts } =
          (headEmpty { s with script := ts }).outcome :=
        (if_neg some).trans (if_pos (first.trans empty))
      simp only [decompressed, if_pos empty, head]
      cases rest with
      | nil =>
        have one : s.inLen = 1#32 := BitVec.eq_of_toNat_eq left.symm
        refine ⟨_, congrArg Flow.outcome (if_neg (not_not_intro one)), ?_⟩
        exact Decoding.finish_ends (h.congr rfl rfl) fine (more.fewer (by decide) (by omega))
      | cons c rest =>
        have long : s.inLen ≠ 1#32 := fun one => by
          rw [one] at left
          simp at left
        exact ⟨_, congrArg Flow.outcome (if_pos long), Ends.raise _ _ _⟩
    · simp only [decompressed, if_neg empty]
      refine ⟨_, (if_neg some).trans (if_neg (first.symm ▸ empty)), ?_⟩
      exact Decoding.tdes_ends (h.congr rfl rfl) fine start more

/-- CHECK of a DECOMPRESS whose input fits (R134). -/
theorem Begun.decompress_ends (h : Begun 2#2 s) (fits : s.inLen.toNat ≤ s.ibufCap.toNat)
    (more : Turns items 9 (7 + s.inLen.toNat) n s) : Ends n s (decompressed s.obufCap.toNat (input s)) := by
  obtain ⟨busy, phase, err, errInfo, _, cmd, fine⟩ := h
  obtain ⟨m, ts, rfl, more, step⟩ := Turns.step (phases := 8) (turns := 6 + s.inLen.toNat)
    (more.fewer (Nat.le_refl _) (by omega)) busy fun _ => fine
  have turn : turnInstr items { s with script := ts } = .pCheck := by
    simp only [turnInstr, itemInstr, itemRaw, phase, Option.bind_none, Option.getD_none, phaseInstr, ite_self]
  rw [turn] at step
  refine Ends.step (step.trans (execPCheck_passes (.inr cmd) (BitVec.le_def.mpr fits))) ?_
  have checked : checkedPhase { s with script := ts } = .dhead := by
    rw [checkedPhase, if_neg (by simp [cmd])]
  rw [checked]
  refine Decoding.dhead_ends (bytes := input s) ?_ fine rfl (by rwa [input_length])
  exact
    { busy, phase := rfl, err, errInfo
      output := .empty rfl
      inside := BitVec.le_def.mpr (Nat.zero_le _)
      ahead := inputFrom_congr (by rfl) (by rfl) (by rfl) _ }

end

/-! ### The errors of DECOMPRESS -/

/-- The sub-causes DECOMPRESS raises besides IN_RANGE (R141). -/
def decodeErrors : List ErrInfo :=
  [.truncated, .badMarker, .tooLarge, .trailing, .noDelim, .badDelim, .noLength, .lenMismatch,
    .nullChild, .incomplete, .outRange]

theorem parseTree_error {fuel nn : Nat} {bytes : List Byte} {e : ErrInfo}
    (h : parseTree fuel nn bytes = .error e) : e ∈ decodeErrors := by
  induction fuel generalizing nn bytes with
  | zero => cases h; decide
  | succ fuel ih =>
    cases bytes with
    | nil => cases h; decide
    | cons m rest =>
      simp only [parseTree] at h
      split at h
      next =>
        split at h
        next => cases h; decide
        next =>
          split at h
          next => cases h; decide
          next => cases h
      next =>
        split at h
        next =>
          split at h
          next => cases h; decide
          next =>
            split at h
            next hl => cases h; exact ih hl
            next =>
              split at h
              next hr => cases h; exact ih hr
              next => cases h
        next => cases h; decide

theorem walkTree_error {root : Tree} {room : Nat} {cur : Option Tree} {bits : List Bool} {e : ErrInfo}
    (h : walkTree root room cur bits = .error e) : e ∈ decodeErrors := by
  induction bits generalizing room cur with
  | nil => cases h
  | cons b bits ih =>
    simp only [walkTree] at h
    split at h
    next => cases h; decide
    next =>
      split at h
      next =>
        split at h
        next => cases h; decide
        next =>
          cases hw : walkTree root (room - 1) none bits with
          | error e' => rw [hw] at h; cases h; exact ih hw
          | ok r => rw [hw] at h; cases h
      next => exact ih h

theorem decodeTail_error {root : Tree} {room : Nat} {bytes : List Byte} {e : ErrInfo}
    (h : decodeTail room root bytes = .error e) : e ∈ decodeErrors := by
  cases bytes with
  | nil => cases h; decide
  | cons d rest =>
    simp only [decodeTail, walkOut] at h
    split at h
    next => cases h; decide
    next =>
      split at h
      next => cases h; decide
      next =>
        split at h
        next => cases h; decide
        next =>
          split at h
          next hw => cases h; exact walkTree_error hw
          next => cases h
          next => cases h; decide

theorem decompressed_error {room : Nat} {bytes : List Byte} {e : ErrInfo}
    (h : decompressed room bytes = .error e) : e ∈ decodeErrors := by
  cases bytes with
  | nil => cases h; decide
  | cons b rest =>
    simp only [decompressed] at h
    split at h
    next =>
      split at h
      next => cases h
      next => cases h; decide
    next =>
      split at h
      next hp => cases h; exact parseTree_error hp
      next => exact decodeTail_error h

end Sys2Proof.Machine

open Sys2Proof Sys2Proof.Machine

/-- Settles O56, phase by phase from CHECK to FINISH. -/
theorem decompressComputesTheOutput : Obligations.DecompressComputesTheOutput := by
  unfold Obligations.DecompressComputesTheOutput
  intro s started
  obtain ⟨begun, script⟩ := started
  have ⟨busy, phase, _, _, _, cmd, fine⟩ := begun
  refine ⟨fun long => ?tooLong, fun fits => ?fits⟩
  case tooLong =>
    refine Reaches.step ?_ (Reaches.here (s := raise .inRange s) ⟨rfl, rfl, rfl, rfl⟩)
    rw [step_busy busy script fine, phase]
    exact execPCheck_tooLong (.inr cmd) (BitVec.lt_def.mpr long)
  case fits =>
    have ends := begun.decompress_ends (items := false) fits ⟨script, Nat.le_refl 9⟩
    cases h : decompressed s.obufCap.toNat (input s) with
    | ok out => rwa [h] at ends
    | error e => rw [h] at ends; exact ⟨ends, decompressed_error h⟩

/-- Settles O60: item by item the same function of the input decides how the command ends. -/
theorem fineStepsGiveTheSameResult : Obligations.FineStepsGiveTheSameResult := by
  unfold Obligations.FineStepsGiveTheSameResult
  intro s n begun fits script enough
  have ends := begun.decompress_ends (items := true) fits ⟨script, enough⟩
  cases h : decompressed s.obufCap.toNat (input s) <;> rwa [h] at ends
end

section
/-! SUPPORT. The heap property (R174): `insert` and `extract_min` keep it, and the entry extracted is a least
one (R172). -/

namespace Sys2Proof.Machine

/-- What the heap needs of an order: no two entries are each less than the other, and "not less" is
transitive. -/
structure HeapOrder (lt : Index → Index → Bool) : Prop where
  asymm : ∀ {x y}, lt x y = true → lt y x = false
  trans : ∀ {x y z}, lt y x = false → lt z y = false → lt z x = false

theorem less_heapOrder (arena : Table Node) : HeapOrder (less arena) where
  asymm := less_asymm arena _ _
  trans := by
    intro x y z h1 h2
    simp only [less, Bool.or_eq_false_iff, Bool.and_eq_false_iff, decide_eq_false_iff_not,
      BitVec.lt_def] at *
    omega

section
variable {lt : Index → Index → Bool} {h : List Index} {i : Nat}

/-- The children of entry `i` are not less than its parent. -/
def ChildrenAbove (lt : Index → Index → Bool) (h : List Index) (i : Nat) : Prop :=
  ∀ c, c < h.length → 1 ≤ i → 1 ≤ c → (c - 1) / 2 = i → lt (heapAt h c) (heapAt h ((i - 1) / 2)) = false

/-- A heap but for entry `i`, which may be less than its parent. -/
def HeapButAt (lt : Index → Index → Bool) (h : List Index) (i : Nat) : Prop :=
  (∀ k, 1 ≤ k → k < h.length → k ≠ i → lt (heapAt h k) (heapAt h ((k - 1) / 2)) = false) ∧
  ChildrenAbove lt h i

/-- A heap but below entry `i`, whose children may be less than it. -/
def HeapButBelow (lt : Index → Index → Bool) (h : List Index) (i : Nat) : Prop :=
  (∀ k, 1 ≤ k → k < h.length → (k - 1) / 2 ≠ i → lt (heapAt h k) (heapAt h ((k - 1) / 2)) = false) ∧
  ChildrenAbove lt h i

/-- An entry less than its parent has changed places with it. -/
theorem HeapButAt.swap (order : HeapOrder lt) (hb : HeapButAt lt h i) (pos : 1 ≤ i) (hi : i < h.length)
    (less : lt (heapAt h i) (heapAt h ((i - 1) / 2)) = true) :
    HeapButAt lt (heapSwap h i ((i - 1) / 2)) ((i - 1) / 2) := by
  obtain ⟨above, children⟩ := hb
  have hp : (i - 1) / 2 < h.length := by omega
  have at_ (k : Nat) := heapAt_swap h i ((i - 1) / 2) k hi hp
  constructor
  · intro k k1 kl kp
    rw [heapSwap_length] at kl
    rw [at_ k, at_ ((k - 1) / 2), if_neg kp]
    by_cases ki : k = i
    · subst ki
      rw [if_pos rfl, if_pos rfl]
      exact order.asymm less
    · rw [if_neg ki]
      by_cases sibling : (k - 1) / 2 = (i - 1) / 2
      · rw [if_pos sibling]
        exact order.trans (order.asymm less) (sibling ▸ above k k1 kl ki)
      · rw [if_neg sibling]
        by_cases below : (k - 1) / 2 = i
        · rw [if_pos below]
          exact children k kl pos k1 below
        · rw [if_neg below]
          exact above k k1 kl ki
  · intro c cl p1 c1 cp
    rw [heapSwap_length] at cl
    have grand := above ((i - 1) / 2) p1 hp (by omega)
    have parent := at_ (((i - 1) / 2 - 1) / 2)
    rw [if_neg (by omega), if_neg (by omega)] at parent
    have child := at_ c
    rw [if_neg (by omega)] at child
    rw [parent, child]
    by_cases ci : c = i
    · rw [if_pos ci]
      exact grand
    · rw [if_neg ci]
      exact order.trans grand (cp ▸ above c c1 cl ci)

/-- `insert`'s loop ends in a heap. -/
theorem siftUp_isHeap (order : HeapOrder lt) (fuel : Nat) (hb : HeapButAt lt h i) (hi : i < h.length)
    (enough : i ≤ fuel) : IsHeap lt (siftUp lt fuel h i) := by
  induction fuel generalizing h i with
  | zero => exact fun k k1 kl => hb.1 k k1 kl (by omega)
  | succ fuel ih =>
    unfold siftUp
    split
    next root => exact fun k k1 kl => hb.1 k k1 kl (by omega)
    next pos =>
      split
      next less =>
        exact ih (hb.swap order (by omega) hi less) (by rw [heapSwap_length]; omega) (by omega)
      next notLess =>
        intro k k1 kl
        by_cases ki : k = i
        · rw [ki]
          exact Bool.eq_false_iff.mpr notLess
        · exact hb.1 k k1 kl ki

/-- Of two entries in use the one `leastChild` keeps is not greater than either. -/
theorem pick_spec (order : HeapOrder lt) {c j : Nat} (hj : j < h.length) :
    (if c < h.length && lt (heapAt h c) (heapAt h j) then c else j) < h.length ∧
    lt (heapAt h j) (heapAt h (if c < h.length && lt (heapAt h c) (heapAt h j) then c else j)) = false ∧
    (c < h.length →
      lt (heapAt h c) (heapAt h (if c < h.length && lt (heapAt h c) (heapAt h j) then c else j)) = false) := by
  have irrefl (x : Index) : lt x x = false := by
    cases hx : lt x x with
    | false => rfl
    | true => rw [← order.asymm hx, hx]
  split
  next pick =>
    obtain ⟨hc, less⟩ := Bool.and_eq_true_iff.mp pick
    exact ⟨of_decide_eq_true hc, order.asymm less, fun _ => irrefl _⟩
  next keep =>
    refine ⟨hj, irrefl _, fun hc => Bool.eq_false_iff.mpr fun less => keep ?_⟩
    rw [less, Bool.and_true]
    exact decide_eq_true hc

/-- The least child is entry `i` itself or one of its children, and neither of them is less than it. -/
theorem leastChild_spec (order : HeapOrder lt) (hi : i < h.length) :
    (leastChild lt h i = i ∨ (leastChild lt h i - 1) / 2 = i ∧ i < leastChild lt h i) ∧
    leastChild lt h i < h.length ∧ lt (heapAt h i) (heapAt h (leastChild lt h i)) = false ∧
    ∀ c, 1 ≤ c → c < h.length → (c - 1) / 2 = i →
      lt (heapAt h c) (heapAt h (leastChild lt h i)) = false := by
  obtain ⟨j, hj⟩ : ∃ j, j = if 2 * i + 1 < h.length && lt (heapAt h (2 * i + 1)) (heapAt h i)
    then 2 * i + 1 else i := ⟨_, rfl⟩
  have least : leastChild lt h i =
      if 2 * i + 2 < h.length && lt (heapAt h (2 * i + 2)) (heapAt h j) then 2 * i + 2 else j := by
    rw [hj]
    rfl
  obtain ⟨jl, ji, jleft⟩ := pick_spec order (c := 2 * i + 1) hi
  rw [← hj] at jl ji jleft
  obtain ⟨ml, mj, mright⟩ := pick_spec order (c := 2 * i + 2) jl
  rw [← least] at ml mj mright
  refine ⟨?_, ml, order.trans mj ji, fun c c1 cl cp => ?_⟩
  · have first : j = 2 * i + 1 ∨ j = i := by
      rw [hj]
      split
      · exact .inl rfl
      · exact .inr rfl
    rw [least]
    split
    · exact .inr ⟨by omega, by omega⟩
    · rcases first with e | e
      · exact .inr ⟨by omega, by omega⟩
      · exact .inl e
  · rcases (by omega : c = 2 * i + 1 ∨ c = 2 * i + 2) with rfl | rfl
    · exact order.trans mj (jleft cl)
    · exact mright cl

/-- An entry has changed places with its least child. -/
theorem HeapButBelow.swap (order : HeapOrder lt) (hb : HeapButBelow lt h i) (hi : i < h.length)
    (moves : leastChild lt h i ≠ i) :
    HeapButBelow lt (heapSwap h i (leastChild lt h i)) (leastChild lt h i) := by
  obtain ⟨above, children⟩ := hb
  obtain ⟨place, hj, self, least⟩ := leastChild_spec order hi
  obtain ⟨parent, lower⟩ := place.resolve_left moves
  generalize leastChild lt h i = j at *
  have at_ (k : Nat) := heapAt_swap h i j k hi hj
  constructor
  · intro k k1 kl kp
    rw [heapSwap_length] at kl
    have hp := at_ ((k - 1) / 2)
    rw [if_neg kp] at hp
    rw [hp, at_ k]
    by_cases kj : k = j
    · rw [if_pos kj, kj, if_pos parent]
      exact self
    · rw [if_neg kj]
      by_cases ki : k = i
      · rw [if_pos ki, ki, if_neg (by omega)]
        exact children j hj (ki ▸ k1) (by omega) parent
      · rw [if_neg ki]
        by_cases sibling : (k - 1) / 2 = i
        · rw [if_pos sibling]
          exact least k k1 kl sibling
        · rw [if_neg sibling]
          exact above k k1 kl sibling
  · intro c cl _ c1 cp
    rw [heapSwap_length] at cl
    have hc := at_ c
    rw [if_neg (by omega), if_neg (by omega)] at hc
    rw [hc, at_, parent, if_neg (by omega), if_pos rfl]
    exact cp ▸ above c c1 cl (by omega)

/-- Where the least child is the entry itself, the heap is whole. -/
theorem HeapButBelow.isHeap (order : HeapOrder lt) (hb : HeapButBelow lt h i) (hi : i < h.length)
    (stays : leastChild lt h i = i) : IsHeap lt h := by
  obtain ⟨_, _, _, least⟩ := leastChild_spec order hi
  intro k k1 kl
  by_cases kp : (k - 1) / 2 = i
  · have := least k k1 kl kp
    rwa [stays, ← kp] at this
  · exact hb.1 k k1 kl kp

/-- `extract_min`'s loop ends in a heap. -/
theorem siftDown_isHeap (order : HeapOrder lt) (fuel : Nat) (hb : HeapButBelow lt h i) (hi : i < h.length)
    (enough : h.length ≤ fuel + i + 1) : IsHeap lt (siftDown lt fuel h i) := by
  induction fuel generalizing h i with
  | zero =>
    obtain ⟨place, hj, _⟩ := leastChild_spec order hi
    exact hb.isHeap order hi (place.resolve_right fun ⟨_, lower⟩ => by omega)
  | succ fuel ih =>
    unfold siftDown
    split
    next stays => exact hb.isHeap order hi stays
    next moves =>
      obtain ⟨place, hj, _⟩ := leastChild_spec order hi
      obtain ⟨_, lower⟩ := place.resolve_left moves
      refine ih (hb.swap order hi moves) ?_ ?_
      · rwa [heapSwap_length]
      · rw [heapSwap_length]
        omega

/-- `insert` keeps the heap property (R174). -/
theorem heapInsert_isHeap (order : HeapOrder lt) (n : Index) (hh : IsHeap lt h) :
    IsHeap lt (heapInsert lt n h) := by
  have old (k : Nat) (hk : k < h.length) : heapAt (h ++ [n]) k = heapAt h k := by
    simp [heapAt, List.getD_eq_getElem?_getD, List.getElem?_append_left hk]
  refine siftUp_isHeap order h.length ⟨fun k k1 kl kn => ?_, fun c cl _ c1 cp => ?_⟩ (by simp) (Nat.le_refl _)
  · rw [List.length_append, List.length_singleton] at kl
    rw [old k (by omega), old _ (by omega)]
    exact hh k k1 (by omega)
  · rw [List.length_append, List.length_singleton] at cl
    omega

/-- `extract_min` keeps the heap property (R174). -/
theorem heapExtract_isHeap (order : HeapOrder lt) {m : Index} {rest : List Index} (hh : IsHeap lt h)
    (he : heapExtract lt h = some (m, rest)) : IsHeap lt rest := by
  cases h with
  | nil => cases he
  | cons a tail =>
    rw [heapExtract_cons] at he
    cases hl : tail.getLast? with
    | none =>
      rw [hl] at he
      cases he
      exact fun k k1 kl => absurd kl (Nat.not_lt_zero k)
    | some x =>
      rw [hl] at he
      cases he
      have tail_pos : 1 ≤ tail.length := by
        cases tail with
        | nil => cases hl
        | cons b tail => exact Nat.succ_pos _
      have length : (x :: tail.dropLast).length = tail.length := by
        rw [List.length_cons, List.length_dropLast, Nat.sub_add_cancel tail_pos]
      have old (k : Nat) (k1 : 1 ≤ k) (hk : k < tail.length) :
          heapAt (x :: tail.dropLast) k = heapAt (m :: tail) k := by
        obtain ⟨k, rfl⟩ : ∃ k', k = k' + 1 := ⟨k - 1, by omega⟩
        simp only [heapAt, List.getD_eq_getElem?_getD, List.getElem?_cons_succ, List.getElem?_dropLast]
        rw [if_pos (by omega)]
      refine siftDown_isHeap order tail.length ⟨fun k k1 kl kp => ?_, fun c _ i1 => absurd i1 (by decide)⟩
        (by rw [length]; exact tail_pos) (by rw [length]; omega)
      rw [length] at kl
      rw [old k k1 kl, old _ (by omega) (by omega)]
      exact hh k k1 (by rw [List.length_cons]; omega)

/-- The first entry of a heap is a least one (R172). -/
theorem IsHeap.head_least (order : HeapOrder lt) (irrefl : ∀ x, lt x x = false) (hh : IsHeap lt h) (k : Nat)
    (hk : k < h.length) : lt (heapAt h k) (heapAt h 0) = false := by
  induction k using Nat.strongRecOn with
  | ind k ih =>
    by_cases k0 : k = 0
    · rw [k0]
      exact irrefl _
    · exact order.trans (ih ((k - 1) / 2) (by omega) (by omega)) (hh k (by omega) hk)

/-- What `extract_min` takes is not greater than any entry. -/
theorem heapExtract_least (order : HeapOrder lt) (irrefl : ∀ x, lt x x = false) {m : Index}
    {rest : List Index} (hh : IsHeap lt h) (he : heapExtract lt h = some (m, rest)) :
    ∀ x ∈ h, lt x m = false := by
  intro x hx
  obtain ⟨k, hk, e⟩ := List.getElem_of_mem hx
  have at_k : heapAt h k = x := by
    rw [heapAt, List.getD_eq_getElem?_getD, List.getElem?_eq_getElem hk, e, Option.getD_some]
  cases h with
  | nil => cases hx
  | cons a tail =>
    obtain ⟨rest', he'⟩ := heapExtract_head lt a tail
    cases he.symm.trans he'
    rw [← at_k]
    exact hh.head_least order irrefl k hk

/-- The heap property under an order that agrees on the entries. -/
theorem IsHeap.congr {lt' : Index → Index → Bool} (hh : IsHeap lt h) (same : SameOrder lt lt' h) :
    IsHeap lt' h := fun k k1 kl => by
  rw [← same.heapAt kl (by omega)]
  exact hh k k1 kl

end

end Sys2Proof.Machine
end

section
/-! SUPPORT. The tree builder on the abstract queue (R171 to R177): HINIT's queue, HMERGE's rounds and the tree
at ROOT are those of `leafQueue`, `mergeQueue` and `buildTree`. -/

namespace Sys2Proof.Machine

/-! ### The abstract queue -/

theorem Entry.less_irrefl (x : Entry) : Entry.less x x = false := by simp [Entry.less]

theorem Entry.less_asymm {x y : Entry} (h : Entry.less x y = true) : Entry.less y x = false := by
  simp only [Entry.less, Bool.or_eq_true, Bool.and_eq_true, decide_eq_true_eq, Bool.or_eq_false_iff,
    Bool.and_eq_false_iff, decide_eq_false_iff_not] at *
  omega

theorem Entry.not_less_trans {x y z : Entry} (h1 : Entry.less y x = false) (h2 : Entry.less z y = false) :
    Entry.less z x = false := by
  simp only [Entry.less, Bool.or_eq_false_iff, Bool.and_eq_false_iff, decide_eq_false_iff_not] at *
  omega

theorem takeLeast_eq_none_iff {q : List Entry} : takeLeast q = none ↔ q = [] := by
  cases q with
  | nil => simp [takeLeast]
  | cons e rest =>
    simp only [takeLeast, reduceCtorEq, iff_false]
    split
    · nofun
    · split <;> nofun

/-- What `takeLeast` takes is not greater than what it leaves. -/
theorem takeLeast_spec {q q' : List Entry} {e : Entry} (h : takeLeast q = some (e, q')) :
    q.Perm (e :: q') ∧ ∀ x ∈ q', Entry.less x e = false := by
  induction q generalizing e q' with
  | nil => cases h
  | cons first rest ih =>
    simp only [takeLeast] at h
    split at h
    next hr =>
      cases h
      rw [takeLeast_eq_none_iff.mp hr]
      exact ⟨.refl _, nofun⟩
    next m others hr =>
      obtain ⟨perm, least⟩ := ih hr
      split at h
      next less =>
        cases h
        refine ⟨.refl _, fun x hx => ?_⟩
        rcases List.mem_cons.mp (perm.mem_iff.mp hx) with rfl | hx
        · exact Entry.less_asymm less
        · exact Entry.not_less_trans (Entry.less_asymm less) (least x hx)
      next notLess =>
        cases h
        refine ⟨(perm.cons first).trans (.swap _ _ _), fun x hx => ?_⟩
        rcases List.mem_cons.mp hx with rfl | hx
        · exact Bool.eq_false_iff.mpr notLess
        · exact least x hx

/-! ### The queue in the block -/

/-- The element of the abstract queue that an arena index stands for. -/
def entryOf (arena : Table Node) (tree : Index → Tree) (x : Index) : Entry :=
  ((nodeAt arena x.toNat).w, x.toNat, tree x)

/-- Both queues have one order (R171). -/
theorem entryOf_less (arena : Table Node) (tree : Index → Tree) (x y : Index) :
    Entry.less (entryOf arena tree x) (entryOf arena tree y) = less arena x y := rfl

/-- `extract_min` of the heap is that of the abstract queue it stands for (R172). -/
theorem takeLeast_of_heapExtract {arena : Table Node} {tree : Index → Tree} {q : List Entry}
    {heap rest : List Index} {m : Index} (isHeap : IsHeap (less arena) heap)
    (stands : q.Perm (heap.map (entryOf arena tree)))
    (h : heapExtract (less arena) heap = some (m, rest)) :
    ∃ q', takeLeast q = some (entryOf arena tree m, q') ∧ q'.Perm (rest.map (entryOf arena tree)) := by
  have perm := (heapExtract_perm _ _ _ _ h).map (entryOf arena tree)
  cases hq : takeLeast q with
  | none =>
    rw [takeLeast_eq_none_iff.mp hq] at stands
    have := (stands.trans perm).length_eq
    simp at this
  | some r =>
    obtain ⟨e, q'⟩ := r
    obtain ⟨taken, least⟩ := takeLeast_spec hq
    obtain ⟨y, hy, rfl⟩ := List.mem_map.mp (stands.mem_iff.mp (taken.mem_iff.mpr List.mem_cons_self))
    have notLess : less arena y m = false :=
      heapExtract_least (less_heapOrder arena) (less_irrefl arena) isHeap h y hy
    have notGreater : less arena m y = false := by
      have hm := (taken.symm.trans (stands.trans perm)).mem_iff.mpr List.mem_cons_self
      rw [← entryOf_less arena tree]
      rcases List.mem_cons.mp hm with e | hm
      · rw [e]
        exact Entry.less_irrefl _
      · exact least _ hm
    have same : y = m := by
      by_contra ne
      rcases less_total arena y m ne with h | h
      · rw [notLess] at h; cases h
      · rw [notGreater] at h; cases h
    subst same
    exact ⟨q', rfl, (taken.symm.trans (stands.trans perm)).cons_inv⟩

/-- HEAP and the arena hold the abstract queue `q`. -/
structure QueueIs (q : List Entry) (s : State) : Prop where
  isHeap : IsHeap (less s.arena) s.heap
  below : ∀ x ∈ s.heap, x.toNat < s.nn.toNat
  closed : ∀ i, i < s.nn.toNat → (nodeAt s.arena i).kind = .leaf ∨
    ((nodeAt s.arena i).left.toNat < s.nn.toNat ∧ (nodeAt s.arena i).right.toNat < s.nn.toNat)
  entries : ∃ tree, q.Perm (s.heap.map (entryOf s.arena tree)) ∧
    ∀ x ∈ s.heap, ∃ f, treeOf s.arena f x.toNat = some (tree x)

theorem QueueIs.perm {q q' : List Entry} {s : State} (h : QueueIs q s) (p : q'.Perm q) : QueueIs q' s :=
  { h with
    entries := by
      obtain ⟨tree, stands, trees⟩ := h.entries
      exact ⟨tree, p.trans stands, trees⟩ }

theorem QueueIs.length {q : List Entry} {s : State} (h : QueueIs q s) : q.length = s.heap.length := by
  obtain ⟨_, stands, _⟩ := h.entries
  simpa using stands.length_eq

/-- A new entry of the arena joins the queue. -/
theorem QueueIs.push {q : List Entry} {s : State} {arena : Table Node} {t : Tree} (h : QueueIs q s)
    (room : s.nn.toNat < Config.nodeCap)
    (keep : ∀ j, j ≠ s.nn.toNat → nodeAt arena j = nodeAt s.arena j)
    (tree : ∃ f, treeOf arena f s.nn.toNat = some t)
    (own : (nodeAt arena s.nn.toNat).kind = .leaf ∨
      ((nodeAt arena s.nn.toNat).left.toNat < s.nn.toNat ∧
        (nodeAt arena s.nn.toNat).right.toNat < s.nn.toNat)) :
    QueueIs (((nodeAt arena s.nn.toNat).w, s.nn.toNat, t) :: q)
      { s with
        arena := arena
        nn := s.nn + 1#10
        heap := heapInsert (less arena) (nextIndex s) s.heap } := by
  have index := nextIndex_toNat s (Nat.le_of_lt room)
  have next := nn_succ s (Nat.le_of_lt room)
  have old (x : Index) (hx : x ∈ s.heap) : x ≠ nextIndex s := fun e => by
    have := h.below x hx
    rw [e, index] at this
    exact Nat.lt_irrefl _ this
  have same : ∀ i, i < s.nn.toNat → nodeAt arena i = nodeAt s.arena i := fun i hi => keep i (Nat.ne_of_lt hi)
  have perm := heapInsert_perm (less arena) (nextIndex s) s.heap
  obtain ⟨tree', stands, trees⟩ := h.entries
  have first : entryOf arena (Function.update tree' (nextIndex s) t) (nextIndex s) =
      ((nodeAt arena s.nn.toNat).w, s.nn.toNat, t) := by
    rw [entryOf, index, Function.update_self]
  have others : s.heap.map (entryOf arena (Function.update tree' (nextIndex s) t)) =
      s.heap.map (entryOf s.arena tree') :=
    List.map_congr_left fun x hx => by
      rw [entryOf, Function.update_of_ne (old x hx), same _ (h.below x hx), entryOf]
  exact
    { isHeap := by
        refine heapInsert_isHeap (less_heapOrder arena) _ (h.isHeap.congr ?_)
        exact less_agrees (fun i hi => by rw [same i hi]) h.below
      below := by
        intro x hx
        simp only [next]
        rcases List.mem_cons.mp (perm.mem_iff.mp hx) with rfl | hx
        · omega
        · exact Nat.lt_succ_of_lt (h.below x hx)
      closed := by
        intro i hi
        simp only [next] at hi ⊢
        by_cases last : i = s.nn.toNat
        · rw [last]
          exact own.imp_right fun ⟨l, r⟩ => ⟨Nat.lt_succ_of_lt l, Nat.lt_succ_of_lt r⟩
        · rw [keep i last]
          exact (h.closed i (by omega)).imp_right fun ⟨l, r⟩ => ⟨Nat.lt_succ_of_lt l, Nat.lt_succ_of_lt r⟩
      entries := by
        refine ⟨Function.update tree' (nextIndex s) t, ?_, fun x hx => ?_⟩
        · refine List.Perm.trans ?_ (perm.map _).symm
          rw [List.map_cons, first, others]
          exact stands.cons _
        · rcases List.mem_cons.mp (perm.mem_iff.mp hx) with rfl | hx
          · rw [index, Function.update_self]
            exact tree
          · rw [Function.update_of_ne (old x hx)]
            obtain ⟨f, hf⟩ := trees x hx
            exact ⟨f, (treeOf_below same h.closed f _ (h.below x hx)).trans hf⟩ }

/-! ### HINIT -/

/-- The symbols below `n` that occur, in ascending order. -/
def symbolsBelow (bytes : List Byte) (n : Nat) : List Nat :=
  (List.range n).filter (fun i => decide (0 < occurrences bytes i))

/-- The leaves HINIT has enqueued after its first `n` symbols. -/
def leavesBelow (bytes : List Byte) (n : Nat) : List Entry :=
  (symbolsBelow bytes n).zipIdx.map
    (fun e => (occurrences bytes e.1, e.2, Tree.leaf (BitVec.ofNat 8 e.1)))

theorem leavesBelow_alphaMax (bytes : List Byte) : leavesBelow bytes Config.alphaMax = leafQueue bytes := rfl

theorem leavesBelow_length (bytes : List Byte) (n : Nat) :
    (leavesBelow bytes n).length = (symbolsBelow bytes n).length := by
  simp [leavesBelow]

theorem symbolsBelow_length_le (bytes : List Byte) (n : Nat) : (symbolsBelow bytes n).length ≤ n := by
  simpa [symbolsBelow] using List.length_filter_le (fun i => decide (0 < occurrences bytes i)) (List.range n)

theorem symbolsBelow_succ (bytes : List Byte) (n : Nat) :
    symbolsBelow bytes (n + 1) =
      symbolsBelow bytes n ++ if 0 < occurrences bytes n then [n] else [] := by
  simp only [symbolsBelow, List.range_succ, List.filter_append, List.filter_singleton, decide_eq_true_eq,
    cond_eq_ite]

/-- One more symbol that occurs is one more leaf. -/
theorem leavesBelow_succ_present {bytes : List Byte} {n : Nat} (h : 0 < occurrences bytes n) :
    leavesBelow bytes (n + 1) = leavesBelow bytes n ++
      [(occurrences bytes n, (leavesBelow bytes n).length, Tree.leaf (BitVec.ofNat 8 n))] := by
  simp only [leavesBelow, symbolsBelow_succ, if_pos h, List.zipIdx_append, List.map_append, List.length_map,
    List.length_zipIdx]
  simp

theorem leavesBelow_succ_absent {bytes : List Byte} {n : Nat} (h : ¬ 0 < occurrences bytes n) :
    leavesBelow bytes (n + 1) = leavesBelow bytes n := by
  simp only [leavesBelow, symbolsBelow_succ, if_neg h, List.append_nil]

/-- HINIT after its first `n` symbols: FREQ is the table of the input, the queue that of its leaves. -/
structure Enqueued (bytes : List Byte) (n : Nat) (s : State) : Prop where
  counted : ∀ i, freqAt s i = occurrences bytes i
  queue : QueueIs (leavesBelow bytes n) s
  nn : s.nn.toNat = (leavesBelow bytes n).length

/-- One round of HINIT (R173). -/
theorem Enqueued.hinitSymbol {bytes : List Byte} {n : Nat} {s : State} (h : Enqueued bytes n s)
    (hn : n < Config.alphaMax) : Enqueued bytes (n + 1) (hinitSymbol s n) := by
  by_cases present : 0 < occurrences bytes n
  · have room : s.nn.toNat < Config.nodeCap := by
      have := symbolsBelow_length_le bytes n
      rw [h.nn, leavesBelow_length]
      simp only [Config.alphaMax, Config.nodeCap] at *
      omega
    obtain ⟨arena, heap, e, kind, sym, w, other, rfl⟩ := hinitSymbol_present s n (h.counted n ▸ present)
    rw [nextIndex_toNat s (Nat.le_of_lt room)] at kind sym w other
    have pushed := h.queue.push (arena := arena) (t := .leaf (BitVec.ofNat 8 n)) room other
      ⟨1, by rw [treeOf_leaf kind (Nat.le_refl 1), sym]⟩ (.inl kind)
    rw [w, h.counted n] at pushed
    rw [e]
    refine ⟨h.counted, pushed.perm ?_, ?_⟩
    · rw [leavesBelow_succ_present present, h.nn]
      exact List.perm_append_comm (l₂ := [_])
    · rw [leavesBelow_succ_present present, List.length_append, ← h.nn]
      exact nn_succ s (Nat.le_of_lt room)
  · rw [hinitSymbol_absent s n (by rw [h.counted]; omega)]
    exact ⟨h.counted, leavesBelow_succ_absent present ▸ h.queue, leavesBelow_succ_absent present ▸ h.nn⟩

theorem Enqueued.hinitSymbols {bytes : List Byte} {n : Nat} {s : State} (h : Enqueued bytes 0 s)
    (hn : n ≤ Config.alphaMax) : Enqueued bytes n ((List.range n).foldl Machine.hinitSymbol s) := by
  induction n with
  | zero => exact h
  | succ n ih =>
    rw [List.range_succ, List.foldl_append]
    exact (ih (Nat.le_of_lt hn)).hinitSymbol hn

/-- HINIT's start: an empty queue. -/
theorem Enqueued.start {bytes : List Byte} {s : State} (counted : ∀ i, freqAt s i = occurrences bytes i) :
    Enqueued bytes 0 { s with nn := 0#10, heap := [] } where
  counted := counted
  queue :=
    { isHeap := fun k _ kl => absurd kl (Nat.not_lt_zero k)
      below := nofun
      closed := fun i hi => absurd hi (Nat.not_lt_zero i)
      entries := ⟨fun _ => .leaf 0#8, .refl _, nofun⟩ }
  nn := rfl

/-! ### HMERGE -/

/-- One round of HMERGE is one round of the abstract merge (R175). -/
theorem QueueIs.mergeOnce {q : List Entry} {s : State} (h : QueueIs q s) (two : 1 < s.heap.length)
    (room : s.nn.toNat < Config.nodeCap) :
    ∃ a b q1 q2, takeLeast q = some (a, q1) ∧ takeLeast q1 = some (b, q2) ∧
      QueueIs ((a.1 + b.1, s.nn.toNat, .node a.2.2 b.2.2) :: q2) (mergeOnce s) := by
  obtain ⟨tree, stands, trees⟩ := h.entries
  obtain ⟨a, b, h1, h2, arena, heap, e1, e2, e, kind, left, right, w, other, rfl⟩ := mergeOnce_two s two
  rw [nextIndex_toNat s (Nat.le_of_lt room)] at kind left right w other
  obtain ⟨q1, t1, stands1⟩ := takeLeast_of_heapExtract h.isHeap stands e1
  have heap1 := heapExtract_isHeap (less_heapOrder s.arena) h.isHeap e1
  obtain ⟨q2, t2, stands2⟩ := takeLeast_of_heapExtract heap1 stands1 e2
  have heap2 := heapExtract_isHeap (less_heapOrder s.arena) heap1 e2
  have perm : s.heap.Perm (a :: b :: h2) :=
    (heapExtract_perm _ _ _ _ e1).trans ((heapExtract_perm _ _ _ _ e2).cons a)
  have ha : a ∈ s.heap := perm.mem_iff.mpr (by simp)
  have hb : b ∈ s.heap := perm.mem_iff.mpr (by simp)
  have rest (x : Index) (hx : x ∈ h2) : x ∈ s.heap := perm.mem_iff.mpr (by simp [hx])
  have left' : QueueIs q2 { s with heap := h2 } :=
    { isHeap := heap2
      below := fun x hx => h.below x (rest x hx)
      closed := h.closed
      entries := ⟨tree, stands2, fun x hx => trees x (rest x hx)⟩ }
  have same : ∀ i, i < s.nn.toNat → nodeAt arena i = nodeAt s.arena i := fun i hi => other i (Nat.ne_of_lt hi)
  have built : ∃ f, treeOf arena f s.nn.toNat = some (.node (tree a) (tree b)) := by
    obtain ⟨fa, ta⟩ := trees a ha
    obtain ⟨fb, tb⟩ := trees b hb
    refine ⟨max fa fb + 1, treeOf_internal kind ?_ ?_⟩
    · rw [left, treeOf_below same h.closed _ _ (h.below a ha)]
      exact treeOf_mono (Nat.le_max_left fa fb) ta
    · rw [right, treeOf_below same h.closed _ _ (h.below b hb)]
      exact treeOf_mono (Nat.le_max_right fa fb) tb
  have pushed := left'.push room other built (.inr (by rw [left, right]; exact ⟨h.below a ha, h.below b hb⟩))
  refine ⟨_, _, q1, q2, t1, t2, ?_⟩
  rw [e]
  exact w ▸ pushed

/-- A queue of one entry: the merge has ended with its tree. -/
theorem QueueIs.single {q : List Entry} {s : State} (h : QueueIs q s) (one : s.heap.length = 1) :
    ∃ t m, (∀ rounds next, mergeQueue (rounds + 1) next q = some t) ∧ s.heap = [m] ∧
      ∃ f, treeOf s.arena f m.toNat = some t := by
  obtain ⟨m, hm⟩ := List.length_eq_one_iff.mp one
  obtain ⟨tree, stands, trees⟩ := h.entries
  rw [hm, List.map_cons, List.map_nil] at stands
  rw [List.perm_singleton.mp stands]
  exact ⟨tree m, m, fun _ _ => rfl, hm, trees m (hm ▸ List.mem_singleton_self m)⟩

/-- HMERGE's loop is the abstract merge: one entry is left, and it is the root of its tree (R175). -/
theorem QueueIs.mergeLoop {q : List Entry} (n : Nat) {s : State} {rounds : Nat} (h : QueueIs q s)
    (nonempty : 1 ≤ s.heap.length) (enough : s.heap.length ≤ n + 1) (rounds_le : s.heap.length ≤ rounds)
    (room : s.nn.toNat + s.heap.length ≤ Config.nodeCap + 1) :
    ∃ t m, mergeQueue rounds s.nn.toNat q = some t ∧ (Machine.mergeLoop n s).heap = [m] ∧
      ∃ f, treeOf (Machine.mergeLoop n s).arena f m.toNat = some t := by
  obtain ⟨rounds, rfl⟩ : ∃ r, rounds = r + 1 := ⟨rounds - 1, by omega⟩
  induction n generalizing s q rounds with
  | zero =>
    obtain ⟨t, m, merged, heap, tree⟩ := h.single (by omega)
    exact ⟨t, m, merged _ _, heap, tree⟩
  | succ n ih =>
    unfold Machine.mergeLoop
    split
    next two =>
      have shorter := mergeOnce_length s two
      obtain ⟨_, _, _, _, _, _, _, _, e, _⟩ := mergeOnce_two s two
      have nn : (Machine.mergeOnce s).nn.toNat = s.nn.toNat + 1 := by
        rw [e]
        exact nn_succ s (by omega)
      obtain ⟨a, b, q1, q2, t1, t2, next⟩ := h.mergeOnce two (by omega)
      obtain ⟨rounds, rfl⟩ : ∃ r, rounds = r + 1 := ⟨rounds - 1, by omega⟩
      obtain ⟨t, m, merged, heap, tree⟩ :=
        ih next (by omega) (by omega) (by omega) rounds (by omega)
      refine ⟨t, m, ?_, heap, tree⟩
      rw [mergeQueue, t1]
      simp only [t2]
      rw [← merged, nn]
    next one =>
      obtain ⟨t, m, merged, heap, tree⟩ := h.single (by omega)
      exact ⟨t, m, merged _ _, heap, tree⟩

/-! ### The tree built -/

/-- The symbols of a tree, one for each Leaf. -/
def treeSymbols (t : Tree) : List Byte := (leaves t []).map (·.2)

theorem treeSymbols_node (l r : Tree) : treeSymbols (.node l r) = treeSymbols l ++ treeSymbols r := by
  simp only [treeSymbols, leaves, List.nil_append, List.map_append]
  rw [leaves_path l [false], leaves_path r [true]]
  simp [Function.comp_def]

theorem treeSymbols_length (t : Tree) : (treeSymbols t).length = leafCount t := by
  simp [treeSymbols]

/-- The merge keeps the leaves. -/
theorem mergeQueue_symbols {rounds next : Nat} {q : List Entry} {t : Tree}
    (h : mergeQueue rounds next q = some t) :
    (treeSymbols t).Perm (q.flatMap fun e => treeSymbols e.2.2) := by
  induction rounds generalizing next q with
  | zero => cases h
  | succ rounds ih =>
    simp only [mergeQueue] at h
    split at h
    next => cases h
    next a q1 h1 =>
      obtain ⟨p1, _⟩ := takeLeast_spec h1
      have f1 := p1.flatMap_right (fun e : Entry => treeSymbols e.2.2)
      split at h
      next h2 =>
        cases h
        rw [takeLeast_eq_none_iff.mp h2] at f1
        simpa using f1.symm
      next b q2 h2 =>
        obtain ⟨p2, _⟩ := takeLeast_spec h2
        have f2 := p2.flatMap_right (fun e : Entry => treeSymbols e.2.2)
        refine (ih h).trans ((?_ : List.Perm _ _).trans f1.symm)
        simp only [List.flatMap_cons, treeSymbols_node, List.append_assoc] at f2 ⊢
        exact f2.symm.append_left _

theorem mergeQueue_isSome {rounds next : Nat} {q : List Entry} (nonempty : 1 ≤ q.length)
    (enough : q.length ≤ rounds) : ∃ t, mergeQueue rounds next q = some t := by
  induction rounds generalizing next q with
  | zero => omega
  | succ rounds ih =>
    simp only [mergeQueue]
    split
    next h1 =>
      rw [takeLeast_eq_none_iff.mp h1] at nonempty
      exact absurd nonempty (by decide)
    next a q1 h1 =>
      have l1 := (takeLeast_spec h1).1.length_eq
      rw [List.length_cons] at l1
      split
      next => exact ⟨_, rfl⟩
      next b q2 h2 =>
        have l2 := (takeLeast_spec h2).1.length_eq
        rw [List.length_cons] at l2
        exact ih (by rw [List.length_cons]; omega) (by rw [List.length_cons]; omega)

theorem occurrences_pos_iff {bytes : List Byte} {i : Nat} :
    0 < occurrences bytes i ↔ ∃ b ∈ bytes, b.toNat = i := by
  simp [occurrences, List.countP_pos_iff]

theorem mem_symbolsOf {bytes : List Byte} {b : Byte} (h : b ∈ bytes) : b.toNat ∈ symbolsOf bytes := by
  refine List.mem_filter.mpr ⟨List.mem_range.mpr b.isLt, decide_eq_true ?_⟩
  exact occurrences_pos_iff.mpr ⟨b, h, rfl⟩

theorem leafQueue_length (bytes : List Byte) : (leafQueue bytes).length = (symbolsOf bytes).length := by
  simp [leafQueue]

theorem symbolsOf_length_le (bytes : List Byte) : (symbolsOf bytes).length ≤ Config.alphaMax :=
  symbolsBelow_length_le bytes Config.alphaMax

theorem leafQueue_nonempty {bytes : List Byte} (h : bytes ≠ []) : 1 ≤ (leafQueue bytes).length := by
  obtain ⟨b, hb⟩ := List.exists_mem_of_ne_nil bytes h
  rw [leafQueue_length]
  exact List.length_pos_of_mem (mem_symbolsOf hb)

theorem leafQueue_symbols (bytes : List Byte) :
    ((leafQueue bytes).flatMap fun e => treeSymbols e.2.2) = (symbolsOf bytes).map (BitVec.ofNat 8) := by
  have own (i : Byte) : treeSymbols (.leaf i) = [i] := rfl
  simp only [leafQueue, List.flatMap_map, own]
  rw [← List.map_eq_flatMap]
  conv => rhs; rw [← List.zipIdx_map_fst 0 (symbolsOf bytes), List.map_map]
  rfl

theorem leafCount_of_merge {bytes : List Byte} {rounds next : Nat} {t : Tree}
    (h : mergeQueue rounds next (leafQueue bytes) = some t) : leafCount t = (leafQueue bytes).length := by
  have count := (mergeQueue_symbols h).length_eq
  rwa [leafQueue_symbols, List.length_map, ← leafQueue_length, treeSymbols_length] at count

theorem buildTree_of_single {bytes : List Byte} {e : Entry} (he : leafQueue bytes = [e]) :
    buildTree bytes = some (.node e.2.2 e.2.2) := by
  rw [buildTree, he]

theorem buildTree_of_several {bytes : List Byte} (several : (leafQueue bytes).length ≠ 1) :
    buildTree bytes = mergeQueue (leafQueue bytes).length (leafQueue bytes).length (leafQueue bytes) := by
  unfold buildTree
  split
  next e he => exact absurd (by rw [he]; rfl) several
  next => rfl

/-- A non-empty input has a tree, with a Leaf for each symbol that occurs: two of them at least, the
placeholder included, and 256 at most (R162, R176, R177). -/
theorem buildTree_spec {bytes : List Byte} (h : bytes ≠ []) :
    ∃ t, buildTree bytes = some t ∧ (∀ b ∈ bytes, b ∈ treeSymbols t) ∧
      2 ≤ leafCount t ∧ leafCount t ≤ Config.leafMax := by
  have symbols := leafQueue_symbols bytes
  have length := leafQueue_length bytes
  have some := leafQueue_nonempty h
  have few : (leafQueue bytes).length ≤ Config.leafMax := length ▸ symbolsOf_length_le bytes
  have mem (b : Byte) (hb : b ∈ bytes) : b ∈ (symbolsOf bytes).map (BitVec.ofNat 8) :=
    List.mem_map.mpr ⟨b.toNat, mem_symbolsOf hb, by simp⟩
  by_cases one : (leafQueue bytes).length = 1
  · obtain ⟨e, he⟩ := List.length_eq_one_iff.mp one
    rw [he, List.flatMap_singleton] at symbols
    refine ⟨_, buildTree_of_single he, fun b hb => ?_, ?_⟩
    · rw [treeSymbols_node, symbols]
      exact List.mem_append_left _ (mem b hb)
    · rw [← treeSymbols_length, treeSymbols_node, symbols]
      simp [← length, one, Config.leafMax]
  · obtain ⟨t, ht⟩ := mergeQueue_isSome (next := (leafQueue bytes).length) some (Nat.le_refl _)
    have count := leafCount_of_merge ht
    have perm := mergeQueue_symbols ht
    rw [symbols] at perm
    exact ⟨t, (buildTree_of_several one).trans ht, fun b hb => perm.mem_iff.mpr (mem b hb), by omega,
      by omega⟩

/-- A tree with at most `fuel` leaves has at most `fuel` levels. -/
theorem treeOf_of_leafCount {arena : Table Node} {f fuel i : Nat} {t : Tree} (h : treeOf arena f i = some t)
    (enough : leafCount t ≤ fuel) : treeOf arena fuel i = some t := by
  induction t generalizing f fuel i with
  | leaf x =>
    obtain ⟨kind, sym⟩ := treeOf_entry h
    rw [← sym]
    exact treeOf_leaf kind enough
  | node l r ihl ihr =>
    obtain ⟨kind, children⟩ := treeOf_node h
    obtain ⟨fl, hl⟩ := children false
    obtain ⟨fr, hr⟩ := children true
    have := leafCount_pos l
    have := leafCount_pos r
    simp only [leafCount] at enough
    obtain ⟨fuel, rfl⟩ : ∃ k, fuel = k + 1 := ⟨fuel - 1, by omega⟩
    exact treeOf_internal kind (ihl hl (by omega)) (ihr hr (by omega))

end Sys2Proof.Machine
end

section
/-! SUPPORT. COMPRESS up to its tree: FCOUNT, HINIT, HMERGE and HWRAP leave the tree of `buildTree` at ROOT
(R161, R173, R175, R177). -/

namespace Sys2Proof.Machine

/-- A COMPRESS of `bytes` that has written `out`, with OBUF_CAP `room`, runs phase `p` in phase steps. -/
structure Coding (room : Nat) (bytes out : List Byte) (p : Phase) (s : State) : Prop where
  busy : s.st = .busy
  script : s.script = []
  phase : s.phase = p
  err : s.err = .none
  errInfo : s.errInfo = .none
  fine : s.fine = false
  output : Output out s
  reads : input s = bytes
  room : s.obufCap.toNat = room

section
variable {room n : Nat} {bytes out : List Byte} {p : Phase} {s t : State}

/-- The state depends on these fields alone. -/
theorem Coding.congr {q : Phase} (h : Coding room bytes out p s) (phase : t.phase = q)
    (same : (t.st, t.script, t.err, t.errInfo, t.fine, t.obuf, t.opos, t.inLen, t.ibuf, t.ibufEra, t.obufCap) =
      (s.st, s.script, s.err, s.errInfo, s.fine, s.obuf, s.opos, s.inLen, s.ibuf, s.ibufEra, s.obufCap)) :
    Coding room bytes out q t := by
  simp only [Prod.mk.injEq] at same
  obtain ⟨st, script, err, errInfo, fine, obuf, opos, inLen, ibuf, era, cap⟩ := same
  exact
    { busy := st.trans h.busy
      script := script.trans h.script
      phase := phase
      err := err.trans h.err
      errInfo := errInfo.trans h.errInfo
      fine := fine.trans h.fine
      output := ⟨opos ▸ h.output.opos, obuf ▸ h.output.bytes⟩
      reads := (input_congr ibuf era inLen).trans h.reads
      room := cap ▸ h.room }

/-- One phase. -/
theorem Coding.run {r : Except ErrInfo (List Byte)} (h : Coding room bytes out p s)
    (run : exec (phaseInstr p) s = .next t) (ends : Ends n t r) : Ends (n + 1) s r := by
  refine Ends.step ?_ ends
  rw [step_busy h.busy h.script h.fine, h.phase, run]

/-! ### FCOUNT -/

/-- FCOUNT's loop adds the occurrences (R160, R161). -/
theorem freqAt_countBytes (bytes : List Byte) (s : State) (i : Nat) :
    freqAt (bytes.foldl countByte s) i = freqAt s i + occurrences bytes i := by
  induction bytes generalizing s with
  | nil => rfl
  | cons b bytes ih =>
    have one : freqAt (countByte s b) i = freqAt s i + if b.toNat = i then 1 else 0 := by
      simp only [countByte, freqAt, Table.get_put]
      by_cases h : i = b.toNat
      · simp [h]
      · simp [h, Ne.symm h]
    rw [List.foldl_cons, ih, one, occurrences, occurrences, List.countP_cons, Nat.add_assoc,
      Nat.add_comm (if b.toNat = i then 1 else 0)]
    simp

/-- The alphabet size is the number of symbols that occur (R162). -/
theorem alphabetSize_eq (counted : ∀ i, freqAt s i = occurrences bytes i) :
    alphabetSize s = (leafQueue bytes).length := by
  rw [leafQueue_length, alphabetSize, List.countP_eq_length_filter, symbolsOf]
  simp only [counted]

/-- FCOUNT (R161). -/
theorem Coding.fcount (h : Coding room bytes out .fcount s) :
    ∃ t, exec (phaseInstr .fcount) s = .next t ∧ Coding room bytes out .hinit t ∧
      (∀ i, freqAt t i = occurrences bytes i) ∧ t.k.toNat = (leafQueue bytes).length := by
  have counted (i : Nat) := freqAt_countBytes (input s) { s with freq := [], ipos := 0#32 } i
  have size := alphabetSize_toNat ((input s).foldl countByte { s with freq := [], ipos := 0#32 })
  have start (i : Nat) : freqAt { s with freq := [], ipos := 0#32 } i = 0 := rfl
  simp only [start, Nat.zero_add] at counted
  rw [alphabetSize_eq counted] at size
  refine ⟨_, rfl, ?_, fun i => ?_, ?_⟩
  · obtain ⟨freq, frame⟩ := countByte_foldl_frame (input s) { s with freq := [], ipos := 0#32 }
    rw [frame]
    exact h.congr rfl rfl
  · rw [← h.reads]
    exact counted i
  · rw [← h.reads, ← size, alphabetSize_eq counted]

/-! ### The tree -/

/-- The tree `tr` of `bytes` is at ROOT, with the frequencies of `bytes` and the number of its nodes. -/
structure Built (bytes : List Byte) (tr : Tree) (s : State) : Prop where
  counted : ∀ i, freqAt s i = occurrences bytes i
  tree : rootTree s = some tr
  nn : s.nn.toNat = nodeCount tr

/-- HINIT (R173). -/
theorem Coding.hinit (h : Coding room bytes out .hinit s)
    (counted : ∀ i, freqAt s i = occurrences bytes i) (k : s.k.toNat = (leafQueue bytes).length) :
    ∃ t, exec (phaseInstr .hinit) s = .next t ∧
      Coding room bytes out (if (leafQueue bytes).length = 1 then .hwrap else .hmerge) t ∧
      Enqueued bytes Config.alphaMax t := by
  have single : s.k = 1#9 ↔ (leafQueue bytes).length = 1 := by
    rw [← k, ← BitVec.toNat_inj]
    rfl
  have done := (Enqueued.start counted).hinitSymbols (Nat.le_refl Config.alphaMax)
  obtain ⟨arena, nn, heap, frame⟩ :=
    hinitSymbol_foldl_frame (List.range Config.alphaMax) { s with nn := 0#10, heap := [] }
  refine ⟨_, rfl, ?_, ?_⟩
  · rw [frame]
    refine h.congr ?_ rfl
    simp only [single]
  · rw [frame] at done ⊢
    exact { done with queue := { done.queue with } }

/-- HWRAP (R177). -/
theorem Coding.hwrap (h : Coding room bytes out .hwrap s) (queue : Enqueued bytes Config.alphaMax s)
    (one : (leafQueue bytes).length = 1) :
    ∃ tr t, buildTree bytes = some tr ∧ exec (phaseInstr .hwrap) s = .next t ∧
      Coding room bytes out .cgen t ∧ Built bytes tr t := by
  have length := queue.queue.length
  rw [leavesBelow_alphaMax, one] at length
  obtain ⟨x, heap⟩ := List.length_eq_one_iff.mp length.symm
  obtain ⟨tree, stands, trees⟩ := queue.queue.entries
  rw [heap, List.map_singleton, leavesBelow_alphaMax] at stands
  have he := List.perm_singleton.mp stands
  have first : x.toNat = 0 := by
    have below := queue.queue.below x (by simp [heap])
    rw [queue.nn, leavesBelow_alphaMax, one] at below
    omega
  obtain ⟨i, leaf⟩ : ∃ i, tree x = .leaf i := by
    have mem : entryOf s.arena tree x ∈ leafQueue bytes := by simp [he]
    obtain ⟨e, _, own⟩ := List.mem_map.mp mem
    exact ⟨_, (congrArg (fun e : Entry => e.2.2) own).symm⟩
  obtain ⟨f, hx⟩ := trees x (by simp [heap])
  rw [leaf, first] at hx
  obtain ⟨kind, sym⟩ := treeOf_entry hx
  refine ⟨.node (tree x) (tree x), _, buildTree_of_single he, rfl, h.congr rfl rfl, queue.counted, ?_, ?_⟩
  · rw [leaf, ← sym]
    simp [rootTree, treeOf, Config.depthMax, nodeAt_put, kind]
  · rw [leaf]
    rfl

/-- HMERGE (R175). -/
theorem Coding.hmerge (h : Coding room bytes out .hmerge s) (queue : Enqueued bytes Config.alphaMax s)
    (nonempty : bytes ≠ []) (several : (leafQueue bytes).length ≠ 1) :
    ∃ tr t, buildTree bytes = some tr ∧ exec (phaseInstr .hmerge) s = .next t ∧
      Coding room bytes out .cgen t ∧ Built bytes tr t := by
  have length := queue.queue.length
  have nn := queue.nn
  rw [leavesBelow_alphaMax] at length nn
  have few : (leafQueue bytes).length ≤ Config.alphaMax := leafQueue_length bytes ▸ symbolsOf_length_le bytes
  have some := leafQueue_nonempty nonempty
  have fits : s.nn.toNat + s.heap.length ≤ Config.nodeCap + 1 := by
    simp only [Config.alphaMax, Config.nodeCap] at *
    omega
  obtain ⟨tr, m, merged, root, f, tree⟩ := queue.queue.mergeLoop s.heap.length
    (rounds := (leafQueue bytes).length) (by omega) (Nat.le_succ _) (Nat.le_of_eq length.symm) fits
  obtain ⟨arena, nn', heap, frame, count, _⟩ := mergeLoop_spec s.heap.length s (Nat.le_succ _)
  rw [frame] at root tree
  rw [nn, leavesBelow_alphaMax] at merged
  have leaves := leafCount_of_merge merged
  refine ⟨tr, _, (buildTree_of_several several).trans merged, rfl, ?_, ?_⟩
  all_goals rw [frame, takeRoot_one _ m root]
  · exact h.congr rfl rfl
  · refine ⟨queue.counted, ?_, ?_⟩
    · exact treeOf_of_leafCount tree (leaves ▸ few)
    · have nodes := nodeCount_eq tr
      simp only [count, BitVec.toNat_add, BitVec.toNat_ofNat]
      simp only [Config.alphaMax] at few
      omega

end

end Sys2Proof.Machine
end

section
/-! SUPPORT. CGEN: the paths of a tree are all different, and the code book CGEN records is that of the tree
(R202, R203, R205). -/

namespace Sys2Proof.Machine

/-! ### The paths of a tree -/

/-- No two leaves have one path. -/
theorem leaves_nodup (t : Tree) : ((leaves t []).map (·.1)).Nodup := by
  induction t with
  | leaf x => exact List.nodup_singleton _
  | node l r ihl ihr =>
    have under (t : Tree) (b : Bool) :
        ((leaves t [b]).map (·.1)) = ((leaves t []).map (·.1)).map (b :: ·) := by
      rw [leaves_path t [b]]
      simp [Function.comp_def]
    simp only [leaves, List.nil_append, List.map_append, under]
    refine List.nodup_append'.mpr ⟨ihl.map List.cons_injective, ihr.map List.cons_injective, fun p hp hq => ?_⟩
    obtain ⟨a, _, rfl⟩ := List.mem_map.mp hp
    obtain ⟨b, _, e⟩ := List.mem_map.mp hq
    cases e

/-- Under an Internal root no path is empty. -/
theorem leaves_path_ne_nil {l r : Tree} {e : List Bool × Byte} (h : e ∈ leaves (.node l r) []) :
    e.1 ≠ [] := by
  simp only [leaves, List.nil_append, List.mem_append] at h
  rw [leaves_path l [false], leaves_path r [true]] at h
  rcases h with h | h <;>
    · obtain ⟨d, _, rfl⟩ := List.mem_map.mp h
      exact List.cons_ne_nil _ _

theorem internal_of_two_leaves {t : Tree} (h : 2 ≤ leafCount t) : ∃ l r, t = .node l r := by
  cases t with
  | leaf x => exact absurd h (by simp [leafCount])
  | node l r => exact ⟨l, r, rfl⟩

/-! ### CGEN -/

/-- The code of the first leaf of the list that holds the symbol `b`. -/
def firstPath (es : List (List Bool × Byte)) (b : Byte) : Option (List Bool) :=
  (es.find? (fun e => e.2 == b)).map (·.1)

/-- CGEN has visited the leaves `es` (R203). -/
structure Recorded (es : List (List Bool × Byte)) (s : State) : Prop where
  inv : s.inv = es
  paths : ∀ e ∈ es, e.1 ≠ [] ∧ e.1.length ≤ Config.depthMax
  absent : ∀ b, firstPath es b = none → cbLenAt s b.toNat = 0#8
  present : ∀ b p, firstPath es b = some p →
    cbLenAt s b.toNat = BitVec.ofNat 8 p.length ∧ cbBitsAt s b.toNat = p

theorem Recorded.mem {es : List (List Bool × Byte)} {s : State} (h : Recorded es s) {b : Byte} {p : List Bool}
    (hp : firstPath es b = some p) : p ≠ [] ∧ p.length ≤ Config.depthMax := by
  obtain ⟨e, he, rfl⟩ := Option.map_eq_some_iff.mp hp
  exact h.paths e (List.mem_of_find?_eq_some he)

theorem pathLength_toNat {p : List Bool} (h : p.length ≤ Config.depthMax) :
    (BitVec.ofNat 8 p.length).toNat = p.length := by
  simp only [Config.depthMax] at h
  rw [BitVec.toNat_ofNat]
  omega

/-- CB_LEN is 0 exactly for the symbols with no leaf so far. -/
theorem Recorded.cbLen_eq_zero_iff {es : List (List Bool × Byte)} {s : State} (h : Recorded es s) (b : Byte) :
    cbLenAt s b.toNat = 0#8 ↔ firstPath es b = none := by
  refine ⟨fun zero => ?_, h.absent b⟩
  cases hp : firstPath es b with
  | none => rfl
  | some p =>
    obtain ⟨ne, short⟩ := h.mem hp
    rw [(h.present b p hp).1] at zero
    have := pathLength_toNat short
    rw [zero] at this
    exact absurd (List.eq_nil_of_length_eq_zero this.symm) ne

theorem firstPath_append (es : List (List Bool × Byte)) (e : List Bool × Byte) (b : Byte) :
    firstPath (es ++ [e]) b = (firstPath es b).or (if e.2 = b then some e.1 else none) := by
  simp only [firstPath, List.find?_append, List.find?_singleton, beq_iff_eq]
  cases es.find? (fun e => e.2 == b) with
  | none => simp only [Option.none_or, Option.map_none]; split <;> rfl
  | some e' => rfl

/-- The visit of one more leaf. -/
theorem Recorded.visit {es : List (List Bool × Byte)} {s : State} (h : Recorded es s) {e : List Bool × Byte}
    (fresh : e.1 ∉ es.map (·.1)) (path : e.1 ≠ [] ∧ e.1.length ≤ Config.depthMax) :
    ∃ u, recordLeaf e s = .go u ∧ Recorded (es ++ [e]) u := by
  have noCollision : ¬ (s.inv.any (fun x => x.1 == e.1) = true) := by
    rw [h.inv, List.any_eq_true]
    rintro ⟨x, hx, same⟩
    exact fresh (List.mem_map.mpr ⟨x, hx, by simpa using same⟩)
  have paths : ∀ x ∈ es ++ [e], x.1 ≠ [] ∧ x.1.length ≤ Config.depthMax := fun x hx => by
    rcases List.mem_append.mp hx with hx | hx
    · exact h.paths x hx
    · rw [List.mem_singleton.mp hx]
      exact path
  have inv : s.inv ++ [e] = es ++ [e] := by rw [h.inv]
  unfold recordLeaf
  rw [if_neg noCollision]
  simp only
  by_cases new : cbLenAt s e.2.toNat = 0#8
  · rw [if_pos (show cbLenAt { s with inv := s.inv ++ [e] } e.2.toNat = 0#8 from new)]
    have first := (h.cbLen_eq_zero_iff e.2).mp new
    refine ⟨_, rfl, inv, paths, fun b hb => ?_, fun b p hb => ?_⟩
    all_goals
      rw [firstPath_append] at hb
      by_cases same : e.2 = b
    · rw [if_pos same, ← same, first] at hb
      cases hb
    · rw [if_neg same, Option.or_none] at hb
      have other : b.toNat ≠ e.2.toNat := fun h => same (BitVec.eq_of_toNat_eq h.symm)
      simpa [cbLenAt, Table.get_put_other _ _ _ _ _ other] using h.absent b hb
    · rw [if_pos same, ← same, first] at hb
      cases hb
      subst same
      simp [cbLenAt, cbBitsAt]
    · rw [if_neg same, Option.or_none] at hb
      have other : b.toNat ≠ e.2.toNat := fun h => same (BitVec.eq_of_toNat_eq h.symm)
      simpa [cbLenAt, cbBitsAt, Table.get_put_other _ _ _ _ _ other] using h.present b p hb
  · rw [if_neg (show ¬ cbLenAt { s with inv := s.inv ++ [e] } e.2.toNat = 0#8 from new)]
    refine ⟨_, rfl, inv, paths, fun b hb => ?_, fun b p hb => ?_⟩
    all_goals rw [firstPath_append] at hb
    · exact h.absent b (Option.or_eq_none_iff.mp hb).1
    · refine h.present b p ?_
      by_cases same : e.2 = b
      · cases hf : firstPath es b with
        | none => exact absurd ((h.cbLen_eq_zero_iff e.2).mpr (same ▸ hf)) new
        | some q => rw [hf] at hb; exact hb
      · rwa [if_neg same, Option.or_none] at hb

/-- The visit of the leaves (R203): no path occurs twice, so nothing collides (R205). -/
theorem Recorded.visits {es fs : List (List Bool × Byte)} {s : State} (h : Recorded es s)
    (fresh : ((es ++ fs).map (·.1)).Nodup) (paths : ∀ e ∈ fs, e.1 ≠ [] ∧ e.1.length ≤ Config.depthMax) :
    ∃ u, Flow.each recordLeaf fs s = .go u ∧ Recorded (es ++ fs) u ∧
      u = { s with inv := u.inv, cbLen := u.cbLen, cbBits := u.cbBits } := by
  induction fs generalizing es s with
  | nil => exact ⟨s, rfl, by rwa [List.append_nil], rfl⟩
  | cons e fs ih =>
    have new : e.1 ∉ es.map (·.1) := by
      rw [List.map_append, List.map_cons] at fresh
      obtain ⟨_, _, apart⟩ := List.nodup_append'.mp fresh
      exact fun he => apart he List.mem_cons_self
    obtain ⟨t, visit, ht⟩ := h.visit new (paths e List.mem_cons_self)
    obtain ⟨frame, _⟩ := (recordLeaf_frame e s).1 t visit
    rw [List.append_cons] at fresh
    obtain ⟨u, visits, hu, frame'⟩ := ih ht fresh fun f hf => paths f (List.mem_cons_of_mem e hf)
    refine ⟨u, ?_, by rwa [List.append_cons], ?_⟩
    · rw [Flow.each_cons, visit, Flow.bind_go, visits]
    · rw [frame] at frame'
      exact frame'

/-- The code book is that of the tree `tr` (R202). -/
structure CodeBook (tr : Tree) (s : State) : Prop where
  code : ∀ b : Byte, codeOf s b.toNat = (codeFor tr b).getD []
  length : ∀ b : Byte, (cbLenAt s b.toNat).toNat = ((codeFor tr b).getD []).length

theorem Recorded.codeBook {tr : Tree} {s : State} (h : Recorded (leaves tr []) s) : CodeBook tr s := by
  have both (b : Byte) : (cbLenAt s b.toNat).toNat = ((codeFor tr b).getD []).length ∧
      codeOf s b.toNat = (codeFor tr b).getD [] := by
    cases hp : codeFor tr b with
    | none =>
      have absent := h.absent b hp
      simp [codeOf, absent]
    | some p =>
      obtain ⟨len, bits⟩ := h.present b p hp
      obtain ⟨_, short⟩ := h.mem (b := b) (p := p) hp
      rw [codeOf, len, bits, pathLength_toNat short]
      simp
  exact ⟨fun b => (both b).2, fun b => (both b).1⟩

section
variable {room n : Nat} {bytes out : List Byte} {tr : Tree} {s t : State}

/-- CGEN (R203). -/
theorem Coding.cgen (h : Coding room bytes out .cgen s) (built : Built bytes tr s)
    (two : 2 ≤ leafCount tr) :
    ∃ t, exec (phaseInstr .cgen) s = .next t ∧ Coding room bytes out .size t ∧ Built bytes tr t ∧
      CodeBook tr t := by
  obtain ⟨l, r, rfl⟩ := internal_of_two_leaves two
  have start : Recorded [] { s with cbLen := [], inv := [] } := ⟨rfl, nofun, fun _ _ => rfl, nofun⟩
  obtain ⟨u, visits, recorded, frame⟩ := start.visits (fs := leaves (.node l r) []) (leaves_nodup _)
    fun e he => ⟨leaves_path_ne_nil he, Nat.le_of_lt_succ (treeOf_depth built.tree e he)⟩
  have whole : exec (phaseInstr .cgen) s = .next { u with phase := .size } := by
    change execPCgen s = _
    rw [execPCgen, built.tree]
    simp only
    rw [visits]
    rfl
  have book := recorded.codeBook
  refine ⟨_, whole, ?_, ?_, ⟨book.code, book.length⟩⟩
  all_goals rw [frame]
  · exact h.congr rfl rfl
  · exact ⟨built.counted, built.tree, built.nn⟩

end

end Sys2Proof.Machine
end

section
/-! SUPPORT. From SIZE to FINISH: the size checked is that of the artifact (R274), and the phases after it
emit its parts in order (R221, R275, R276, R253). -/

namespace Sys2Proof.Machine

section
variable {room n : Nat} {bytes out : List Byte} {p : Phase} {tr : Tree} {s t : State}

/-! ### SIZE -/

/-- One byte is counted under its own value only. -/
theorem sum_single (f : Nat → Nat) (k n : Nat) :
    ((List.range n).map fun i => (if k = i then 1 else 0) * f i).sum = if k < n then f k else 0 := by
  induction n with
  | zero => rfl
  | succ n ih =>
    rw [List.range_succ, List.map_append, List.sum_append, ih]
    by_cases last : k = n
    · subst last
      simp
    · have : (k < n + 1) = (k < n) := by
        apply propext
        omega
      simp [last, this]

/-- A sum over the symbols, weighted with their occurrences, is the sum over the bytes. -/
theorem sum_occurrences (f : Nat → Nat) (bytes : List Byte) :
    ((List.range Config.alphaMax).map fun i => occurrences bytes i * f i).sum =
      (bytes.map fun b => f b.toNat).sum := by
  induction bytes with
  | nil => simp [occurrences]
  | cons b bytes ih =>
    have one (i : Nat) : occurrences (b :: bytes) i * f i =
        occurrences bytes i * f i + (if b.toNat = i then 1 else 0) * f i := by
      rw [← Nat.add_mul, occurrences, occurrences, List.countP_cons]
      simp
    simp only [one, List.sum_map_add, ih, sum_single, List.map_cons, List.sum_cons]
    rw [if_pos (show b.toNat < Config.alphaMax from b.isLt), Nat.add_comm]

/-- The sum of R274 is the length of the payload (R273). -/
theorem codedBits_eq (counted : ∀ i, freqAt s i = occurrences bytes i) (book : CodeBook tr s) :
    codedBits s = (payloadBits tr bytes).length := by
  simp only [codedBits, counted, sum_occurrences, payloadBits, List.length_flatMap, book.length]

/-- A path has fewer bits than the tree has leaves. -/
theorem leaves_path_length {e : List Bool × Byte} (h : e ∈ leaves tr []) : e.1.length < leafCount tr := by
  induction tr generalizing e with
  | leaf x =>
    rw [leaves, List.mem_singleton] at h
    rw [h]
    exact Nat.zero_lt_one
  | node l r ihl ihr =>
    have := leafCount_pos l
    have := leafCount_pos r
    simp only [leaves, List.nil_append, List.mem_append] at h
    rw [leaves_path l [false], leaves_path r [true]] at h
    simp only [leafCount]
    rcases h with h | h
    · obtain ⟨d, hd, rfl⟩ := List.mem_map.mp h
      have := ihl hd
      simp only [List.cons_append, List.nil_append, List.length_cons]
      omega
    · obtain ⟨d, hd, rfl⟩ := List.mem_map.mp h
      have := ihr hd
      simp only [List.cons_append, List.nil_append, List.length_cons]
      omega

/-- A code has at most 255 bits (R31). -/
theorem code_length_le (few : leafCount tr ≤ Config.leafMax) (b : Byte) :
    ((codeFor tr b).getD []).length ≤ 255 := by
  cases hp : codeFor tr b with
  | none => exact Nat.zero_le _
  | some p => exact Nat.le_of_lt_succ (Nat.lt_of_lt_of_le (leaves_path_length (codeFor_mem hp)) few)

/-- A payload has at most 255 bits for each byte. -/
theorem payloadBits_length_le (few : leafCount tr ≤ Config.leafMax) (bytes : List Byte) :
    (payloadBits tr bytes).length ≤ 255 * bytes.length := by
  induction bytes with
  | nil => exact Nat.le_refl _
  | cons b bytes ih =>
    have own := code_length_le few b
    simp only [payloadBits, List.flatMap_cons, List.length_append, List.length_cons] at ih ⊢
    omega

/-- The length of the payload of an input fits BITLEN (R36). -/
theorem bitlen_toNat (few : leafCount tr ≤ Config.leafMax) (short : bytes.length < 2 ^ 32) :
    (BitVec.ofNat 64 (payloadBits tr bytes).length).toNat = (payloadBits tr bytes).length := by
  have := payloadBits_length_le few bytes
  rw [BitVec.toNat_ofNat]
  omega

/-- The parts of an artifact (R90). -/
theorem artifactOf_eq (tr : Tree) (bytes : List Byte) :
    artifactOf tr bytes = serialize tr ++ Config.delim ::
      (be64 (BitVec.ofNat 64 (payloadBits tr bytes).length) ++ pack (payloadBits tr bytes)) := by
  simp [artifactOf]

theorem artifactOf_length (tr : Tree) (bytes : List Byte) :
    (artifactOf tr bytes).length =
      (serialize tr).length + 9 + ceil8 (payloadBits tr bytes).length := by
  rw [artifactOf_eq, List.length_append, List.length_cons, List.length_append, be64_length, pack_length]
  omega

/-- The payload's length and the room for the artifact are known (R274). -/
structure Sized (room : Nat) (bytes : List Byte) (tr : Tree) (s : State) : Prop where
  book : CodeBook tr s
  bitlen : s.bitlen = BitVec.ofNat 64 (payloadBits tr bytes).length
  fits : (artifactOf tr bytes).length ≤ room

/-- SIZE (R274). -/
theorem Coding.size (h : Coding room bytes out .size s) (built : Built bytes tr s) (book : CodeBook tr s)
    (few : leafCount tr ≤ Config.leafMax) :
    (room < (artifactOf tr bytes).length →
      ∃ u, exec (phaseInstr .size) s = .next (raise .outRange u)) ∧
    ((artifactOf tr bytes).length ≤ room →
      ∃ t, exec (phaseInstr .size) s = .next t ∧ Coding room bytes out .tser t ∧
        rootTree t = some tr ∧ Sized room bytes tr t) := by
  have bits := codedBits_eq built.counted book
  have short : bytes.length < 2 ^ 32 := by
    rw [← h.reads, input_length]
    exact s.inLen.isLt
  have total (k : BitVec 64) (hk : k = BitVec.ofNat 64 (payloadBits tr bytes).length) :
      artifactBytes { s with bitlen := k } = (artifactOf tr bytes).length := by
    have value : k.toNat = (payloadBits tr bytes).length := hk ▸ bitlen_toNat few short
    have nodes := nodeCount_eq tr
    have tree := serialize_length_eq tr
    rw [artifactBytes, artifactOf_length]
    simp only [value, built.nn]
    omega
  have size (k : BitVec 64) (hk : BitVec.ofNat 64 (codedBits s) = k) : execPSize s =
      if s.obufCap.toNat < artifactBytes { s with bitlen := k } then
        .next (raise .outRange { s with bitlen := k })
      else .next { s with bitlen := k, phase := .tser } := by
    subst hk
    rfl
  rw [exec_phaseInstr_size, size _ (by rw [bits]), total _ rfl, h.room]
  constructor
  · intro long
    exact ⟨_, if_pos long⟩
  · intro fits
    exact ⟨_, if_neg (Nat.not_lt.mpr fits), h.congr rfl rfl, built.tree, ⟨book.code, book.length⟩, rfl, fits⟩

/-! ### The parts of the artifact -/

/-- Bytes emitted within the room join the output. -/
theorem Coding.emits {more : List Byte} (h : Coding room bytes out p s)
    (fits : out.length + more.length ≤ room) :
    emitAll more s = .go (written more s) ∧ Coding room bytes (out ++ more) p (written more s) := by
  have hasRoom : HasRoom more.length s := .inr (by rw [h.output.opos, h.room]; exact fits)
  refine ⟨emitAll_written hasRoom, ?_⟩
  exact
    { h with
      output := h.output.written hasRoom
      reads := (input_congr (by rfl) (by rfl) (by rfl)).trans h.reads }

/-- TSER (R221). -/
theorem Coding.tser (h : Coding room bytes [] .tser s) (tree : rootTree s = some tr)
    (sized : Sized room bytes tr s) :
    ∃ t, exec (phaseInstr .tser) s = .next t ∧ Coding room bytes (serialize tr) .hdr t ∧
      Sized room bytes tr t := by
  have fits := sized.fits
  rw [artifactOf_length] at fits
  obtain ⟨emits, h'⟩ := h.emits (more := serialize tr) (by rw [List.length_nil]; omega)
  refine ⟨{ written (serialize tr) s with phase := .hdr }, ?_, h'.congr rfl rfl, ?_⟩
  · change execPTser s = _
    rw [execPTser, tree]
    simp only
    rw [emits]
    rfl
  · exact ⟨⟨sized.book.code, sized.book.length⟩, sized.bitlen, sized.fits⟩

/-- HDR (R275). -/
theorem Coding.hdr (h : Coding room bytes (serialize tr) .hdr s) (sized : Sized room bytes tr s) :
    ∃ t, exec (phaseInstr .hdr) s = .next t ∧
      Coding room bytes (serialize tr ++ (Config.delim :: be64 s.bitlen)) .encode t ∧
      Sized room bytes tr t := by
  have fits := sized.fits
  rw [artifactOf_length] at fits
  obtain ⟨emits, h'⟩ := h.emits (more := Config.delim :: be64 s.bitlen)
    (by rw [List.length_cons, be64_length]; omega)
  refine ⟨{ written (Config.delim :: be64 s.bitlen) s with phase := .encode }, ?_, h'.congr rfl rfl, ?_⟩
  · change execPHdr s = _
    rw [execPHdr, emits]
    rfl
  · exact ⟨⟨sized.book.code, sized.book.length⟩, sized.bitlen, sized.fits⟩

/-! ### The packer -/

/-- The byte whose bits, most significant first, are the eight given (R251). -/
theorem byteOfBits_getLsbD : ∀ b0 b1 b2 b3 b4 b5 b6 b7 : Bool, ∀ i : Fin 8,
    (BitVec.ofNat 8 ([if b0 then 2 ^ 7 else 0, if b1 then 2 ^ 6 else 0, if b2 then 2 ^ 5 else 0,
      if b3 then 2 ^ 4 else 0, if b4 then 2 ^ 3 else 0, if b5 then 2 ^ 2 else 0, if b6 then 2 ^ 1 else 0,
      if b7 then 2 ^ 0 else 0].sum)).getLsbD i = [b0, b1, b2, b3, b4, b5, b6, b7].getD (7 - i) false := by
  decide

/-- The bits of a packed byte, most significant bit first (R251). -/
theorem packByte_getLsbD (c : List Bool) (j : Nat) {i : Nat} (hi : i < 8) :
    (packByte c j).getLsbD i = c.getD (8 * j + (7 - i)) false := by
  refine (byteOfBits_getLsbD _ _ _ _ _ _ _ _ ⟨i, hi⟩).trans ?_
  simp only
  have place : 7 - i < 8 := by omega
  generalize 7 - i = k at place
  interval_cases k <;> rfl

/-- Bits after a whole byte are not in it. -/
theorem packByte_append {c d : List Bool} {j : Nat} (h : 8 * j + 8 ≤ c.length) :
    packByte (c ++ d) j = packByte c j := by
  refine BitVec.eq_of_getLsbD_eq fun i hi => ?_
  rw [packByte_getLsbD _ _ hi, packByte_getLsbD _ _ hi, List.getD_append _ _ _ _ (by omega)]

/-- Beyond the bits there are zero bits. -/
theorem packByte_beyond {c : List Bool} {j : Nat} (h : c.length ≤ 8 * j) : packByte c j = 0#8 := by
  refine BitVec.eq_of_getLsbD_eq fun i hi => ?_
  rw [packByte_getLsbD _ _ hi, List.getD_eq_default _ _ (by omega), BitVec.getLsbD_zero]

/-- A bit shifted to place `k` of a byte. -/
theorem shiftedBit_getLsbD (b : Bool) (k : Nat) {i : Nat} (hi : i < 8) :
    ((BitVec.ofBool b).setWidth 8 <<< k).getLsbD i = (decide (i = k) && b) := by
  rw [BitVec.getLsbD_shiftLeft, BitVec.getLsbD_setWidth, BitVec.getLsbD_ofBool]
  rcases Nat.lt_trichotomy i k with below | here | above
  · simp [below, Nat.ne_of_lt below]
  · simp [here, here ▸ hi]
  · simp [Nat.ne_of_gt above, Nat.sub_ne_zero_of_lt above]

/-- `put_bit` puts the next bit into the byte it belongs to (R252). -/
theorem packByte_concat (c : List Bool) (b : Bool) :
    packByte c (c.length / 8) ||| ((BitVec.ofBool b).setWidth 8 <<< (7 - c.length % 8)) =
      packByte (c ++ [b]) (c.length / 8) := by
  refine BitVec.eq_of_getLsbD_eq fun i hi => ?_
  rw [BitVec.getLsbD_or, packByte_getLsbD _ _ hi, packByte_getLsbD _ _ hi, shiftedBit_getLsbD _ _ hi]
  obtain ⟨m, hm⟩ : ∃ m, m = 8 * (c.length / 8) + (7 - i) := ⟨_, rfl⟩
  rw [← hm]
  rcases Nat.lt_trichotomy m c.length with inside | last | beyond
  · rw [List.getD_append _ _ _ _ inside, decide_eq_false (by omega), Bool.false_and, Bool.or_false]
  · have beyond := Nat.le_of_eq last.symm
    rw [List.getD_eq_default _ _ beyond, List.getD_append_right _ _ _ _ beyond,
      decide_eq_true (by omega), last, Nat.sub_self]
    simp
  · rw [List.getD_eq_default _ _ (Nat.le_of_lt beyond), List.getD_eq_default _ _ (by simp; omega),
      decide_eq_false (by omega), Bool.false_and, Bool.or_false]

/-- The packer has taken the bits `c` after the bytes `out`: the whole bytes are written, the others wait in
ACC (R252). -/
structure Packed (room : Nat) (bytes out : List Byte) (c : List Bool) (s : State) : Prop where
  coding : Coding room bytes (out ++ (List.range (c.length / 8)).map (packByte c)) .encode s
  acc : s.acc = packByte c (c.length / 8)
  accN : s.accN.toNat = c.length % 8

theorem emitAll_singleton (v : Byte) (s : State) : emitAll [v] s = emit v s := by
  rw [emitAll_cons]
  cases emit v s <;> rfl

/-- One bit (R252). -/
theorem Packed.putBit {c : List Bool} (h : Packed room bytes out c s) (b : Bool)
    (fits : out.length + (c.length + 1) / 8 ≤ room) :
    ∃ u, putBit b s = .go u ∧ Packed room bytes out (c ++ [b]) u := by
  have acc : s.acc ||| ((BitVec.ofBool b).setWidth 8 <<< (7 - s.accN.toNat)) =
      packByte (c ++ [b]) (c.length / 8) := by
    rw [h.acc, h.accN, packByte_concat]
  have kept (j : Nat) (hj : j ∈ List.range (c.length / 8)) : packByte c j = packByte (c ++ [b]) j :=
    (packByte_append (by have := List.mem_range.mp hj; omega)).symm
  have coding := h.coding
  rw [List.map_congr_left kept] at coding
  have accN := h.accN
  unfold Machine.putBit
  simp only [acc]
  by_cases whole : s.accN = 7#3
  · have seven : c.length % 8 = 7 := by rw [← accN, whole]; rfl
    have count : (c ++ [b]).length / 8 = c.length / 8 + 1 := by
      rw [List.length_append, List.length_singleton]
      omega
    obtain ⟨emits, coding⟩ := Coding.emits (s := { s with acc := packByte (c ++ [b]) (c.length / 8) })
      (more := [packByte (c ++ [b]) (c.length / 8)]) (coding.congr coding.phase rfl) (by simp; omega)
    rw [emitAll_singleton] at emits
    rw [if_pos whole, emits, Flow.bind_go]
    refine ⟨_, rfl, ?_, ?_, ?_⟩
    · rw [count, List.range_succ, List.map_append, ← List.append_assoc]
      exact coding.congr coding.phase rfl
    · refine (packByte_beyond ?_).symm
      rw [count, List.length_append, List.length_singleton]
      omega
    · rw [List.length_append, List.length_singleton]
      exact (by omega : 0 = (c.length + 1) % 8)
  · have notSeven : c.length % 8 ≠ 7 := fun seven => whole (BitVec.eq_of_toNat_eq (accN.trans seven))
    have count : (c ++ [b]).length / 8 = c.length / 8 := by
      rw [List.length_append, List.length_singleton]
      omega
    rw [if_neg whole]
    refine ⟨_, rfl, ?_, ?_, ?_⟩
    · rw [count]
      exact coding.congr coding.phase rfl
    · rw [count]
    · simp only [BitVec.toNat_add, accN, List.length_append, List.length_singleton]
      have : (1#3).toNat = 1 := rfl
      omega

/-- Several bits. -/
theorem Packed.putBits {c : List Bool} (bits : List Bool) {s : State} (h : Packed room bytes out c s)
    (fits : out.length + (c.length + bits.length) / 8 ≤ room) :
    ∃ u, Flow.each Machine.putBit bits s = .go u ∧ Packed room bytes out (c ++ bits) u := by
  induction bits generalizing c s with
  | nil => exact ⟨s, rfl, by rwa [List.append_nil]⟩
  | cons b bits ih =>
    rw [List.length_cons] at fits
    obtain ⟨t, ht, next⟩ := h.putBit b (by omega)
    obtain ⟨u, hu, done⟩ := ih next (by rw [List.length_append, List.length_singleton]; omega)
    refine ⟨u, ?_, by rwa [List.append_cons]⟩
    rw [Flow.each_cons, ht, Flow.bind_go, hu]

/-- The codes of several bytes (R276). -/
theorem Packed.encodeBytes {c : List Bool} (rest : List Byte) {s : State} (h : Packed room bytes out c s)
    (book : CodeBook tr s) (fits : out.length + (c.length + (payloadBits tr rest).length) / 8 ≤ room) :
    ∃ u, Flow.each encodeByte rest s = .go u ∧ Packed room bytes out (c ++ payloadBits tr rest) u := by
  induction rest generalizing c s with
  | nil => exact ⟨s, rfl, by rwa [payloadBits, List.flatMap_nil, List.append_nil]⟩
  | cons b rest ih =>
    have split : payloadBits tr (b :: rest) = (codeFor tr b).getD [] ++ payloadBits tr rest := rfl
    rw [split, List.length_append] at fits
    have start : Packed room bytes out c { s with ipos := s.ipos + 1#32 } :=
      ⟨h.coding.congr h.coding.phase rfl, h.acc, h.accN⟩
    obtain ⟨t, ht, next⟩ := start.putBits ((codeFor tr b).getD []) (by omega)
    have one : encodeByte b s = .go t := by
      rw [← ht, ← book.code b]
      rfl
    have frame := (putBits_frame _ _ t (.inl ht)).1
    have book' : CodeBook tr t := by
      rw [frame]
      exact ⟨book.code, book.length⟩
    obtain ⟨u, hu, done⟩ := ih next book' (by rw [List.length_append]; omega)
    refine ⟨u, ?_, by rwa [split, ← List.append_assoc]⟩
    rw [Flow.each_cons, one, Flow.bind_go, hu]

/-- ENCODE (R276). -/
theorem Coding.encode (h : Coding room bytes out .encode s) (book : CodeBook tr s)
    (fits : out.length + (payloadBits tr bytes).length / 8 ≤ room) :
    ∃ t, exec (phaseInstr .encode) s = .next { t with phase := .flush } ∧
      Packed room bytes out (payloadBits tr bytes) t := by
  have start : Packed room bytes out [] { s with acc := 0#8, accN := 0#3, ipos := 0#32 } := by
    refine ⟨?_, (packByte_beyond (Nat.le_refl _)).symm, rfl⟩
    rw [List.length_nil, Nat.zero_div, List.range_zero, List.map_nil, List.append_nil]
    exact h.congr h.phase rfl
  obtain ⟨t, ht, packed⟩ := start.encodeBytes (tr := tr) bytes ⟨book.code, book.length⟩
    (by rwa [List.length_nil, Nat.zero_add])
  refine ⟨t, ?_, packed⟩
  change execPEncode s = _
  rw [execPEncode, h.reads, ht]
  rfl

/-- The packed bytes are the whole ones and the partial one (R251, R253). -/
theorem pack_eq (c : List Bool) :
    pack c = (List.range (c.length / 8)).map (packByte c) ++
      if c.length % 8 = 0 then [] else [packByte c (c.length / 8)] := by
  unfold pack ceil8
  split
  · rw [Nat.add_zero, List.append_nil]
  · rw [List.range_succ, List.map_append]
    rfl

/-- FLUSH (R253). -/
theorem Packed.flush {c : List Bool} (h : Packed room bytes out c s)
    (fits : out.length + ceil8 c.length ≤ room) :
    ∃ t, exec (phaseInstr .flush) { s with phase := .flush } = .next t ∧
      Coding room bytes (out ++ pack c) .finish t := by
  have none : s.accN = 0#3 ↔ c.length % 8 = 0 := by
    rw [← BitVec.toNat_inj, h.accN]
    rfl
  rw [pack_eq, ← List.append_assoc]
  by_cases whole : c.length % 8 = 0
  · rw [if_pos whole, List.append_nil]
    exact ⟨_, if_pos (none.mpr whole), h.coding.congr rfl rfl⟩
  · rw [if_neg whole]
    unfold ceil8 at fits
    rw [if_neg whole] at fits
    have coding : Coding room bytes (out ++ (List.range (c.length / 8)).map (packByte c)) .flush
        { s with phase := .flush } := h.coding.congr rfl rfl
    obtain ⟨emits, coding'⟩ := coding.emits (more := [packByte c (c.length / 8)]) (by simp; omega)
    rw [emitAll_singleton, ← h.acc] at emits
    have run : exec (phaseInstr .flush) { s with phase := .flush } =
        .next { written [s.acc] { s with phase := .flush } with
          acc := 0#8
          accN := 0#3
          phase := .finish } := by
      refine (if_neg (mt none.mp whole)).trans ?_
      rw [emits]
      rfl
    rw [← h.acc] at coding' ⊢
    exact ⟨_, run, coding'.congr rfl rfl⟩

/-- FINISH (R137). -/
theorem Coding.finish (h : Coding room bytes out .finish s) : Ends (n + 1) s (.ok out) := by
  obtain ⟨t, run, done⟩ := h.output.finish h.err h.errInfo
  exact h.run run (Reaches.here done)

end

end Sys2Proof.Machine
end

section
/-! SUPPORT. COMPRESS from CHECK to FINISH (R140). -/

namespace Sys2Proof.Machine

section
variable {room n : Nat} {bytes out : List Byte} {tr : Tree} {s t : State}

theorem compressed_of_buildTree (nonempty : bytes ≠ []) (tree : buildTree bytes = some tr) :
    compressed bytes = artifactOf tr bytes := by
  cases bytes with
  | nil => exact absurd rfl nonempty
  | cons b bytes =>
    simp only [compressed]
    rw [tree]

/-- How a COMPRESS of `bytes` ends with OBUF_CAP `room` (R140). -/
def compressEnd (room : Nat) (bytes : List Byte) : Except ErrInfo (List Byte) :=
  if (compressed bytes).length ≤ room then .ok (compressed bytes) else .error .outRange

/-- From SIZE on the command ends with the artifact, or before anything of it is emitted. -/
theorem Coding.size_ends (h : Coding room bytes [] .size s) (built : Built bytes tr s) (book : CodeBook tr s)
    (few : leafCount tr ≤ Config.leafMax) :
    Ends (n + 6) s
      (if (artifactOf tr bytes).length ≤ room then .ok (artifactOf tr bytes) else .error .outRange) := by
  obtain ⟨long, fits⟩ := h.size built book few
  by_cases room_le : (artifactOf tr bytes).length ≤ room
  · rw [if_pos room_le]
    obtain ⟨s1, run1, h1, tree, sized1⟩ := fits room_le
    obtain ⟨s2, run2, h2, sized2⟩ := h1.tser tree sized1
    obtain ⟨s3, run3, h3, sized3⟩ := h2.hdr sized2
    have length := artifactOf_length tr bytes
    have header : (serialize tr ++ Config.delim :: be64 s2.bitlen).length = (serialize tr).length + 9 := by
      rw [List.length_append, List.length_cons, be64_length]
    have bounds := ceil8_bounds (payloadBits tr bytes).length
    obtain ⟨s4, run4, packed⟩ := h3.encode sized3.book (by omega)
    have h4 : Coding room bytes _ .flush { s4 with phase := .flush } := packed.coding.congr rfl rfl
    obtain ⟨s5, run5, h5⟩ := packed.flush (by omega)
    have whole : artifactOf tr bytes =
        serialize tr ++ Config.delim :: be64 s2.bitlen ++ pack (payloadBits tr bytes) := by
      rw [sized2.bitlen, artifactOf_eq, List.append_assoc, List.cons_append]
    rw [whole]
    exact h.run run1 (h1.run run2 (h2.run run3 (h3.run run4 (h4.run run5 h5.finish))))
  · rw [if_neg room_le]
    obtain ⟨u, run⟩ := long (Nat.lt_of_not_le room_le)
    exact h.run run (Ends.raise _ _ _)

/-- From FCOUNT on. -/
theorem Coding.fcount_ends (h : Coding room bytes [] .fcount s) (nonempty : bytes ≠ []) :
    Ends (n + 10) s (compressEnd room bytes) := by
  obtain ⟨tr, tree, _, two, few⟩ := buildTree_spec nonempty
  rw [compressEnd, compressed_of_buildTree nonempty tree]
  obtain ⟨s1, run1, h1, counted, k⟩ := h.fcount
  obtain ⟨s2, run2, h2, queue⟩ := h1.hinit counted k
  have built : ∃ p s3, Coding room bytes [] p s2 ∧ exec (phaseInstr p) s2 = .next s3 ∧
      Coding room bytes [] .cgen s3 ∧ Built bytes tr s3 := by
    by_cases one : (leafQueue bytes).length = 1
    · rw [if_pos one] at h2
      obtain ⟨tr', s3, tree', run3, h3, built⟩ := h2.hwrap queue one
      cases tree.symm.trans tree'
      exact ⟨_, s3, h2, run3, h3, built⟩
    · rw [if_neg one] at h2
      obtain ⟨tr', s3, tree', run3, h3, built⟩ := h2.hmerge queue nonempty one
      cases tree.symm.trans tree'
      exact ⟨_, s3, h2, run3, h3, built⟩
  obtain ⟨p, s3, h2, run3, h3, built⟩ := built
  obtain ⟨s4, run4, h4, built, book⟩ := h3.cgen built two
  exact h.run run1 (h1.run run2 (h2.run run3 (h3.run run4 (h4.size_ends built book few))))

/-- EMPTY (R272). -/
theorem Coding.empty_ends (h : Coding room [] [] .empty s) : Ends (n + 2) s (compressEnd room []) := by
  have one : (compressed []).length = 1 := rfl
  have run : exec (phaseInstr .empty) s =
      ((emit Config.tokEmpty s).bind fun u => .go { u with phase := .finish }).outcome := rfl
  rw [compressEnd, one]
  by_cases fits : 1 ≤ room
  · obtain ⟨emits, h'⟩ := h.emits (more := [Config.tokEmpty]) fits
    rw [emitAll_singleton] at emits
    rw [emits] at run
    rw [if_pos fits]
    exact h.run run (Coding.finish (h'.congr rfl rfl))
  · have full := emit_full Config.tokEmpty s (by have := h.room; omega)
    rw [full] at run
    rw [if_neg fits]
    exact h.run run (Ends.raise _ _ _)

/-- CHECK of a COMPRESS whose input fits (R134). -/
theorem Started.compress_ends (h : Started 1#2 s) (fits : s.inLen.toNat ≤ s.ibufCap.toNat) :
    Ends 11 s (compressEnd s.obufCap.toNat (input s)) := by
  obtain ⟨⟨busy, phase, err, errInfo, _, cmd, fine⟩, script⟩ := h
  refine Ends.step (t := { s with ipos := 0#32, opos := 0#32, phase := checkedPhase s }) ?_ ?_
  · rw [step_busy busy script fine, phase]
    exact execPCheck_passes (.inl cmd) (BitVec.le_def.mpr fits)
  have coding : Coding s.obufCap.toNat (input s) [] (checkedPhase s)
      { s with ipos := 0#32, opos := 0#32, phase := checkedPhase s } :=
    { busy, script, phase := rfl, err, errInfo, fine
      output := .empty rfl
      reads := input_congr (by rfl) (by rfl) (by rfl)
      room := rfl }
  have empty : s.inLen = 0#32 ↔ input s = [] := by
    rw [inLen_eq_zero_iff, ← input_length, List.length_eq_zero_iff]
  rw [checkedPhase, if_pos cmd] at coding ⊢
  by_cases none : s.inLen = 0#32
  · rw [if_pos none] at coding ⊢
    rw [empty.mp none] at coding ⊢
    exact coding.empty_ends
  · rw [if_neg none] at coding ⊢
    exact coding.fcount_ends (mt empty.mpr none)

end

end Sys2Proof.Machine

open Sys2Proof Sys2Proof.Machine

/-- Settles O55, phase by phase from CHECK to FINISH. -/
theorem compressComputesTheArtifact : Obligations.CompressComputesTheArtifact := by
  unfold Obligations.CompressComputesTheArtifact
  intro s started
  have ⟨⟨busy, phase, _, _, _, cmd, fine⟩, script⟩ := started
  refine ⟨fun long => ?tooLong, fun fits => ?fits, fun empty => ?empty, fun nonempty => ?nonempty⟩
  case tooLong =>
    refine Reaches.step ?_ (Reaches.here (s := raise .inRange s) ⟨rfl, rfl, rfl, rfl⟩)
    rw [step_busy busy script fine, phase]
    exact execPCheck_tooLong (.inl cmd) (BitVec.lt_def.mpr long)
  case fits =>
    have ends := started.compress_ends fits
    unfold compressEnd at ends
    refine ⟨fun room => ?_, fun full => ?_⟩
    · rwa [if_pos room] at ends
    · rwa [if_neg (Nat.not_le.mpr full)] at ends
  case empty => rw [empty]; rfl
  case nonempty =>
    obtain ⟨tr, tree, _⟩ := buildTree_spec nonempty
    exact ⟨tr, tree, compressed_of_buildTree nonempty tree⟩
end

section
/-! SUPPORT. DECOMPRESS inverts COMPRESS as a function (R142): the tree is parsed back, the bits are unpacked,
and the walk of a code emits its symbol. -/

namespace Sys2Proof.Machine

/-- `unpack` inverts `pack` (R254, R256). -/
theorem unpack_pack_bits (c : List Bool) : unpack (pack c) c.length = c := by
  refine List.ext_getElem (unpack_length _ _) fun i hi _ => ?_
  rw [unpack_length] at hi
  have within := (ceil8_bounds c.length).1
  have byte : (pack c).getD (i / 8) 0#8 = packByte c (i / 8) := by
    rw [List.getD_eq_getElem?_getD, pack, List.getElem?_map, List.getElem?_range (by omega)]
    rfl
  simp only [unpack, List.getElem_map, List.getElem_range]
  rw [byte, bitOf, packByte_getLsbD _ _ (by omega), show 8 * (i / 8) + (7 - (7 - i % 8)) = i by omega,
    List.getD_eq_getElem _ _ hi]

section
variable {tr root : Tree} {room : Nat} {bytes rest : List Byte}

/-- The walk of a path from the tree it starts at emits the symbol of its leaf and returns to the root. -/
theorem walkTree_path {c : Tree} {cur : Option Tree} {p : List Bool} {b : Byte} (here : cur.getD root = c)
    (path : (p, b) ∈ leaves c []) (nonempty : p ≠ []) :
    walkTree root (room + 1) cur p = .ok ([b], none) := by
  induction c generalizing cur p with
  | leaf x =>
    rw [leaves, List.mem_singleton] at path
    cases path
    exact absurd rfl nonempty
  | node l r ihl ihr =>
    have step (bit : Bool) (q : List Bool) (hq : (q, b) ∈ leaves (if bit then r else l) [])
        (ih : ∀ {cur : Option Tree} {p : List Bool}, cur.getD root = (if bit then r else l) →
          (p, b) ∈ leaves (if bit then r else l) [] → p ≠ [] →
          walkTree root (room + 1) cur p = .ok ([b], none)) :
        walkTree root (room + 1) cur (bit :: q) = .ok ([b], none) := by
      simp only [walkTree, here]
      generalize (if bit then r else l) = child at hq ih
      cases child with
      | leaf x =>
        rw [leaves, List.mem_singleton] at hq
        cases hq
        rfl
      | node l' r' => exact ih rfl hq (leaves_path_ne_nil hq)
    simp only [leaves, List.nil_append, List.mem_append] at path
    rw [leaves_path l [false], leaves_path r [true]] at path
    rcases path with path | path
    · obtain ⟨⟨q, x⟩, hq, e⟩ := List.mem_map.mp path
      cases e
      exact step false q hq ihl
    · obtain ⟨⟨q, x⟩, hq, e⟩ := List.mem_map.mp path
      cases e
      exact step true q hq ihr

/-- The walk of the payload emits the input (R296, R273). -/
theorem walkTree_payloadBits (two : 2 ≤ leafCount tr) (symbols : ∀ b ∈ bytes, b ∈ treeSymbols tr)
    (fits : bytes.length ≤ room) : walkTree tr room none (payloadBits tr bytes) = .ok (bytes, none) := by
  obtain ⟨l, r, rfl⟩ := internal_of_two_leaves two
  induction bytes generalizing room with
  | nil => rfl
  | cons b bytes ih =>
    obtain ⟨room, rfl⟩ : ∃ k, room = k + 1 := ⟨room - 1, by rw [List.length_cons] at fits; omega⟩
    obtain ⟨e, he, own⟩ := List.mem_map.mp (symbols b List.mem_cons_self)
    have leaf : (e.1, b) ∈ leaves (.node l r) [] := own ▸ he
    obtain ⟨p, hp⟩ := Option.isSome_iff_exists.mp (codeFor_isSome leaf)
    have path := codeFor_mem hp
    have split : payloadBits (.node l r) (b :: bytes) = p ++ payloadBits (.node l r) bytes := by
      rw [payloadBits, List.flatMap_cons, hp]
      rfl
    have rest := ih (room := room) (Nat.le_of_succ_le_succ fits)
      fun b hb => symbols b (List.mem_cons_of_mem _ hb)
    rw [split, walkTree_append, walkTree_path rfl path (leaves_path_ne_nil path)]
    simp only [Except.bind, List.length_singleton, Nat.add_sub_cancel]
    rw [rest]
    rfl

theorem tokBranch_ne_tokEmpty : Config.tokBranch ≠ Config.tokEmpty := by decide

/-- Behind an Internal root `decompressed` parses the tree (R291). -/
theorem decompressed_of_tree (two : 2 ≤ leafCount tr) (few : leafCount tr ≤ Config.leafMax)
    (rest : List Byte) :
    decompressed room (serialize tr ++ rest) = decodeTail room tr rest := by
  have nodes := nodeCount_eq tr
  have parses := parseTree_serialize (fuel := (serialize tr ++ rest).length) (nn := 0) tr rest
    (by rw [List.length_append]; omega) (by simp only [Config.leafMax, Config.nodeCap] at *; omega)
  obtain ⟨l, r, rfl⟩ := internal_of_two_leaves two
  simp only [serialize, List.cons_append] at parses ⊢
  simp only [decompressed, if_neg tokBranch_ne_tokEmpty]
  rw [parses]

/-- The delimiter and the length field before a payload (R293 to R295). -/
theorem decodeTail_header (n : BitVec 64) (payload : List Byte) :
    decodeTail room tr (Config.delim :: (be64 n ++ payload)) =
      if payload.length ≠ ceil8 n.toNat then .error .lenMismatch
      else walkOut tr room (unpack payload n.toNat) := by
  have eight : (be64 n).length = Config.bitlenBytes := rfl
  have long : ¬ (be64 n ++ payload).length < Config.bitlenBytes := by
    rw [List.length_append, eight]
    exact Nat.not_lt.mpr (Nat.le_add_right _ _)
  simp only [decodeTail, ne_eq, not_true_eq_false, if_false, if_neg long]
  rw [List.take_left' eight, List.drop_left' eight, beValue_be64]

/-- DECOMPRESS inverts COMPRESS (R142). -/
theorem decompressed_compressed (short : bytes.length < 2 ^ 32) (fits : bytes.length ≤ room) :
    decompressed room (compressed bytes) = .ok bytes := by
  by_cases empty : bytes = []
  · rw [empty]
    rfl
  obtain ⟨tr, tree, symbols, two, few⟩ := buildTree_spec empty
  have bits := bitlen_toNat few short
  rw [compressed_of_buildTree empty tree, artifactOf_eq, decompressed_of_tree two few, decodeTail_header,
    bits, if_neg (not_not_intro (pack_length _)), unpack_pack_bits, walkOut,
    walkTree_payloadBits two symbols fits]

end

end Sys2Proof.Machine

open Sys2Proof Sys2Proof.Machine

/-- Settles O57: COMPRESS ends with `compressed`, and DECOMPRESS of it as `decompressed`, its inverse. -/
theorem roundTripRestoresTheInput : Obligations.RoundTripRestoresTheInput := by
  unfold Obligations.RoundTripRestoresTheInput
  intro s started fits room
  have ends := started.compress_ends fits
  rw [compressEnd, if_pos room] at ends
  refine ⟨compressed (input s), ends, fun s2 started2 same fits2 room2 => ?_⟩
  obtain ⟨begun, script⟩ := started2
  have ends2 := begun.decompress_ends (items := false) fits2 ⟨script, Nat.le_refl 9⟩
  have short : (input s).length < 2 ^ 32 := by
    rw [input_length]
    exact s.inLen.isLt
  rwa [same, decompressed_compressed short room2] at ends2
end

section
/-! SUPPORT. A command that has ended stays as it is, so it has one result; and what DECOMPRESS answers on
a truncated artifact (R143). -/

namespace Sys2Proof.Machine

/-! ### One end -/

theorem steps_ended {s : State} (idle : s.st ≠ .busy) (script : s.script = []) (n : Nat) :
    steps n s = .next s := by
  induction n with
  | zero => rfl
  | succ n ih =>
    rw [steps, step_ended idle script]
    exact ih

/-- In a run of the core a command that has ended has no turn left. -/
theorem Started.script_of_ended {c : BitVec 2} {s t : State} {m : Nat} (h : Started c s)
    (run : steps m s = .next t) (idle : t.st ≠ .busy) : t.script = [] := by
  have agree := steps_agree m (h.agree h rfl rfl rfl rfl)
  rw [run] at agree
  cases agree.agree with
  | running p hs ht live => exact absurd live.sameJob.busy idle
  | ended e => exact e.script

/-- A command ends in one state. -/
theorem Started.ended_unique {c : BitVec 2} {s t u : State} {m n : Nat} (h : Started c s)
    (runT : steps m s = .next t) (idleT : t.st ≠ .busy) (runU : steps n s = .next u)
    (idleU : u.st ≠ .busy) : t = u := by
  have stayT := steps_ended idleT (h.script_of_ended runT idleT)
  have stayU := steps_ended idleU (h.script_of_ended runU idleU)
  have both := steps_add m n s t runT
  rw [Nat.add_comm, steps_add n m s u runU, stayT, stayU] at both
  exact (Host.Outcome.next.inj both).symm

/-- A command seen in DONE has ended as its input decides. -/
theorem Started.result_of_done {c : BitVec 2} {s t : State} {m n : Nat} {r : Except ErrInfo (List Byte)}
    (h : Started c s) (ends : Ends n s r) (run : steps m s = .next t) (done : t.st = .done) :
    r = .ok (result t) := by
  have idle : t.st ≠ .busy := by simp [done]
  cases r with
  | ok out =>
    obtain ⟨k, _, u, runU, st, _, _, _, res⟩ := ends
    rw [h.ended_unique run idle runU (by simp [st]), res]
  | error e =>
    obtain ⟨k, _, u, runU, st, _⟩ := ends
    rw [h.ended_unique run idle runU (by simp [st]), st] at done
    cases done

/-! ### Truncated artifacts -/

section
variable {tr : Tree} {room n : Nat} {bytes : List Byte}

/-- Within the tree the input is exhausted. -/
theorem decompressed_within_tree (two : 2 ≤ leafCount tr) (few : leafCount tr ≤ Config.leafMax)
    (within : n < (serialize tr).length) :
    decompressed room ((serialize tr).take n) = .error .truncated := by
  have nodes := nodeCount_eq tr
  have proper : (serialize tr).take n ≠ serialize tr := fun e => by
    have := congrArg List.length e
    rw [List.length_take_of_le (Nat.le_of_lt within)] at this
    exact Nat.ne_of_lt within this
  have parses := parseTree_prefix (nn := 0) (List.take_prefix n (serialize tr)) proper (Nat.le_refl _)
    (by simp only [Config.leafMax, Config.nodeCap] at *; omega)
  cases n with
  | zero => rfl
  | succ n =>
    obtain ⟨l, r, rfl⟩ := internal_of_two_leaves two
    simp only [serialize, List.take_succ_cons] at parses ⊢
    simp only [decompressed, if_neg tokBranch_ne_tokEmpty]
    rw [parses]

/-- The payload of a non-empty input is not empty (R177). -/
theorem payloadBits_length_pos (two : 2 ≤ leafCount tr) (symbols : ∀ b ∈ bytes, b ∈ treeSymbols tr)
    (nonempty : bytes ≠ []) : 1 ≤ (payloadBits tr bytes).length := by
  obtain ⟨l, r, rfl⟩ := internal_of_two_leaves two
  obtain ⟨b, hb⟩ := List.exists_mem_of_ne_nil bytes nonempty
  obtain ⟨e, he, own⟩ := List.mem_map.mp (symbols b hb)
  have leaf : (e.1, b) ∈ leaves (.node l r) [] := own ▸ he
  obtain ⟨p, hp⟩ := Option.isSome_iff_exists.mp (codeFor_isSome leaf)
  have bits := leaves_path_ne_nil (codeFor_mem hp)
  refine List.length_pos_iff.mpr fun none => ?_
  have := List.flatMap_eq_nil_iff.mp none b hb
  rw [hp] at this
  exact bits this

/-- The error of an artifact cut to `n` bytes whose tree has `size` bytes (R143). -/
def cutError (size n : Nat) : ErrInfo :=
  if n < size then .truncated
  else if n = size then .noDelim
  else if n < size + 9 then .noLength
  else .lenMismatch

/-- DECOMPRESS rejects every truncated artifact, by the part it ends in (R143). -/
theorem decompressed_take (two : 2 ≤ leafCount tr) (few : leafCount tr ≤ Config.leafMax)
    (short : bytes.length < 2 ^ 32) (proper : n < (artifactOf tr bytes).length) :
    decompressed room ((artifactOf tr bytes).take n) = .error (cutError (serialize tr).length n) := by
  rw [artifactOf_length] at proper
  rw [artifactOf_eq]
  obtain ⟨field, hfield⟩ : ∃ f, f = be64 (BitVec.ofNat 64 (payloadBits tr bytes).length) := ⟨_, rfl⟩
  rw [← hfield]
  have eight : field.length = 8 := hfield ▸ be64_length _
  unfold cutError
  split
  next within =>
    rw [List.take_append_of_le_length (Nat.le_of_lt within)]
    exact decompressed_within_tree two few within
  next beyond =>
    obtain ⟨k, rfl⟩ := Nat.exists_eq_add_of_le (Nat.le_of_not_lt beyond)
    rw [List.take_length_add_append, decompressed_of_tree two few]
    cases k with
    | zero => rw [if_pos (Nat.add_zero _)]; rfl
    | succ k =>
      rw [if_neg (by omega), List.take_succ_cons]
      split
      next noLength =>
        have few : ((field ++ pack (payloadBits tr bytes)).take k).length < Config.bitlenBytes :=
          Nat.lt_of_le_of_lt (List.length_take_le _ _) (by simp only [Config.bitlenBytes]; omega)
        simp only [decodeTail, ne_eq, not_true_eq_false, if_false, if_pos few]
      next long =>
        obtain ⟨k, rfl⟩ : ∃ j, k = field.length + j := ⟨k - 8, by omega⟩
        rw [List.take_length_add_append, hfield, decodeTail_header, bitlen_toNat few short, if_pos]
        rw [List.length_take_of_le (by rw [pack_length]; omega)]
        omega

end

end Sys2Proof.Machine

open Sys2Proof Sys2Proof.Machine

/-- Settles O58: the result is the artifact, and cut short it fails in the part it ends in. -/
theorem truncatedArtifactsAreRejected : Obligations.TruncatedArtifactsAreRejected := by
  unfold Obligations.TruncatedArtifactsAreRejected
  intro s t s2 m n started run done proper started2 cut fits2
  have fits : s.inLen.toNat ≤ s.ibufCap.toNat := by
    by_contra long
    obtain ⟨inRange, _⟩ := compressComputesTheArtifact s started
    have ends : Ends 11 s (.error .inRange) := inRange (Nat.lt_of_not_le long)
    cases started.result_of_done ends run done
  have whole : result t = compressed (input s) := by
    have ends := started.result_of_done (started.compress_ends fits) run done
    unfold compressEnd at ends
    split at ends
    next => exact (Except.ok.inj ends).symm
    next => cases ends
  obtain ⟨begun, script⟩ := started2
  have ends2 := begun.decompress_ends (items := false) fits2 ⟨script, Nat.le_refl 9⟩
  rw [cut] at ends2
  refine ⟨fun empty => ?empty, fun tr nonempty tree => ?nonempty⟩
  case empty =>
    have token : result t = [Config.tokEmpty] := by rw [whole, empty]; rfl
    have none : n = 0 := by simpa [token] using proper
    rw [none, List.take_zero] at ends2
    exact ends2
  case nonempty =>
    obtain ⟨tr', tree', symbols, two, few⟩ := buildTree_spec nonempty
    cases tree.symm.trans tree'
    have short : (input s).length < 2 ^ 32 := by
      rw [input_length]
      exact s.inLen.isLt
    rw [whole, compressed_of_buildTree nonempty tree] at proper ends2 ⊢
    rw [decompressed_take two few short proper] at ends2
    refine ⟨ends2, ?_⟩
    have some := payloadBits_length_pos two symbols nonempty
    have bounds := ceil8_bounds (payloadBits tr (input s)).length
    rw [artifactOf_length]
    omega
end

section
/-! SUPPORT. FCOUNT from every state counts the bytes of the input (R161, R162). -/

namespace Sys2Proof.Machine

/-- The counts of all byte values sum to the number of bytes (R162). -/
theorem occurrences_sum (bytes : List Byte) :
    ((List.range Config.alphaMax).map (occurrences bytes)).sum = bytes.length := by
  simpa using sum_occurrences (fun _ => 1) bytes

/-- FCOUNT in every state: the counts of the input in FREQ, their alphabet size in K, IPOS at the end. -/
theorem execPFcount_counts (s : State) :
    ∃ u, exec .pFcount s = .next u ∧ (∀ i, freqAt u i = occurrences (input s) i) ∧
      u.k.toNat = alphabetSize u ∧ u.ipos = s.inLen ∧
      u = { s with freq := u.freq, k := u.k, ipos := u.ipos, phase := .hinit } := by
  have counted (i : Nat) := freqAt_countBytes (input s) { s with freq := [], ipos := 0#32 } i
  have size := alphabetSize_toNat ((input s).foldl countByte { s with freq := [], ipos := 0#32 })
  have start (i : Nat) : freqAt { s with freq := [], ipos := 0#32 } i = 0 := rfl
  simp only [start, Nat.zero_add] at counted
  obtain ⟨freq, frame⟩ := countByte_foldl_frame (input s) { s with freq := [], ipos := 0#32 }
  refine ⟨_, rfl, counted, size, ?ipos, ?frame⟩
  case ipos => simp [frame]
  case frame => rw [frame]

end Sys2Proof.Machine

open Sys2Proof Sys2Proof.Machine

/-- Settles O23: the loop adds each byte to its count, and the counts sum to the number of bytes read. -/
theorem fcountCountsEveryByte : Obligations.FcountCountsEveryByte := by
  unfold Obligations.FcountCountsEveryByte
  intro s
  obtain ⟨u, run, counted, size, ipos, frame⟩ := execPFcount_counts s
  refine ⟨u, run, fun i _ => counted i, ?sum, ?alphabet, ipos, frame⟩
  case sum =>
    rw [funext counted, ← input_length s]
    exact occurrences_sum (input s)
  case alphabet =>
    rw [size, alphabetSize, List.countP_eq_length_filter, Config.alphaMax]
end

section
/-! SUPPORT. The queue's operations as R172 states them, the leaves HINIT makes and enqueues (R173), and what
HMERGE (R175) and HWRAP (R177) leave in every state. -/

namespace Sys2Proof.Machine

/-! ### The queue -/

/-- The arena indexes below `n`, in ascending order. -/
def indexesBelow (n : Nat) : List Index := (List.range n).map (BitVec.ofNat 9)

theorem indexesBelow_succ (n : Nat) : indexesBelow (n + 1) = indexesBelow n ++ [BitVec.ofNat 9 n] := by
  simp [indexesBelow, List.range_succ]

theorem indexesBelow_length (n : Nat) : (indexesBelow n).length = n := by simp [indexesBelow]

theorem lt_of_mem_indexesBelow {n : Nat} {x : Index} (h : x ∈ indexesBelow n) : x.toNat < n := by
  obtain ⟨i, hi, rfl⟩ := List.mem_map.mp h
  rw [BitVec.toNat_ofNat]
  exact (Nat.mod_le i _).trans_lt (List.mem_range.mp hi)

theorem mem_indexesBelow {n : Nat} {x : Index} : x ∈ indexesBelow n ↔ x.toNat < n :=
  ⟨lt_of_mem_indexesBelow, fun h => List.mem_map.mpr ⟨x.toNat, List.mem_range.mpr h, by simp⟩⟩

theorem indexesBelow_nodup {n : Nat} (h : n ≤ 512) : (indexesBelow n).Nodup := by
  refine List.nodup_range.map_on fun i hi j hj e => ?_
  have same := congrArg BitVec.toNat e
  simp only [List.mem_range, BitVec.toNat_ofNat] at hi hj same
  omega

theorem map_indexesBelow {α : Type} {n : Nat} (h : n ≤ 512) (f : Nat → α) :
    (indexesBelow n).map (fun x => f x.toNat) = (List.range n).map f := by
  rw [indexesBelow, List.map_map]
  refine List.map_congr_left fun i hi => congrArg f ?_
  rw [BitVec.toNat_ofNat]
  exact Nat.mod_eq_of_lt ((List.mem_range.mp hi).trans_le h)

/-- `extract_min` of a heap without repeats: the element taken is less than every other one (R172). -/
theorem heapExtract_less {arena : Table Node} {h rest : List Index} {m : Index}
    (isHeap : IsHeap (less arena) h) (nodup : h.Nodup)
    (taken : heapExtract (less arena) h = some (m, rest)) :
    m ∉ rest ∧ rest.Nodup ∧ ∀ q ∈ h, q ≠ m → less arena m q = true := by
  have perm := heapExtract_perm _ _ _ _ taken
  obtain ⟨fresh, nodup⟩ := List.nodup_cons.mp (perm.nodup_iff.mp nodup)
  refine ⟨fresh, nodup, fun q hq ne => (less_total arena q m ne).resolve_left ?_⟩
  rw [heapExtract_least (less_heapOrder arena) (less_irrefl arena) isHeap taken q hq]
  exact Bool.false_ne_true

/-- `insert` under an arena in which only entries from `n` on have changed. -/
theorem heapInsert_isHeap_of_kept {a b : Table Node} {n : Nat} {h : List Index} (x : Index)
    (isHeap : IsHeap (less a) h) (below : ∀ y ∈ h, y.toNat < n)
    (same : ∀ i, i < n → nodeAt b i = nodeAt a i) : IsHeap (less b) (heapInsert (less b) x h) :=
  heapInsert_isHeap (less_heapOrder b) x
    (isHeap.congr (less_agrees (fun i hi => by rw [same i hi]) below))

/-! ### HINIT -/

/-- The symbols below `n` with FREQ > 0, in ascending order. -/
def presentBelow (s : State) (n : Nat) : List Nat :=
  (List.range n).filter (fun i => decide (0 < freqAt s i))

theorem presentBelow_length_le (s : State) (n : Nat) : (presentBelow s n).length ≤ n := by
  simpa [presentBelow] using List.length_filter_le (fun i => decide (0 < freqAt s i)) (List.range n)

theorem presentBelow_succ_present {s : State} {n : Nat} (h : 0 < freqAt s n) :
    presentBelow s (n + 1) = presentBelow s n ++ [n] := by
  simp [presentBelow, List.range_succ, h]

theorem presentBelow_succ_absent {s : State} {n : Nat} (h : freqAt s n = 0) :
    presentBelow s (n + 1) = presentBelow s n := by
  simp [presentBelow, List.range_succ, h]

/-- HINIT, begun in `s`, after its first `n` symbols (R173). -/
structure LeavesMade (s : State) (n : Nat) (u : State) : Prop where
  freq : u.freq = s.freq
  nn : u.nn.toNat = (presentBelow s n).length
  made : ∀ j, j < (presentBelow s n).length →
    (nodeAt u.arena j).kind = .leaf ∧
    (nodeAt u.arena j).sym = BitVec.ofNat 8 ((presentBelow s n).getD j 0) ∧
    (nodeAt u.arena j).w = freqAt s ((presentBelow s n).getD j 0)
  kept : ∀ j, (presentBelow s n).length ≤ j → nodeAt u.arena j = nodeAt s.arena j
  queue : u.heap.Perm (indexesBelow u.nn.toNat)
  isHeap : IsHeap (less u.arena) u.heap

theorem LeavesMade.start (s : State) : LeavesMade s 0 { s with nn := 0#10, heap := [] } where
  freq := rfl
  nn := rfl
  made := nofun
  kept := fun _ _ => rfl
  queue := .refl _
  isHeap := fun k _ kl => absurd kl (Nat.not_lt_zero k)

/-- One round of HINIT: a symbol that occurs becomes the leaf at NN. -/
theorem LeavesMade.hinitSymbol {s u : State} {n : Nat} (h : LeavesMade s n u) (hn : n < Config.alphaMax) :
    LeavesMade s (n + 1) (hinitSymbol u n) := by
  have count : freqAt u n = freqAt s n := by rw [freqAt, h.freq, freqAt]
  by_cases present : 0 < freqAt s n
  case neg =>
    have absent : freqAt s n = 0 := by omega
    rw [hinitSymbol_absent u n (count.trans absent)]
    have same := presentBelow_succ_absent absent
    exact { h with nn := same ▸ h.nn, made := same ▸ h.made, kept := same ▸ h.kept }
  case pos =>
    have room : u.nn.toNat ≤ Config.nodeCap := by
      have := presentBelow_length_le s n
      rw [h.nn]
      simp only [Config.alphaMax, Config.nodeCap] at *
      omega
    have next := nn_succ u room
    have index := nextIndex_toNat u room
    have length : (presentBelow s (n + 1)).length = u.nn.toNat + 1 := by
      rw [presentBelow_succ_present present, List.length_append, List.length_singleton, h.nn]
    obtain ⟨arena, heap, e, kind, sym, w, other, rfl⟩ := hinitSymbol_present u n (count ▸ present)
    rw [index] at kind sym w other
    rw [e]
    refine ⟨h.freq, next.trans length.symm, fun j hj => ?made, fun j hj => ?kept, ?queue, ?isHeap⟩
    case made =>
      rw [length] at hj
      rw [presentBelow_succ_present present]
      by_cases last : j = u.nn.toNat
      · rw [last, kind, sym, w, count, h.nn]
        simp
      · have old : j < (presentBelow s n).length := by rw [← h.nn]; omega
        rw [List.getD_append _ _ _ _ old]
        simp only [other j last]
        exact h.made j old
    case kept =>
      rw [length] at hj
      simp only [other j (by omega)]
      exact h.kept j (by rw [← h.nn]; omega)
    case queue =>
      have new : nextIndex u = BitVec.ofNat 9 u.nn.toNat := by rw [← index]; simp
      simp only [next, indexesBelow_succ]
      rw [← new]
      exact (heapInsert_perm _ _ _).trans ((h.queue.cons _).trans (List.perm_append_comm (l₁ := [_])))
    case isHeap =>
      exact heapInsert_isHeap_of_kept _ h.isHeap
        (fun y hy => lt_of_mem_indexesBelow (h.queue.mem_iff.mp hy)) fun i hi => other i (by omega)

theorem LeavesMade.hinitSymbols (s : State) {n : Nat} (hn : n ≤ Config.alphaMax) :
    LeavesMade s n ((List.range n).foldl Machine.hinitSymbol { s with nn := 0#10, heap := [] }) := by
  induction n with
  | zero => exact .start s
  | succ n ih =>
    rw [List.range_succ, List.foldl_append]
    exact (ih (Nat.le_of_lt hn)).hinitSymbol hn

end Sys2Proof.Machine

open Sys2Proof Sys2Proof.Machine

/-- Settles O24: the loop's invariant after all 256 symbols. -/
theorem hinitEnqueuesTheLeaves : Obligations.HinitEnqueuesTheLeaves := by
  unfold Obligations.HinitEnqueuesTheLeaves
  intro s
  have done := LeavesMade.hinitSymbols s (Nat.le_refl Config.alphaMax)
  obtain ⟨arena, nn, heap, frame⟩ :=
    hinitSymbol_foldl_frame (List.range Config.alphaMax) { s with nn := 0#10, heap := [] }
  refine ⟨_, rfl, ?_⟩
  rw [frame] at done ⊢
  exact ⟨done.nn, done.made, done.kept, done.queue, done.isHeap, rfl, rfl⟩

/-- Settles O25: `insert` and `extract_min` permute and keep the property, and the order is total. -/
theorem heapKeepsThePriorityQueue : Obligations.HeapKeepsThePriorityQueue := by
  unfold Obligations.HeapKeepsThePriorityQueue
  intro arena h isHeap nodup
  have order := less_heapOrder arena
  refine ⟨fun n _ => ⟨heapInsert_isHeap order n isHeap, heapInsert_perm _ n h⟩, fun nonempty => ?_⟩
  obtain ⟨⟨m, rest⟩, taken⟩ := Option.isSome_iff_exists.mp ((heapExtract_isSome (less arena) h).mpr nonempty)
  obtain ⟨_, _, least⟩ := heapExtract_less isHeap nodup taken
  exact ⟨m, rest, taken, least, heapExtract_perm _ _ _ _ taken, heapExtract_isHeap order isHeap taken⟩

/-- Settles O26: the loop leaves at most one entry, which becomes ROOT. -/
theorem hmergeEmptiesTheQueue : Obligations.HmergeEmptiesTheQueue := by
  unfold Obligations.HmergeEmptiesTheQueue
  intro s
  obtain ⟨arena, nn, heap, frame, count, length, kept⟩ := mergeLoop_spec s.heap.length s (Nat.le_succ _)
  refine ⟨_, rfl, ?_⟩
  rw [frame]
  cases heap with
  | nil =>
    rw [takeRoot_empty _ rfl]
    have empty : s.heap = [] := List.length_eq_zero_iff.mp (by rw [List.length_nil] at length; omega)
    exact ⟨rfl, count, fun i fits => kept fits i, fun nonempty => absurd empty nonempty, rfl⟩
  | cons m rest =>
    have alone : rest = [] := List.length_eq_zero_iff.mp (by rw [List.length_cons] at length; omega)
    rw [takeRoot_one _ m (by rw [alone])]
    exact ⟨rfl, count, fun i fits => kept fits i, fun _ => rfl, rfl⟩

/-- Settles O28: the entries by the two writes, the tree from its three entries. -/
theorem hwrapWrapsTheSoleLeaf : Obligations.HwrapWrapsTheSoleLeaf := by
  unfold Obligations.HwrapWrapsTheSoleLeaf
  intro s
  refine ⟨_, rfl, ?_, ?_, ?_, ?_, ?_, ?_, ?_, fun i one two => ?other, rfl, fun leaf => ?tree,
    fun x => ?code⟩
  case other => rw [nodeAt_put_other _ _ _ _ two, nodeAt_put_other _ _ _ _ one]
  case tree =>
    refine treeOf_internal (by simp [nodeAt_put]) ?_ ?_
    · simp [treeOf, Config.depthMax, nodeAt_put, leaf]
    · simp [treeOf, Config.depthMax, nodeAt_put]
  case code => simp [codeFor, leaves]
  all_goals simp [nodeAt_put]
end

section
/-! SUPPORT. HMERGE from the state HINIT leaves: every round joins the two least of the queue (R171, R175,
R176). -/

namespace Sys2Proof.Machine

/-- Weights decide the order (R171). -/
theorem less_congr {a b : Table Node} {x y : Index} (hx : nodeAt a x.toNat = nodeAt b x.toNat)
    (hy : nodeAt a y.toNat = nodeAt b y.toNat) : less a x y = less b x y := by
  rw [less, less, hx, hy]

/-- Entry `x` is in the queue when HMERGE, begun with `k` leaves, creates entry `i`: it exists, and no
entry made so far has it as a child. -/
def Queued (k : Nat) (arena : Table Node) (i : Nat) (x : Index) : Prop :=
  x.toNat < i ∧ ∀ j, k ≤ j → j < i → x ≠ (nodeAt arena j).left ∧ x ≠ (nodeAt arena j).right

/-- Entry `i` joins the two least entries of the queue, the lesser on the left (R175). -/
structure GreedyRound (k : Nat) (arena : Table Node) (i : Nat) : Prop where
  kind : (nodeAt arena i).kind = .internal
  left : Queued k arena i (nodeAt arena i).left
  right : Queued k arena i (nodeAt arena i).right
  ordered : less arena (nodeAt arena i).left (nodeAt arena i).right = true
  least : ∀ x, Queued k arena i x → x ≠ (nodeAt arena i).left → x ≠ (nodeAt arena i).right →
    less arena (nodeAt arena i).right x = true
  weight : (nodeAt arena i).w =
    (nodeAt arena (nodeAt arena i).left.toNat).w + (nodeAt arena (nodeAt arena i).right.toNat).w

section
variable {k i : Nat} {a b : Table Node}

/-- With no entry made yet every leaf is in the queue. -/
theorem queued_start {x : Index} : Queued k a k x ↔ x.toNat < k :=
  ⟨And.left, fun h => ⟨h, fun _ le lt => absurd le (Nat.not_le.mpr lt)⟩⟩

theorem Queued.congr {x : Index} (h : Queued k a i x) (same : ∀ j, j < i → nodeAt b j = nodeAt a j) :
    Queued k b i x := by
  refine ⟨h.1, fun j le lt => ?_⟩
  rw [same j lt]
  exact h.2 j le lt

theorem queued_congr {x : Index} (same : ∀ j, j < i → nodeAt b j = nodeAt a j) :
    Queued k b i x ↔ Queued k a i x :=
  ⟨fun h => h.congr fun j lt => (same j lt).symm, fun h => h.congr same⟩

/-- A round depends on no later entry. -/
theorem GreedyRound.congr (h : GreedyRound k a i) (same : ∀ j, j ≤ i → nodeAt b j = nodeAt a j) :
    GreedyRound k b i := by
  have queue (x : Index) : Queued k b i x ↔ Queued k a i x := queued_congr fun j lt => same j (Nat.le_of_lt lt)
  have old {x : Index} (hx : Queued k a i x) : nodeAt b x.toNat = nodeAt a x.toNat :=
    same _ (Nat.le_of_lt hx.1)
  constructor <;> rw [same i (Nat.le_refl i)]
  · exact h.kind
  · exact (queue _).mpr h.left
  · exact (queue _).mpr h.right
  · rw [less_congr (old h.left) (old h.right)]
    exact h.ordered
  · intro x hx nl nr
    have hx := (queue x).mp hx
    rw [less_congr (old h.right) (old hx)]
    exact h.least x hx nl nr
  · rw [old h.left, old h.right]
    exact h.weight

/-- An entry that joins the first two elements of the queue `l :: r :: rest`, where they are its least. -/
theorem GreedyRound.of_queue {l r : Index} {rest : List Index}
    (queue : ∀ x, Queued k a i x ↔ x ∈ l :: r :: rest) (same : ∀ j, j < i → nodeAt b j = nodeAt a j)
    (kind : (nodeAt b i).kind = .internal) (left : (nodeAt b i).left = l) (right : (nodeAt b i).right = r)
    (weight : (nodeAt b i).w = (nodeAt b l.toNat).w + (nodeAt b r.toNat).w)
    (ordered : less a l r = true) (least : ∀ x ∈ rest, less a r x = true) : GreedyRound k b i := by
  have queued {x : Index} (hx : x ∈ l :: r :: rest) : Queued k b i x := ((queue x).mpr hx).congr same
  have order {x y : Index} (hx : x ∈ l :: r :: rest) (hy : y ∈ l :: r :: rest) : less b x y = less a x y :=
    less_congr (same _ (queued hx).1) (same _ (queued hy).1)
  have hl : l ∈ l :: r :: rest := by simp
  have hr : r ∈ l :: r :: rest := by simp
  subst left right
  refine ⟨kind, queued hl, queued hr, (order hl hr).trans ordered, fun x hx nl nr => ?_, weight⟩
  have hx := (queue x).mp ((queued_congr same).mp hx)
  exact (order hr hx).trans (least x (by simpa [nl, nr] using hx))

/-- The newest entry is in the queue: children are smaller than their parent. -/
theorem queued_newest (rounds : ∀ j, k ≤ j → j < i + 1 → GreedyRound k a j) {x : Index} (hx : x.toNat = i) :
    Queued k a (i + 1) x := by
  refine ⟨by omega, fun j le lt => ?_⟩
  have left := (rounds j le lt).left.1
  have right := (rounds j le lt).right.1
  constructor <;> rintro rfl <;> omega

/-- Entry `i` takes its children from the queue and enters it. -/
theorem queued_succ (ki : k ≤ i) (rounds : ∀ j, k ≤ j → j < i + 1 → GreedyRound k a j) {x : Index} :
    Queued k a (i + 1) x ↔
      x.toNat = i ∨ Queued k a i x ∧ x ≠ (nodeAt a i).left ∧ x ≠ (nodeAt a i).right := by
  constructor
  · intro ⟨below, notChild⟩
    by_cases newest : x.toNat = i
    · exact .inl newest
    · exact .inr ⟨⟨by omega, fun j le lt => notChild j le (Nat.lt_succ_of_lt lt)⟩,
        notChild i ki (Nat.lt_succ_self i)⟩
  · rintro (newest | ⟨⟨below, notChild⟩, own⟩)
    · exact queued_newest rounds newest
    · refine ⟨Nat.lt_succ_of_lt below, fun j le lt => ?_⟩
      rcases Nat.lt_succ_iff_lt_or_eq.mp lt with lt | rfl
      · exact notChild j le lt
      · exact own

end

/-- The sum of the weights of the entries in `h`. -/
def totalWeight (arena : Table Node) (h : List Index) : Nat :=
  (h.map fun x => (nodeAt arena x.toNat).w).sum

theorem totalWeight_perm {arena : Table Node} {h h' : List Index} (p : h.Perm h') :
    totalWeight arena h = totalWeight arena h' := (p.map _).sum_eq

@[simp] theorem totalWeight_cons (arena : Table Node) (x : Index) (h : List Index) :
    totalWeight arena (x :: h) = (nodeAt arena x.toNat).w + totalWeight arena h := by
  simp [totalWeight]

theorem totalWeight_congr {a b : Table Node} {h : List Index}
    (same : ∀ x ∈ h, nodeAt b x.toNat = nodeAt a x.toNat) : totalWeight b h = totalWeight a h := by
  rw [totalWeight, totalWeight, List.map_congr_left fun x hx => congrArg Node.w (same x hx)]

/-- HMERGE, begun with `k` leaves of the total weight `total`, between two rounds. -/
structure Merging (k total : Nat) (s : State) : Prop where
  isHeap : IsHeap (less s.arena) s.heap
  nodup : s.heap.Nodup
  size : s.nn.toNat + s.heap.length = 2 * k
  begun : k ≤ s.nn.toNat
  rounds : ∀ i, k ≤ i → i < s.nn.toNat → GreedyRound k s.arena i
  queued : ∀ x, x ∈ s.heap ↔ Queued k s.arena s.nn.toNat x
  total : totalWeight s.arena s.heap = total

theorem Merging.start {s : State} (few : s.nn.toNat ≤ Config.alphaMax)
    (queue : s.heap.Perm (indexesBelow s.nn.toNat)) (isHeap : IsHeap (less s.arena) s.heap) :
    Merging s.nn.toNat (totalWeight s.arena (indexesBelow s.nn.toNat)) s where
  isHeap := isHeap
  nodup := queue.nodup_iff.mpr (indexesBelow_nodup (few.trans (by decide)))
  size := by
    have := queue.length_eq
    rw [indexesBelow_length] at this
    omega
  begun := Nat.le_refl _
  rounds := fun i le lt => absurd le (Nat.not_le.mpr lt)
  queued := fun x => by rw [queue.mem_iff, mem_indexesBelow, queued_start]
  total := totalWeight_perm queue

/-- The two elements a round takes are the two least of the queue (R172). -/
theorem heapExtract_two {arena : Table Node} {h h1 h2 : List Index} {a b : Index}
    (isHeap : IsHeap (less arena) h) (nodup : h.Nodup) (e1 : heapExtract (less arena) h = some (a, h1))
    (e2 : heapExtract (less arena) h1 = some (b, h2)) :
    h.Perm (a :: b :: h2) ∧ IsHeap (less arena) h2 ∧ less arena a b = true ∧
      ∀ x ∈ h2, less arena b x = true := by
  have order := less_heapOrder arena
  have p1 := heapExtract_perm _ _ _ _ e1
  have p2 := heapExtract_perm _ _ _ _ e2
  have heap1 := heapExtract_isHeap order isHeap e1
  obtain ⟨fresh1, nodup1, least1⟩ := heapExtract_less isHeap nodup e1
  obtain ⟨fresh2, _, least2⟩ := heapExtract_less heap1 nodup1 e2
  have hb : b ∈ h1 := p2.mem_iff.mpr List.mem_cons_self
  refine ⟨p1.trans (p2.cons a), heapExtract_isHeap order heap1 e2, ?_, fun x hx => ?_⟩
  · exact least1 b (p1.mem_iff.mpr (List.mem_cons_of_mem a hb)) (ne_of_mem_of_not_mem hb fresh1)
  · exact least2 x (p2.mem_iff.mpr (List.mem_cons_of_mem b hx)) (ne_of_mem_of_not_mem hx fresh2)

/-- One round of HMERGE: the entry made at NN joins the two least of the queue. -/
theorem Merging.mergeOnce {k total : Nat} {s : State} (h : Merging k total s) (few : k ≤ Config.alphaMax)
    (two : 1 < s.heap.length) : Merging k total (mergeOnce s) := by
  have size := h.size
  have room : s.nn.toNat ≤ Config.nodeCap := by
    simp only [Config.alphaMax, Config.nodeCap] at *
    omega
  have next := nn_succ s room
  have index := nextIndex_toNat s room
  have shorter := mergeOnce_length s two
  obtain ⟨a, b, h1, h2, arena, heap, e1, e2, e, kind, left, right, w, other, rfl⟩ := mergeOnce_two s two
  rw [index] at kind left right w other
  rw [e] at shorter ⊢
  have same : ∀ i, i < s.nn.toNat → nodeAt arena i = nodeAt s.arena i := fun i hi => other i (Nat.ne_of_lt hi)
  obtain ⟨perm, heap2, ordered, least⟩ := heapExtract_two h.isHeap h.nodup e1 e2
  have inserted := heapInsert_perm (less arena) (nextIndex s) h2
  have queue (x : Index) : Queued k s.arena s.nn.toNat x ↔ x ∈ a :: b :: h2 := by
    rw [← h.queued x, perm.mem_iff]
  have below : ∀ x ∈ a :: b :: h2, x.toNat < s.nn.toNat := fun x hx => ((queue x).mpr hx).1
  have nodup := perm.nodup_iff.mp h.nodup
  have before := totalWeight_perm (arena := s.arena) perm
  simp only [List.nodup_cons, List.mem_cons, not_or] at nodup
  obtain ⟨⟨_, a_fresh⟩, b_fresh, nodup2⟩ := nodup
  simp only [List.forall_mem_cons] at below
  obtain ⟨below_a, below_b, below2⟩ := below
  have round : GreedyRound k arena s.nn.toNat := .of_queue queue same kind left right
    (by rw [w, same _ below_a, same _ below_b]) ordered least
  have rounds : ∀ i, k ≤ i → i < s.nn.toNat + 1 → GreedyRound k arena i := by
    intro i le lt
    rcases Nat.lt_succ_iff_lt_or_eq.mp lt with lt | rfl
    · exact (h.rounds i le lt).congr fun j hj => same j (by omega)
    · exact round
  refine
    { isHeap := heapInsert_isHeap_of_kept _ heap2 below2 same
      nodup := inserted.nodup_iff.mpr (List.nodup_cons.mpr ⟨fun hx => ?new, nodup2⟩)
      size := ?size
      begun := h.begun.trans (next ▸ Nat.le_succ _)
      rounds := fun i le lt => rounds i le (next ▸ lt)
      queued := fun x => ?queued
      total := ?total }
  case new => exact absurd (below2 _ hx) (by omega)
  case size =>
    rw [next]
    omega
  case queued =>
    simp only [next]
    rw [queued_succ h.begun rounds, queued_congr same, queue, left, right, inserted.mem_iff, List.mem_cons,
      ← BitVec.toNat_inj, index]
    refine or_congr_right ⟨fun hx => ⟨by simp [hx], ?_, ?_⟩, fun ⟨hx, xa, xb⟩ => by simpa [xa, xb] using hx⟩
    · exact ne_of_mem_of_not_mem hx a_fresh
    · exact ne_of_mem_of_not_mem hx b_fresh
  case total =>
    rw [h.total, totalWeight_cons, totalWeight_cons] at before
    rw [totalWeight_perm inserted, totalWeight_cons, index, w,
      totalWeight_congr fun x hx => same _ (below2 x hx)]
    omega

theorem Merging.mergeLoop {k total : Nat} (n : Nat) {s : State} (h : Merging k total s)
    (few : k ≤ Config.alphaMax) : Merging k total (mergeLoop n s) := by
  induction n generalizing s with
  | zero => exact h
  | succ n ih =>
    unfold Machine.mergeLoop
    split
    next two => exact ih (h.mergeOnce few two)
    next => exact h

/-- With one entry left in the queue, it is the last one made, of the total weight (R176). -/
theorem Merging.last {k total : Nat} {s : State} {m : Index} (h : Merging k total s) (two : 2 ≤ k)
    (few : k ≤ Config.alphaMax) (one : s.heap = [m]) :
    s.nn.toNat = 2 * k - 1 ∧ m.toNat = 2 * k - 2 ∧ (nodeAt s.arena m.toNat).w = total := by
  have size := h.size
  rw [one, List.length_singleton] at size
  obtain ⟨i, hi⟩ : ∃ i, s.nn.toNat = i + 1 := ⟨s.nn.toNat - 1, by omega⟩
  have index : (BitVec.ofNat 9 i).toNat = i := by
    simp only [Config.alphaMax] at few
    rw [BitVec.toNat_ofNat]
    omega
  have newest : BitVec.ofNat 9 i ∈ s.heap := by
    rw [h.queued, hi]
    exact queued_newest (fun j le lt => h.rounds j le (hi ▸ lt)) index
  rw [one, List.mem_singleton] at newest
  rw [newest] at index
  exact ⟨by omega, by omega, by simpa [one, totalWeight] using h.total⟩

/-- HMERGE's loop on a queue of leaves leaves one entry, the root of a tree of these leaves (R176). -/
theorem mergeLoop_leaves {s : State} (two : 2 ≤ s.nn.toNat) (few : s.nn.toNat ≤ Config.alphaMax)
    (leaf : ∀ i, i < s.nn.toNat → (nodeAt s.arena i).kind = .leaf)
    (queue : s.heap.Perm (indexesBelow s.nn.toNat)) (isHeap : IsHeap (less s.arena) s.heap) :
    ∃ t m f, (mergeLoop s.heap.length s).heap = [m] ∧
      treeOf (mergeLoop s.heap.length s).arena f m.toNat = some t ∧
      (treeSymbols t).Perm ((List.range s.nn.toNat).map fun i => (nodeAt s.arena i).sym) := by
  have length := queue.length_eq
  rw [indexesBelow_length] at length
  have below (x : Index) (hx : x ∈ s.heap) : x.toNat < s.nn.toNat := mem_indexesBelow.mp (queue.mem_iff.mp hx)
  have start : QueueIs (s.heap.map (entryOf s.arena fun x => .leaf (nodeAt s.arena x.toNat).sym)) s :=
    { isHeap := isHeap
      below := below
      closed := fun i hi => .inl (leaf i hi)
      entries := ⟨_, .refl _, fun x hx => ⟨1, treeOf_leaf (leaf _ (below x hx)) (Nat.le_refl 1)⟩⟩ }
  obtain ⟨t, m, merged, heap, f, tree⟩ := start.mergeLoop s.heap.length (rounds := s.heap.length)
    (by omega) (Nat.le_succ _) (Nat.le_refl _) (by simp only [Config.alphaMax, Config.nodeCap] at *; omega)
  refine ⟨t, m, f, heap, tree, (mergeQueue_symbols merged).trans ?_⟩
  have own (sym : Byte) : treeSymbols (.leaf sym) = [sym] := rfl
  simp only [List.flatMap_map, entryOf, own]
  rw [← List.map_eq_flatMap, ← map_indexesBelow (few.trans (by decide))]
  exact queue.map _

/-- In a tree of two or more leaves each path is shorter than their number and not empty. -/
theorem path_length_of_leafCount {t : Tree} {arena : Table Node} {f i : Nat}
    (tree : treeOf arena f i = some t) (two : 2 ≤ leafCount t) :
    ∀ e ∈ leaves t [], 1 ≤ e.1.length ∧ e.1.length ≤ leafCount t - 1 := by
  intro e he
  have short := treeOf_depth (treeOf_of_leafCount tree (Nat.le_refl _)) e he
  refine ⟨?_, by omega⟩
  cases t with
  | leaf x => simp [leafCount] at two
  | node l r =>
    simp only [leaves, List.nil_append, List.mem_append] at he
    rw [leaves_path l [false], leaves_path r [true]] at he
    simp only [List.mem_map] at he
    rcases he with ⟨d, _, rfl⟩ | ⟨d, _, rfl⟩ <;> simp

end Sys2Proof.Machine

open Sys2Proof Sys2Proof.Machine

/-- Settles O27: the rounds by the invariant of the loop, the tree by the abstract queue. -/
theorem hmergeBuildsAHuffmanTree : Obligations.HmergeBuildsAHuffmanTree := by
  unfold Obligations.HmergeBuildsAHuffmanTree
  intro s two few leaf queue isHeap
  have small : s.nn.toNat ≤ 512 := by omega
  obtain ⟨t, m, f, one, tree, symbols⟩ := mergeLoop_leaves two few leaf queue isHeap
  have merged := (Merging.start few queue isHeap).mergeLoop s.heap.length few
  obtain ⟨nn, root, weight⟩ := merged.last two few one
  have count : leafCount t = s.nn.toNat := by simpa [treeSymbols_length] using symbols.length_eq
  refine ⟨{ takeRoot (mergeLoop s.heap.length s) with phase := .cgen }, t, rfl, ?_⟩
  rw [takeRoot_one _ m one]
  refine ⟨nn, root, fun i le lt => ?rounds, ?tree, symbols, ?depth, ?weight⟩
  case rounds =>
    obtain ⟨kind, left, right, ordered, least, w⟩ := merged.rounds i le lt
    exact ⟨kind, left, right, ordered, least, w⟩
  case tree => exact treeOf_of_leafCount tree (count ▸ few)
  case depth => exact count ▸ path_length_of_leafCount tree (by omega)
  case weight =>
    rw [← map_indexesBelow small]
    exact weight
end

section
/-! SUPPORT. The leaf list of an Internal root (R201): what it says of the paths (R204) and of their Kraft sum
(R208), and the code book that CGEN records of any tree, a Leaf root included (R203, R205). -/

namespace Sys2Proof.Machine

/-- The paths of an Internal root: 0 before the paths of the left subtree, 1 before those of the right. -/
theorem leaves_node (l r : Tree) : leaves (.node l r) [] =
    (leaves l []).map (fun e => (false :: e.1, e.2)) ++ (leaves r []).map (fun e => (true :: e.1, e.2)) := by
  simp only [leaves, List.nil_append]
  rw [leaves_path l [false], leaves_path r [true]]
  rfl

/-- A leaf path that is a prefix of a leaf path is that path: two paths go on into the same subtree while
they agree, and a path ends at a Leaf only. -/
theorem leaf_path_eq_of_prefix {t : Tree} {e f : List Bool × Byte} (he : e ∈ leaves t []) (hf : f ∈ leaves t [])
    (pre : e.1 <+: f.1) : e.1 = f.1 := by
  induction t generalizing e f with
  | leaf x =>
    rw [leaves, List.mem_singleton] at he hf
    rw [he, hf]
  | node l r ihl ihr =>
    simp only [leaves_node, List.mem_append, List.mem_map] at he hf
    rcases he with ⟨d, hd, rfl⟩ | ⟨d, hd, rfl⟩ <;> rcases hf with ⟨g, hg, rfl⟩ | ⟨g, hg, rfl⟩
    all_goals obtain ⟨bit, rest⟩ := List.cons_prefix_cons.mp pre
    · exact congrArg (false :: ·) (ihl hd hg rest)
    · cases bit
    · cases bit
    · exact congrArg (true :: ·) (ihr hd hg rest)

/-- The Kraft sum of a tree at depth `D`: the `2 ^ D` paths of `D` bits, counted by the leaf path each goes
on from (R208). -/
def kraftSum (t : Tree) (D : Nat) : Nat := ((leaves t []).map fun e => 2 ^ (D - e.1.length)).sum

/-- Below an Internal root the paths are one bit shorter, and so is the depth. -/
theorem kraftSum_node (l r : Tree) (D : Nat) :
    kraftSum (.node l r) (D + 1) = kraftSum l D + kraftSum r D := by
  simp [kraftSum, leaves_node, Function.comp_def, Nat.add_sub_add_right]

theorem kraftSum_eq {t : Tree} {D : Nat} (deep : ∀ e ∈ leaves t [], e.1.length ≤ D) : kraftSum t D = 2 ^ D := by
  induction t generalizing D with
  | leaf x => simp [kraftSum, leaves]
  | node l r ihl ihr =>
    simp only [leaves_node, List.forall_mem_append, List.forall_mem_map, List.length_cons] at deep
    obtain ⟨left, right⟩ := deep
    cases D with
    | zero =>
      obtain ⟨e, he⟩ := List.exists_mem_of_ne_nil _ (leaves_ne_nil l [])
      exact absurd (left e he) (Nat.not_succ_le_zero _)
    | succ D =>
      rw [kraftSum_node, ihl fun e he => Nat.le_of_succ_le_succ (left e he),
        ihr fun e he => Nat.le_of_succ_le_succ (right e he), Nat.pow_succ, Nat.mul_two]

/-- The code book of a Leaf root: its symbol has the empty code, the others have none (R202). -/
theorem CodeBook.leaf {x : Byte} {s : State} (zero : ∀ b : Byte, cbLenAt s b.toNat = 0#8) :
    CodeBook (.leaf x) s := by
  have empty (b : Byte) : (codeFor (.leaf x) b).getD [] = [] := by
    cases h : codeFor (.leaf x) b with
    | none => rfl
    | some p => exact congrArg Prod.fst (List.mem_singleton.mp (codeFor_mem h))
  refine ⟨fun b => ?_, fun b => ?_⟩
  · rw [codeOf, zero, empty]
    rfl
  · rw [zero, empty]
    rfl

/-- CGEN with a tree at ROOT: the visit of its leaves, then SIZE. -/
theorem execPCgen_of_tree {s : State} {t : Tree} (tree : rootTree s = some t) :
    execPCgen s = ((Flow.each recordLeaf (leaves t []) { s with cbLen := [], inv := [] }).bind
      fun u => .go { u with phase := .size }).outcome := by
  rw [execPCgen, tree]

/-- The visit of the leaves of any tree at ROOT records its code book and collides nowhere. A Leaf root has the
empty path, which leaves CB_LEN at 0. -/
theorem visit_leaves {s : State} {t : Tree} (tree : rootTree s = some t) :
    ∃ u, Flow.each recordLeaf (leaves t []) { s with cbLen := [], inv := [] } = .go u ∧
      u.inv = leaves t [] ∧ CodeBook t u ∧
      u = { s with inv := u.inv, cbLen := u.cbLen, cbBits := u.cbBits } := by
  cases t with
  | leaf x =>
    have zero (b : Byte) : Table.get 0#8 (Table.put [] x.toNat 0#8) b.toNat = 0#8 := by
      rw [Table.get_put]
      exact ite_self _
    exact ⟨{ s with inv := [([], x)], cbLen := Table.put [] x.toNat 0#8, cbBits := Table.put s.cbBits x.toNat [] },
      rfl, rfl, .leaf zero, rfl⟩
  | node l r =>
    have start : Recorded [] { s with cbLen := [], inv := [] } := ⟨rfl, nofun, fun _ _ => rfl, nofun⟩
    obtain ⟨u, visits, recorded, frame⟩ := start.visits (fs := leaves (.node l r) []) (leaves_nodup _)
      fun e he => ⟨leaves_path_ne_nil he, Nat.le_of_lt_succ (treeOf_depth tree e he)⟩
    exact ⟨u, visits, recorded.inv, recorded.codeBook, frame⟩

end Sys2Proof.Machine

open Sys2Proof Sys2Proof.Machine

/-- Settles O29: the visit of the leaves, and then the step to SIZE. -/
theorem cgenRecordsTheCodeBook : Obligations.CgenRecordsTheCodeBook := by
  unfold Obligations.CgenRecordsTheCodeBook
  intro s t tree
  obtain ⟨u, visits, inv, book, frame⟩ := visit_leaves tree
  refine ⟨{ u with phase := .size }, ?_, inv, fun i hi => ?_, ?_⟩
  · change execPCgen s = _
    rw [execPCgen_of_tree tree, visits]
    rfl
  · have own : (BitVec.ofNat 8 i).toNat = i := by rw [BitVec.toNat_ofNat, Nat.mod_eq_of_lt hi]
    have length := book.length (BitVec.ofNat 8 i)
    have code := book.code (BitVec.ofNat 8 i)
    rw [own] at length code
    exact ⟨length, code⟩
  · rw [frame]

/-- Settles O30: a path that is a prefix of another is equal to it, and no path stands at two places. -/
theorem leafPathsArePrefixFree : Obligations.LeafPathsArePrefixFree := by
  unfold Obligations.LeafPathsArePrefixFree
  refine fun t => ⟨fun i j hi hj apart pre => apart ?_, ?_⟩
  · rw [← List.getElem_eq_getD (h := hi), ← List.getElem_eq_getD (h := hj)] at pre
    have same := leaf_path_eq_of_prefix (List.getElem_mem hi) (List.getElem_mem hj) pre
    have places := (leaves_nodup t).getElem_inj_iff (i := i) (j := j) (hi := by rwa [List.length_map])
      (hj := by rwa [List.length_map])
    exact places.mp (by rwa [List.getElem_map, List.getElem_map])
  · rintro l r rfl e he
    exact List.length_pos_of_ne_nil (leaves_path_ne_nil he)

/-- Settles O31: the sum of a tree is that of its two subtrees, one level down. -/
theorem kraftSumIsOne : Obligations.KraftSumIsOne := by
  unfold Obligations.KraftSumIsOne
  exact fun _ _ deep => kraftSum_eq deep
end

section
/-! SUPPORT. TDES as a whole, tied to the abstract parser (R228, R232), TSER on a tree at ROOT (R221), and what
one token does as an item of TDES (R228, R229, log 9). -/

namespace Sys2Proof.Machine

/-! ### The serialization of a tree -/

/-- The bytes tell where a serialized tree ends and which tree it is: the first marker is that of the root, and
the subtrees follow one after the other (R232). -/
theorem serialize_append_inj {t1 t2 : Tree} {r1 r2 : List Byte}
    (same : serialize t1 ++ r1 = serialize t2 ++ r2) : t1 = t2 ∧ r1 = r2 := by
  induction t1 generalizing t2 r1 r2 with
  | leaf x =>
    cases t2 with
    | leaf y =>
      cases same
      exact ⟨rfl, rfl⟩
    | node l' r' => exact absurd (List.head_eq_of_cons_eq same).symm tokBranch_ne_tokLeaf
  | node l r ihl ihr =>
    cases t2 with
    | leaf y => exact absurd (List.head_eq_of_cons_eq same) tokBranch_ne_tokLeaf
    | node l' r' =>
      have subtrees : serialize l ++ serialize r ++ r1 = serialize l' ++ serialize r' ++ r2 :=
        List.tail_eq_of_cons_eq same
      rw [List.append_assoc, List.append_assoc] at subtrees
      obtain ⟨rfl, behind⟩ := ihl subtrees
      obtain ⟨rfl, rfl⟩ := ihr behind
      exact ⟨rfl, rfl⟩

/-! ### TDES and TSER -/

/-- The state after TDES, the tree being read. -/
def treeDone (u : State) : State := { u with phase := .delim, fine := false }

section
variable {s u : State} {t : Tree} {rest : List Byte}

/-- Where the parser answers a tree, TDES builds it and goes on to DELIM. -/
theorem execPTdes_of_ok {n : Nat} (parse : parseTree (input s).length 0 (input s) = .ok (t, n, rest)) :
    ∃ u, execPTdes s = .next (treeDone u) ∧ TreeRead s t u := by
  have start := parseLoop_start s (input s)
  rw [parse] at start
  obtain ⟨u, goes, read⟩ := start
  exact ⟨u, by rw [execPTdes, goes]; rfl, read⟩

/-- Where the parser answers an error, TDES raises it. -/
theorem execPTdes_of_error {e : ErrInfo} (parse : parseTree (input s).length 0 (input s) = .error e) :
    ∃ u, execPTdes s = .next (raise e u) := by
  have start := parseLoop_start s (input s)
  rw [parse] at start
  obtain ⟨u, aborts⟩ := start
  exact ⟨u, by rw [execPTdes, aborts]; rfl⟩

/-- A tree read from the input is short enough for IPOS, as IN_LEN has 32 bits. -/
theorem TreeRead.ipos_toNat (read : TreeRead s t u) (own : input s = serialize t ++ rest) :
    u.ipos.toNat = (serialize t).length := by
  have length := congrArg List.length own
  have bound := s.inLen.isLt
  rw [input_length, List.length_append] at length
  rw [read.ipos, BitVec.toNat_ofNat, Nat.mod_eq_of_lt (by omega)]

/-- TDES changes the arena, NN, ROOT, STACK, IPOS and PHASE only. -/
theorem TreeRead.treeDone_eq (read : TreeRead s t u) :
    treeDone u = { s with
      arena := u.arena, nn := u.nn, root := u.root, stack := [], ipos := u.ipos, phase := .delim
      fine := false } := by
  have frame := read.frame
  rw [ParseFrame, read.stack] at frame
  rw [treeDone, frame]

/-- TSER with a tree at ROOT: its bytes, then HDR. -/
theorem execPTser_of_tree (tree : rootTree s = some t) :
    execPTser s = ((emitAll (serialize t) s).bind fun u => .go { u with phase := .hdr }).outcome := by
  rw [execPTser, tree]

end

/-! ### One token as an item -/

theorem parseEnter_fine (s : State) : (parseEnter s).fine = true := by
  unfold parseEnter
  split
  next fine => exact fine
  next => rfl

/-- The state after a LEAF token as an item: the tree is complete when no subtree is pending. -/
def leafItem (u : State) : State := if u.stack = [] then treeDone u else u

section
variable {s : State} (sym : Byte)

theorem execTokBranch_room (room : (parseEnter s).nn.toNat < Config.nodeCap) :
    execTokBranch s = .next (branchRead (parseEnter s)) := by
  rw [execTokBranch, parseBranch_go room, Flow.outcome_go]

theorem execTokBranch_full (full : Config.nodeCap ≤ (parseEnter s).nn.toNat) :
    execTokBranch s = .next (raise .tooLarge (parseEnter s)) := by
  rw [execTokBranch, parseBranch_full _ full, Flow.outcome_abort]

theorem execTokLeaf_room (room : (parseEnter s).nn.toNat < Config.nodeCap) :
    execTokLeaf sym s = .next (leafItem (leafRead sym (parseEnter s))) := by
  rw [execTokLeaf, parseLeaf_go sym room]
  rfl

theorem execTokLeaf_full (full : Config.nodeCap ≤ (parseEnter s).nn.toNat) :
    execTokLeaf sym s = .next (raise .tooLarge (parseEnter s)) := by
  rw [execTokLeaf, parseLeaf_full sym _ full, Flow.bind_abort, Flow.outcome_abort]

/-- What a LEAF token makes of a state: entry NN holds the Leaf, the other entries keep kind and symbol, and a
pending subtree, if there is one, is no longer to come. -/
structure LeafRead (sym : Byte) (s u : State) : Prop where
  kind : (nodeAt u.arena s.nn.toNat).kind = .leaf
  symbol : (nodeAt u.arena s.nn.toNat).sym = sym
  others : ∀ i, i ≠ s.nn.toNat →
    (nodeAt u.arena i).kind = (nodeAt s.arena i).kind ∧ (nodeAt u.arena i).sym = (nodeAt s.arena i).sym
  done : pendingRight s.stack = 0 → u.stack = []
  pending : 0 < pendingRight s.stack → u.stack ≠ [] ∧ pendingRight u.stack + 1 = pendingRight s.stack
  frame : u = { s with
    arena := u.arena, nn := s.nn + 1#10, root := u.root, stack := u.stack, ipos := s.ipos + 2#32 }

theorem leafRead_reads (room : s.nn.toNat < Config.nodeCap) : LeafRead sym s (leafRead sym s) := by
  have index := nextIndex_toNat s (Nat.le_of_lt room)
  obtain ⟨arena, root, stack, read, links, done, pending⟩ :=
    completeSubtree_frame (nextIndex s) s.stack (leafEntered sym s)
  rw [← leafRead] at read
  rw [read]
  refine
    { kind := ?kind
      symbol := ?symbol
      others := fun i other => ?others
      done := done
      pending := fun h => (pending h).2
      frame := rfl }
  case kind => rw [(links _).1, leafEntered, index, nodeAt_put_same]
  case symbol => rw [(links _).2.1, leafEntered, index, nodeAt_put_same]
  case others =>
    obtain ⟨kind, symbol, _⟩ := links i
    have old : nodeAt (leafEntered sym s).arena i = nodeAt s.arena i :=
      nodeAt_put_other _ _ _ _ (by rwa [index])
    exact ⟨kind.trans (by rw [old]), symbol.trans (by rw [old])⟩

end

end Sys2Proof.Machine

open Sys2Proof Sys2Proof.Machine

/-- Settles O41: TDES ends as the abstract parser does, which accepts exactly the serialized trees that fit
the arena. -/
theorem tdesInvertsSerialize : Obligations.TdesInvertsSerialize := by
  unfold Obligations.TdesInvertsSerialize
  refine ⟨fun s t rest own fits => ?accepts, fun s u step delim => ?sound,
    fun t1 t2 r1 r2 same => serialize_append_inj same⟩
  case accepts =>
    have enough : (serialize t).length ≤ (input s).length := by simp [own]
    have parse := parseTree_serialize (nn := 0) t rest enough (by rwa [Nat.zero_add])
    rw [← own] at parse
    obtain ⟨u, step, read⟩ := execPTdes_of_ok parse
    exact ⟨treeDone u, step, read.tree, read.root, read.nn, read.ipos_toNat own, read.treeDone_eq⟩
  case sound =>
    change execPTdes s = _ at step
    cases parse : parseTree (input s).length 0 (input s) with
    | error e =>
      obtain ⟨v, raises⟩ := execPTdes_of_error parse
      cases raises.symm.trans step
      cases delim
    | ok answer =>
      obtain ⟨t, n, rest⟩ := answer
      obtain ⟨v, builds, read⟩ := execPTdes_of_ok parse
      cases builds.symm.trans step
      obtain ⟨own, count, fits⟩ := parseTree_ok parse
      rw [count, Nat.zero_add] at fits
      exact ⟨t, rest, read.tree, fits, own, read.ipos_toNat own⟩

/-- Settles O33: the bytes of the tree go through the output cursor. -/
theorem tserWritesTheSerializedTree : Obligations.TserWritesTheSerializedTree := by
  unfold Obligations.TserWritesTheSerializedTree
  intro s t tree
  have step : exec .pTser s = _ := execPTser_of_tree tree
  refine ⟨fun room => ?room, fun full => ?full⟩
  case room =>
    obtain ⟨u, emits, wrote, frame⟩ := emitAll_room (serialize t) s (.inr room)
    refine ⟨{ u with phase := .hdr }, by rw [step, emits]; rfl, wrote, ?_⟩
    rw [frame]
  case full =>
    obtain ⟨v, aborts, frame⟩ := emitAll_full (serialize t) s (serialize_ne_nil t) full
    exact ⟨v, by rw [step, aborts]; rfl, frame⟩

/-- Settles O35, by induction on the tree. -/
theorem serializedLengthIsThreeLMinusOne : Obligations.SerializedLengthIsThreeLMinusOne := by
  unfold Obligations.SerializedLengthIsThreeLMinusOne
  exact fun t => ⟨serialize_length_eq t, nodeCount_eq t⟩

/-- Settles O42: the token as the parser's rule for it, and for a LEAF whether a subtree is pending. -/
theorem treeTokensBuildTheArena : Obligations.TreeTokensBuildTheArena := by
  unfold Obligations.TreeTokensBuildTheArena
  refine fun s sym => ⟨fun room => ⟨?branch, ?leaf⟩,
    fun full => ⟨execTokBranch_full full, execTokLeaf_full sym full⟩⟩
  case branch =>
    have index := nextIndex_toNat (parseEnter s) (Nat.le_of_lt room)
    refine ⟨_, execTokBranch_room room, ?_, index, fun i other => ?_, ?_, rfl⟩
    · rw [branchRead, index, nodeAt_put_same]
    · exact nodeAt_put_other _ _ _ _ (by rwa [index])
    · simp [branchRead, pendingRight]
  case leaf =>
    have read := leafRead_reads sym room
    have step : exec (.tokLeaf sym) s = _ := execTokLeaf_room sym room
    generalize leafRead sym (parseEnter s) = u at read step
    have frame := read.frame
    have phase : u.phase = (parseEnter s).phase := by rw [frame]
    have fine : u.fine = (parseEnter s).fine := by rw [frame]
    refine ⟨_, step, ?_⟩
    by_cases complete : u.stack = []
    · rw [leafItem, if_pos complete]
      refine ⟨read.kind, read.symbol, read.others, fun _ => ⟨complete, rfl, rfl⟩,
        fun waits => absurd complete (read.pending waits).1, ?_⟩
      rw [treeDone, frame]
    · rw [leafItem, if_neg complete]
      refine ⟨read.kind, read.symbol, read.others, fun none => absurd (read.done none) complete,
        fun waits => ⟨(read.pending waits).2, phase, fine.trans (parseEnter_fine s)⟩, ?_⟩
      rw [phase, fine]
      exact frame
end

section
/-! SUPPORT. The packer from any state on (R251, R252): the bits put since a state as one update of it, and what
FLUSH writes (R253). -/

namespace Sys2Proof.Machine

/-! ### The bytes written -/

/-- What an emit with room writes, read back. -/
theorem wrote_written {bytes : List Byte} {s : State} (room : HasRoom bytes.length s) :
    Wrote bytes s (written bytes s) := by
  have fits : bytes = [] ∨ s.opos.toNat + bytes.length ≤ s.obufCap.toNat :=
    room.imp_left List.eq_nil_of_length_eq_zero
  obtain ⟨u, emits, wrote, _⟩ := emitAll_room bytes s fits
  rwa [← Flow.go.inj ((emitAll_written room).symm.trans emits)] at wrote

/-- One byte with room for it. -/
theorem emit_written (v : Byte) {s : State} (room : s.opos.toNat < s.obufCap.toNat) :
    emit v s = .go (written [v] s) := by
  rw [← emitAll_singleton]
  exact emitAll_written (.inr room)

/-- Two pieces stored one after the other. -/
theorem written_append {xs ys : List Byte} {s : State} (room : HasRoom (xs.length + ys.length) s) :
    written (xs ++ ys) s = written ys (written xs s) := by
  have first : HasRoom xs.length s := by
    unfold HasRoom at room ⊢
    omega
  have second : HasRoom ys.length (written xs s) := by
    have opos := written_opos first
    have cap : (written xs s).obufCap = s.obufCap := rfl
    unfold HasRoom at room ⊢
    rw [opos, cap]
    omega
  have emits := emitAll_append xs ys s
  rw [emitAll_written first, Flow.bind_go, emitAll_written second,
    emitAll_written (by rwa [List.length_append])] at emits
  exact Flow.go.inj emits

/-- Room for the whole bytes of a bit string is room for those of its beginning. -/
theorem HasRoom.of_append {c d : List Bool} {s : State} (room : HasRoom ((c ++ d).length / 8) s) :
    HasRoom (c.length / 8) s := by
  rw [List.length_append] at room
  unfold HasRoom at room ⊢
  omega

/-! ### One bit -/

/-- ACC with the bit `b` at place `7 - ACC_N` (R252). -/
def accWith (b : Bool) (s : State) : Byte := s.acc ||| ((BitVec.ofBool b).setWidth 8 <<< (7 - s.accN.toNat))

theorem accWith_eq (b : Bool) (s : State) :
    accWith b s = s.acc ||| (if b then 1#8 <<< (7 - s.accN.toNat) else 0#8) := by
  cases b with
  | false => simp [accWith]
  | true => rfl

/-- A bit that leaves the byte incomplete waits in ACC. -/
theorem putBit_waits (b : Bool) {s : State} (more : s.accN ≠ 7#3) :
    putBit b s = .go { s with acc := accWith b s, accN := s.accN + 1#3 } := if_neg more

/-- The bit that completes the byte emits it. -/
theorem putBit_completes (b : Bool) {s : State} (last : s.accN = 7#3) :
    putBit b s = (emit (accWith b s) { s with acc := accWith b s }).bind
      fun u => .go { u with acc := 0#8, accN := 0#3 } := if_pos last

/-- With room the byte is stored. -/
theorem putBit_room (b : Bool) {s : State} (last : s.accN = 7#3)
    (room : s.opos.toNat < s.obufCap.toNat) :
    putBit b s = .go { written [accWith b s] s with acc := 0#8, accN := 0#3 } := by
  rw [putBit_completes b last, emit_written (s := { s with acc := accWith b s }) _ room]
  rfl

/-- Without room the byte raises OUT_RANGE. -/
theorem putBit_full (b : Bool) {s : State} (last : s.accN = 7#3)
    (full : s.obufCap.toNat ≤ s.opos.toNat) : ∃ v, putBit b s = .abort .outRange v := by
  rw [putBit_completes b last, emit_full _ { s with acc := accWith b s } full]
  exact ⟨_, rfl⟩

/-! ### The bits put since a state -/

/-- The whole bytes among the packed bits (R252). -/
def wholeBytes (c : List Bool) : List Byte := (List.range (c.length / 8)).map (packByte c)

@[simp] theorem wholeBytes_length (c : List Bool) : (wholeBytes c).length = c.length / 8 := by
  simp [wholeBytes]

/-- The whole bytes, and the partial one if bits are left (R251). -/
theorem pack_eq_wholeBytes (c : List Bool) :
    pack c = wholeBytes c ++ if c.length % 8 = 0 then [] else [packByte c (c.length / 8)] := pack_eq c

theorem take_pack (c : List Bool) : (pack c).take (c.length / 8) = wholeBytes c := by
  rw [pack_eq_wholeBytes]
  exact List.take_left' (wholeBytes_length c)

/-- The byte behind the whole ones: the partial byte of `pack(c)`, or 0 if there is none (R252). -/
theorem packByte_last (c : List Bool) :
    packByte c (c.length / 8) =
      if c.length % 8 = 0 then 0#8 else (pack c).getD (c.length / 8) 0#8 := by
  split
  next whole => exact packByte_beyond (by omega)
  next rest =>
    rw [pack_eq_wholeBytes, if_neg rest, List.getD_append_right _ _ _ _ (Nat.le_of_eq (wholeBytes_length c))]
    simp

/-- Further bits leave the whole bytes alone. -/
theorem map_packByte_append (c d : List Bool) :
    (List.range (c.length / 8)).map (packByte (c ++ d)) = wholeBytes c :=
  List.map_congr_left fun j hj => packByte_append (by have := List.mem_range.mp hj; omega)

/-- A bit that completes no byte leaves the whole ones alone. -/
theorem wholeBytes_concat_waits {c : List Bool} (b : Bool) (more : c.length % 8 ≠ 7) :
    wholeBytes (c ++ [b]) = wholeBytes c := by
  have count : (c ++ [b]).length / 8 = c.length / 8 := by
    rw [List.length_append, List.length_singleton]
    omega
  rw [wholeBytes, count, map_packByte_append]

/-- The bit that completes a byte adds it. -/
theorem wholeBytes_concat_completes {c : List Bool} (b : Bool) (last : c.length % 8 = 7) :
    wholeBytes (c ++ [b]) = wholeBytes c ++ [packByte (c ++ [b]) (c.length / 8)] := by
  have count : (c ++ [b]).length / 8 = c.length / 8 + 1 := by
    rw [List.length_append, List.length_singleton]
    omega
  rw [wholeBytes, count, List.range_succ, List.map_append, map_packByte_append]
  rfl

/-- `s` with the bits `c` put from an empty ACC on: the whole bytes are stored, the others wait (R252). -/
def packed (c : List Bool) (s : State) : State :=
  { written (wholeBytes c) s with
    acc := packByte c (c.length / 8)
    accN := BitVec.ofNat 3 c.length }

theorem packed_nil (s : State) : packed [] s = { s with acc := 0#8, accN := 0#3 } := by
  have empty : wholeBytes [] = [] := rfl
  rw [packed, empty, written_nil]
  rfl

theorem packed_opos {c : List Bool} {s : State} (room : HasRoom (c.length / 8) s) :
    (packed c s).opos.toNat = s.opos.toNat + c.length / 8 := by
  rw [← wholeBytes_length]
  exact written_opos (by rwa [wholeBytes_length])

/-- ACC holds seven bits exactly when the next one completes a byte. -/
theorem packed_accN_eq_seven_iff (c : List Bool) (s : State) :
    (packed c s).accN = 7#3 ↔ c.length % 8 = 7 := by
  rw [← BitVec.toNat_inj, packed, BitVec.toNat_ofNat]
  rfl

/-- The next bit joins the last byte. -/
theorem accWith_packed (b : Bool) (c : List Bool) (s : State) :
    accWith b (packed c s) = packByte (c ++ [b]) (c.length / 8) := by
  rw [← packByte_concat, accWith, packed, BitVec.toNat_ofNat]

/-- A bit that completes no byte: ACC and ACC_N alone move. -/
theorem packed_concat_waits {c : List Bool} (b : Bool) (s : State) (more : c.length % 8 ≠ 7) :
    packed (c ++ [b]) s = { packed c s with
      acc := packByte (c ++ [b]) (c.length / 8)
      accN := (packed c s).accN + 1#3 } := by
  have length : (c ++ [b]).length = c.length + 1 := List.length_append
  have count : (c ++ [b]).length / 8 = c.length / 8 := by omega
  rw [packed, packed, wholeBytes_concat_waits b more, count, length, BitVec.ofNat_add]

/-- The bit that completes a byte: the byte is stored and ACC is empty again. -/
theorem packed_concat_completes {c : List Bool} (b : Bool) {s : State} (last : c.length % 8 = 7)
    (room : HasRoom (c.length / 8 + 1) s) :
    packed (c ++ [b]) s = { written [packByte (c ++ [b]) (c.length / 8)] (packed c s) with
      acc := 0#8
      accN := 0#3 } := by
  have length : (c ++ [b]).length = c.length + 1 := List.length_append
  have next : packByte (c ++ [b]) ((c ++ [b]).length / 8) = 0#8 := packByte_beyond (by omega)
  have empty : BitVec.ofNat 3 (c ++ [b]).length = 0#3 := BitVec.eq_of_toNat_eq (by
    rw [BitVec.toNat_ofNat]
    exact (by omega : (c ++ [b]).length % 8 = 0))
  rw [packed, next, empty, wholeBytes_concat_completes b last,
    written_append (by rwa [wholeBytes_length, List.length_singleton])]
  rfl

/-- The flow `f` has put the bits `c` from `s` on, or has raised OUT_RANGE for want of room. -/
def Packs (c : List Bool) (s : State) (f : Flow) : Prop :=
  (HasRoom (c.length / 8) s → f = .go (packed c s)) ∧
  (¬ HasRoom (c.length / 8) s → ∃ v, f = .abort .outRange v)

/-- Bits after bits; IPOS may move meanwhile. -/
theorem Packs.bind {c d : List Bool} {s : State} {i : BitVec 32} {f : Flow} {k : State → Flow}
    (first : Packs c s f)
    (next : HasRoom (c.length / 8) s → Packs (c ++ d) { s with ipos := i } (k (packed c s))) :
    Packs (c ++ d) { s with ipos := i } (f.bind k) := by
  by_cases room : HasRoom (c.length / 8) s
  · rw [first.1 room]
    exact next room
  · obtain ⟨v, aborts⟩ := first.2 room
    rw [aborts]
    exact ⟨fun fits => absurd (HasRoom.of_append fits) room, fun _ => ⟨v, rfl⟩⟩

/-- One bit (R252). -/
theorem putBit_packs {c : List Bool} {s : State} (room : HasRoom (c.length / 8) s) (b : Bool) :
    Packs (c ++ [b]) s (putBit b (packed c s)) := by
  have opos := packed_opos room
  have cap : (packed c s).obufCap = s.obufCap := rfl
  have accN := packed_accN_eq_seven_iff c s
  have length : (c ++ [b]).length = c.length + 1 := List.length_append
  unfold Packs
  by_cases last : c.length % 8 = 7
  · rw [show (c ++ [b]).length / 8 = c.length / 8 + 1 by omega]
    have room_iff : HasRoom (c.length / 8 + 1) s ↔ (packed c s).opos.toNat < (packed c s).obufCap.toNat := by
      rw [opos, cap, HasRoom]
      omega
    refine ⟨fun fits => ?_, fun full => putBit_full b (accN.mpr last) (by rwa [room_iff, Nat.not_lt] at full)⟩
    rw [putBit_room b (accN.mpr last) (room_iff.mp fits), accWith_packed, packed_concat_completes b last fits]
  · rw [show (c ++ [b]).length / 8 = c.length / 8 by omega]
    refine ⟨fun _ => ?_, fun full => absurd room full⟩
    rw [putBit_waits b (mt accN.mp last), accWith_packed, packed_concat_waits b s last]

/-- Several bits. -/
theorem putBits_packs {c : List Bool} {s : State} (room : HasRoom (c.length / 8) s) (bits : List Bool) :
    Packs (c ++ bits) s (Flow.each putBit bits (packed c s)) := by
  induction bits generalizing c with
  | nil =>
    rw [List.append_nil]
    exact ⟨fun _ => rfl, fun full => absurd room full⟩
  | cons b bits ih =>
    rw [List.append_cons]
    exact Packs.bind (i := s.ipos) (putBit_packs room b) fun room => ih room

/-- The codes of several bytes (R276). -/
theorem encodeBytes_packs {c : List Bool} {s : State} (room : HasRoom (c.length / 8) s)
    (bytes : List Byte) :
    Packs (c ++ bytes.flatMap fun b => codeOf s b.toNat)
      { s with ipos := s.ipos + BitVec.ofNat 32 bytes.length } (Flow.each encodeByte bytes (packed c s)) := by
  induction bytes generalizing c s with
  | nil =>
    rw [List.flatMap_nil, List.append_nil, List.length_nil, BitVec.add_zero]
    exact ⟨fun _ => rfl, fun full => absurd room full⟩
  | cons b bytes ih =>
    have one : Packs (c ++ codeOf s b.toNat) { s with ipos := s.ipos + 1#32 } (encodeByte b (packed c s)) :=
      putBits_packs (s := { s with ipos := s.ipos + 1#32 }) room (codeOf s b.toNat)
    rw [List.flatMap_cons, ← List.append_assoc, List.length_cons, ← cursor_succ, Flow.each_cons]
    exact one.bind fun room => ih room

/-- ENCODE packs the codes of the input from an empty ACC on, and leaves IPOS at IN_LEN. -/
theorem encodeInput_packs (s : State) :
    Packs ((input s).flatMap fun b => codeOf s b.toNat) { s with ipos := s.inLen }
      (Flow.each encodeByte (input s) { s with acc := 0#8, accN := 0#3, ipos := 0#32 }) := by
  have all := encodeBytes_packs (c := []) (s := { s with ipos := 0#32 }) (.inl rfl) (input s)
  have ipos : 0#32 + BitVec.ofNat 32 s.inLen.toNat = s.inLen := by
    rw [BitVec.zero_add, BitVec.ofNat_toNat, BitVec.setWidth_eq]
  rw [packed_nil, List.nil_append, input_length] at all
  simp only [ipos] at all
  exact all

end Sys2Proof.Machine

open Sys2Proof Sys2Proof.Machine

/-- Settles O37: one bit by whether it completes the byte, the phase by whether there is room. -/
theorem encodePacksTheCodes : Obligations.EncodePacksTheCodes := by
  unfold Obligations.EncodePacksTheCodes
  refine ⟨fun b s => ?bit, fun s => ?phase⟩
  case bit =>
    rw [← accWith_eq]
    exact ⟨putBit_waits b, fun last room => ⟨_, putBit_room b last room, wrote_written (.inr room), rfl⟩⟩
  case phase =>
    obtain ⟨fits, full⟩ := encodeInput_packs s
    generalize ((input s).flatMap fun b => codeOf s b.toNat) = bits at fits full ⊢
    refine ⟨fun room => ?room, fun whole long => ?full⟩
    case room =>
      refine ⟨{ packed bits { s with ipos := s.inLen } with phase := .flush }, ?_, ?_, ?_, ?_, rfl, rfl⟩
      · change execPEncode s = _
        rw [execPEncode, fits room]
        rfl
      · rw [take_pack]
        exact wrote_written (by rwa [wholeBytes_length])
      · exact BitVec.toNat_ofNat ..
      · exact packByte_last bits
    case full =>
      obtain ⟨v, aborts⟩ := full (by unfold HasRoom; simp only; omega)
      refine ⟨v, ?_⟩
      change execPEncode s = _
      rw [execPEncode, aborts]
      rfl

/-- Settles O39, bit by bit. -/
theorem unpackInvertsPack : Obligations.UnpackInvertsPack := unpack_pack_bits

/-- Settles O38: the three cases of FLUSH. -/
theorem flushWritesThePartialByte : Obligations.FlushWritesThePartialByte := by
  unfold Obligations.FlushWritesThePartialByte
  refine fun s => ⟨fun empty => if_pos empty, fun held room => ?room, fun held full => ?full⟩
  case room =>
    refine ⟨{ written [s.acc] s with acc := 0#8, accN := 0#3, phase := .finish }, ?_,
      wrote_written (.inr room), rfl⟩
    refine (if_neg held).trans ?_
    rw [emit_written _ room]
    rfl
  case full =>
    refine (if_neg held).trans ?_
    rw [emit_full _ s full]
    rfl
end

section
/-! SUPPORT. The header as the statement spells it out (R96, R275), and what SIZE computes and decides (R274). -/

namespace Sys2Proof.Machine

/-- The BITLEN field holds the bytes 7 down to 0 of its value (R96). -/
theorem be64_eq_map (n : BitVec 64) :
    be64 n = (List.range 8).map fun k => n.extractLsb' (8 * (7 - k)) 8 := rfl

/-- The sum runs over the 256 byte values (R274). -/
theorem codedBits_eq_sum (s : State) :
    codedBits s = ((List.range 256).map fun i => freqAt s i * (cbLenAt s i).toNat).sum := rfl

/-- SIZE decides by the size of the artifact with the BITLEN just computed (R274). -/
theorem execPSize_eq {s : State} {bits : BitVec 64} (computed : BitVec.ofNat 64 (codedBits s) = bits) :
    execPSize s =
      if s.obufCap.toNat < artifactBytes { s with bitlen := bits } then
        .next (raise .outRange { s with bitlen := bits })
      else .next { s with bitlen := bits, phase := .tser } := by
  subst computed
  rfl

end Sys2Proof.Machine

open Sys2Proof Sys2Proof.Machine

/-- Settles O36: the nine bytes go through the output cursor. -/
theorem hdrWritesDelimiterAndLength : Obligations.HdrWritesDelimiterAndLength := by
  unfold Obligations.HdrWritesDelimiterAndLength
  intro s
  have step : exec .pHdr s = execPHdr s := rfl
  have nine : (Config.delim :: be64 s.bitlen).length = 9 := rfl
  rw [← be64_eq_map, step, execPHdr]
  refine ⟨fun room => ?room, fun full => ?full⟩
  case room =>
    obtain ⟨u, emits, wrote, frame⟩ := emitAll_room (Config.delim :: be64 s.bitlen) s (.inr (by rwa [nine]))
    refine ⟨{ u with phase := .encode }, by rw [emits]; rfl, wrote, ?_⟩
    rw [frame]
  case full =>
    obtain ⟨v, aborts, frame⟩ := emitAll_full (Config.delim :: be64 s.bitlen) s (List.cons_ne_nil _ _)
      (by rwa [nine])
    exact ⟨v, by rw [aborts]; rfl, frame⟩

/-- Settles O22: the token is one emit. -/
theorem emptyPhaseWritesTheToken : Obligations.EmptyPhaseWritesTheToken := by
  unfold Obligations.EmptyPhaseWritesTheToken
  intro s
  have step : exec .pEmpty s = execPEmpty s := rfl
  rw [step, execPEmpty]
  refine ⟨fun room => ?room, fun full => ?full⟩
  case room =>
    rw [emit_written _ room]
    exact ⟨_, rfl, wrote_written (.inr room), rfl⟩
  case full =>
    rw [emit_full _ s full]
    rfl

/-- Settles O32: SIZE is one comparison of the whole artifact with OBUF_CAP. -/
theorem sizeChecksTheWholeArtifact : Obligations.SizeChecksTheWholeArtifact := by
  unfold Obligations.SizeChecksTheWholeArtifact
  intro s bits total
  have step : exec .pSize s = execPSize s := rfl
  have computed : BitVec.ofNat 64 (codedBits s) = bits := congrArg (BitVec.ofNat 64) (codedBits_eq_sum s)
  have size : artifactBytes { s with bitlen := bits } = total := rfl
  rw [step, execPSize_eq computed, size]
  exact ⟨fun fits => if_neg (Nat.not_lt.mpr fits), fun long => if_pos long⟩
end

section
/-! SUPPORT. WALK and PAYLOAD_BYTE from every state with a tree at ROOT (R296): what the flow of the walk
makes of the state, and the errors a walk of an INTERNAL root can raise (R297). -/

namespace Sys2Proof.Machine

/-- A walk that stands at an Internal node fails only for want of room, so never with as much room as
bits. -/
theorem walkTree_error_of_node {l r l' r' : Tree} {room : Nat} {cur : Option Tree} {bits : List Bool}
    {e : ErrInfo} (here : cur.getD (.node l r) = .node l' r')
    (h : walkTree (.node l r) room cur bits = .error e) : e = .outRange ∧ room < bits.length := by
  induction bits generalizing room cur l' r' with
  | nil => cases h
  | cons b bits ih =>
    simp only [walkTree, here] at h
    split at h
    next sym _ =>
      split at h
      next full => cases h; exact ⟨rfl, full ▸ Nat.succ_pos _⟩
      next =>
        cases later : walkTree (.node l r) (room - 1) none bits with
        | ok out => rw [later] at h; cases h
        | error e' =>
          rw [later] at h
          cases h
          obtain ⟨outRange, long⟩ := ih rfl later
          exact ⟨outRange, by rw [List.length_cons]; omega⟩
    next =>
      obtain ⟨outRange, long⟩ := ih rfl h
      exact ⟨outRange, Nat.lt_succ_of_lt long⟩

section
variable {s : State} {root : Tree}

/-- WALK begins at ROOT (R296). -/
theorem stands_at_root (tree : rootTree s = some root) (fine : Bool) :
    Stands root { s with cur := s.root, fine := fine } none :=
  ⟨⟨_, tree⟩, rfl⟩

/-- WALK runs its loop over the payload bits left. -/
theorem exec_pWalk (s : State) :
    exec .pWalk s =
      ((walkLoop (s.bitlen.toNat - s.bitpos.toNat) { s with cur := s.root }).bind
        fun u => .go { u with phase := .wend, fine := false }).outcome := rfl

/-- The payload bits left are those up to BITLEN. -/
theorem walkLoop_from_root (within : s.bitpos.toNat ≤ s.bitlen.toNat) :
    walkLoop (s.bitlen.toNat - s.bitpos.toNat) { s with cur := s.root } =
      Flow.each walkBit (payloadBitsFrom s (s.bitlen.toNat - s.bitpos.toNat)) { s with cur := s.root } :=
  walkLoop_eq_each (s := { s with cur := s.root }) (Nat.le_of_eq (Nat.add_sub_of_le within))

/-- BITPOS and the bits left make BITLEN. -/
theorem bitpos_add_left (within : s.bitpos.toNat ≤ s.bitlen.toNat) :
    s.bitpos + BitVec.ofNat 64 (s.bitlen.toNat - s.bitpos.toNat) = s.bitlen := by
  rw [← BitVec.toNat_sub_of_le (BitVec.le_def.mpr within), BitVec.ofNat_toNat, BitVec.setWidth_eq,
    BitVec.add_comm, BitVec.sub_add_cancel]

/-- A single LEAF at ROOT stops WALK at its first bit (R297). -/
theorem exec_pWalk_leaf {x : Byte} (tree : rootTree s = some (.leaf x))
    (left : s.bitpos.toNat < s.bitlen.toNat) :
    exec .pWalk s = .next (raise .nullChild { s with cur := s.root, bitpos := s.bitpos + 1#64 }) := by
  obtain ⟨n, bits⟩ : ∃ n, s.bitlen.toNat - s.bitpos.toNat = n + 1 :=
    ⟨s.bitlen.toNat - s.bitpos.toNat - 1, by omega⟩
  obtain ⟨leaf, _⟩ := treeOf_entry tree
  rw [exec_pWalk, bits, walkLoop, walkBit_at_leaf leaf]
  rfl

/-- With no bits left WALK goes on to WEND at once. -/
theorem exec_pWalk_no_bits (done : s.bitlen.toNat ≤ s.bitpos.toNat) :
    exec .pWalk s = .next { s with cur := s.root, phase := .wend, fine := false } := by
  rw [exec_pWalk, Nat.sub_eq_zero_of_le done]
  rfl

/-- BITPOS past the bits of a byte that are payload does not wrap. -/
theorem bitpos_past_byte {n : Nat}
    (bits : n = min (8 - s.bitpos.toNat % 8) (s.bitlen.toNat - s.bitpos.toNat)) :
    (s.bitpos + BitVec.ofNat 64 n).toNat = s.bitpos.toNat + n := by
  have := s.bitlen.isLt
  have := s.bitpos.isLt
  rw [BitVec.toNat_add, BitVec.toNat_ofNat]
  omega

/-- PAYLOAD_BYTE as the first item walks the bits of its byte that are payload from ROOT, none of them
past BITLEN (R296, R114 item 1). -/
theorem exec_first_payloadByte (b : Byte) (fine : s.fine = false) {n : Nat}
    (bits : n = min (8 - s.bitpos.toNat % 8) (s.bitlen.toNat - s.bitpos.toNat)) :
    exec (.payloadByte b) s =
      ((Flow.each walkBit (byteBits b s.bitpos.toNat n) { s with cur := s.root, fine := true }).bind fun u =>
        .go (if u.bitlen ≤ u.bitpos then { u with phase := .wend, fine := false } else u)).outcome := by
  have enter : walkEnter s = { s with cur := s.root, fine := true } := if_neg (by simp [fine])
  rw [← enter]
  by_cases inside : s.bitpos < s.bitlen
  · exact exec_payloadByte b inside bits
  · have none : n = 0 := by
      rw [BitVec.lt_def] at inside
      omega
    change execPayloadByte b s = _
    rw [execPayloadByte, ← bits, none]
    rfl

end

end Sys2Proof.Machine

open Sys2Proof Sys2Proof.Machine

/-- Settles O47: the loop of WALK is the abstract walk of the tree at ROOT over the payload bits. -/
theorem walkEmitsTheDecodedSymbols : Obligations.WalkEmitsTheDecodedSymbols := by
  unfold Obligations.WalkEmitsTheDecodedSymbols
  intro s t tree within
  have loop := walkLoop_from_root within
  have walks := walkBits_eq (payloadBitsFrom s (s.bitlen.toNat - s.bitpos.toNat))
    (stands_at_root tree s.fine)
  rw [exec_pWalk, loop]
  cases result : walkTree t (s.obufCap.toNat - s.opos.toNat) none
      (payloadBitsFrom s (s.bitlen.toNat - s.bitpos.toNat)) with
  | ok r =>
    obtain ⟨out, stand⟩ := r
    simp only [result, WalksAs, payloadBitsFrom_length] at walks
    obtain ⟨room, c, goes, stands⟩ := walks
    refine ⟨{ walked (s.bitlen.toNat - s.bitpos.toNat) out c s with phase := .wend, fine := false },
      by rw [goes]; rfl, wrote_written room, stands.cur_eq_root_iff, ?_⟩
    simp only [walked, bitpos_add_left within, written]
  | error e =>
    simp only [result, WalksAs] at walks
    obtain ⟨v, aborts⟩ := walks
    obtain ⟨⟨frame, _⟩, _⟩ := (walkLoop_frame _ _).2 e v (loop.trans aborts)
    exact ⟨v, by rw [aborts]; rfl, frame⟩

/-- Settles O48: a LEAF at ROOT stops the walk at the first bit, an INTERNAL root lets it fail only for
want of room. -/
theorem nullChildOnlyForARootLeaf : Obligations.NullChildOnlyForARootLeaf := by
  unfold Obligations.NullChildOnlyForARootLeaf
  intro s t tree start other
  have zero : s.bitpos.toNat = 0 := congrArg BitVec.toNat start
  have atLeaf : (∃ x, t = .leaf x) → 1 ≤ s.bitlen.toNat →
      exec .pWalk s = .next (raise .nullChild { s with cur := s.root, bitpos := 1#64 }) := by
    rintro ⟨x, rfl⟩ bit
    rw [exec_pWalk_leaf tree (by omega), start]
    rfl
  refine ⟨⟨?mp, fun ⟨leaf, bit⟩ => ⟨_, atLeaf leaf bit, rfl⟩⟩, atLeaf,
    fun _ none => exec_pWalk_no_bits (by omega)⟩
  rintro ⟨u, run, nullChild⟩
  cases t with
  | leaf x =>
    refine ⟨⟨x, rfl⟩, Nat.pos_of_ne_zero fun none => other ?_⟩
    cases (exec_pWalk_no_bits (s := s) (by omega)).symm.trans run
    exact nullChild
  | node l r =>
    have walk := walkEmitsTheDecodedSymbols s (.node l r) tree (by omega)
    split at walk
    next =>
      obtain ⟨v, run', _, _, frame⟩ := walk
      cases run'.symm.trans run
      rw [frame] at nullChild
      exact absurd nullChild other
    next e fails =>
      obtain ⟨v, run', _⟩ := walk
      cases run'.symm.trans run
      obtain ⟨outRange, _⟩ := walkTree_error_of_node rfl fails
      cases outRange.symm.trans nullChild

/-- Settles O49: at most eight bits are walked, so there is room for every symbol. -/
theorem payloadByteWalksItsBits : Obligations.PayloadByteWalksItsBits := by
  unfold Obligations.PayloadByteWalksItsBits
  intro s b l r tree fine room n bits
  have walks := walkBits_eq bits (stands_at_root tree true)
  have length : bits.length = n := by simp [bits]
  have drawn : byteBits b s.bitpos.toNat n = bits := rfl
  rw [exec_first_payloadByte b fine (n := n) rfl, drawn]
  cases result : walkTree (.node l r) (s.obufCap.toNat - s.opos.toNat) none bits with
  | error e =>
    obtain ⟨_, long⟩ := walkTree_error_of_node rfl result
    omega
  | ok r =>
    obtain ⟨out, stand⟩ := r
    simp only [result, WalksAs, length] at walks
    obtain ⟨fits, c, goes, stands⟩ := walks
    have moved := bitpos_past_byte (s := s) (n := n) rfl
    have last : (walked n out c { s with cur := s.root, fine := true }).bitlen ≤
        (walked n out c { s with cur := s.root, fine := true }).bitpos ↔
        s.bitlen.toNat ≤ s.bitpos.toNat + n := moved ▸ BitVec.le_def
    rw [goes, Flow.bind_go]
    refine ⟨_, out, stand, rfl, rfl, ?_⟩
    simp only [last]
    split <;> exact ⟨wrote_written fits, stands.cur_eq_root_iff, rfl⟩
end

section
/-! SUPPORT. The phases of DECOMPRESS besides TDES and WALK, case by case (R291, R293 to R295, R298), and the
value of a length field as a sum over its bytes (R294). -/

namespace Sys2Proof.Machine

/-- One more byte of a field that has room for it (R294). -/
theorem beValue_concat_toNat {bytes : List Byte} (b : Byte) (fits : (beValue bytes).toNat < 2 ^ 56) :
    (beValue (bytes ++ [b])).toNat = (beValue bytes).toNat * 2 ^ 8 + b.toNat := by
  have low : b.toNat < 2 ^ 8 := b.isLt
  rw [beValue_concat, BitVec.toNat_or, BitVec.toNat_shiftLeft, BitVec.toNat_setWidth,
    Nat.shiftLeft_eq, Nat.mod_eq_of_lt (by omega), Nat.mod_eq_of_lt (by omega), Nat.mul_comm,
    Nat.two_pow_add_eq_or_of_lt low]

/-- The value of the `n` bytes from `a` on, most significant byte first. -/
def byteSum (s : State) (a n : Nat) : Nat :=
  ((List.range n).map fun k => (readIn s (a + k)).toNat * 2 ^ (8 * (n - 1 - k))).sum

theorem byteSum_succ (s : State) (a n : Nat) :
    byteSum s a (n + 1) = byteSum s a n * 2 ^ 8 + (readIn s (a + n)).toNat := by
  have higher : ∀ k ∈ List.range n, (readIn s (a + k)).toNat * 2 ^ (8 * (n - k)) =
      (readIn s (a + k)).toNat * 2 ^ (8 * (n - 1 - k)) * 2 ^ 8 := fun k hk => by
    have := List.mem_range.mp hk
    rw [Nat.mul_assoc, ← Nat.pow_add]
    congr 2
    omega
  simp only [byteSum, List.range_succ, List.map_append, List.sum_append, Nat.add_sub_cancel,
    List.map_congr_left higher, List.sum_map_mul_right]
  simp

theorem byteSum_lt (s : State) (a n : Nat) : byteSum s a n < 2 ^ (8 * n) := by
  induction n with
  | zero => exact Nat.one_pos
  | succ n ih =>
    have := (readIn s (a + n)).isLt
    rw [byteSum_succ, Nat.mul_succ, Nat.pow_add]
    omega

/-- The bytes of a field, at most eight, are read most significant first (R294). -/
theorem beValue_readRange (s : State) (a : Nat) {n : Nat} (fits : n ≤ 8) :
    (beValue (readRange s a n)).toNat = byteSum s a n := by
  induction n with
  | zero => rfl
  | succ n ih =>
    have before := ih (Nat.le_of_succ_le fits)
    have below : byteSum s a n < 2 ^ 56 :=
      (byteSum_lt s a n).trans_le (Nat.pow_le_pow_right (by decide) (by omega))
    have last : readRange s a (n + 1) = readRange s a n ++ [readIn s (a + n)] := readRange_add s a n 1
    rw [last, beValue_concat_toNat _ (before ▸ below), before, byteSum_succ]

end Sys2Proof.Machine

open Sys2Proof Sys2Proof.Machine

/-- Settles O44: the field's value is the sum of its eight bytes. -/
theorem rdlenReadsTheLength : Obligations.RdlenReadsTheLength := by
  unfold Obligations.RdlenReadsTheLength
  exact fun s => ⟨fun short => if_pos short,
    fun enough => ⟨_, if_neg (Nat.not_lt.mpr enough), beValue_readRange s s.ipos.toNat (Nat.le_refl 8), rfl⟩,
    fun inside => BitVec.toNat_sub_of_le (BitVec.le_def.mpr inside)⟩

/-- Settles O40: the two tests of DHEAD, and the marker test of the decoder. -/
theorem dheadLooksAtTheHead : Obligations.DheadLooksAtTheHead := by
  unfold Obligations.DheadLooksAtTheHead
  refine fun s => ⟨fun empty => if_pos empty, fun nonempty first more => ?_, fun one first => ?_,
    fun nonempty other => (if_neg nonempty).trans (if_neg other),
    fun rest => decode_marker_error rest (by decide) (by decide)⟩
  · refine (if_neg nonempty).trans ((if_pos first).trans ?_)
    rw [headEmpty, if_pos more]
    rfl
  · have nonempty : s.inLen ≠ 0#32 := by rw [one]; decide
    refine (if_neg nonempty).trans ((if_pos first).trans ?_)
    rw [headEmpty, if_neg (not_not_intro one)]
    rfl

/-- Settles O43: the two tests of DELIM. -/
theorem delimPhaseChecksTheByte : Obligations.DelimPhaseChecksTheByte := by
  unfold Obligations.DelimPhaseChecksTheByte
  intro s
  have left (h : s.ipos.toNat < s.inLen.toNat) : ¬ s.inLen ≤ s.ipos := Nat.not_le.mpr h
  exact ⟨fun ended => if_pos ended, fun h other => (if_neg (left h)).trans (if_pos other),
    fun h delim => (if_neg (left h)).trans (if_neg (not_not_intro delim))⟩

/-- Settles O45: CHKLEN's test in the form of `ceil8_eq`; the bytes left are fewer than 2^32. -/
theorem chklenDemandsEquality : Obligations.ChklenDemandsEquality := by
  unfold Obligations.ChklenDemandsEquality
  intro s
  rw [← ceil8_eq]
  refine ⟨fun differ => if_pos differ, fun equal => ⟨if_neg (not_not_intro equal), ?_⟩⟩
  have within := (ceil8_bounds s.bitlen.toNat).1
  have := (s.inLen - s.ipos).isLt
  omega

/-- Settles O46: an item is its phase past the checks. -/
theorem itemsOfHeadDelimiterAndLength : Obligations.ItemsOfHeadDelimiterAndLength := by
  unfold Obligations.ItemsOfHeadDelimiterAndLength
  intro s n
  have item : exec .tokEmpty s = (headEmpty s).outcome := rfl
  rw [item, headEmpty]
  refine ⟨fun one => ?_, fun other => ?_, rfl, rfl⟩
  · rw [if_neg (not_not_intro one)]
    rfl
  · rw [if_pos other]
    rfl

/-- Settles O50: WEND's one test. -/
theorem wendDemandsAWholeCode : Obligations.WendDemandsAWholeCode := by
  unfold Obligations.WendDemandsAWholeCode
  exact fun s => ⟨fun inside => ⟨if_pos inside, raise_outLen _ s, raise_st _ s, raise_err _ s⟩,
    fun whole => if_neg (not_not_intro whole)⟩
end

section
/-! SUPPORT. Any move of the host as one step (R366): the step is the move, up to the model's own hostMatch. So
what a move does while BUSY (R367) and in ERROR (R327) is what `hostMove` does. -/

namespace Sys2Proof.Machine

/-- A register access inside the interface is 32 bits wide at a multiple of 4 (R69). -/
theorem regWrite_wellFormed_iff {width off : Nat} {v : Word} :
    (Move.regWrite width off v).wellFormed = true ↔ width = 4 ∧ off % 4 = 0 := by
  simp [Move.wellFormed]

theorem regRead_wellFormed_iff {width off : Nat} :
    (Move.regRead width off).wellFormed = true ↔ width = 4 ∧ off % 4 = 0 := by
  simp [Move.wellFormed]

section
variable {s : State}

/-- A step of the host is its move. -/
theorem step_host {m : Move} {rest : List Turn} (h : s.script = .host m :: rest) :
    ∃ code, step s = .next { hostMove m { s with script := rest } with hostMatch := code } := by
  cases m with
  | regRead width off =>
    by_cases inside : (Move.regRead width off).wellFormed = true
    · obtain ⟨rfl, aligned⟩ := regRead_wellFormed_iff.mp inside
      rw [hostMove_regRead aligned]
      exact step_regRead aligned h
    · refine ⟨s.hostMatch, (step_badRead (Bool.eq_false_of_not_eq_true inside) h).trans ?_⟩
      rw [hostMove, if_neg inside]
      rfl
  | regWrite width off v =>
    refine ⟨(hostMove (.regWrite width off v) { s with script := rest }).hostMatch, ?_⟩
    by_cases inside : (Move.regWrite width off v).wellFormed = true
    · obtain ⟨rfl, aligned⟩ := regWrite_wellFormed_iff.mp inside
      rw [hostMove_regWrite aligned]
      exact step_regWrite aligned h
    · rw [hostMove, if_neg inside]
      exact step_badWrite (Bool.eq_false_of_not_eq_true inside) h
  | bufRead sp off => exact ⟨_, step_bufRead h⟩
  | bufWrite sp off b => exact ⟨_, step_bufWrite h⟩
  | reset => exact ⟨_, step_reset h⟩

/-! ### While BUSY -/

/-- While BUSY no byte of a buffer can be reached (R367). -/
theorem reachable_busy (busy : s.st = .busy) (sp : Space) (off : Nat) :
    ¬ reachable s sp off = true := by
  simp [reachable, busy]

/-- While BUSY a register write changes nothing (R63, R367). -/
theorem writeReg_busy (busy : s.st = .busy) (off : Nat) (v : Word) : writeReg off v s = s := by
  unfold writeReg
  simp only [beginCommand_ignored s (.inl busy), acknowledge_ignored s (.inr busy),
    selectCommand_dropped _ s busy, if_pos busy, ite_self]

/-- While BUSY a move other than reset changes only what the model records of the reads (R367). -/
theorem hostMove_busy (busy : s.st = .busy) {m : Move} (noReset : m ≠ .reset) :
    hostMove m s = { s with hostLog := (hostMove m s).hostLog, draws := (hostMove m s).draws } := by
  cases m with
  | regRead width off =>
    simp only [hostMove]
    split <;> rfl
  | regWrite width off v => simp only [hostMove, writeReg_busy busy, ite_self]
  | bufRead sp off => simp only [hostMove, readBuf_drawn (reachable_busy busy sp off), give, draw]
  | bufWrite sp off b => simp only [hostMove, writeBuf_ignored (reachable_busy busy sp off)]
  | reset => exact absurd rfl noReset

/-! ### In ERROR -/

theorem readBuf_st (sp : Space) (off : Nat) : (readBuf sp off s).st = s.st := by
  unfold readBuf
  split <;> rfl

theorem writeBuf_st (sp : Space) (off : Nat) (b : Byte) : (writeBuf sp off b s).st = s.st := by
  rw [writeBuf_frame]

/-- A register write leaves ERROR only as CLEAR (R133, R327). -/
theorem writeReg_leaves_error (error : s.st = .error) {off : Nat} {v : Word}
    (leaves : (writeReg off v s).st ≠ .error) : off = offCtrl ∧ v.extractLsb' 0 2 = 2#2 := by
  by_cases ctrl : off = offCtrl
  · subst ctrl
    refine ⟨rfl, ?_⟩
    by_contra noClear
    rw [writeReg_ctrl, if_neg noClear, beginCommand_ignored s (.inr error), ite_self] at leaves
    exact leaves error
  · refine absurd ?_ leaves
    unfold writeReg
    rw [if_neg ctrl]
    split
    · rw [selectCommand_st, error]
    · split
      · split <;> exact error
      · exact error

/-- A move leaves ERROR only as CLEAR or as reset, and for IDLE with no error held (R327). -/
theorem hostMove_leaves_error (error : s.st = .error) {m : Move}
    (leaves : (hostMove m s).st ≠ .error) :
    ((hostMove m s).st = .idle ∧ (hostMove m s).err = .none ∧ (hostMove m s).errInfo = .none ∧
      (hostMove m s).outLen = 0#32) ∧
    (m = .reset ∨ ∃ v : Word, v.extractLsb' 0 2 = 2#2 ∧ m = .regWrite 4 offCtrl v) := by
  cases m with
  | regRead width off =>
    refine absurd ?_ leaves
    simp only [hostMove]
    split <;> exact error
  | regWrite width off v =>
    by_cases inside : (Move.regWrite width off v).wellFormed = true
    · obtain ⟨rfl, aligned⟩ := regWrite_wellFormed_iff.mp inside
      rw [hostMove_regWrite aligned] at leaves ⊢
      obtain ⟨rfl, clear⟩ := writeReg_leaves_error error leaves
      have ack : writeReg offCtrl v s = acknowledge s := by simp [writeReg_ctrl, clear]
      rw [ack, acknowledge_acts s (.inr error)]
      exact ⟨⟨rfl, rfl, rfl, rfl⟩, .inr ⟨v, clear, rfl⟩⟩
    · rw [hostMove, if_neg inside] at leaves
      exact absurd error leaves
  | bufRead sp off => exact absurd ((readBuf_st sp off).trans error) leaves
  | bufWrite sp off b => exact absurd ((writeBuf_st sp off b).trans error) leaves
  | reset => exact ⟨⟨rfl, rfl, rfl, rfl⟩, .inl rfl⟩

/-- A turn of the core or of the host's program changes nothing but the script in ERROR. -/
theorem step_error_or_host (error : s.st = .error) :
    (∃ script, step s = .next { s with script := script }) ∨ ∃ m rest, s.script = .host m :: rest := by
  cases script : s.script with
  | nil => exact .inl ⟨s.script, step_ended (by simp [error]) script⟩
  | cons turn rest =>
    have idle : ({ s with script := rest } : State).st ≠ .busy := by simp [error]
    cases turn with
    | host m => exact .inr ⟨m, rest, rfl⟩
    | core => exact .inl ⟨rest, step_run ((fetch_cons script).trans (fetchCore_idle idle))⟩
    | item => exact .inl ⟨rest, step_run ((fetch_cons script).trans (if_neg idle))⟩
    | line | poll | fetchOut | loadBack => exact .inl ⟨_, step_done (fetch_cons script)⟩

end

end Sys2Proof.Machine

open Sys2Proof Sys2Proof.Machine

/-- Settles O15: one step is the move, which only records its read; the registers by what the status fields
agree on. -/
theorem busyLocksTheHost : Obligations.BusyLocksTheHost := by
  unfold Obligations.BusyLocksTheHost
  intro s m rest busy ⟨_, clear, _, noOutput⟩ noReset script
  obtain ⟨err, errInfo⟩ := clear (by simp [busy])
  have outLen := noOutput (by simp [busy])
  obtain ⟨code, run⟩ := step_host script
  have kept := hostMove_busy (s := { s with script := rest }) busy noReset
  refine ⟨⟨_, run, congrArg (fun u : State => { u with hostMatch := code }) kept, ?bufRead, ?regRead⟩,
    ?_, ?_, ?_, ?_, rfl, rfl, rfl⟩
  case bufRead =>
    rintro sp off rfl
    simp only [hostMove, readBuf_drawn (reachable_busy (s := { s with script := rest }) busy sp off)]
    exact ⟨rfl, rfl⟩
  case regRead =>
    rintro off aligned rfl
    simp only [hostMove_regRead aligned]
    rfl
  · exact (regValue_status s).trans (by rw [busy]; rfl)
  · exact (regValue_err s).trans (by rw [err]; rfl)
  · exact (regValue_errInfo s).trans (by rw [errInfo]; rfl)
  · exact outLen

/-- Settles O19: among the turns only the host's can leave ERROR, and among its moves only CLEAR and reset. -/
theorem errorIsLeftOnlyByClearOrReset : Obligations.ErrorIsLeftOnlyByClearOrReset := by
  unfold Obligations.ErrorIsLeftOnlyByClearOrReset
  refine ⟨fun s t error run leaves => ?exit,
    fun s _ error => congrArg Host.Outcome.next (beginCommand_ignored s (.inr error)),
    fun s error script => step_ended (by simp [error]) script⟩
  rcases step_error_or_host error with ⟨script, stays⟩ | ⟨m, rest, script⟩
  · cases stays.symm.trans run
    exact absurd error leaves
  · obtain ⟨code, move⟩ := step_host script
    cases move.symm.trans run
    obtain ⟨⟨st, err, errInfo, outLen⟩, exit⟩ :=
      hostMove_leaves_error (s := { s with script := rest }) error leaves
    refine ⟨st, err, errInfo, outLen, rest, exit.imp ?_ ?_⟩
    · rintro rfl
      exact script
    · rintro ⟨v, clear, rfl⟩
      exact ⟨v, clear, script⟩

/-- Settles O16: the move is `resetBlock`, after which ST is IDLE. -/
theorem resetMoveRestoresTheRegisters : Obligations.ResetMoveRestoresTheRegisters := by
  unfold Obligations.ResetMoveRestoresTheRegisters
  exact fun s rest script => ⟨_, step_reset script, rfl, rfl, rfl, rfl, rfl, rfl, rfl,
    fun _ => ⟨rfl, rfl⟩, fun last => step_ended (by simp) last⟩

/-- Settles O18, field by field. -/
theorem raiseRecordsTheError : Obligations.RaiseRecordsTheError := by
  unfold Obligations.RaiseRecordsTheError
  exact fun e s => ⟨raise_err e s, raise_errInfo e s, raise_outLen e s, raise_st e s, raise_phase e s,
    raise_cmd e s, raise_inLen e s, raise_ibuf e s, raise_ibufEra e s, fun a => Table.find?_nil a,
    raise_obufEra e s ▸ Nat.succ_ne_self s.obufEra⟩
end

section
open Sys2Proof Sys2Proof.Machine

/-- Settles O3: fixed words, run through the decoder place by place. -/
theorem sampleEncodingsDecode : Obligations.SampleEncodingsDecode := by
  unfold Obligations.SampleEncodingsDecode
  refine ⟨?_, ?_, ?_, ?_, ?_, ?_, ?_, ?_, ?_, ?_, ?_, ?_, ?_⟩ <;> decide
end
